-- ==== Sys2Proof/Word.lean ====
section
/-! DEFINITION. The words of the Inharmonic CORE: a number of the format `Num` (spec/00_scope.md R10, binary64, held as its bit pattern), the 96-bit command word (spec/30_encoding.md R81) and a binary32 pattern (R82). -/

namespace Sys2Proof

/-- A value of the spec's number format `Num` (R10, default binary64), held as its 64-bit pattern: bit 63 the sign, bits 62:52 the exponent, bits 51:0 the fraction (R81). -/
abbrev Num64 := BitVec 64

/-- The binary32 pattern that `RN32` presents on the output port (R12, R82). -/
abbrev Num32 := BitVec 32

/-- A command word `cmd[95:0]` (R81). -/
abbrev CmdWord := BitVec 96

/-- The arithmetic operators of R10 whose result may be a NaN. -/
inductive FloatOp where
  | add | sub | mul | div | sqrt
  deriving DecidableEq, Repr

end Sys2Proof
end

