-- ==== Sys2Proof/Config.lean ====
section
/-! DEFINITION. What a configuration of the CORE fixes (spec/00_scope.md R7, R8): the integer parameters at the values the spec gives, and the free values, which have no body, so that nothing about them can be proved beyond what the definitions that use them force. -/

namespace Sys2Proof.Config

/-! ### Integer parameters (R7 fixed by the source, R8 the spec's defaults, log entry 5) -/

/-- NVOICE (R7). -/
abbrev nVoice : Nat := 16
/-- NPMAX (R7): size of each partial table and cap on the partial count. -/
abbrev npMax : Nat := 128
/-- COSN (R7): entries of the cosine table. -/
abbrev cosN : Nat := 8192
/-- NPEDAL (R8). -/
abbrev nPedal : Nat := 3
/-- CH_CAP (R8): physical words of each chorus RAM. -/
abbrev chCap : Nat := 192000

/-- RVLEN[1..4] (R7), index 0 standing for line 1. -/
def rvLen : Vector Nat 4 := #v[1637, 2693, 5813, 6871]
/-- APLEN[1..8] (R8), index 0 standing for all-pass 1. -/
def apLen : Vector Nat 8 := #v[113, 199, 151, 241, 173, 277, 127, 223]
/-- RV_NEAR[1..4] (R8): near-tap offsets in samples. -/
def rvNear : Vector Nat 4 := #v[409, 673, 1453, 1717]

/-! ### Free values -/

/-- SIN away from what R11 pins (U2, D2; log entry 2). -/
opaque sinFree : Num64 → Num64
/-- COS away from what R11 pins (U2, D2; log entry 2). -/
opaque cosFree : Num64 → Num64
/-- EXP2 away from what R11 pins (U2, D2; log entry 2). -/
opaque exp2Free : Num64 → Num64
/-- EXP10 away from what R11 pins (U2, D2; log entry 2). -/
opaque exp10Free : Num64 → Num64

/-- The sign and payload of the NaN an operator gives on these operands: the spec says only that a NaN propagates as IEEE arithmetic gives (U5; log entry 1). The second operand of a square root is the first again. -/
opaque nanFree : FloatOp → Num64 → Num64 → Num64
/-- The binary32 NaN that `RN32` gives for a NaN (R12, R82; log entry 15). -/
opaque nan32Free : Num64 → Num32

/-- `floor` of an infinity or a NaN: no rule takes it in a state that a run reaches (U5; log entry 8). -/
opaque floorFree : Num64 → Int
/-- A read of COSROM outside 0..8191: R62 and R67 say it cannot occur (log entry 8). -/
opaque cosOutsideFree : Int → Num64

end Sys2Proof.Config
end

