-- ==== Sys2Proof/Machine/Arith.lean ====
section
/-! DEFINITION. The arithmetic of `Num` = IEEE 754 binary64 (spec/00_scope.md R10): classification, comparison, `+ - * / sqrt` rounded to nearest, ties to even, integers, `floor`, and rounding to binary32. Every operation computes the exact result as an integer times a power of two (with a sticky bit where it is not exact) and rounds it once. The operations are irreducible, so that no proof unfolds one by accident: the kernel and an explicit unfolding still see through them. -/

namespace Sys2Proof.Machine

/-! ### Fields of a bit pattern (R81) -/

/-- Bit 63: the sign. -/
def isNeg (x : Num64) : Bool := decide (2 ^ 63 ≤ x.toNat)

/-- Bits 62:0 as one integer: the magnitude, which orders the non-NaN values of one sign. -/
def magBits (x : Num64) : Nat := x.toNat % 2 ^ 63

/-- The magnitude pattern of an infinity: exponent 2047, fraction 0. -/
def infMag : Nat := 2047 * 2 ^ 52

def isNaN (x : Num64) : Bool := decide (infMag < magBits x)
def isInf (x : Num64) : Bool := decide (magBits x = infMag)

/-- `finite(x)` of R12: neither an infinity nor a NaN. -/
def isFinite (x : Num64) : Bool := decide (magBits x < infMag)

/-- `x = 0` of either sign. -/
def isZero (x : Num64) : Bool := decide (magBits x = 0)

/-- The integer significand of a finite value: with the hidden bit when the exponent field is not 0. -/
def signif (x : Num64) : Nat :=
  if magBits x < 2 ^ 52 then magBits x else magBits x % 2 ^ 52 + 2 ^ 52

/-- The power of two that scales the significand of a finite value. -/
def expo (x : Num64) : Int :=
  if magBits x < 2 ^ 52 then -1074 else (magBits x / 2 ^ 52 : Nat) - 1075

/-- The signed significand of a finite value: its value is `signedSignif x * 2 ^ expo x`. -/
def signedSignif (x : Num64) : Int := if isNeg x then -(signif x : Int) else signif x

/-- The real number that a finite pattern stands for (the values that R10 rounds to). -/
def valueOf (x : Num64) : ℚ := (signedSignif x : ℚ) * (2 : ℚ) ^ expo x

/-- The pattern with this sign and magnitude. -/
def mkNum (neg : Bool) (mag : Nat) : Num64 := BitVec.ofNat 64 (mag + if neg then 2 ^ 63 else 0)

/-- +0. -/
def pzero : Num64 := 0#64
/-- +infinity. -/
def pinf : Num64 := 0x7FF0000000000000#64

/-- The value with the other sign. -/
def negate (x : Num64) : Num64 := mkNum (!isNeg x) (magBits x)

/-! ### Comparison (R10: IEEE comparisons, false with a NaN) -/

/-- An integer that orders the non-NaN values; both zeros give 0. -/
def orderKey (x : Num64) : Int := if isNeg x then -(magBits x : Int) else magBits x

def fle (a b : Num64) : Bool := !isNaN a && !isNaN b && decide (orderKey a ≤ orderKey b)
def flt (a b : Num64) : Bool := !isNaN a && !isNaN b && decide (orderKey a < orderKey b)
def feq (a b : Num64) : Bool := !isNaN a && !isNaN b && decide (orderKey a = orderKey b)

/-! ### Rounding -/

/-- `m / 2^t` rounded to the nearest integer, ties to even. -/
def shiftRoundEven (m t : Nat) : Nat :=
  let q := m / 2 ^ t
  let r := m % 2 ^ t
  if 2 ^ t < 2 * r ∨ (2 * r = 2 ^ t ∧ q % 2 = 1) then q + 1 else q

/-- The magnitude pattern, in a binary format with `fb` fraction bits, least exponent `qmin` and infinity `top`, nearest to `m * 2^e` for `m > 0` (ties to even; overflow gives `top`). The last place is `2^q`. -/
def roundMag (fb : Nat) (qmin : Int) (top : Nat) (m : Nat) (e : Int) : Nat :=
  if m = 0 then 0 else
  let q : Int := max ((Nat.log2 m : Int) + e - (fb : Int)) qmin
  let sig : Nat := if q ≤ e then m * 2 ^ (e - q).toNat else shiftRoundEven m (q - e).toNat
  min top ((q - qmin).toNat * 2 ^ fb + sig)

/-- The binary64 value nearest to `(-1)^neg * m * 2^e` (R10), a zero of that sign for `m = 0`. -/
@[irreducible] def roundNum (neg : Bool) (m : Nat) (e : Int) : Num64 := mkNum neg (roundMag 52 (-1074) infMag m e)

/-- The binary64 value nearest to `n * 2^e`, +0 for `n = 0`. -/
def roundInt (n : Int) (e : Int) : Num64 := roundNum (decide (n < 0)) n.natAbs e

/-! ### NaN results -/

/-- The NaN that an operator gives: sign and payload are the configuration's (log entry 1). -/
def nanOf (op : FloatOp) (a b : Num64) : Num64 :=
  if isNaN (Config.nanFree op a b) then Config.nanFree op a b else 0x7FF8000000000000#64

/-! ### Addition and subtraction -/

/-- The sum of two non-NaN operands; `nan` is the result of infinity minus infinity. An exact zero sum is +0 unless both operands are -0 (round to nearest). -/
def addNonNaN (nan a b : Num64) : Num64 :=
  if isInf a then (if isInf b && (isNeg a != isNeg b) then nan else a)
  else if isInf b then b
  else
    let e := min (expo a) (expo b)
    let t := signedSignif a * 2 ^ (expo a - e).toNat + signedSignif b * 2 ^ (expo b - e).toNat
    if t = 0 then mkNum (isNeg a && isNeg b) 0 else roundInt t e

/-- `a + b`. -/
@[irreducible] def fadd (a b : Num64) : Num64 :=
  if isNaN a || isNaN b then nanOf .add a b else addNonNaN (nanOf .add a b) a b

/-- `a - b`. -/
@[irreducible] def fsub (a b : Num64) : Num64 :=
  if isNaN a || isNaN b then nanOf .sub a b else addNonNaN (nanOf .sub a b) a (negate b)

/-! ### Multiplication, division, square root -/

/-- `a * b`. -/
@[irreducible] def fmul (a b : Num64) : Num64 :=
  if isNaN a || isNaN b then nanOf .mul a b
  else if isInf a || isInf b then
    if isZero a || isZero b then nanOf .mul a b else mkNum (isNeg a != isNeg b) infMag
  else roundNum (isNeg a != isNeg b) (signif a * signif b) (expo a + expo b)

/-- `2 * (m / d)` truncated, with its lowest bit set when the division is not exact (the sticky bit). -/
def stickyDiv (m d : Nat) : Nat := 2 * (m / d) + if m % d = 0 then 0 else 1

/-- `a / b`. The quotient carries at least 57 significant bits and a sticky bit into the rounding. -/
@[irreducible] def fdiv (a b : Num64) : Num64 :=
  if isNaN a || isNaN b then nanOf .div a b
  else if isInf a then (if isInf b then nanOf .div a b else mkNum (isNeg a != isNeg b) infMag)
  else if isInf b then mkNum (isNeg a != isNeg b) 0
  else if isZero b then (if isZero a then nanOf .div a b else mkNum (isNeg a != isNeg b) infMag)
  else roundNum (isNeg a != isNeg b) (stickyDiv (signif a * 2 ^ 110) (signif b)) (expo a - expo b - 111)

/-- The integer square root (largest `r` with `r * r ≤ n`), two bits of `n` per unit of fuel. -/
def isqrt : Nat → Nat → Nat
  | 0, _ => 0
  | k + 1, n =>
    let r := 2 * isqrt k (n / 4)
    if (r + 1) * (r + 1) ≤ n then r + 1 else r

/-- `sqrt(x)`: a NaN for a negative operand, ±0 for ±0. The root carries at least 56 significant bits and a sticky bit. -/
@[irreducible] def fsqrt (x : Num64) : Num64 :=
  if isNaN x then nanOf .sqrt x x
  else if isZero x then x
  else if isNeg x then nanOf .sqrt x x
  else if isInf x then x
  else
    let sh : Nat := if expo x % 2 = 0 then 110 else 111
    let n := signif x * 2 ^ sh
    let r := isqrt 84 n
    roundNum false (2 * r + if r * r = n then 0 else 1) ((expo x - sh) / 2 - 1)

/-! ### Integers, floor, binary32 (R10, R12) -/

/-- `ToNum(n)`. -/
def ofInt (n : Int) : Num64 := roundInt n 0

/-- `floor(x)` of R12, a free value for an infinity or a NaN (log entry 8). -/
@[irreducible] def floorInt (x : Num64) : Int :=
  if isFinite x then
    if 0 ≤ expo x then signedSignif x * 2 ^ (expo x).toNat else signedSignif x / 2 ^ (-(expo x)).toNat
  else Config.floorFree x

/-- `frac(x) = x - ToNum(floor(x))` (R12). -/
def frac (x : Num64) : Num64 := fsub x (ofInt (floorInt x))

/-- `flush(x)` of R12: a nonzero value below 2^-1022 in magnitude becomes +0. -/
def flush (x : Num64) : Num64 := if 0 < magBits x ∧ magBits x < 2 ^ 52 then pzero else x

/-- The magnitude pattern of a binary32 infinity. -/
def infMag32 : Nat := 255 * 2 ^ 23

/-- `RN32(x)` of R12: `x` rounded to binary32, nearest, ties to even, overflow to infinity. The sign and payload of a NaN are the configuration's (log entry 15). -/
def rn32 (x : Num64) : Num32 :=
  if isNaN x then
    if infMag32 < (Config.nan32Free x).toNat % 2 ^ 31 then Config.nan32Free x else 0x7FC00000#32
  else
    let mag := if isInf x then infMag32 else roundMag 23 (-149) infMag32 (signif x) (expo x)
    BitVec.ofNat 32 (mag + if isNeg x then 2 ^ 31 else 0)

end Sys2Proof.Machine
end

