-- ==== Sys2Proof/Machine/Operands.lean ====
section
/-! DEFINITION. Operands: the literals and real parameters of the rules (spec/00_scope.md R7, R8, R10), the helper functions of R12, and the readings of a command's `imm` field (spec/30_encoding.md R84). -/

namespace Sys2Proof.Machine

/-! ### Literals (R10: the binary64 value nearest to the decimal) -/

/-- 0. -/
def n0 : Num64 := 0x0000000000000000#64
/-- 1. -/
def n1 : Num64 := 0x3FF0000000000000#64
/-- 2. -/
def n2 : Num64 := 0x4000000000000000#64
/-- 5. -/
def n5 : Num64 := 0x4014000000000000#64
/-- 11. -/
def n11 : Num64 := 0x4026000000000000#64
/-- 12. -/
def n12 : Num64 := 0x4028000000000000#64
/-- 20. -/
def n20 : Num64 := 0x4034000000000000#64
/-- 40. -/
def n40 : Num64 := 0x4044000000000000#64
/-- 48. -/
def n48 : Num64 := 0x4048000000000000#64
/-- 64. -/
def n64 : Num64 := 0x4050000000000000#64
/-- 120. -/
def n120 : Num64 := 0x405E000000000000#64
/-- 440. -/
def n440 : Num64 := 0x407B800000000000#64
/-- 1000. -/
def n1000 : Num64 := 0x408F400000000000#64
/-- 1200. -/
def n1200 : Num64 := 0x4092C00000000000#64
/-- 8192. -/
def n8192 : Num64 := 0x40C0000000000000#64
/-- 0.5. -/
def nHalf : Num64 := 0x3FE0000000000000#64
/-- 0.25. -/
def nQuarter : Num64 := 0x3FD0000000000000#64
/-- -0.5. -/
def nNegHalf : Num64 := 0xBFE0000000000000#64
/-- -0.25. -/
def nNegQuarter : Num64 := 0xBFD0000000000000#64
/-- -1. -/
def nNeg1 : Num64 := 0xBFF0000000000000#64
/-- -2. -/
def nNeg2 : Num64 := 0xC000000000000000#64
/-- -3. -/
def nNeg3 : Num64 := 0xC008000000000000#64
/-- -64. -/
def nNeg64 : Num64 := 0xC050000000000000#64
/-- -120. -/
def nNeg120 : Num64 := 0xC05E000000000000#64
/-- 0.3, the binary64 value nearest to it. -/
def n0p3 : Num64 := 0x3FD3333333333333#64
/-- 0.9, the binary64 value nearest to it. -/
def n0p9 : Num64 := 0x3FECCCCCCCCCCCCD#64
/-- 1e-3, the binary64 value nearest to it. -/
def n1em3 : Num64 := 0x3F50624DD2F1A9FC#64
/-- PI of R10. -/
def nPi : Num64 := 0x400921FB54442D18#64
/-- 2^32. -/
def nTwo32 : Num64 := 0x41F0000000000000#64

/-! ### Real parameters (R7, R8) -/

/-- FS_MIN (R8). -/
def fsMin : Num64 := 0x40BF400000000000#64
/-- FS_MAX (R8). -/
def fsMax : Num64 := 0x4107700000000000#64
/-- FS_RESET (R8). -/
def fsReset : Num64 := 0x40E5888000000000#64
/-- QNYQ (R8): the "Nyquist/2" cut-off in cycles per sample. -/
def qNyq : Num64 := 0x3FD0000000000000#64
/-- SVF_QMIN (R8). -/
def svfQMin : Num64 := 0x3F50624DD2F1A9FC#64
/-- EQ_QMIN (R7). -/
def eqQMin : Num64 := 0x3F50624DD2F1A9FC#64
/-- T60_MIN (R8). -/
def t60Min : Num64 := 0x3F50624DD2F1A9FC#64
/-- AP_G (R8). -/
def apG : Num64 := 0x3FE0000000000000#64
/-- RV_PATH (R8), samples. -/
def rvPath : Num64 := 0x40B2158000000000#64
/-- FC_MIN (R7), Hz. -/
def fcMin : Num64 := 0x4034000000000000#64
/-- FC_MAXR (R7): upper cutoff clamp as a fraction of Nyquist. -/
def fcMaxR : Num64 := 0x3FECCCCCCCCCCCCD#64
/-- LFO_PH0 (R7). -/
def lfoPh0 : Num64 := 0x3FD0000000000000#64

/-! ### Helpers (R12) -/

/-- `max(a, b)`. -/
def fmax (a b : Num64) : Num64 := if fle b a then a else b

/-- `min(a, b)`. -/
def fmin (a b : Num64) : Num64 := if fle a b then a else b

/-- `clamp(x, lo, hi)`: a NaN clamps to `lo`. -/
def clamp (x lo hi : Num64) : Num64 := if !fle lo x then lo else if flt hi x then hi else x

/-- `iclamp(n, lo, hi)`. -/
def iclamp (n lo hi : Int) : Int := if n < lo then lo else if hi < n then hi else n

/-! ### The `imm` operand (R84) -/

/-- `sext_16(imm)`. -/
def immVal (imm : BitVec 16) : Int := imm.toInt

/-- The pitch of a note command: `iclamp(imm, 0, 127)` (R173, R198). -/
def pitchOf (imm : BitVec 16) : Fin 128 := Fin.ofNat 128 (iclamp (immVal imm) 0 127).toNat

/-- The filter type of SET_FTYPE: `iclamp(imm, 0, 2)` (R127). -/
def ftypeOf (imm : BitVec 16) : Fin 3 := Fin.ofNat 3 (iclamp (immVal imm) 0 2).toNat

/-- The flag of SET_RANDPHASE and SET_FITER: 1 if `imm != 0` (R111, R128). -/
def flagOf (imm : BitVec 16) : Bool := decide (immVal imm ≠ 0)

end Sys2Proof.Machine
end

