-- ==== Sys2Proof/Machine/Flags.lean ====
section
/-! DEFINITION. Conditions. The CORE has no flag, condition-code or status register (spec/10_state.md R33); this file holds the conditions on operands under which a command is ignored (spec/30_encoding.md R86, R87, spec/60_exceptions.md R273). -/

namespace Sys2Proof.Machine

/-- R87: `imm` names one of the NPEDAL pedal registers. -/
def pedalIndexOk (imm : BitVec 16) : Bool := decide (0 ≤ immVal imm ∧ immVal imm < Config.nPedal)

/-- The pedal register that `imm` names (used under `pedalIndexOk` only). -/
def pedalIndex (imm : BitVec 16) : Fin Config.nPedal := Fin.ofNat Config.nPedal (immVal imm).toNat

end Sys2Proof.Machine
end

