-- ==== Sys2Proof/Syntax.lean ====
section
/-! DEFINITION. The command set ICMD version 1 (spec/30_encoding.md R83, R85): one constructor per row of spec/opcode_table.json, carrying the fields its format reads. -/

namespace Sys2Proof

/-- The five formats of R83. -/
inductive Format where
  | z | n | p | i | x
  deriving DecidableEq, Repr

/-- A command with its operands: `ch` is cmd[87:80], `imm` is cmd[79:64], `val` is cmd[63:0] (R81). -/
inductive Instr where
  /-- NOP, format Z, op 0x00 (45_synth.md R192). -/
  | nop
  /-- RESET, format Z, op 0x01 (45_synth.md R193). -/
  | reset
  /-- TICK64, format Z, op 0x02 (45_synth.md R195). -/
  | tick64
  /-- TICK32, format Z, op 0x03 (45_synth.md R196). -/
  | tick32
  /-- NOTE_ON, format N, op 0x08 (45_synth.md R197). -/
  | noteOn (ch : BitVec 8) (imm : BitVec 16) (val : Num64)
  /-- NOTE_OFF, format N, op 0x09 (45_synth.md R198). -/
  | noteOff (ch : BitVec 8) (imm : BitVec 16) (val : Num64)
  /-- SET_FS, format P, op 0x10 (45_synth.md R194). -/
  | setFs (val : Num64)
  /-- SET_VOLUME, format P, op 0x11 (45_synth.md R199). -/
  | setVolume (val : Num64)
  /-- SET_EXPRESSION, format P, op 0x12 (45_synth.md R200). -/
  | setExpression (val : Num64)
  /-- SET_BEND_RANGE, format P, op 0x13 (45_synth.md R201). -/
  | setBendRange (val : Num64)
  /-- SET_BEND, format P, op 0x14 (45_synth.md R202). -/
  | setBend (val : Num64)
  /-- SET_MODWHEEL, format P, op 0x15 (45_synth.md R203). -/
  | setModwheel (val : Num64)
  /-- SET_PEDAL, format X, op 0x16 (45_synth.md R204). -/
  | setPedal (imm : BitVec 16) (val : Num64)
  /-- SET_VELSENS, format P, op 0x17 (44_voice.md R183). -/
  | setVelsens (val : Num64)
  /-- SET_INHARM, format P, op 0x20 (40_oscillator.md R110). -/
  | setInharm (val : Num64)
  /-- SET_OSCMIX, format P, op 0x21 (44_voice.md R180). -/
  | setOscmix (val : Num64)
  /-- SET_RANDPHASE, format I, op 0x22 (40_oscillator.md R111). -/
  | setRandphase (imm : BitVec 16)
  /-- SET_VIB_DEPTH, format P, op 0x23 (43_lfo.md R165). -/
  | setVibDepth (val : Num64)
  /-- SET_VIB_RATE, format P, op 0x24 (43_lfo.md R166). -/
  | setVibRate (val : Num64)
  /-- SET_VIB_DELAY, format P, op 0x25 (43_lfo.md R167). -/
  | setVibDelay (val : Num64)
  /-- SET_CUTOFF, format P, op 0x28 (41_filter.md R125). -/
  | setCutoff (val : Num64)
  /-- SET_RESO, format P, op 0x29 (41_filter.md R126). -/
  | setReso (val : Num64)
  /-- SET_FTYPE, format I, op 0x2A (41_filter.md R127). -/
  | setFtype (imm : BitVec 16)
  /-- SET_FITER, format I, op 0x2B (41_filter.md R128). -/
  | setFiter (imm : BitVec 16)
  /-- SET_FENV_AMT, format P, op 0x2C (44_voice.md R181). -/
  | setFenvAmt (val : Num64)
  /-- SET_KEYFOLLOW, format P, op 0x2D (44_voice.md R182). -/
  | setKeyfollow (val : Num64)
  /-- SET_AMP_ATTACK, format P, op 0x30 (42_envelope.md R147). -/
  | setAmpAttack (val : Num64)
  /-- SET_AMP_DECAY, format P, op 0x31 (42_envelope.md R148). -/
  | setAmpDecay (val : Num64)
  /-- SET_AMP_SUSTAIN, format P, op 0x32 (42_envelope.md R149). -/
  | setAmpSustain (val : Num64)
  /-- SET_AMP_RELEASE, format P, op 0x33 (42_envelope.md R150). -/
  | setAmpRelease (val : Num64)
  /-- SET_FLT_ATTACK, format P, op 0x34 (42_envelope.md R151). -/
  | setFltAttack (val : Num64)
  /-- SET_FLT_DECAY, format P, op 0x35 (42_envelope.md R152). -/
  | setFltDecay (val : Num64)
  /-- SET_FLT_SUSTAIN, format P, op 0x36 (42_envelope.md R153). -/
  | setFltSustain (val : Num64)
  /-- SET_FLT_RELEASE, format P, op 0x37 (42_envelope.md R154). -/
  | setFltRelease (val : Num64)
  /-- SET_DIV_N, format I, op 0x40 (46_effects.md R221). -/
  | setDivN (imm : BitVec 16)
  /-- SET_EQ_FREQ, format P, op 0x41 (46_effects.md R226). -/
  | setEqFreq (val : Num64)
  /-- SET_EQ_GAIN, format P, op 0x42 (46_effects.md R227). -/
  | setEqGain (val : Num64)
  /-- SET_EQ_Q, format P, op 0x43 (46_effects.md R228). -/
  | setEqQ (val : Num64)
  /-- SET_CH_RATE, format P, op 0x48 (46_effects.md R234). -/
  | setChRate (val : Num64)
  /-- SET_CH_DEPTH, format P, op 0x49 (46_effects.md R235). -/
  | setChDepth (val : Num64)
  /-- SET_CH_DELAY, format P, op 0x4A (46_effects.md R236). -/
  | setChDelay (val : Num64)
  /-- SET_CH_MIX, format P, op 0x4B (46_effects.md R237). -/
  | setChMix (val : Num64)
  /-- SET_RV_T60, format P, op 0x50 (47_reverb.md R258). -/
  | setRvT60 (val : Num64)
  /-- SET_RV_MIX, format P, op 0x51 (47_reverb.md R259). -/
  | setRvMix (val : Num64)
  deriving DecidableEq, Repr

end Sys2Proof
end

