-- ==== Sys2Proof/WellFormed.lean ====
section
/-! DEFINITION. The commands that Decode can give (spec/30_encoding.md R86, R87, R89): the real operand of a format P or X command and of NOTE_ON is finite, and a pedal index names a pedal register. -/

namespace Sys2Proof

/-- What R89's checks let through. Every other operand value of every format is accepted (R83, R84). -/
def Instr.wf : Instr → Bool
  | .nop => true
  | .reset => true
  | .tick64 => true
  | .tick32 => true
  | .noteOn _ _ val => Machine.isFinite val
  | .noteOff _ _ _ => true
  | .setFs val => Machine.isFinite val
  | .setVolume val => Machine.isFinite val
  | .setExpression val => Machine.isFinite val
  | .setBendRange val => Machine.isFinite val
  | .setBend val => Machine.isFinite val
  | .setModwheel val => Machine.isFinite val
  | .setPedal imm val => Machine.isFinite val && Machine.pedalIndexOk imm
  | .setVelsens val => Machine.isFinite val
  | .setInharm val => Machine.isFinite val
  | .setOscmix val => Machine.isFinite val
  | .setRandphase _ => true
  | .setVibDepth val => Machine.isFinite val
  | .setVibRate val => Machine.isFinite val
  | .setVibDelay val => Machine.isFinite val
  | .setCutoff val => Machine.isFinite val
  | .setReso val => Machine.isFinite val
  | .setFtype _ => true
  | .setFiter _ => true
  | .setFenvAmt val => Machine.isFinite val
  | .setKeyfollow val => Machine.isFinite val
  | .setAmpAttack val => Machine.isFinite val
  | .setAmpDecay val => Machine.isFinite val
  | .setAmpSustain val => Machine.isFinite val
  | .setAmpRelease val => Machine.isFinite val
  | .setFltAttack val => Machine.isFinite val
  | .setFltDecay val => Machine.isFinite val
  | .setFltSustain val => Machine.isFinite val
  | .setFltRelease val => Machine.isFinite val
  | .setDivN _ => true
  | .setEqFreq val => Machine.isFinite val
  | .setEqGain val => Machine.isFinite val
  | .setEqQ val => Machine.isFinite val
  | .setChRate val => Machine.isFinite val
  | .setChDepth val => Machine.isFinite val
  | .setChDelay val => Machine.isFinite val
  | .setChMix val => Machine.isFinite val
  | .setRvT60 val => Machine.isFinite val
  | .setRvMix val => Machine.isFinite val

end Sys2Proof
end

