-- ==== Sys2Proof/Decode.lean ====
section
/-! DEFINITION. Decoding and encoding of the 96-bit command word (spec/30_encoding.md R81, R85, R89). Decoding is total: a reserved opcode and a refused operand give NOP (R87), so no word is rejected. -/

namespace Sys2Proof

/-! ### Fields (R81) -/

/-- `cmd[95:88]`. -/
def opField (w : CmdWord) : BitVec 8 := w.extractLsb' 88 8
/-- `cmd[87:80]`. -/
def chField (w : CmdWord) : BitVec 8 := w.extractLsb' 80 8
/-- `cmd[79:64]`. -/
def immField (w : CmdWord) : BitVec 16 := w.extractLsb' 64 16
/-- `cmd[63:0]`. -/
def valField (w : CmdWord) : Num64 := w.extractLsb' 0 64

/-! ### The opcode map (R85) -/

/-- One row of R85: opcode, format, and the command its operands make. -/
structure OpRow where
  op    : BitVec 8
  fmt   : Format
  build : BitVec 8 → BitVec 16 → Num64 → Instr

/-- The table of R85, in its order. -/
def opcodeTable : List OpRow :=
  [
   ⟨0x00#8, .z, fun _ _ _ => .nop⟩,
   ⟨0x01#8, .z, fun _ _ _ => .reset⟩,
   ⟨0x02#8, .z, fun _ _ _ => .tick64⟩,
   ⟨0x03#8, .z, fun _ _ _ => .tick32⟩,
   ⟨0x08#8, .n, fun ch imm val => .noteOn ch imm val⟩,
   ⟨0x09#8, .n, fun ch imm val => .noteOff ch imm val⟩,
   ⟨0x10#8, .p, fun _ _ val => .setFs val⟩,
   ⟨0x11#8, .p, fun _ _ val => .setVolume val⟩,
   ⟨0x12#8, .p, fun _ _ val => .setExpression val⟩,
   ⟨0x13#8, .p, fun _ _ val => .setBendRange val⟩,
   ⟨0x14#8, .p, fun _ _ val => .setBend val⟩,
   ⟨0x15#8, .p, fun _ _ val => .setModwheel val⟩,
   ⟨0x16#8, .x, fun _ imm val => .setPedal imm val⟩,
   ⟨0x17#8, .p, fun _ _ val => .setVelsens val⟩,
   ⟨0x20#8, .p, fun _ _ val => .setInharm val⟩,
   ⟨0x21#8, .p, fun _ _ val => .setOscmix val⟩,
   ⟨0x22#8, .i, fun _ imm _ => .setRandphase imm⟩,
   ⟨0x23#8, .p, fun _ _ val => .setVibDepth val⟩,
   ⟨0x24#8, .p, fun _ _ val => .setVibRate val⟩,
   ⟨0x25#8, .p, fun _ _ val => .setVibDelay val⟩,
   ⟨0x28#8, .p, fun _ _ val => .setCutoff val⟩,
   ⟨0x29#8, .p, fun _ _ val => .setReso val⟩,
   ⟨0x2A#8, .i, fun _ imm _ => .setFtype imm⟩,
   ⟨0x2B#8, .i, fun _ imm _ => .setFiter imm⟩,
   ⟨0x2C#8, .p, fun _ _ val => .setFenvAmt val⟩,
   ⟨0x2D#8, .p, fun _ _ val => .setKeyfollow val⟩,
   ⟨0x30#8, .p, fun _ _ val => .setAmpAttack val⟩,
   ⟨0x31#8, .p, fun _ _ val => .setAmpDecay val⟩,
   ⟨0x32#8, .p, fun _ _ val => .setAmpSustain val⟩,
   ⟨0x33#8, .p, fun _ _ val => .setAmpRelease val⟩,
   ⟨0x34#8, .p, fun _ _ val => .setFltAttack val⟩,
   ⟨0x35#8, .p, fun _ _ val => .setFltDecay val⟩,
   ⟨0x36#8, .p, fun _ _ val => .setFltSustain val⟩,
   ⟨0x37#8, .p, fun _ _ val => .setFltRelease val⟩,
   ⟨0x40#8, .i, fun _ imm _ => .setDivN imm⟩,
   ⟨0x41#8, .p, fun _ _ val => .setEqFreq val⟩,
   ⟨0x42#8, .p, fun _ _ val => .setEqGain val⟩,
   ⟨0x43#8, .p, fun _ _ val => .setEqQ val⟩,
   ⟨0x48#8, .p, fun _ _ val => .setChRate val⟩,
   ⟨0x49#8, .p, fun _ _ val => .setChDepth val⟩,
   ⟨0x4A#8, .p, fun _ _ val => .setChDelay val⟩,
   ⟨0x4B#8, .p, fun _ _ val => .setChMix val⟩,
   ⟨0x50#8, .p, fun _ _ val => .setRvT60 val⟩,
   ⟨0x51#8, .p, fun _ _ val => .setRvMix val⟩
  ]

/-! ### Decode (R89) -/

/-- Whether R86 checks that the real operand is finite: formats P and X, and NOTE_ON. -/
def checksVal (row : OpRow) : Bool :=
  decide (row.fmt = .p ∨ row.fmt = .x ∨ row.op = 0x08#8)

/-- Whether the operands pass the checks of R89 for this row. -/
def operandsOk (row : OpRow) (imm : BitVec 16) (val : Num64) : Bool :=
  (!checksVal row || Machine.isFinite val) &&
    (!decide (row.op = 0x16#8) || Machine.pedalIndexOk imm)

/-- `Decode(cmd)` (R89), total on all 2^96 words. -/
def decode (w : CmdWord) : Instr :=
  match opcodeTable.find? (fun row => decide (row.op = opField w)) with
  | none => .nop
  | some row =>
    if operandsOk row (immField w) (valField w) then
      row.build (chField w) (immField w) (valField w)
    else .nop

/-- The instruction that the decoder reads from a word whose bits are `w`, bit 0 the least significant, the bits from `nbits` up taken as 0. The command word is presented whole on a parallel port (R80), so no byte order enters (R61). A word longer than 96 bits is no command word. -/
def decodeTableWord (nbits w : Nat) : Option Instr :=
  if nbits ≤ 96 then some (decode (BitVec.ofNat 96 (w % 2 ^ nbits))) else none

/-! ### Encode (R81, R85, R90: fields a format does not read are zero) -/

/-- The word with these fields (R81). -/
def packWord (op : BitVec 8) (ch : BitVec 8) (imm : BitVec 16) (val : Num64) : CmdWord :=
  op ++ (ch ++ (imm ++ val))

/-- The command word of an instruction. -/
def encode : Instr → CmdWord
  | .nop => packWord 0x00#8 0 0 0
  | .reset => packWord 0x01#8 0 0 0
  | .tick64 => packWord 0x02#8 0 0 0
  | .tick32 => packWord 0x03#8 0 0 0
  | .noteOn ch imm val => packWord 0x08#8 ch imm val
  | .noteOff ch imm val => packWord 0x09#8 ch imm val
  | .setFs val => packWord 0x10#8 0 0 val
  | .setVolume val => packWord 0x11#8 0 0 val
  | .setExpression val => packWord 0x12#8 0 0 val
  | .setBendRange val => packWord 0x13#8 0 0 val
  | .setBend val => packWord 0x14#8 0 0 val
  | .setModwheel val => packWord 0x15#8 0 0 val
  | .setPedal imm val => packWord 0x16#8 0 imm val
  | .setVelsens val => packWord 0x17#8 0 0 val
  | .setInharm val => packWord 0x20#8 0 0 val
  | .setOscmix val => packWord 0x21#8 0 0 val
  | .setRandphase imm => packWord 0x22#8 0 imm 0
  | .setVibDepth val => packWord 0x23#8 0 0 val
  | .setVibRate val => packWord 0x24#8 0 0 val
  | .setVibDelay val => packWord 0x25#8 0 0 val
  | .setCutoff val => packWord 0x28#8 0 0 val
  | .setReso val => packWord 0x29#8 0 0 val
  | .setFtype imm => packWord 0x2A#8 0 imm 0
  | .setFiter imm => packWord 0x2B#8 0 imm 0
  | .setFenvAmt val => packWord 0x2C#8 0 0 val
  | .setKeyfollow val => packWord 0x2D#8 0 0 val
  | .setAmpAttack val => packWord 0x30#8 0 0 val
  | .setAmpDecay val => packWord 0x31#8 0 0 val
  | .setAmpSustain val => packWord 0x32#8 0 0 val
  | .setAmpRelease val => packWord 0x33#8 0 0 val
  | .setFltAttack val => packWord 0x34#8 0 0 val
  | .setFltDecay val => packWord 0x35#8 0 0 val
  | .setFltSustain val => packWord 0x36#8 0 0 val
  | .setFltRelease val => packWord 0x37#8 0 0 val
  | .setDivN imm => packWord 0x40#8 0 imm 0
  | .setEqFreq val => packWord 0x41#8 0 0 val
  | .setEqGain val => packWord 0x42#8 0 0 val
  | .setEqQ val => packWord 0x43#8 0 0 val
  | .setChRate val => packWord 0x48#8 0 0 val
  | .setChDepth val => packWord 0x49#8 0 0 val
  | .setChDelay val => packWord 0x4A#8 0 0 val
  | .setChMix val => packWord 0x4B#8 0 0 val
  | .setRvT60 val => packWord 0x50#8 0 0 val
  | .setRvMix val => packWord 0x51#8 0 0 val

end Sys2Proof
end

