-- ==== Sys2Proof/Machine/Transcend.lean ====
section
/-! DEFINITION. The configuration functions SIN, COS, EXP2, EXP10 of spec/00_scope.md R11: total functions of their operand, exact at the pinned points, inside the stated range elsewhere, and otherwise free (spec/93_implementation_defined.md U2; log entry 2). On an infinity or a NaN, where R11 pins nothing, they are wholly free. -/

namespace Sys2Proof.Machine

/-- A free value kept inside the range the spec states for it. -/
def within (ok : Num64 → Bool) (fallback free : Num64) : Num64 := if ok free then free else fallback

/-- In [-1, 1]. -/
def inUnit (y : Num64) : Bool := fle nNeg1 y && fle y n1

/-- Finite and at least 0. -/
def inFiniteNonneg (y : Num64) : Bool := isFinite y && fle n0 y

/-- 2^-1022, the smallest normal value. -/
def minNormal : Num64 := 0x0010000000000000#64

/-- In [0, 2^-1022]: what R11 allows where the mathematical result is below 2^-1022. -/
def inUnderflow (y : Num64) : Bool := fle n0 y && fle y minNormal

/-- `SIN(x)` (R11). -/
def sinN (x : Num64) : Num64 :=
  if isFinite x then
    if isZero x then n0 else within inUnit n0 (Config.sinFree x)
  else Config.sinFree x

/-- `COS(x)` (R11). -/
def cosN (x : Num64) : Num64 :=
  if isFinite x then
    if isZero x then n1 else within inUnit n0 (Config.cosFree x)
  else Config.cosFree x

/-- `x` is an integer from -64 to 64. -/
def isPinnedExp2 (x : Num64) : Bool :=
  feq (ofInt (floorInt x)) x && decide (-64 ≤ floorInt x ∧ floorInt x ≤ 64)

/-- 1024, the least operand for which 2^x is not below the largest finite value. -/
def exp2Top : Num64 := 0x4090000000000000#64
/-- -1022: below it 2^x is below 2^-1022. -/
def exp2Bottom : Num64 := 0xC08FF00000000000#64

/-- `EXP2(x)` (R11). -/
def exp2N (x : Num64) : Num64 :=
  if isFinite x then
    if isPinnedExp2 x then roundNum false 1 (floorInt x)
    else if fle exp2Top x then pinf
    else if flt x exp2Bottom then within inUnderflow n0 (Config.exp2Free x)
    else within inFiniteNonneg n0 (Config.exp2Free x)
  else Config.exp2Free x

/-- The least binary64 operand for which 10^x exceeds the largest finite value: log10 of that value is 308.2547155599167438..., which lies between this and the binary64 value before it. -/
def exp10Top : Num64 := 0x40734413509F79FF#64
/-- The greatest binary64 operand for which 10^x is below 2^-1022: log10(2^-1022) is -307.6526555685887815..., which lies between this and the binary64 value after it. -/
def exp10Bottom : Num64 := 0xC0733A7146F72A42#64

/-- `EXP10(x)` (R11). -/
def exp10N (x : Num64) : Num64 :=
  if isFinite x then
    if isZero x then n1
    else if fle exp10Top x then pinf
    else if fle x exp10Bottom then within inUnderflow n0 (Config.exp10Free x)
    else within inFiniteNonneg n0 (Config.exp10Free x)
  else Config.exp10Free x

end Sys2Proof.Machine
end

