-- ==== Sys2Proof/Machine/Types.lean ====
section
/-! DEFINITION. The records that State is made of (spec/10_state.md R20 to R31), as plain data: the parameter register file, the control registers, a voice and its parts, the effect chain, an internal memory, and the host's input pins. -/

namespace Sys2Proof.Machine

/-- An internal memory (spec/20_memory.md R60): (word index, word) pairs in one canonical form, indices strictly rising and no entry equal to +0, which is what an unlisted word reads as (the reset contents of R30; log entry 7). -/
abbrev Memory := List (Nat × Num64)

/-- A ring of R64: a memory and the index that the next push writes. -/
structure Ring where
  mem  : Memory
  head : Nat
  deriving DecidableEq, Repr

/-- One value per channel: 0 = left, 1 = right (R30). -/
structure Stereo where
  left  : Num64
  right : Num64
  deriving DecidableEq, Repr

/-- The four parameters of one envelope kind: P.ENV_A[k], P.ENV_D[k], P.ENV_S[k], P.ENV_R[k] (R22). -/
structure EnvParams where
  attack  : Num64
  decay   : Num64
  sustain : Num64
  release : Num64
  deriving DecidableEq, Repr

/-- The parameter register file `P.*` (R22). -/
structure Params where
  volume     : Num64
  expression : Num64
  bendRange  : Num64
  bend       : Num64
  modWheel   : Num64
  pedal      : Vector Num64 Config.nPedal
  velSens    : Num64
  inharm     : Num64
  oscMix     : Num64
  randPhase  : Bool
  vibDepth   : Num64
  vibRate    : Num64
  vibDelay   : Num64
  cutoff     : Num64
  reso       : Num64
  /-- 0 low-pass, 1 high-pass, 2 band-pass (R120). -/
  ftype      : Fin 3
  fiter      : Bool
  fenvAmt    : Num64
  keyFollow  : Num64
  /-- P.AMP_ATTACK, P.AMP_DECAY, P.AMP_SUSTAIN, P.AMP_RELEASE. -/
  amp        : EnvParams
  /-- P.FLT_ATTACK, P.FLT_DECAY, P.FLT_SUSTAIN, P.FLT_RELEASE. -/
  flt        : EnvParams
  divN       : Int
  eqFreq     : Num64
  eqGain     : Num64
  eqQ        : Num64
  chRate     : Num64
  chDepth    : Num64
  chDelay    : Num64
  chMix      : Num64
  rvT60      : Num64
  rvMix      : Num64
  deriving DecidableEq, Repr

/-- The stage rates of one envelope kind: C.ENV_RA[k], C.ENV_RD[k], C.ENV_RR[k] (R24). -/
structure EnvRates where
  ra : Num64
  rd : Num64
  rr : Num64
  deriving DecidableEq, Repr

/-- The sample-rate register and the derived control registers `C.*` (R24). -/
structure Ctrl where
  fs       : Num64
  gain     : Num64
  bendMul  : Num64
  amp      : EnvRates
  flt      : EnvRates
  lfoDStep : Num64
  lfoFStep : Num64
  eqB0     : Num64
  eqB1     : Num64
  eqB2     : Num64
  eqA1     : Num64
  eqA2     : Num64
  chR1     : Num64
  chR2     : Num64
  chBase   : Num64
  chDepthS : Num64
  chLen    : Nat
  rvG      : Num64
  deriving DecidableEq, Repr

/-- One oscillator `V[v].osc[o]` (R26): the partial count (an exclusive bound on the index) and the three tables. -/
structure Osc where
  np   : Nat
  amp  : Memory
  step : Memory
  ph   : Memory
  deriving DecidableEq, Repr

/-- The stages of an envelope, in order (R28, R140). -/
inductive Stage where
  | attack | decay | sustain | release | stop
  deriving DecidableEq, Repr

/-- One envelope `V[v].env[k]` (R28). -/
structure Env where
  stage : Stage
  rem   : Num64
  lvl   : Num64
  start : Num64
  deriving DecidableEq, Repr

/-- The vibrato LFO of a voice (R29). -/
structure Lfo where
  dly : Num64
  ph  : Num64
  deriving DecidableEq, Repr

/-- One voice `V[v]` (R25 to R29). -/
structure Voice where
  pitch  : Fin 128
  vel    : Num64
  bend   : Num64
  f0     : Num64
  velamp : Num64
  keyf   : Num64
  /-- The harmonic oscillator, V[v].osc[0]. -/
  osc0   : Osc
  /-- The inharmonic oscillator, V[v].osc[1]. -/
  osc1   : Osc
  k      : Num64
  oqk    : Num64
  /-- V[v].S[0], stage 1 low-pass. -/
  s0     : Num64
  /-- V[v].S[1], stage 1 band-pass. -/
  s1     : Num64
  /-- V[v].S[2], stage 2 low-pass. -/
  s2     : Num64
  /-- V[v].S[3], stage 2 band-pass. -/
  s3     : Num64
  /-- V[v].env[A], the amplitude envelope. -/
  amp    : Env
  /-- V[v].env[F], the filter-modulation envelope. -/
  flt    : Env
  lfo    : Lfo
  deriving DecidableEq, Repr

/-- The effect-chain state `FX.*` with its delay memories (R30). -/
structure Fx where
  divCnt : Nat
  divH   : Stereo
  eqZ1   : Stereo
  eqZ2   : Stereo
  /-- CHBUF[0]. -/
  chBuf0 : Memory
  /-- CHBUF[1]. -/
  chBuf1 : Memory
  chHead : Nat
  chP1   : Num64
  chP2   : Num64
  /-- RVBUF[1..4] with FX.RV_HEAD[1..4]. -/
  rv     : Vector Ring 4
  /-- APBUF[1..8] with FX.AP_HEAD[1..8]. -/
  ap     : Vector Ring 8
  deriving DecidableEq, Repr

/-- The levels of the CORE's input pins during one step (spec/30_encoding.md R80, R82, spec/70_reset_and_hazards.md R291): the model's own data, the host's behaviour (log entry 6). -/
structure HostCycle where
  /-- `rst`. -/
  rst      : Bool
  /-- `cmd` with `cmd_valid` = 1, or none for `cmd_valid` = 0. -/
  cmd      : Option CmdWord
  /-- `out_ready`. -/
  outReady : Bool
  deriving DecidableEq, Repr

end Sys2Proof.Machine
end

