-- ==== Sys2Proof/Machine/Filter.lean ====
section
/-! DEFINITION. The state-variable filter's internal operations (spec/41_filter.md): SvfSetFreq, SvfStage, SvfProcess, SvfReset. -/

namespace Sys2Proof.Machine

/-- The clamp of a frequency to [20 Hz, 0.9 * (C.FS / 2)], at every use (R121, R224). -/
def clampFreq (fs f : Num64) : Num64 := clamp f fcMin (fmul fcMaxR (fdiv fs n2))

/-- The coefficient K of R121: `2 * SIN((PI * fc) / C.FS)`. -/
def svfK (fs f : Num64) : Num64 := fmul n2 (sinN (fdiv (fmul nPi (clampFreq fs f)) fs))

/-- The coefficient OQK of R121 and R126: `1 / P.RESO + K`. -/
def svfOqk (reso k : Num64) : Num64 := fadd (fdiv n1 reso) k

/-- `SvfSetFreq(v, f)` (R121). -/
def svfSetFreq (p : Params) (c : Ctrl) (f : Num64) (v : Voice) : Voice :=
  { v with k := svfK c.fs f, oqk := svfOqk p.reso (svfK c.fs f) }

/-- The result of one stage (R122): the new low-pass and band-pass accumulators and the selected output. -/
structure SvfOut where
  lp  : Num64
  bp  : Num64
  out : Num64
  deriving DecidableEq, Repr

/-- `SvfStage` (R122) on accumulators `lp`, `bp`: the three equations, all from the old accumulators. -/
def svfStage (ftype : Fin 3) (k oqk lp bp x : Num64) : SvfOut :=
  let hp := fsub (fsub x lp) (fmul oqk bp)
  let lp2 := fadd lp (fmul k bp)
  let bp2 := fadd bp (fmul k hp)
  { lp := lp2, bp := bp2,
    out := if ftype = 0 then lp2 else if ftype = 1 then hp else bp2 }

/-- `SvfProcess(v, x)` (R123): the second stage runs only when P.FITER is set. -/
def svfProcess (p : Params) (v : Voice) (x : Num64) : Voice × Num64 :=
  let a := svfStage p.ftype v.k v.oqk v.s0 v.s1 x
  if p.fiter then
    let b := svfStage p.ftype v.k v.oqk v.s2 v.s3 a.out
    ({ v with s0 := a.lp, s1 := a.bp, s2 := b.lp, s3 := b.bp }, b.out)
  else ({ v with s0 := a.lp, s1 := a.bp }, a.out)

/-- `SvfReset(v)` (R124). -/
def svfReset (v : Voice) : Voice := { v with s0 := n0, s1 := n0, s2 := n0, s3 := n0 }

end Sys2Proof.Machine
end

