-- ==== Sys2Proof/Machine/Rom.lean ====
section
/-! DEFINITION. The two ROMs (spec/10_state.md R32) with their default contents: COSROM (spec/40_oscillator.md R100), each entry the binary64 value nearest to cos(2*pi*k/8192), and RNDPH (R101). Log entries 3 and 4. -/

namespace Sys2Proof.Machine

/-- floor(pi * 2^128). -/
def piFixed : Nat := 0x3243F6A8885A308D313198A2E03707344

/-- `1 - x2/(1*2) * (1 - x2/(3*4) * (...))` in units of 2^-128, from the `n`-th bracket outwards. -/
def cosSeries (x2 : Nat) : Nat → Nat → Nat
  | 0, acc => acc
  | n + 1, acc => cosSeries x2 n (2 ^ 128 - (x2 * acc / 2 ^ 128) / ((2 * n + 1) * (2 * n + 2)))

/-- `1 - x2/(2*3) * (1 - x2/(4*5) * (...))` in units of 2^-128. -/
def sinSeries (x2 : Nat) : Nat → Nat → Nat
  | 0, acc => acc
  | n + 1, acc => sinSeries x2 n (2 ^ 128 - (x2 * acc / 2 ^ 128) / ((2 * n + 2) * (2 * n + 3)))

/-- cos(pi*j/4096) in units of 2^-128, 0 < j <= 1024 (below pi/4). -/
def cosFixed (j : Nat) : Nat :=
  let x := piFixed * j / 4096
  cosSeries (x * x / 2 ^ 128) 20 (2 ^ 128)

/-- sin(pi*j/4096) in units of 2^-128, 0 < j <= 1024. -/
def sinFixed (j : Nat) : Nat :=
  let x := piFixed * j / 4096
  x * sinSeries (x * x / 2 ^ 128) 20 (2 ^ 128) / 2 ^ 128

/-- The magnitude of cos(pi*j/4096) as a binary64 value with this sign, 0 <= j <= 2048 (first quadrant); the ends are exact, and 0 is +0 whatever the sign. Elsewhere the series lies far closer to the true value than any rounding boundary (log entry 3), and the sticky bit keeps the value off a tie. -/
def cosQuadrant (neg : Bool) (j : Nat) : Num64 :=
  if j = 0 then (if neg then nNeg1 else n1)
  else if j = 2048 then n0
  else roundNum neg (2 * (if j ≤ 1024 then cosFixed j else sinFixed (2048 - j)) + 1) (-129)

/-- `COSROM[k]` for k in 0..8191 (R100). -/
def cosRom (k : Nat) : Num64 :=
  if k ≤ 2048 then cosQuadrant false k
  else if k ≤ 4096 then cosQuadrant true (4096 - k)
  else if k ≤ 6144 then cosQuadrant true (k - 4096)
  else cosQuadrant false (8192 - k)

/-- The generator of R101 after `i` steps from seed `x`. -/
def lcg : Nat → Nat → Nat
  | 0, x => x
  | i + 1, x => (1664525 * lcg i x + 1013904223) % 4294967296

/-- `RNDPH[v][o][i]` (R101): 0 at i = 0, the generator's value divided by 2^32 above. -/
def rndPh (v o i : Nat) : Num64 :=
  if i = 0 then n0 else fdiv (ofInt (lcg i (2 * v + o + 1))) nTwo32

end Sys2Proof.Machine
end

