-- ==== Sys2Proof/Machine/Ops.lean ====
section
/-! DEFINITION. The named operations over the internal memories (spec/20_memory.md R63 to R67). There is no exception to take and none to return from on this hardware (spec/60_exceptions.md R270, R274, R275), so this file holds no such operation. -/

namespace Sys2Proof.Machine

/-! ### One word (R13, R63) -/

/-- `MemRead(M, i)`. -/
def memRead : Memory → Nat → Num64
  | [], _ => pzero
  | (j, x) :: rest, i => if j = i then x else memRead rest i

/-- `MemWrite(M, i, x)`, keeping the canonical form: writing +0 removes the entry. -/
def memWrite : Memory → Nat → Num64 → Memory
  | [], i, x => if x = pzero then [] else [(i, x)]
  | (j, y) :: rest, i, x =>
    if i < j then (if x = pzero then (j, y) :: rest else (i, x) :: (j, y) :: rest)
    else if i = j then (if x = pzero then rest else (i, x) :: rest)
    else (j, y) :: memWrite rest i x

/-- The canonical form: indices strictly rising, no entry +0. -/
abbrev Memory.wf (m : Memory) : Prop :=
  List.Pairwise (fun a b => a.1 < b.1) m ∧ ∀ c ∈ m, c.2 ≠ pzero

/-- Every listed word has an index below `n`: no word beyond the memory's size holds anything. -/
abbrev memBelow (n : Nat) (m : Memory) : Prop := ∀ c ∈ m, c.1 < n

/-! ### Rings (R64 to R66) -/

/-- `Push(M, h, LEN, x)` (R64). -/
def ringPush (len : Nat) (r : Ring) (x : Num64) : Ring :=
  { mem := memWrite r.mem r.head x, head := (r.head + 1) % len }

/-- The word that `ReadInt(M, h, LEN, d)` reads: `(h - 1 - d) mod LEN` (R65). -/
def ringIndex (h len : Nat) (d : Int) : Nat := (((h : Int) - 1 - d) % (len : Int)).toNat

/-- `ReadInt(M, h, LEN, d)` (R65). -/
def readInt (m : Memory) (h len : Nat) (d : Int) : Num64 := memRead m (ringIndex h len d)

/-- `ReadFrac(M, h, LEN, o)` (R66). -/
def readFrac (m : Memory) (h len : Nat) (o : Num64) : Num64 :=
  let oc := clamp o n0 (ofInt ((len : Int) - 2))
  let i := floorInt oc
  let f := fsub oc (ofInt i)
  let a := readInt m h len i
  let b := readInt m h len (i + 1)
  fadd (fmul (fsub n1 f) a) (fmul f b)

/-! ### The cosine table (R67) -/

/-- `CosLookup(p) = MemRead(COSROM, floor(p * 8192))`. For a phase in [0,1) the index is in 0..8191; outside, where no run goes, the word read is free (log entry 8). -/
def cosLookup (p : Num64) : Num64 :=
  let k := floorInt (fmul p n8192)
  if 0 ≤ k ∧ k < Config.cosN then cosRom k.toNat else Config.cosOutsideFree k

end Sys2Proof.Machine
end

