-- ==== Sys2Proof/Machine/Effects.lean ====
section
/-! DEFINITION. The effect chain up to the chorus (spec/46_effects.md): DivProcess, EqSetCoef, EqProcess, ChSetCoef, ChProcess. -/

namespace Sys2Proof.Machine

/-- `DivProcess(l, r)` (R220). -/
def divProcess (n : Int) (x : Stereo) (fx : Fx) : Fx × Stereo :=
  if n ≤ 1 then ({ fx with divCnt := 0 }, x)
  else
    let h := if fx.divCnt = 0 then x else fx.divH
    let cnt := fx.divCnt + 1
    ({ fx with divH := h, divCnt := if n ≤ (cnt : Int) then 0 else cnt }, h)

/-- `alpha` of R224: `SIN(w) / (2 * max(P.EQ_Q, 1e-3))`. -/
def eqAlpha (w q : Num64) : Num64 := fdiv (sinN w) (fmul n2 (fmax q eqQMin))

/-- `EqSetCoef()` (R224). -/
def eqSetCoef (p : Params) (c : Ctrl) : Ctrl :=
  let f := clampFreq c.fs p.eqFreq
  let a := exp10N (fdiv p.eqGain n40)
  let w := fdiv (fmul (fmul n2 nPi) f) c.fs
  let alpha := eqAlpha w p.eqQ
  let cw := cosN w
  let a0 := fadd n1 (fdiv alpha a)
  { c with
    eqB0 := fdiv (fadd n1 (fmul alpha a)) a0
    eqB1 := fdiv (fmul nNeg2 cw) a0
    eqB2 := fdiv (fsub n1 (fmul alpha a)) a0
    eqA1 := fdiv (fmul nNeg2 cw) a0
    eqA2 := fdiv (fsub n1 (fdiv alpha a)) a0 }

/-- The result of one channel of the EQ: its two state words and the output. -/
structure EqOut where
  z1  : Num64
  z2  : Num64
  out : Num64
  deriving DecidableEq, Repr

/-- One channel of `EqProcess(c, x)` (R225). -/
def eqChannel (c : Ctrl) (z1 z2 x : Num64) : EqOut :=
  let y := fadd (fmul c.eqB0 x) z1
  { z1 := fadd (fsub (fmul c.eqB1 x) (fmul c.eqA1 y)) z2
    z2 := fsub (fmul c.eqB2 x) (fmul c.eqA2 y)
    out := y }

/-- `EqProcess` on both channels (R195, R225). -/
def eqProcess (c : Ctrl) (x : Stereo) (fx : Fx) : Fx × Stereo :=
  let l := eqChannel c fx.eqZ1.left fx.eqZ2.left x.left
  let r := eqChannel c fx.eqZ1.right fx.eqZ2.right x.right
  ({ fx with eqZ1 := ⟨l.z1, r.z1⟩, eqZ2 := ⟨l.z2, r.z2⟩ }, ⟨l.out, r.out⟩)

/-- `ChSetCoef()` (R231). -/
def chSetCoef (p : Params) (c : Ctrl) : Ctrl :=
  { c with
    chLen := (floorInt c.fs).toNat
    chR1 := fdiv p.chRate c.fs
    chR2 := fdiv (fmul (fdiv p.chRate c.fs) n11) n12
    chBase := fmul (fmul p.chDelay n1em3) c.fs
    chDepthS := fmul (fmul p.chDepth n1em3) c.fs }

/-- The blend of two taps (R232): `t1 + 0.3 * (t2 - t1)`. -/
def chBlend (t1 t2 : Num64) : Num64 := fadd t1 (fmul n0p3 (fsub t2 t1))

/-- The wet/dry form `dry * (1 - w) + wet * w` (R232, R254). -/
def wetDry (dry wet w : Num64) : Num64 := fadd (fmul dry (fsub n1 w)) (fmul wet w)

/-- `ChProcess(l, r)` (R232): push, look up both LFOs, advance them, read four taps, blend, mix. -/
def chProcess (p : Params) (c : Ctrl) (x : Stereo) (fx : Fx) : Fx × Stereo :=
  let buf0 := memWrite fx.chBuf0 fx.chHead x.left
  let buf1 := memWrite fx.chBuf1 fx.chHead x.right
  let head := (fx.chHead + 1) % c.chLen
  let m1 := fmul c.chDepthS (cosLookup fx.chP1)
  let m2 := fmul c.chDepthS (cosLookup fx.chP2)
  let tL1 := readFrac buf0 head c.chLen (fadd c.chBase m1)
  let tL2 := readFrac buf0 head c.chLen (fadd c.chBase m2)
  let tR1 := readFrac buf1 head c.chLen (fsub c.chBase m1)
  let tR2 := readFrac buf1 head c.chLen (fsub c.chBase m2)
  ({ fx with
      chBuf0 := buf0, chBuf1 := buf1, chHead := head
      chP1 := frac (fadd fx.chP1 c.chR1), chP2 := frac (fadd fx.chP2 c.chR2) },
   ⟨wetDry x.left (chBlend tL1 tL2) p.chMix, wetDry x.right (chBlend tR1 tR2) p.chMix⟩)

end Sys2Proof.Machine
end

