-- ==== Sys2Proof/Machine/Reverb.lean ====
section
/-! DEFINITION. The reverb (spec/47_reverb.md): RvSetCoef, ApProcess, RvProcess. Index 0 of a vector stands for line 1 or all-pass 1. -/

namespace Sys2Proof.Machine

/-- `RvSetCoef()` (R251). -/
def rvSetCoef (p : Params) (c : Ctrl) : Ctrl :=
  { c with rvG := exp10N (fdiv (fmul nNeg3 rvPath) (fmul p.rvT60 c.fs)) }

/-- `ApProcess(j, x)` (R252) on the ring of an all-pass of length `len`. -/
def apProcess (len : Nat) (r : Ring) (x : Num64) : Ring × Num64 :=
  let d := memRead r.mem r.head
  let w := fadd x (fmul apG d)
  (ringPush len r w, fsub d (fmul apG w))

/-- The rows of RV_X (R253): one half of a 4 by 4 Hadamard matrix. -/
def rvX : Vector (Vector Num64 4) 4 :=
  #v[#v[nHalf, nHalf, nHalf, nHalf],
     #v[nHalf, nNegHalf, nHalf, nNegHalf],
     #v[nHalf, nHalf, nNegHalf, nNegHalf],
     #v[nHalf, nNegHalf, nNegHalf, nHalf]]

/-- RV_WF[0..1] (R256): the proportions of the far taps, left and right. -/
def rvWF : Vector (Vector Num64 4) 2 :=
  #v[#v[nQuarter, n0, nQuarter, n0], #v[n0, nNegQuarter, n0, nNegQuarter]]

/-- RV_WN[0..1] (R256): the proportions of the near taps, left and right. -/
def rvWN : Vector (Vector Num64 4) 2 :=
  #v[#v[n0, nNegQuarter, n0, nNegQuarter], #v[nQuarter, n0, nQuarter, n0]]

/-- The mono input of line 1 (R254): `0.5 * (l + r)`. -/
def rvInput (x : Stereo) : Num64 := fmul nHalf (fadd x.left x.right)

/-- The tail of line `i` (R254): the word the next push overwrites. -/
def rvTail (fx : Fx) (i : Fin 4) : Num64 := memRead fx.rv[i].mem fx.rv[i].head

/-- The near tap of line `i` (R254). -/
def rvNearTap (fx : Fx) (i : Fin 4) : Num64 :=
  readInt fx.rv[i].mem fx.rv[i].head Config.rvLen[i] ((Config.rvNear[i] : Int) - 1)

/-- `v[i]` of R254: the attenuated tail, plus the input for line 1. -/
def rvFeed (c : Ctrl) (fx : Fx) (x : Num64) (i : Fin 4) : Num64 :=
  if i = 0 then fadd (fmul c.rvG (rvTail fx i)) x else fmul c.rvG (rvTail fx i)

/-- `m[i]` of R254: one row of the cross-feed matrix, summed from the left. -/
def rvMixRow (row : Vector Num64 4) (v0 v1 v2 v3 : Num64) : Num64 :=
  fadd (fadd (fadd (fmul row[0] v0) (fmul row[1] v1)) (fmul row[2] v2)) (fmul row[3] v3)

/-- What one line's turn in RvProcess gives: its two all-pass rings and its own ring. -/
structure RvLine where
  apA  : Ring
  apB  : Ring
  line : Ring
  deriving DecidableEq, Repr

/-- Line `i` of R254: `m[i]` through its pair of all-passes, flushed, pushed. -/
def rvLineStep (lenA lenB len : Nat) (apA apB line : Ring) (m : Num64) : RvLine :=
  let a := apProcess lenA apA m
  let b := apProcess lenB apB a.2
  { apA := a.1, apB := b.1, line := ringPush len line (flush b.2) }

/-- `wet[c]` of R254: the four far and near taps in order, from 0. -/
def rvWet (fx : Fx) (wf wn : Vector Num64 4) : Num64 :=
  (List.finRange 4).foldl
    (fun acc i => fadd (fadd acc (fmul wf[i] (rvTail fx i))) (fmul wn[i] (rvNearTap fx i))) n0

/-- The network's next state in RvProcess (R254); every tap is read before any push. -/
def rvNetwork (c : Ctrl) (x : Stereo) (fx : Fx) : Fx :=
  let inp := rvInput x
  let m := fun i : Fin 4 =>
    rvMixRow rvX[i] (rvFeed c fx inp 0) (rvFeed c fx inp 1) (rvFeed c fx inp 2) (rvFeed c fx inp 3)
  let ln := fun (i : Fin 4) (a b : Fin 8) =>
    rvLineStep Config.apLen[a] Config.apLen[b] Config.rvLen[i] fx.ap[a] fx.ap[b] fx.rv[i] (m i)
  let l0 := ln 0 0 1
  let l1 := ln 1 2 3
  let l2 := ln 2 4 5
  let l3 := ln 3 6 7
  { fx with
    rv := #v[l0.line, l1.line, l2.line, l3.line]
    ap := #v[l0.apA, l0.apB, l1.apA, l1.apB, l2.apA, l2.apB, l3.apA, l3.apB] }

/-- `RvProcess(l, r)` (R254). -/
def rvProcess (p : Params) (c : Ctrl) (x : Stereo) (fx : Fx) : Fx × Stereo :=
  (rvNetwork c x fx,
   ⟨wetDry x.left (rvWet fx rvWF[0] rvWN[0]) p.rvMix,
    wetDry x.right (rvWet fx rvWF[1] rvWN[1]) p.rvMix⟩)

end Sys2Proof.Machine
end

