-- ==== Sys2Proof/Machine/Envelope.lean ====
section
/-! DEFINITION. The envelope's internal operations (spec/42_envelope.md): EnvRate, EnvNoteOn, EnvNoteOff, EnvProcess. -/

namespace Sys2Proof.Machine

/-- `EnvRate(t) = 1 / max(1, (t * 1e-3) * C.FS)` (R141). -/
def envRate (fs t : Num64) : Num64 := fdiv n1 (fmax n1 (fmul (fmul t n1em3) fs))

/-- The three rates of one envelope kind (R141). -/
def envRates (fs : Num64) (e : EnvParams) : EnvRates :=
  { ra := envRate fs e.attack, rd := envRate fs e.decay, rr := envRate fs e.release }

/-- `EnvNoteOn(v, k)` (R142). -/
def envNoteOn (e : Env) : Env := { e with start := e.lvl, stage := .attack, rem := n1 }

/-- `EnvNoteOff(v, k)` (R143): nothing in Release and Stop. -/
def envNoteOff (e : Env) : Env :=
  match e.stage with
  | .attack | .decay | .sustain => { e with start := e.lvl, stage := .release, rem := n1 }
  | .release | .stop => e

/-- The level inside a stage (R144): `start + (target - start) * (1 - rem)`. -/
def envRamp (start target rem : Num64) : Num64 := fadd start (fmul (fsub target start) (fsub n1 rem))

/-- The result of EnvProcess: the envelope, `out` and `fin`. -/
structure EnvOut where
  env : Env
  out : Num64
  fin : Bool
  deriving DecidableEq, Repr

/-- `EnvProcess(v, k)` (R144) with the kind's rates and sustain level. -/
def envProcess (r : EnvRates) (sus : Num64) (e : Env) : EnvOut :=
  match e.stage with
  | .attack =>
    let rem := fsub e.rem r.ra
    if fle rem n0 then ⟨{ stage := .decay, rem := n1, lvl := n1, start := n1 }, n1, false⟩
    else
      let lvl := envRamp e.start n1 rem
      ⟨{ e with rem := rem, lvl := lvl }, lvl, false⟩
  | .decay =>
    let rem := fsub e.rem r.rd
    if fle rem n0 then ⟨{ e with stage := .sustain, rem := n1, lvl := sus }, sus, false⟩
    else
      let lvl := envRamp e.start sus rem
      ⟨{ e with rem := rem, lvl := lvl }, lvl, false⟩
  | .sustain => ⟨e, e.lvl, false⟩
  | .release =>
    let rem := fsub e.rem r.rr
    if fle rem n0 then ⟨{ e with stage := .stop, rem := n0, lvl := n0 }, n0, true⟩
    else
      let lvl := envRamp e.start n0 rem
      ⟨{ e with rem := rem, lvl := lvl }, lvl, false⟩
  | .stop => ⟨e, n0, false⟩

end Sys2Proof.Machine
end

