-- ==== Sys2Proof/Machine/Oscillator.lean ====
section
/-! DEFINITION. The oscillator's internal operations (spec/40_oscillator.md): OscSetFreq, OscReset, OscProcess. -/

namespace Sys2Proof.Machine

/-- The frequency ratio `r_i = i * sqrt(1 + B * i^2)` of partial `i` (R103), evaluated as R105 writes it. -/
def partialRatio (b : Num64) (i : Nat) : Num64 :=
  fmul (ofInt i) (fsqrt (fadd n1 (fmul b (fmul (ofInt i) (ofInt i)))))

/-- The loop of OscSetFreq (R105) from partial `i` on, at most `fuel` more partials: it ends at the first step that is not <= QNYQ. -/
def oscScan (f0 b : Num64) : Nat → Nat → Osc → Osc
  | 0, _, o => o
  | fuel + 1, i, o =>
    if fle (fmul (partialRatio b i) f0) qNyq then
      oscScan f0 b fuel (i + 1)
        { o with
          step := memWrite o.step i (fmul (partialRatio b i) f0)
          amp := memWrite o.amp i (fdiv n1 (partialRatio b i))
          np := i + 1 }
    else o

/-- `OscSetFreq(v, o, f0, B)` (R105): np starts at 1, partials 1 to 127 are scanned; entries at indices >= np and all phases are left. -/
def oscSetFreq (f0 b : Num64) (o : Osc) : Osc := oscScan f0 b (Config.npMax - 1) 1 { o with np := 1 }

/-- `OscReset(v, o, random)` (R107): all 128 phases. -/
def oscReset (v oi : Nat) (random : Bool) (o : Osc) : Osc :=
  { o with
    ph := (List.range Config.npMax).foldl
      (fun ph i => memWrite ph i (if random then rndPh v oi i else n0)) o.ph }

/-- One pass of OscProcess's loop (R108): the phase of partial `i` is advanced, wrapped and looked up. -/
def oscPartial (m : Num64) (st : Osc × Num64) (i : Nat) : Osc × Num64 :=
  let p := frac (fadd (memRead st.1.ph i) (fmul (memRead st.1.step i) m))
  ({ st.1 with ph := memWrite st.1.ph i p },
   fadd st.2 (fmul (memRead st.1.amp i) (cosLookup p)))

/-- `OscProcess(v, o, m)` (R108): partials 1 to np-1 in ascending order, the sum from 0. -/
def oscProcess (m : Num64) (o : Osc) : Osc × Num64 :=
  (List.range' 1 (o.np - 1)).foldl (oscPartial m) (o, n0)

end Sys2Proof.Machine
end

