-- ==== Sys2Proof/Machine/Vibrato.lean ====
section
/-! DEFINITION. The vibrato LFO's internal operations (spec/43_lfo.md): LfoNoteOn, LfoProcess. -/

namespace Sys2Proof.Machine

/-- `LfoNoteOn(v)` (R162): the phase is LFO_PH0. -/
def lfoNoteOn : Lfo := { dly := n1, ph := lfoPh0 }

/-- C.LFO_FSTEP = P.VIB_RATE / C.FS (R161). -/
def lfoFreqStep (fs rate : Num64) : Num64 := fdiv rate fs

/-- `LfoProcess(v)` (R163): the delay first, then the table value of the phase, looked up before it advances. -/
def lfoProcess (c : Ctrl) (l : Lfo) : Lfo × Num64 :=
  if flt n0 l.dly then
    let d := fsub l.dly c.lfoDStep
    ({ l with dly := if flt d n0 then n0 else d }, n0)
  else ({ l with ph := frac (fadd l.ph c.lfoFStep) }, cosLookup l.ph)

end Sys2Proof.Machine
end

