-- ==== Sys2Proof/Machine/Voice.lean ====
section
/-! DEFINITION. The voice's internal operations (spec/44_voice.md): VoiceF0, VoiceSetF0, VoiceNoteOn, VoiceNoteOff, VoiceCutoffMod, VoiceProcess. -/

namespace Sys2Proof.Machine

/-- `p - 69` in semitones divided by 12: octaves from pitch 69 (R171, R173). -/
def octavesFrom69 (pitch : Fin 128) : Num64 := fdiv (ofInt ((pitch.val : Int) - 69)) n12

/-- `VoiceF0(p, b)` (R171). -/
def voiceF0 (fs : Num64) (pitch : Fin 128) (bend : Num64) : Num64 :=
  fmul (fdiv (fmul n440 (exp2N (octavesFrom69 pitch))) fs) bend

/-- `VoiceSetF0(v)` (R171). -/
def voiceSetF0 (p : Params) (c : Ctrl) (v : Voice) : Voice :=
  let f0 := voiceF0 c.fs v.pitch v.bend
  { v with f0 := f0, osc0 := oscSetFreq f0 n0 v.osc0, osc1 := oscSetFreq f0 p.inharm v.osc1 }

/-- The note's own registers as VoiceNoteOn sets them first (R173). -/
def voiceSetNote (p : Params) (c : Ctrl) (pitch : Fin 128) (vel : Num64) (v : Voice) : Voice :=
  let vel' := clamp vel n0 n1
  { v with
    pitch := pitch
    vel := vel'
    bend := c.bendMul
    velamp := fsub n1 (fmul p.velSens (fsub n1 vel'))
    keyf := fmul p.keyFollow (octavesFrom69 pitch) }

/-- The two OscResets, envelope note-ons and LfoNoteOn of VoiceNoteOn (R173); `vi` is the voice's index, which selects its random phases. -/
def voiceRestart (p : Params) (vi : Nat) (v : Voice) : Voice :=
  { v with
    osc0 := oscReset vi 0 p.randPhase v.osc0
    osc1 := oscReset vi 1 p.randPhase v.osc1
    amp := envNoteOn v.amp
    flt := envNoteOn v.flt
    lfo := lfoNoteOn }

/-- `VoiceNoteOn(v, pitch, vel)` (R173). -/
def voiceNoteOn (p : Params) (c : Ctrl) (vi : Nat) (pitch : Fin 128) (vel : Num64) (v : Voice) : Voice :=
  voiceRestart p vi
    (svfReset (svfSetFreq p c p.cutoff (voiceSetF0 p c (voiceSetNote p c pitch vel v))))

/-- `VoiceNoteOff(v)` (R174). -/
def voiceNoteOff (v : Voice) : Voice := { v with amp := envNoteOff v.amp, flt := envNoteOff v.flt }

/-- `VoiceCutoffMod(v, fe)` (R176). -/
def voiceCutoffMod (p : Params) (c : Ctrl) (fe : Num64) (v : Voice) : Voice :=
  if !feq p.fenvAmt n0 || !feq v.keyf n0 then
    svfSetFreq p c (fmul p.cutoff (exp2N (fadd (fmul p.fenvAmt fe) v.keyf))) v
  else v

/-- The vibrato multiplier `EXP2((P.VIB_DEPTH * l) / 1200)` (R175). -/
def vibratoMul (p : Params) (l : Num64) : Num64 := exp2N (fdiv (fmul p.vibDepth l) n1200)

/-- The oscillator blend `(1 - P.OSCMIX) * s0 + P.OSCMIX * s1` (R175). -/
def oscBlend (p : Params) (s0 s1 : Num64) : Num64 := fadd (fmul (fsub n1 p.oscMix) s0) (fmul p.oscMix s1)

/-- VoiceProcess (R175) after the amplitude envelope has given level `a` without ending: filter envelope, LFO, both oscillators, cutoff modulation, filter, squared amplitude. -/
def voiceSound (p : Params) (c : Ctrl) (a : Num64) (v : Voice) : Voice × Num64 :=
  let fe := envProcess c.flt p.flt.sustain v.flt
  let l := lfoProcess c v.lfo
  let m := vibratoMul p l.2
  let o0 := oscProcess m v.osc0
  let o1 := oscProcess m v.osc1
  let v1 := { v with flt := fe.env, lfo := l.1, osc0 := o0.1, osc1 := o1.1 }
  let y := svfProcess p (voiceCutoffMod p c fe.out v1) (oscBlend p o0.2 o1.2)
  let g := fmul a v.velamp
  (y.1, fmul (fmul g g) y.2)

/-- `VoiceProcess(v)` (R175): a free voice does nothing; on the tick on which the amplitude envelope ends, nothing runs after it. -/
def voiceProcess (p : Params) (c : Ctrl) (v : Voice) : Voice × Num64 :=
  if v.amp.stage = .stop then (v, n0)
  else
    let e := envProcess c.amp p.amp.sustain v.amp
    if e.fin then ({ v with amp := e.env }, n0)
    else voiceSound p c e.out { v with amp := e.env }

end Sys2Proof.Machine
end

