-- ==== Sys2Proof/Machine/Derived.lean ====
section
/-! DEFINITION. RecomputeDerived and FlushState (spec/45_synth.md R194), the two derived registers it leaves alone (R199, R202), and the reset values of spec/10_state.md R22 to R31 in the sequence of spec/70_reset_and_hazards.md R290. -/

namespace Sys2Proof.Machine

/-! ### Derived control registers (R24) -/

/-- C.GAIN = P.VOLUME * P.EXPRESSION (R199, R200). -/
def outputGain (p : Params) : Num64 := fmul p.volume p.expression

/-- C.BENDMUL = EXP2((P.BEND * P.BEND_RANGE) / 12) (R202). -/
def bendMultiplier (p : Params) : Num64 := exp2N (fdiv (fmul p.bend p.bendRange) n12)

/-- The envelope and LFO registers of RecomputeDerived (R194). -/
def rateSetCoef (p : Params) (c : Ctrl) : Ctrl :=
  { c with
    amp := envRates c.fs p.amp
    flt := envRates c.fs p.flt
    lfoDStep := envRate c.fs p.vibDelay
    lfoFStep := lfoFreqStep c.fs p.vibRate }

/-- RecomputeDerived (R194), the control registers: everything but C.FS, C.GAIN and C.BENDMUL. -/
def recomputeCtrl (p : Params) (c : Ctrl) : Ctrl :=
  rvSetCoef p (chSetCoef p (eqSetCoef p (rateSetCoef p c)))

/-- RecomputeDerived (R194), one voice: VoiceSetF0, then SvfSetFreq at the base cutoff. -/
def recomputeVoice (p : Params) (c : Ctrl) (v : Voice) : Voice :=
  svfSetFreq p c p.cutoff (voiceSetF0 p c v)

/-! ### FlushState (R194) -/

/-- An empty ring: every word 0, head 0. -/
def ringZero : Ring := { mem := [], head := 0 }

/-- The effect-chain state that FlushState leaves: all of it zero. -/
def fxFlushed : Fx :=
  { divCnt := 0, divH := ⟨n0, n0⟩, eqZ1 := ⟨n0, n0⟩, eqZ2 := ⟨n0, n0⟩
    chBuf0 := [], chBuf1 := [], chHead := 0, chP1 := n0, chP2 := n0
    rv := Vector.replicate 4 ringZero, ap := Vector.replicate 8 ringZero }

/-! ### Reset values (R22 to R31, R290) -/

/-- The reset values of the parameter register file (R22). -/
def paramsReset : Params :=
  { volume := n1, expression := n1, bendRange := n2, bend := n0, modWheel := n0
    pedal := Vector.replicate Config.nPedal n0
    velSens := n0, inharm := n0, oscMix := n0, randPhase := false
    vibDepth := n0, vibRate := n5, vibDelay := n0
    cutoff := n1000, reso := n1, ftype := 0, fiter := false, fenvAmt := n0, keyFollow := n0
    amp := { attack := n0, decay := n0, sustain := n1, release := n0 }
    flt := { attack := n0, decay := n0, sustain := n1, release := n0 }
    divN := 1, eqFreq := n1000, eqGain := n0, eqQ := n1
    chRate := nHalf, chDepth := n0, chDelay := n0, chMix := n0, rvT60 := n1, rvMix := n0 }

/-- Step 2 of R290, before RecomputeDerived fills the other control registers (written here as 0). -/
def ctrlSeed : Ctrl :=
  { fs := fsReset, gain := outputGain paramsReset, bendMul := bendMultiplier paramsReset
    amp := ⟨n0, n0, n0⟩, flt := ⟨n0, n0, n0⟩, lfoDStep := n0, lfoFStep := n0
    eqB0 := n0, eqB1 := n0, eqB2 := n0, eqA1 := n0, eqA2 := n0
    chR1 := n0, chR2 := n0, chBase := n0, chDepthS := n0, chLen := 0, rvG := n0 }

/-- The control registers after reset (R290 steps 2 and 4). -/
def ctrlReset : Ctrl := recomputeCtrl paramsReset ctrlSeed

def oscBlank : Osc := { np := 1, amp := [], step := [], ph := [] }
def envIdle : Env := { stage := .stop, rem := n0, lvl := n0, start := n0 }

/-- Step 3 of R290; f0, K and OQK are filled by RecomputeDerived and S by FlushState (written here as 0). -/
def voiceBlank : Voice :=
  { pitch := 69, vel := n0, bend := n1, f0 := n0, velamp := n1, keyf := n0
    osc0 := oscBlank, osc1 := oscBlank, k := n0, oqk := n0
    s0 := n0, s1 := n0, s2 := n0, s3 := n0
    amp := envIdle, flt := envIdle, lfo := { dly := n0, ph := n0 } }

/-- One voice after reset (R290 steps 3 to 5). -/
def voiceReset : Voice := svfReset (recomputeVoice paramsReset ctrlReset voiceBlank)

/-- The voice pool after reset. -/
def voicesReset : Vector Voice Config.nVoice := Vector.replicate Config.nVoice voiceReset

end Sys2Proof.Machine
end

