-- ==== Sys2Proof/Machine/State.lean ====
section
/-! DEFINITION. The state of the CORE (spec/10_state.md R20), the state after reset (R36, spec/70_reset_and_hazards.md R290), and the reasons a step could stop. -/

namespace Sys2Proof.Machine

/-- The CORE raises no exception, trap or fault of any kind (spec/60_exceptions.md R270): no reason exists, so the type has no constructor (log entry 16, safe). -/
inductive Fault where
  deriving DecidableEq, Repr

/-- Why an instruction has no meaning in this model. -/
inductive Refusal where
  /-- Raised by exec's arm of an instruction that has no meaning yet; no arm of this model raises it. Safe. -/
  | notModelled (mnemonic : String)
  deriving DecidableEq, Repr

/-- The state of the CORE (R20): parameter registers, control registers, sixteen voices, effect chain, outputs, whether an output pair waits (R82), and the model's own field `host`. -/
structure State where
  /-- `P.*` (R22). -/
  params   : Params
  /-- `C.*` (R24). -/
  ctrl     : Ctrl
  /-- `V[0..15]` (R25 to R29). -/
  voices   : Vector Voice Config.nVoice
  /-- `FX.*` and the delay memories (R30). -/
  fx       : Fx
  /-- OUT_L (R31). -/
  outL     : Num64
  /-- OUT_R (R31). -/
  outR     : Num64
  /-- OUT_W32 (R31). -/
  outW32   : Bool
  /-- An output pair waits to be taken: `out_valid` while `rst` is 0 (R82, R291). -/
  outValid : Bool
  /-- The model's own field: the input pins in the coming steps, soonest first (log entry 6). -/
  host     : List HostCycle
  deriving DecidableEq, Repr

/-- The machine right after reset (R290, R292): every register at its reset value, every memory word 0, no pair waiting, and a host that does nothing. -/
def State.reset : State :=
  { params := paramsReset
    ctrl := ctrlReset
    voices := voicesReset
    fx := fxFlushed
    outL := n0
    outR := n0
    outW32 := false
    outValid := false
    host := [] }

end Sys2Proof.Machine
end

