-- ==== Sys2Proof/Machine/Synth.lean ====
section
/-! DEFINITION. The synthesizer's internal operations over the whole state (spec/45_synth.md): broadcast, AllocVoice, SynthTick, the reset sequence, and the rule that a command with a refused operand changes nothing. -/

namespace Sys2Proof.Machine

/-- A write to every voice, free or not (R304). -/
def mapVoices (f : Voice → Voice) (s : State) : State := { s with voices := s.voices.map f }

/-- A command that is ignored unless its real operand is finite (R86); it always completes. -/
def acceptFinite (val : Num64) (s : State) (f : State → State) : Host.Outcome State Fault Refusal :=
  .next (if isFinite val then f s else s)

/-- The first voice whose amplitude envelope is in this stage. -/
def firstInStage (vs : Vector Voice Config.nVoice) (st : Stage) : Option (Fin Config.nVoice) :=
  (List.finRange Config.nVoice).find? (fun v => decide (vs[v].amp.stage = st))

/-- `AllocVoice()` (R191): the first free voice, else the first releasing one, else none. -/
def allocVoice (vs : Vector Voice Config.nVoice) : Option (Fin Config.nVoice) :=
  match firstInStage vs .stop with
  | some v => some v
  | none => firstInStage vs .release

/-- The sum of the voices' samples in index order, from 0 (R195). -/
def voiceSum (samples : List Num64) : Num64 := samples.foldl fadd n0

/-- The effect chain in its fixed order (R195): divider, EQ, chorus, reverb. -/
def effectChain (p : Params) (c : Ctrl) (x : Stereo) (fx : Fx) : Fx × Stereo :=
  let d := divProcess p.divN x fx
  let e := eqProcess c d.2 d.1
  let h := chProcess p c e.2 e.1
  rvProcess p c h.2 h.1

/-- `SynthTick()` (R195). -/
def synthTick (s : State) : State :=
  let outs := s.voices.map (voiceProcess s.params s.ctrl)
  let m := fmul (voiceSum (outs.toList.map Prod.snd)) s.ctrl.gain
  let e := effectChain s.params s.ctrl ⟨m, m⟩ s.fx
  { s with voices := outs.map Prod.fst, fx := e.1, outL := e.2.left, outR := e.2.right }

/-- The reset sequence (R290), which the `rst` pin and the RESET command share: everything takes its reset value and no pair waits; the host's coming actions are not the CORE's to change. -/
def applyReset (s : State) : State := { State.reset with host := s.host }

/-- RecomputeDerived (R194) over the whole state. -/
def recomputeDerived (s : State) : State :=
  let c := recomputeCtrl s.params s.ctrl
  { s with ctrl := c, voices := s.voices.map (recomputeVoice s.params c) }

/-- FlushState (R194) over the whole state. -/
def flushState (s : State) : State :=
  { s with voices := s.voices.map svfReset, fx := fxFlushed }

end Sys2Proof.Machine
end

