-- ==== Sys2Proof/Machine/CmdEffects.lean ====
section
/-! DEFINITION. Meanings: the parameters of the effect chain (spec/46_effects.md R221, R226 to R228, R234 to R237, spec/47_reverb.md R258, R259). -/

namespace Sys2Proof.Machine

/-- SET_DIV_N (R221): stored raw; counter and held samples are not touched. -/
def execSetDivN (imm : BitVec 16) (s : State) : Host.Outcome State Fault Refusal :=
  .next { s with params := { s.params with divN := immVal imm } }

/-- New parameters, with the EQ coefficients recomputed from them (R224). -/
def withEqCoef (p : Params) (s : State) : State := { s with params := p, ctrl := eqSetCoef p s.ctrl }

/-- New parameters, with the chorus registers recomputed from them (R231). -/
def withChCoef (p : Params) (s : State) : State := { s with params := p, ctrl := chSetCoef p s.ctrl }

/-- New parameters, with C.RV_G recomputed from them (R251). -/
def withRvCoef (p : Params) (s : State) : State := { s with params := p, ctrl := rvSetCoef p s.ctrl }

/-- SET_EQ_FREQ (R226: stored raw). -/
def execSetEqFreq (val : Num64) (s : State) : Host.Outcome State Fault Refusal :=
  acceptFinite val s fun s => withEqCoef { s.params with eqFreq := val } s

/-- SET_EQ_GAIN (R227). -/
def execSetEqGain (val : Num64) (s : State) : Host.Outcome State Fault Refusal :=
  acceptFinite val s fun s => withEqCoef { s.params with eqGain := clamp val nNeg120 n120 } s

/-- SET_EQ_Q (R228: stored raw). -/
def execSetEqQ (val : Num64) (s : State) : Host.Outcome State Fault Refusal :=
  acceptFinite val s fun s => withEqCoef { s.params with eqQ := val } s

/-- SET_CH_RATE (R234). -/
def execSetChRate (val : Num64) (s : State) : Host.Outcome State Fault Refusal :=
  acceptFinite val s fun s => withChCoef { s.params with chRate := fmax val n0 } s

/-- SET_CH_DEPTH (R235). -/
def execSetChDepth (val : Num64) (s : State) : Host.Outcome State Fault Refusal :=
  acceptFinite val s fun s => withChCoef { s.params with chDepth := fmax val n0 } s

/-- SET_CH_DELAY (R236). -/
def execSetChDelay (val : Num64) (s : State) : Host.Outcome State Fault Refusal :=
  acceptFinite val s fun s => withChCoef { s.params with chDelay := fmax val n0 } s

/-- SET_CH_MIX (R237). -/
def execSetChMix (val : Num64) (s : State) : Host.Outcome State Fault Refusal :=
  acceptFinite val s fun s => { s with params := { s.params with chMix := clamp val n0 n1 } }

/-- SET_RV_T60 (R258). -/
def execSetRvT60 (val : Num64) (s : State) : Host.Outcome State Fault Refusal :=
  acceptFinite val s fun s => withRvCoef { s.params with rvT60 := fmax val t60Min } s

/-- SET_RV_MIX (R259). -/
def execSetRvMix (val : Num64) (s : State) : Host.Outcome State Fault Refusal :=
  acceptFinite val s fun s => { s with params := { s.params with rvMix := clamp val n0 n1 } }

end Sys2Proof.Machine
end

