-- ==== Sys2Proof/Machine/CmdEnvelope.lean ====
section
/-! DEFINITION. Meanings: the eight envelope parameters (spec/42_envelope.md R147 to R154). -/

namespace Sys2Proof.Machine

/-- SET_AMP_ATTACK (R147): the time and its rate. -/
def execSetAmpAttack (val : Num64) (s : State) : Host.Outcome State Fault Refusal :=
  acceptFinite val s fun s =>
    { s with
      params := { s.params with amp := { s.params.amp with attack := val } }
      ctrl := { s.ctrl with amp := { s.ctrl.amp with ra := envRate s.ctrl.fs val } } }

/-- SET_AMP_DECAY (R148): the time and its rate. -/
def execSetAmpDecay (val : Num64) (s : State) : Host.Outcome State Fault Refusal :=
  acceptFinite val s fun s =>
    { s with
      params := { s.params with amp := { s.params.amp with decay := val } }
      ctrl := { s.ctrl with amp := { s.ctrl.amp with rd := envRate s.ctrl.fs val } } }

/-- SET_AMP_SUSTAIN (R149). -/
def execSetAmpSustain (val : Num64) (s : State) : Host.Outcome State Fault Refusal :=
  acceptFinite val s fun s =>
    { s with params := { s.params with amp := { s.params.amp with sustain := clamp val n0 n1 } } }

/-- SET_AMP_RELEASE (R150): the time and its rate. -/
def execSetAmpRelease (val : Num64) (s : State) : Host.Outcome State Fault Refusal :=
  acceptFinite val s fun s =>
    { s with
      params := { s.params with amp := { s.params.amp with release := val } }
      ctrl := { s.ctrl with amp := { s.ctrl.amp with rr := envRate s.ctrl.fs val } } }

/-- SET_FLT_ATTACK (R151): the time and its rate. -/
def execSetFltAttack (val : Num64) (s : State) : Host.Outcome State Fault Refusal :=
  acceptFinite val s fun s =>
    { s with
      params := { s.params with flt := { s.params.flt with attack := val } }
      ctrl := { s.ctrl with flt := { s.ctrl.flt with ra := envRate s.ctrl.fs val } } }

/-- SET_FLT_DECAY (R152): the time and its rate. -/
def execSetFltDecay (val : Num64) (s : State) : Host.Outcome State Fault Refusal :=
  acceptFinite val s fun s =>
    { s with
      params := { s.params with flt := { s.params.flt with decay := val } }
      ctrl := { s.ctrl with flt := { s.ctrl.flt with rd := envRate s.ctrl.fs val } } }

/-- SET_FLT_SUSTAIN (R153). -/
def execSetFltSustain (val : Num64) (s : State) : Host.Outcome State Fault Refusal :=
  acceptFinite val s fun s =>
    { s with params := { s.params with flt := { s.params.flt with sustain := clamp val n0 n1 } } }

/-- SET_FLT_RELEASE (R154): the time and its rate. -/
def execSetFltRelease (val : Num64) (s : State) : Host.Outcome State Fault Refusal :=
  acceptFinite val s fun s =>
    { s with
      params := { s.params with flt := { s.params.flt with release := val } }
      ctrl := { s.ctrl with flt := { s.ctrl.flt with rr := envRate s.ctrl.fs val } } }

end Sys2Proof.Machine
end

