-- ==== Sys2Proof/Machine/CmdFilter.lean ====
section
/-! DEFINITION. Meanings: SET_CUTOFF, SET_RESO, SET_FTYPE, SET_FITER, SET_FENV_AMT, SET_KEYFOLLOW (spec/41_filter.md R125 to R128, spec/44_voice.md R181, R182). -/

namespace Sys2Proof.Machine

/-- New parameters, with the filter coefficients of every voice recomputed at the base cutoff (R125, R181). -/
def withCutoffCoef (p : Params) (s : State) : State :=
  mapVoices (svfSetFreq p s.ctrl p.cutoff) { s with params := p }

/-- SET_CUTOFF (R125): stored unclamped. -/
def execSetCutoff (val : Num64) (s : State) : Host.Outcome State Fault Refusal :=
  acceptFinite val s fun s => withCutoffCoef { s.params with cutoff := val } s

/-- SET_RESO (R126): OQK of every voice from its current K. -/
def execSetReso (val : Num64) (s : State) : Host.Outcome State Fault Refusal :=
  acceptFinite val s fun s =>
    let p := { s.params with reso := fmax val svfQMin }
    mapVoices (fun v => { v with oqk := svfOqk p.reso v.k }) { s with params := p }

/-- SET_FTYPE (R127). -/
def execSetFtype (imm : BitVec 16) (s : State) : Host.Outcome State Fault Refusal :=
  .next { s with params := { s.params with ftype := ftypeOf imm } }

/-- SET_FITER (R128). -/
def execSetFiter (imm : BitVec 16) (s : State) : Host.Outcome State Fault Refusal :=
  .next { s with params := { s.params with fiter := flagOf imm } }

/-- SET_FENV_AMT (R181): every voice's coefficients return to those of the base cutoff. -/
def execSetFenvAmt (val : Num64) (s : State) : Host.Outcome State Fault Refusal :=
  acceptFinite val s fun s => withCutoffCoef { s.params with fenvAmt := clamp val nNeg64 n64 } s

/-- SET_KEYFOLLOW (R182): read only by later note-ons. -/
def execSetKeyfollow (val : Num64) (s : State) : Host.Outcome State Fault Refusal :=
  acceptFinite val s fun s => { s with params := { s.params with keyFollow := clamp val nNeg64 n64 } }

end Sys2Proof.Machine
end

