-- ==== Sys2Proof/Machine/CmdGlobal.lean ====
section
/-! DEFINITION. Meanings: the global controls SET_VOLUME, SET_EXPRESSION, SET_BEND_RANGE, SET_BEND, SET_MODWHEEL, SET_PEDAL, SET_VELSENS (spec/45_synth.md R199 to R204, spec/44_voice.md R183). -/

namespace Sys2Proof.Machine

/-- New parameters, with C.GAIN recomputed from them (R199, R200). -/
def withGain (p : Params) (s : State) : State :=
  { s with params := p, ctrl := { s.ctrl with gain := outputGain p } }

/-- SET_VOLUME (R199). -/
def execSetVolume (val : Num64) (s : State) : Host.Outcome State Fault Refusal :=
  acceptFinite val s fun s => withGain { s.params with volume := fmax val n0 } s

/-- SET_EXPRESSION (R200). -/
def execSetExpression (val : Num64) (s : State) : Host.Outcome State Fault Refusal :=
  acceptFinite val s fun s => withGain { s.params with expression := clamp val n0 n1 } s

/-- SET_BEND_RANGE (R201): stored only. -/
def execSetBendRange (val : Num64) (s : State) : Host.Outcome State Fault Refusal :=
  acceptFinite val s fun s => { s with params := { s.params with bendRange := clamp val n0 n48 } }

/-- SET_BEND (R202): the multiplier, then every voice's bend and tables. -/
def execSetBend (val : Num64) (s : State) : Host.Outcome State Fault Refusal :=
  acceptFinite val s fun s =>
    let p := { s.params with bend := clamp val nNeg1 n1 }
    let c := { s.ctrl with bendMul := bendMultiplier p }
    mapVoices (fun v => voiceSetF0 p c { v with bend := c.bendMul }) { s with params := p, ctrl := c }

/-- SET_MODWHEEL (R203): stored, read by no rule. -/
def execSetModwheel (val : Num64) (s : State) : Host.Outcome State Fault Refusal :=
  acceptFinite val s fun s => { s with params := { s.params with modWheel := clamp val n0 n1 } }

/-- SET_PEDAL (R204): stored, read by no rule; an index outside 0..NPEDAL-1 changes nothing (R87). -/
def execSetPedal (imm : BitVec 16) (val : Num64) (s : State) : Host.Outcome State Fault Refusal :=
  acceptFinite val s fun s =>
    if pedalIndexOk imm then
      { s with params :=
          { s.params with pedal := s.params.pedal.set (pedalIndex imm) (clamp val n0 n1) } }
    else s

/-- SET_VELSENS (R183): read only by later note-ons. -/
def execSetVelsens (val : Num64) (s : State) : Host.Outcome State Fault Refusal :=
  acceptFinite val s fun s => { s with params := { s.params with velSens := clamp val n0 n1 } }

end Sys2Proof.Machine
end

