-- ==== Sys2Proof/Machine/CmdNote.lean ====
section
/-! DEFINITION. Meanings: NOTE_ON and NOTE_OFF (spec/45_synth.md R197, R198). -/

namespace Sys2Proof.Machine

/-- NOTE_ON's effect once its velocity is finite (R197): the allocated voice, if any, starts the note. -/
def noteOn (imm : BitVec 16) (val : Num64) (s : State) : State :=
  match allocVoice s.voices with
  | none => s
  | some v =>
    { s with voices :=
        s.voices.set v (voiceNoteOn s.params s.ctrl v.val (pitchOf imm) val s.voices[v]) }

/-- NOTE_ON (R197). The channel takes no part. -/
def execNoteOn (_ch : BitVec 8) (imm : BitVec 16) (val : Num64) (s : State) :
    Host.Outcome State Fault Refusal :=
  acceptFinite val s (noteOn imm val)

/-- Whether NOTE_OFF releases this voice (R198): it plays the pitch and is not free. -/
def noteOffMatches (pitch : Fin 128) (v : Voice) : Bool :=
  decide (v.pitch = pitch ∧ v.amp.stage ≠ .stop)

/-- NOTE_OFF (R198). Channel and velocity are never read. -/
def execNoteOff (_ch : BitVec 8) (imm : BitVec 16) (_val : Num64) (s : State) :
    Host.Outcome State Fault Refusal :=
  .next (mapVoices (fun v => if noteOffMatches (pitchOf imm) v then voiceNoteOff v else v) s)

end Sys2Proof.Machine
end

