-- ==== Sys2Proof/Machine/CmdOscillator.lean ====
section
/-! DEFINITION. Meanings: SET_INHARM, SET_OSCMIX, SET_RANDPHASE and the vibrato parameters (spec/40_oscillator.md R110, R111, spec/44_voice.md R180, spec/43_lfo.md R165 to R167). -/

namespace Sys2Proof.Machine

/-- SET_INHARM (R110): the table of oscillator 1 of every voice is rebuilt. -/
def execSetInharm (val : Num64) (s : State) : Host.Outcome State Fault Refusal :=
  acceptFinite val s fun s =>
    let p := { s.params with inharm := fmax val n0 }
    mapVoices (fun v => { v with osc1 := oscSetFreq v.f0 p.inharm v.osc1 }) { s with params := p }

/-- SET_OSCMIX (R180). -/
def execSetOscmix (val : Num64) (s : State) : Host.Outcome State Fault Refusal :=
  acceptFinite val s fun s => { s with params := { s.params with oscMix := clamp val n0 n1 } }

/-- SET_RANDPHASE (R111): read only by later note-ons. -/
def execSetRandphase (imm : BitVec 16) (s : State) : Host.Outcome State Fault Refusal :=
  .next { s with params := { s.params with randPhase := flagOf imm } }

/-- SET_VIB_DEPTH (R165). -/
def execSetVibDepth (val : Num64) (s : State) : Host.Outcome State Fault Refusal :=
  acceptFinite val s fun s => { s with params := { s.params with vibDepth := clamp val n0 n1200 } }

/-- SET_VIB_RATE (R166): also C.LFO_FSTEP. -/
def execSetVibRate (val : Num64) (s : State) : Host.Outcome State Fault Refusal :=
  acceptFinite val s fun s =>
    let rate := fmax val n0
    { s with
      params := { s.params with vibRate := rate }
      ctrl := { s.ctrl with lfoFStep := lfoFreqStep s.ctrl.fs rate } }

/-- SET_VIB_DELAY (R167): also C.LFO_DSTEP. -/
def execSetVibDelay (val : Num64) (s : State) : Host.Outcome State Fault Refusal :=
  acceptFinite val s fun s =>
    { s with
      params := { s.params with vibDelay := val }
      ctrl := { s.ctrl with lfoDStep := envRate s.ctrl.fs val } }

end Sys2Proof.Machine
end

