-- ==== Sys2Proof/Machine/CmdSystem.lean ====
section
/-! DEFINITION. Meanings: NOP, RESET, TICK64, TICK32, SET_FS (spec/45_synth.md R192 to R196). -/

namespace Sys2Proof.Machine

/-- NOP (R192): changes no state and produces no output. -/
def execNop (s : State) : Host.Outcome State Fault Refusal := .next s

/-- RESET (R193): the reset sequence of R290; no output pair is produced. -/
def execReset (s : State) : Host.Outcome State Fault Refusal := .next (applyReset s)

/-- TICK64 (R195): one stereo sample, presented as binary64. -/
def execTick64 (s : State) : Host.Outcome State Fault Refusal :=
  .next { synthTick s with outW32 := false, outValid := true }

/-- TICK32 (R196): the same transition, presented as binary32. -/
def execTick32 (s : State) : Host.Outcome State Fault Refusal :=
  .next { synthTick s with outW32 := true, outValid := true }

/-- SET_FS (R194): the clamped rate, then RecomputeDerived, then FlushState. -/
def execSetFs (val : Num64) (s : State) : Host.Outcome State Fault Refusal :=
  acceptFinite val s fun s =>
    flushState (recomputeDerived { s with ctrl := { s.ctrl with fs := clamp val fsMin fsMax } })

end Sys2Proof.Machine
end

