-- ==== Sys2Proof/Machine/Dispatch.lean ====
section
/-! DEFINITION. The dispatch: one arm per constructor of Instr, each one call of its meaning. -/

namespace Sys2Proof.Machine

def exec (i : Instr) (s : State) : Host.Outcome State Fault Refusal :=
  match i with
  | .nop => Sys2Proof.Machine.execNop s
  | .reset => Sys2Proof.Machine.execReset s
  | .tick64 => Sys2Proof.Machine.execTick64 s
  | .tick32 => Sys2Proof.Machine.execTick32 s
  | .noteOn ch imm val => Sys2Proof.Machine.execNoteOn ch imm val s
  | .noteOff ch imm val => Sys2Proof.Machine.execNoteOff ch imm val s
  | .setFs val => Sys2Proof.Machine.execSetFs val s
  | .setVolume val => Sys2Proof.Machine.execSetVolume val s
  | .setExpression val => Sys2Proof.Machine.execSetExpression val s
  | .setBendRange val => Sys2Proof.Machine.execSetBendRange val s
  | .setBend val => Sys2Proof.Machine.execSetBend val s
  | .setModwheel val => Sys2Proof.Machine.execSetModwheel val s
  | .setPedal imm val => Sys2Proof.Machine.execSetPedal imm val s
  | .setVelsens val => Sys2Proof.Machine.execSetVelsens val s
  | .setInharm val => Sys2Proof.Machine.execSetInharm val s
  | .setOscmix val => Sys2Proof.Machine.execSetOscmix val s
  | .setRandphase imm => Sys2Proof.Machine.execSetRandphase imm s
  | .setVibDepth val => Sys2Proof.Machine.execSetVibDepth val s
  | .setVibRate val => Sys2Proof.Machine.execSetVibRate val s
  | .setVibDelay val => Sys2Proof.Machine.execSetVibDelay val s
  | .setCutoff val => Sys2Proof.Machine.execSetCutoff val s
  | .setReso val => Sys2Proof.Machine.execSetReso val s
  | .setFtype imm => Sys2Proof.Machine.execSetFtype imm s
  | .setFiter imm => Sys2Proof.Machine.execSetFiter imm s
  | .setFenvAmt val => Sys2Proof.Machine.execSetFenvAmt val s
  | .setKeyfollow val => Sys2Proof.Machine.execSetKeyfollow val s
  | .setAmpAttack val => Sys2Proof.Machine.execSetAmpAttack val s
  | .setAmpDecay val => Sys2Proof.Machine.execSetAmpDecay val s
  | .setAmpSustain val => Sys2Proof.Machine.execSetAmpSustain val s
  | .setAmpRelease val => Sys2Proof.Machine.execSetAmpRelease val s
  | .setFltAttack val => Sys2Proof.Machine.execSetFltAttack val s
  | .setFltDecay val => Sys2Proof.Machine.execSetFltDecay val s
  | .setFltSustain val => Sys2Proof.Machine.execSetFltSustain val s
  | .setFltRelease val => Sys2Proof.Machine.execSetFltRelease val s
  | .setDivN imm => Sys2Proof.Machine.execSetDivN imm s
  | .setEqFreq val => Sys2Proof.Machine.execSetEqFreq val s
  | .setEqGain val => Sys2Proof.Machine.execSetEqGain val s
  | .setEqQ val => Sys2Proof.Machine.execSetEqQ val s
  | .setChRate val => Sys2Proof.Machine.execSetChRate val s
  | .setChDepth val => Sys2Proof.Machine.execSetChDepth val s
  | .setChDelay val => Sys2Proof.Machine.execSetChDelay val s
  | .setChMix val => Sys2Proof.Machine.execSetChMix val s
  | .setRvT60 val => Sys2Proof.Machine.execSetRvT60 val s
  | .setRvMix val => Sys2Proof.Machine.execSetRvMix val s

end Sys2Proof.Machine
end

