-- ==== Sys2Proof/Machine/Port.lean ====
section
/-! DEFINITION. The command port, the output port and the `rst` pin (spec/30_encoding.md R80, R82, spec/70_reset_and_hazards.md R291, spec/60_exceptions.md R273 (b)): what one cycle of the ports does when the CORE is not executing a command. -/

namespace Sys2Proof.Machine

/-- The pins of a host that does nothing: no reset, no command, not ready to take a pair. -/
def hostIdle : HostCycle := { rst := false, cmd := none, outReady := false }

/-- The input pins in this step. -/
def pins (s : State) : HostCycle := s.host.head?.getD hostIdle

/-- `cmd_ready`: 0 while `rst` is 1 and while an output pair waits (R80, R82, R291). -/
def cmdReady (s : State) : Bool := !(pins s).rst && !s.outValid

/-- `out_valid`: 0 while `rst` is 1 (R82, R291). -/
def outValidPin (s : State) : Bool := !(pins s).rst && s.outValid

/-- A channel of the output port (R82): the binary64 pattern after TICK64; after TICK32 the binary32 pattern of RN32 in bits 31:0 and zeros above. -/
def presentChannel (w32 : Bool) (x : Num64) : BitVec 64 := if w32 then (rn32 x).setWidth 64 else x

/-- `out_l`. -/
def outLPin (s : State) : BitVec 64 := presentChannel s.outW32 s.outL
/-- `out_r`. -/
def outRPin (s : State) : BitVec 64 := presentChannel s.outW32 s.outR

/-- What a step does at the ports. -/
inductive PortEvent where
  /-- `rst` is 1: the reset sequence, whatever else the pins say (R273 (b), R291). -/
  | reset
  /-- `out_valid` and `out_ready` are both 1: the waiting pair is taken (R82). -/
  | take
  /-- `cmd_valid` and `cmd_ready` are both 1: this command word is accepted (R80). -/
  | command (w : CmdWord)
  /-- No handshake: the state is held (R284). -/
  | hold
  deriving DecidableEq, Repr

/-- The event of this step. -/
def portEvent (s : State) : PortEvent :=
  if (pins s).rst then .reset
  else if s.outValid then (if (pins s).outReady then .take else .hold)
  else match (pins s).cmd with
    | some w => .command w
    | none => .hold

/-- The pair that the host takes in this step, if it takes one (R82): `out_l`, `out_r`, `out_w32`. -/
def takenPair (s : State) : Option (BitVec 64 × BitVec 64 × Bool) :=
  match portEvent s with
  | .take => some (outLPin s, outRPin s, s.outW32)
  | _ => none

/-- The next step's pins come up. -/
def advanceHost (s : State) : State := { s with host := s.host.tail }

/-- The waiting pair has been taken: `out_valid` falls (R82). -/
def pairTaken (s : State) : State := { s with outValid := false }

/-- A host that offers command word `w` now, with no pair waiting, and does nothing else in this step. -/
def offerCommand (w : CmdWord) (s : State) : State :=
  { s with outValid := false, host := { rst := false, cmd := some w, outReady := false } :: s.host }

/-- The pins of a host that issues these command words in order and takes every output pair at once: one cycle that offers the word, one that is ready for a pair. -/
def hostProgram (words : List CmdWord) : List HostCycle :=
  words.flatMap fun w =>
    [{ rst := false, cmd := some w, outReady := false }, { rst := false, cmd := none, outReady := true }]

end Sys2Proof.Machine
end

