-- ==== Sys2Proof/Machine/Step.lean ====
section
/-! DEFINITION. One step of the CORE (spec/00_scope.md R14): one event at its ports. There is no program counter and no fetch (spec/10_state.md R21); the command word comes from the host. -/

namespace Sys2Proof.Machine

/-- One step: reset, the taking of a pair, one whole command, or nothing (R14, R80, R82, R284, R291). -/
def step (s : State) : Host.Outcome State Fault Refusal :=
  match portEvent s with
  | .reset => .next (applyReset (advanceHost s))
  | .take => .next (pairTaken (advanceHost s))
  | .command w => exec (decode w) (advanceHost s)
  | .hold => .next (advanceHost s)

/-- The command word with bits `w` (those from `nbits` up taken as 0) offered on the command port, so that the next step accepts and runs it (log entry 6). -/
def State.withFetchWord (s : State) (nbits w : Nat) : State :=
  offerCommand (BitVec.ofNat 96 (w % 2 ^ nbits)) s

end Sys2Proof.Machine
end

