-- ==== Sys2Proof/Safety.lean ====
section
/-! DEFINITION. What the statements call a well-behaved state: the predicates behind the invariants of spec/10_state.md R22, R24 and R35 and of spec/40_oscillator.md R106, and what a run gives the host. -/

namespace Sys2Proof.Machine

/-! ### Ranges of numbers -/

/-- `lo <= x <= hi`, so `x` is finite when both ends are. -/
abbrev inRange (lo hi x : Num64) : Prop := fle lo x = true ∧ fle x hi = true

/-- Finite and at least `lo`. -/
abbrev finiteFrom (lo x : Num64) : Prop := isFinite x = true ∧ fle lo x = true

/-- In [0, 1), the range of every phase (R26, R29, R30). -/
abbrev inPhase (x : Num64) : Prop := fle n0 x = true ∧ flt x n1 = true

/-- A nonzero value below 2^-1022 in magnitude (R12, `flush`). -/
abbrev isSubnormal (x : Num64) : Prop := 0 < magBits x ∧ magBits x < 2 ^ 52

/-! ### The parameter file (R22) -/

/-- The legal values of one envelope kind's parameters. -/
structure EnvParamsLegal (e : EnvParams) : Prop where
  attack  : isFinite e.attack = true
  decay   : isFinite e.decay = true
  sustain : inRange n0 n1 e.sustain
  release : isFinite e.release = true

/-- Every parameter register holds a value of the range that the "stored as" column of R22 gives it. -/
structure ParamsLegal (p : Params) : Prop where
  volume     : finiteFrom n0 p.volume
  expression : inRange n0 n1 p.expression
  bendRange  : inRange n0 n48 p.bendRange
  bend       : inRange nNeg1 n1 p.bend
  modWheel   : inRange n0 n1 p.modWheel
  pedal      : ∀ k : Fin Config.nPedal, inRange n0 n1 p.pedal[k]
  velSens    : inRange n0 n1 p.velSens
  inharm     : finiteFrom n0 p.inharm
  oscMix     : inRange n0 n1 p.oscMix
  vibDepth   : inRange n0 n1200 p.vibDepth
  vibRate    : finiteFrom n0 p.vibRate
  vibDelay   : isFinite p.vibDelay = true
  cutoff     : isFinite p.cutoff = true
  reso       : finiteFrom svfQMin p.reso
  fenvAmt    : inRange nNeg64 n64 p.fenvAmt
  keyFollow  : inRange nNeg64 n64 p.keyFollow
  amp        : EnvParamsLegal p.amp
  flt        : EnvParamsLegal p.flt
  divN       : -32768 ≤ p.divN ∧ p.divN ≤ 32767
  eqFreq     : isFinite p.eqFreq = true
  eqGain     : inRange nNeg120 n120 p.eqGain
  eqQ        : isFinite p.eqQ = true
  chRate     : finiteFrom n0 p.chRate
  chDepth    : finiteFrom n0 p.chDepth
  chDelay    : finiteFrom n0 p.chDelay
  chMix      : inRange n0 n1 p.chMix
  rvT60      : finiteFrom t60Min p.rvT60
  rvMix      : inRange n0 n1 p.rvMix

/-- The parameter file is legal and C.FS lies in [FS_MIN, FS_MAX] (R22, R24). -/
structure ParamInv (s : State) : Prop where
  params : ParamsLegal s.params
  fs     : inRange fsMin fsMax s.ctrl.fs

/-! ### Derived registers (R24) -/

/-- Every derived register equals its formula applied to the current inputs (R24); C.BENDMUL, which R24 excepts, equals its formula for some bend range in [0, 48], the one that P.BEND_RANGE, itself in that range (R22), held at the last SET_BEND or reset; and of the per-voice derived registers, f0 (R171) and OQK (R121, R126). -/
structure DerivedInv (s : State) : Prop where
  gain     : s.ctrl.gain = fmul s.params.volume s.params.expression
  bendRange : inRange n0 n48 s.params.bendRange
  bendMul  : ∃ range, inRange n0 n48 range ∧ s.ctrl.bendMul = exp2N (fdiv (fmul s.params.bend range) n12)
  ampRa    : s.ctrl.amp.ra = envRate s.ctrl.fs s.params.amp.attack
  ampRd    : s.ctrl.amp.rd = envRate s.ctrl.fs s.params.amp.decay
  ampRr    : s.ctrl.amp.rr = envRate s.ctrl.fs s.params.amp.release
  fltRa    : s.ctrl.flt.ra = envRate s.ctrl.fs s.params.flt.attack
  fltRd    : s.ctrl.flt.rd = envRate s.ctrl.fs s.params.flt.decay
  fltRr    : s.ctrl.flt.rr = envRate s.ctrl.fs s.params.flt.release
  lfoDStep : s.ctrl.lfoDStep = envRate s.ctrl.fs s.params.vibDelay
  lfoFStep : s.ctrl.lfoFStep = fdiv s.params.vibRate s.ctrl.fs
  eqB0     : s.ctrl.eqB0 = (eqSetCoef s.params s.ctrl).eqB0
  eqB1     : s.ctrl.eqB1 = (eqSetCoef s.params s.ctrl).eqB1
  eqB2     : s.ctrl.eqB2 = (eqSetCoef s.params s.ctrl).eqB2
  eqA1     : s.ctrl.eqA1 = (eqSetCoef s.params s.ctrl).eqA1
  eqA2     : s.ctrl.eqA2 = (eqSetCoef s.params s.ctrl).eqA2
  chR1     : s.ctrl.chR1 = fdiv s.params.chRate s.ctrl.fs
  chR2     : s.ctrl.chR2 = fdiv (fmul s.ctrl.chR1 n11) n12
  chBase   : s.ctrl.chBase = fmul (fmul s.params.chDelay n1em3) s.ctrl.fs
  chDepthS : s.ctrl.chDepthS = fmul (fmul s.params.chDepth n1em3) s.ctrl.fs
  chLen    : s.ctrl.chLen = (floorInt s.ctrl.fs).toNat
  rvG      : s.ctrl.rvG = exp10N (fdiv (fmul nNeg3 rvPath) (fmul s.params.rvT60 s.ctrl.fs))
  f0       : ∀ v : Fin Config.nVoice,
    s.voices[v].f0 = voiceF0 s.ctrl.fs s.voices[v].pitch s.voices[v].bend
  oqk      : ∀ v : Fin Config.nVoice,
    s.voices[v].oqk = fadd (fdiv n1 s.params.reso) s.voices[v].k

/-! ### Structure (R35, R106) -/

/-- A memory in canonical form that lists no word at or beyond index `n`. -/
abbrev memOk (n : Nat) (m : Memory) : Prop := m.wf ∧ memBelow n m

/-- One oscillator: 1 <= np <= 128 (R35 (b)), tables inside their 128 words, and every stored step of a sounding partial at most QNYQ (R106). -/
structure OscInv (o : Osc) : Prop where
  np_pos  : 1 ≤ o.np
  np_le   : o.np ≤ Config.npMax
  amp     : memOk Config.npMax o.amp
  step    : memOk Config.npMax o.step
  ph      : memOk Config.npMax o.ph
  stepLe  : ∀ i, 1 ≤ i → i < o.np → fle (memRead o.step i) qNyq = true

/-- In Stop the counter and the level are 0 (R35 (c), (d)). -/
abbrev envAtRest (e : Env) : Prop := e.stage = .stop → e.rem = n0 ∧ e.lvl = n0

/-- The envelope is in Release or Stop. -/
abbrev releasing (e : Env) : Prop := e.stage = .release ∨ e.stage = .stop

/-- One voice: its oscillators, its envelopes at rest in Stop, and R35 (f), with Release beside Stop. -/
structure VoiceInv (v : Voice) : Prop where
  osc0 : OscInv v.osc0
  osc1 : OscInv v.osc1
  amp  : envAtRest v.amp
  flt  : envAtRest v.flt
  both : releasing v.amp → releasing v.flt

/-- One ring: canonical, inside its length, the head inside it (R35 (e)). -/
structure RingInv (len : Nat) (r : Ring) : Prop where
  mem  : memOk len r.mem
  head : r.head < len

/-- The effect chain: heads inside their rings (R35 (e)), memories canonical and inside their rings, the divider counter in its range (R30), and no subnormal word in a reverb line (R255). -/
structure FxInv (chLen : Nat) (fx : Fx) : Prop where
  divCnt : fx.divCnt ≤ 32766
  chBuf0 : memOk chLen fx.chBuf0
  chBuf1 : memOk chLen fx.chBuf1
  chHead : fx.chHead < chLen
  rv     : ∀ i : Fin 4, RingInv Config.rvLen[i] fx.rv[i]
  rvNorm : ∀ i : Fin 4, ∀ c ∈ fx.rv[i].mem, ¬ isSubnormal c.2
  ap     : ∀ j : Fin 8, RingInv Config.apLen[j] fx.ap[j]

/-- The structural invariant: the chorus ring length is that of C.FS and in 8000..192000 (R24), C.FS and P.DIV_N are in range, every voice and the effect chain as above. -/
structure StructInv (s : State) : Prop where
  fs     : inRange fsMin fsMax s.ctrl.fs
  divN   : s.params.divN ≤ 32767
  chLen  : s.ctrl.chLen = (floorInt s.ctrl.fs).toNat
  chMin  : 8000 ≤ s.ctrl.chLen
  chMax  : s.ctrl.chLen ≤ Config.chCap
  voices : ∀ v : Fin Config.nVoice, VoiceInv s.voices[v]
  fx     : FxInv s.ctrl.chLen s.fx

/-! ### Phases (R35 (a), with what keeps it) -/

/-- One oscillator's phases are in [0, 1) and the steps of its sounding partials in [0, QNYQ]. -/
structure OscPhaseInv (o : Osc) : Prop where
  phMem   : o.ph.wf
  stepMem : o.step.wf
  ampMem  : o.amp.wf
  ph      : ∀ i, inPhase (memRead o.ph i)
  step    : ∀ i, 1 ≤ i → i < o.np → inRange n0 qNyq (memRead o.step i)

/-- Every phase of the CORE is in [0, 1) (R35 (a)), in a state with legal parameters and current derived registers, whose bend multipliers are not negative. -/
structure PhaseInv (s : State) : Prop where
  params  : ParamInv s
  derived : DerivedInv s
  bendMul : fle n0 s.ctrl.bendMul = true
  bend    : ∀ v : Fin Config.nVoice, fle n0 s.voices[v].bend = true
  osc0    : ∀ v : Fin Config.nVoice, OscPhaseInv s.voices[v].osc0
  osc1    : ∀ v : Fin Config.nVoice, OscPhaseInv s.voices[v].osc1
  lfo     : ∀ v : Fin Config.nVoice, inPhase s.voices[v].lfo.ph
  chP1    : inPhase s.fx.chP1
  chP2    : inPhase s.fx.chP2

/-! ### Counters, levels and note factors (R25, R28, R29, R35 (c), R140) -/

/-- One envelope's counter, level and start level are in [0, 1] (R28, R35 (c), R140). -/
structure EnvInUnit (e : Env) : Prop where
  rem   : inRange n0 n1 e.rem
  lvl   : inRange n0 n1 e.lvl
  start : inRange n0 n1 e.start

/-- Every envelope's counter and levels (R28, R35 (c), R140), every LFO delay counter (R29) and every voice's velocity and velocity factor (R25) are in [0, 1], in a state with legal parameters and current derived registers. -/
structure CounterInv (s : State) : Prop where
  params  : ParamInv s
  derived : DerivedInv s
  amp     : ∀ v : Fin Config.nVoice, EnvInUnit s.voices[v].amp
  flt     : ∀ v : Fin Config.nVoice, EnvInUnit s.voices[v].flt
  dly     : ∀ v : Fin Config.nVoice, inRange n0 n1 s.voices[v].lfo.dly
  vel     : ∀ v : Fin Config.nVoice, inRange n0 n1 s.voices[v].vel
  velamp  : ∀ v : Fin Config.nVoice, inRange n0 n1 s.voices[v].velamp

/-! ### Runs: what the host takes and what commands do -/

/-- An output pair as the host takes it: `out_l`, `out_r`, `out_w32` (R82). -/
abbrev OutPair := BitVec 64 × BitVec 64 × Bool

/-- The pairs that the host takes in the next `n` steps, in order. -/
def takenPairs : Nat → State → List OutPair
  | 0, _ => []
  | n + 1, s =>
    match step s with
    | .next t => (takenPair s).toList ++ takenPairs n t
    | .fault _ => (takenPair s).toList
    | .refused _ => (takenPair s).toList

/-- The word that the CORE accepts in this step: the one offered while `cmd_ready` is 1 (R80). -/
def acceptedWord (s : State) : Option CmdWord := if cmdReady s then (pins s).cmd else none

/-- The words that the CORE accepts in the next `n` steps, in order. -/
def acceptedWords : Nat → State → List CmdWord
  | 0, _ => []
  | n + 1, s =>
    match step s with
    | .next t => (acceptedWord s).toList ++ acceptedWords n t
    | .fault _ => (acceptedWord s).toList
    | .refused _ => (acceptedWord s).toList

/-- The pair that waits to be taken, if one waits. -/
def waitingPair (s : State) : List OutPair := if s.outValid then [(outLPin s, outRPin s, s.outW32)] else []

/-- The state after a command word has been executed and its pair, if any, taken. -/
def afterCommand (w : CmdWord) (s : State) : State :=
  match exec (decode w) s with
  | .next t => pairTaken t
  | .fault _ => s
  | .refused _ => s

/-- The state after these command words. -/
def afterCommands (ws : List CmdWord) (s : State) : State := ws.foldl (fun s w => afterCommand w s) s

/-- Whether a command is a tick. -/
def isTick (i : Instr) : Bool := decide (i = .tick64 ∨ i = .tick32)

/-- Whether a command is a note-on. -/
def isNoteOn (i : Instr) : Bool :=
  match i with
  | .noteOn _ _ _ => true
  | _ => false

/-- The results of the ticks among these command words, in order. -/
def tickResults : List CmdWord → State → List OutPair
  | [], _ => []
  | w :: ws, s =>
    let t := afterCommand w s
    (if isTick (decode w) then [(outLPin t, outRPin t, t.outW32)] else []) ++ tickResults ws t

/-- The state with the mod wheel and the pedals blanked: what is left is all that any rule reads (R203, R204). -/
def eraseInert (s : State) : State :=
  { s with params := { s.params with modWheel := n0, pedal := Vector.replicate Config.nPedal n0 } }

/-- The outputs of the sample divider for a list of inputs (R220). -/
def divRun (n : Int) : List Stereo → Fx → List Stereo
  | [], _ => []
  | x :: xs, fx => (divProcess n x fx).2 :: divRun n xs (divProcess n x fx).1

/-! ### Correct rounding (R10) -/

/-- The largest finite binary64 value. -/
def largestFinite : ℚ := 2 ^ 1024 - 2 ^ 971

/-- The least magnitude that rounds to an infinity in binary64: halfway between the largest finite value and 2^1024. -/
def overflowBound : ℚ := 2 ^ 1024 - 2 ^ 970

/-- `y` is a finite value nearest to `x`, and of two nearest ones the one whose last bit is 0. -/
def isNearest (x : ℝ) (y : Num64) : Prop :=
  isFinite y = true ∧ ∀ z : Num64, isFinite z = true →
    |(valueOf y : ℝ) - x| ≤ |(valueOf z : ℝ) - x| ∧
    (|(valueOf y : ℝ) - x| = |(valueOf z : ℝ) - x| → valueOf z = valueOf y ∨ y.toNat % 2 = 0)

/-- `y` is `x` rounded to binary64, to nearest, ties to even, overflow to the infinity of the sign of `x` (R10). -/
def roundsTo (x : ℝ) (y : Num64) : Prop :=
  (|x| < (overflowBound : ℝ) → isNearest x y) ∧
  ((overflowBound : ℝ) ≤ |x| → isInf y = true ∧ (isNeg y = true ↔ x < 0))

/-! ### Binary32 (R12, R82) -/

/-- Bit 31: the sign. -/
def isNeg32 (y : Num32) : Bool := decide (2 ^ 31 ≤ y.toNat)

/-- Bits 30:0 as one integer. -/
def magBits32 (y : Num32) : Nat := y.toNat % 2 ^ 31

def isFinite32 (y : Num32) : Bool := decide (magBits32 y < infMag32)
def isInf32 (y : Num32) : Bool := decide (magBits32 y = infMag32)
def isNaN32 (y : Num32) : Bool := decide (infMag32 < magBits32 y)

/-- The real number that a finite binary32 pattern stands for: 8 exponent bits with bias 127, 23 fraction bits. -/
def valueOf32 (y : Num32) : ℚ :=
  let m := magBits32 y
  let mag : ℚ :=
    if m < 2 ^ 23 then (m : ℚ) * (2 : ℚ) ^ (-149 : ℤ)
    else ((m % 2 ^ 23 + 2 ^ 23 : ℕ) : ℚ) * (2 : ℚ) ^ (((m / 2 ^ 23 : ℕ) : ℤ) - 150)
  if isNeg32 y then -mag else mag

/-- The least magnitude that rounds to an infinity in binary32: halfway between the largest finite value and 2^128. -/
def overflowBound32 : ℚ := 2 ^ 128 - 2 ^ 103

/-- `y` is a finite binary32 value nearest to `x`, and of two nearest ones the one whose last bit is 0. -/
def isNearest32 (x : ℚ) (y : Num32) : Prop :=
  isFinite32 y = true ∧ ∀ z : Num32, isFinite32 z = true →
    |valueOf32 y - x| ≤ |valueOf32 z - x| ∧
    (|valueOf32 y - x| = |valueOf32 z - x| → valueOf32 z = valueOf32 y ∨ y.toNat % 2 = 0)

/-- `y` is `x` rounded to binary32, to nearest, ties to even, overflow to the infinity of the sign of `x` (R12). -/
def roundsTo32 (x : ℚ) (y : Num32) : Prop :=
  (|x| < overflowBound32 → isNearest32 x y) ∧
  (overflowBound32 ≤ |x| → isInf32 y = true ∧ (isNeg32 y = true ↔ x < 0))

end Sys2Proof.Machine
end

