-- ==== Sys2Proof/Certificates/Slice0/Obligations.lean ====
section
/-! DEFINITION. The statements about the Inharmonic CORE, in the order of OBLIGATIONS.json. Every one is a closed proposition over the model; a result statement writes the whole next state, so that it says that the command completes, what it writes and that it writes nothing else. -/

open Sys2Proof Sys2Proof.Machine

/-! ### Command words -/

/-- Decoding the word of a well-formed command gives the command back, for every operand (R81, R83, R85, R89, R90). -/
def Obligations.DecodeEncode : Prop :=
  ∀ i : Instr, i.wf = true → decode (encode i) = i

/-- Decode gives only well-formed commands, and it drops no bit that the format reads: encoding the decoded command gives back the opcode and every field of the format (R83, R85, R89). -/
def Obligations.DecodeFaithful : Prop :=
  (∀ w : CmdWord, (decode w).wf = true) ∧
  ∀ (w : CmdWord) (row : OpRow), row ∈ opcodeTable → row.op = opField w →
    operandsOk row (immField w) (valField w) = true →
    opField (encode (decode w)) = opField w ∧
    (row.fmt = .n → chField (encode (decode w)) = chField w ∧
      immField (encode (decode w)) = immField w ∧ valField (encode (decode w)) = valField w) ∧
    (row.fmt = .p → valField (encode (decode w)) = valField w) ∧
    (row.fmt = .i → immField (encode (decode w)) = immField w) ∧
    (row.fmt = .x → immField (encode (decode w)) = immField w ∧
      valField (encode (decode w)) = valField w)

/-- R87: the reserved opcodes, written out as the rule lists them, and a pedal index outside 0..2, change no state; fields that a format does not read have no effect; nothing traps. -/
def Obligations.ReservedAndUnread : Prop :=
  (∀ (w : CmdWord) (s : State),
    (let op := (opField w).toNat
     (0x04 ≤ op ∧ op ≤ 0x07) ∨ (0x0A ≤ op ∧ op ≤ 0x0F) ∨ (0x18 ≤ op ∧ op ≤ 0x1F) ∨ op = 0x26 ∨
     op = 0x27 ∨ op = 0x2E ∨ op = 0x2F ∨ (0x38 ≤ op ∧ op ≤ 0x3F) ∨ (0x44 ≤ op ∧ op ≤ 0x47) ∨
     (0x4C ≤ op ∧ op ≤ 0x4F) ∨ (0x52 ≤ op ∧ op ≤ 0xFF)) →
    decode w = .nop ∧ exec (decode w) s = .next s) ∧
  (∀ (w : CmdWord) (s : State), opField w = 0x16#8 →
    ((immField w).toInt < 0 ∨ 3 ≤ (immField w).toInt) →
    decode w = .nop ∧ exec (decode w) s = .next s ∧
      exec (.setPedal (immField w) (valField w)) s = .next s) ∧
  (∀ (w w' : CmdWord) (row : OpRow), row ∈ opcodeTable → row.op = opField w → opField w' = opField w →
    (row.fmt = .n → chField w' = chField w ∧ immField w' = immField w ∧ valField w' = valField w) →
    (row.fmt = .p → valField w' = valField w) →
    (row.fmt = .i → immField w' = immField w) →
    (row.fmt = .x → immField w' = immField w ∧ valField w' = valField w) →
    decode w' = decode w)

/-- R86 at the decoder: an infinite or NaN operand of a format P or X command or of NOTE_ON gives NOP; a NOTE_OFF is executed with any operand; a finite operand is never refused, whatever its value. -/
def Obligations.OperandCheck : Prop :=
  (∀ (row : OpRow) (ch : BitVec 8) (imm : BitVec 16) (val : Num64), row ∈ opcodeTable →
    (row.fmt = .p ∨ row.fmt = .x ∨ row.op = 0x08#8) → isFinite val = false →
    decode (packWord row.op ch imm val) = .nop) ∧
  (∀ (ch : BitVec 8) (imm : BitVec 16) (val : Num64),
    decode (packWord 0x09#8 ch imm val) = .noteOff ch imm val) ∧
  (∀ (row : OpRow) (ch : BitVec 8) (imm : BitVec 16) (val : Num64), row ∈ opcodeTable →
    (isFinite val = true ∨ row.fmt = .z ∨ row.fmt = .i) →
    (row.fmt = .x → 0 ≤ imm.toInt ∧ imm.toInt ≤ 2) →
    decode (packWord row.op ch imm val) = row.build ch imm val)

/-- R92: the eight worked encodings, word for word, decode to their commands and are their commands' encodings. -/
def Obligations.WorkedEncodings : Prop :=
  decode 0x080000453FF0000000000000#96 = .noteOn 0 0x0045#16 0x3FF0000000000000#64 ∧
  decode 0x090000450000000000000000#96 = .noteOff 0 0x0045#16 0x0000000000000000#64 ∧
  decode 0x020000000000000000000000#96 = .tick64 ∧
  decode 0x1000000040E5888000000000#96 = .setFs 0x40E5888000000000#64 ∧
  decode 0x2A0000010000000000000000#96 = .setFtype 1#16 ∧
  decode 0x400000030000000000000000#96 = .setDivN 3#16 ∧
  decode 0x160000003FF0000000000000#96 = .setPedal 0#16 0x3FF0000000000000#64 ∧
  decode 0x0800FFFF3FE0000000000000#96 = .noteOn 0 0xFFFF#16 0x3FE0000000000000#64 ∧
  encode (.noteOn 0 0x0045#16 0x3FF0000000000000#64) = 0x080000453FF0000000000000#96 ∧
  encode (.noteOff 0 0x0045#16 0x0000000000000000#64) = 0x090000450000000000000000#96 ∧
  encode .tick64 = 0x020000000000000000000000#96 ∧
  encode (.setFs 0x40E5888000000000#64) = 0x1000000040E5888000000000#96 ∧
  encode (.setFtype 1#16) = 0x2A0000010000000000000000#96 ∧
  encode (.setDivN 3#16) = 0x400000030000000000000000#96 ∧
  encode (.setPedal 0#16 0x3FF0000000000000#64) = 0x160000003FF0000000000000#96 ∧
  encode (.noteOn 0 0xFFFF#16 0x3FE0000000000000#64) = 0x0800FFFF3FE0000000000000#96 ∧
  pitchOf 0xFFFF#16 = 0

/-! ### Ports, steps and runs (the host's pins are the model's own data, log entry 6) -/

/-- A step in which the host offers a command word that the CORE can accept runs the decoded command, on the state with the host's pins moved on by one cycle; and the fetch that the host of this model uses offers such a word. -/
def Obligations.StepRunsDecoded : Prop :=
  (∀ (s : State) (w : CmdWord), (pins s).rst = false → (pins s).cmd = some w → s.outValid = false →
    cmdReady s = true ∧ step s = exec (decode w) { s with host := s.host.tail }) ∧
  (∀ (s : State) (nbits w : Nat),
    step (s.withFetchWord nbits w) =
      exec (decode (BitVec.ofNat 96 (w % 2 ^ nbits))) { s with outValid := false })

/-- The `rst` pin and the RESET command (R193, R273 (b), R291): while `rst` is 1 no command is accepted, no pair is offered or taken, and the step leaves the reset state, whatever was offered or waiting; RESET, opcode 0x01 (R85), leaves the same state and produces no pair. -/
def Obligations.ResetPinAndCommand : Prop :=
  (∀ s : State, (pins s).rst = true →
    cmdReady s = false ∧ outValidPin s = false ∧ takenPair s = none ∧
      step s = .next { State.reset with host := s.host.tail }) ∧
  (∀ (ch : BitVec 8) (imm : BitVec 16) (val : Num64), decode (packWord 0x01#8 ch imm val) = .reset) ∧
  (∀ s : State, exec .reset s = .next { State.reset with host := s.host }) ∧
  State.reset.outValid = false

/-- The output port (R80, R82): a waiting pair blocks commands, is taken in the cycle in which the host is ready and not before, and is presented as binary64 after TICK64 and as binary32 in bits 31:0 with zeros above after TICK32 (Binary32Rounding says what `rn32` gives). -/
def Obligations.OutputPort : Prop :=
  (∀ s : State, (pins s).rst = false → s.outValid = true →
    cmdReady s = false ∧ outValidPin s = true ∧
    ((pins s).outReady = true →
      takenPair s = some (outLPin s, outRPin s, s.outW32) ∧
      step s = .next { s with outValid := false, host := s.host.tail }) ∧
    ((pins s).outReady = false →
      takenPair s = none ∧ step s = .next { s with host := s.host.tail })) ∧
  (∀ s : State, s.outW32 = false → outLPin s = s.outL ∧ outRPin s = s.outR) ∧
  (∀ s : State, s.outW32 = true →
    (outLPin s).extractLsb' 0 32 = rn32 s.outL ∧ (outLPin s).extractLsb' 32 32 = 0 ∧
    (outRPin s).extractLsb' 0 32 = rn32 s.outR ∧ (outRPin s).extractLsb' 32 32 = 0)

/-- With no reset, no command and no waiting pair the CORE holds its state, however long (R284): `n` steps whose pins are all without `rst` and without a command leave everything as it was but the pins. -/
def Obligations.IdleHolds : Prop :=
  ∀ (n : Nat) (s : State), s.outValid = false →
    (∀ h ∈ s.host.take n, h.rst = false ∧ h.cmd = none) →
    Sys2Proof.core.run n s = .next { s with host := s.host.drop n }

/-- The CORE never stops (R270, R274, R279): every command completes in every state, and so does every step. -/
def Obligations.NeverStops : Prop :=
  (∀ (i : Instr) (s : State), ∃ t, exec i s = .next t) ∧ (∀ s : State, ∃ t, step s = .next t)

/-- Whatever the host does at its pins short of a reset (late to take a pair, offering a word while one waits, offering nothing): the CORE executes exactly the words it accepts, in that order, and the pairs the host has taken, with the one that still waits, are the one that waited at the start and then the tick results, in order, none lost and none repeated (R68, R80, R82). A host that offers the words of a program in turn and is ready in the cycle after each needs two steps a word. -/
def Obligations.PairsAreTickResults : Prop :=
  (∀ (n : Nat) (s : State), (∀ h ∈ s.host.take n, h.rst = false) →
    ∃ t, Sys2Proof.core.run n s = .next t ∧
      pairTaken t = { pairTaken (afterCommands (acceptedWords n s) s) with host := s.host.drop n } ∧
      takenPairs n s ++ waitingPair t = waitingPair s ++ tickResults (acceptedWords n s) s) ∧
  (∀ (ws : List CmdWord) (s : State) (later : List HostCycle), s.outValid = false →
    let s0 := { s with host := hostProgram ws ++ later }
    acceptedWords (2 * ws.length) s0 = ws ∧
    Sys2Proof.core.run (2 * ws.length) s0 = .next { afterCommands ws s with host := later } ∧
    takenPairs (2 * ws.length) s0 = tickResults ws s)

/-! ### Reset -/

/-- The values after reset (R22, R24 to R31, R36, R290, R292): every parameter register, every derived register (the EQ is the 0 dB EQ), every voice (26 partials of 440/44100 in both oscillators, zero phases), the whole effect chain, and no output pending. -/
def Obligations.ResetValues : Prop :=
  State.reset.params =
    { volume := n1, expression := n1, bendRange := n2, bend := n0, modWheel := n0
      pedal := #v[n0, n0, n0], velSens := n0, inharm := n0, oscMix := n0, randPhase := false
      vibDepth := n0, vibRate := n5, vibDelay := n0, cutoff := n1000, reso := n1, ftype := 0
      fiter := false, fenvAmt := n0, keyFollow := n0
      amp := ⟨n0, n0, n1, n0⟩, flt := ⟨n0, n0, n1, n0⟩, divN := 1
      eqFreq := n1000, eqGain := n0, eqQ := n1, chRate := nHalf, chDepth := n0, chDelay := n0
      chMix := n0, rvT60 := n1, rvMix := n0 } ∧
  (let c := State.reset.ctrl
   c.fs = 0x40E5888000000000#64 ∧ c.gain = n1 ∧ c.bendMul = n1 ∧
   c.amp = ⟨n1, n1, n1⟩ ∧ c.flt = ⟨n1, n1, n1⟩ ∧ c.lfoDStep = n1 ∧ c.lfoFStep = fdiv n5 c.fs ∧
   c.eqB0 = n1 ∧ c.eqB1 = c.eqA1 ∧ c.eqB2 = c.eqA2 ∧
   c.chLen = 44100 ∧ c.chR1 = fdiv nHalf c.fs ∧ c.chR2 = fdiv (fmul c.chR1 n11) n12 ∧
   c.chBase = n0 ∧ c.chDepthS = n0 ∧
   c.rvG = exp10N (fdiv (fmul nNeg3 0x40B2158000000000#64) (fmul n1 c.fs))) ∧
  (∀ v : Fin Config.nVoice,
    let w := State.reset.voices[v]
    w.pitch = 69 ∧ w.vel = n0 ∧ w.bend = n1 ∧ w.f0 = fdiv n440 0x40E5888000000000#64 ∧
    w.velamp = n1 ∧ w.keyf = n0 ∧
    (∀ o : Osc, o = w.osc0 ∨ o = w.osc1 → o.np = 26 ∧ (∀ i, memRead o.ph i = n0) ∧
      (∀ i, 1 ≤ i → i < 26 →
        memRead o.step i = fmul (ofInt i) w.f0 ∧ memRead o.amp i = fdiv n1 (ofInt i)) ∧
      (∀ i, i = 0 ∨ 26 ≤ i → memRead o.step i = n0 ∧ memRead o.amp i = n0)) ∧
    w.k = fmul n2 (sinN (fdiv (fmul nPi n1000) 0x40E5888000000000#64)) ∧ w.oqk = fadd n1 w.k ∧
    w.s0 = n0 ∧ w.s1 = n0 ∧ w.s2 = n0 ∧ w.s3 = n0 ∧
    w.amp = ⟨.stop, n0, n0, n0⟩ ∧ w.flt = ⟨.stop, n0, n0, n0⟩ ∧ w.lfo = ⟨n0, n0⟩) ∧
  (let fx := State.reset.fx
   fx.divCnt = 0 ∧ fx.divH = ⟨n0, n0⟩ ∧ fx.eqZ1 = ⟨n0, n0⟩ ∧ fx.eqZ2 = ⟨n0, n0⟩ ∧
   fx.chBuf0 = [] ∧ fx.chBuf1 = [] ∧ fx.chHead = 0 ∧ fx.chP1 = n0 ∧ fx.chP2 = n0 ∧
   (∀ i : Fin 4, fx.rv[i].mem = [] ∧ fx.rv[i].head = 0) ∧
   (∀ j : Fin 8, fx.ap[j].mem = [] ∧ fx.ap[j].head = 0)) ∧
  (∀ i, memRead [] i = n0) ∧
  State.reset.outL = n0 ∧ State.reset.outR = n0 ∧ State.reset.outW32 = false ∧
  State.reset.outValid = false

/-- A tick right after reset gives (0, 0), in both widths, whatever the unpinned values of SIN, COS, EXP2 and EXP10 are (R193, R195, R292). -/
def Obligations.FirstTickSilent : Prop :=
  ∀ (h : List HostCycle) (i : Instr) (t : State), i = .tick64 ∨ i = .tick32 →
    exec i { State.reset with host := h } = .next t →
    t.outL = n0 ∧ t.outR = n0 ∧ outLPin t = 0 ∧ outRPin t = 0

/-- The five invariants hold after reset (R22, R24, R25, R28, R29, R35, R290): parameters, derived registers, structure, phases, and counters with levels and note factors. That every memory is in canonical form is the model's clause (log entry 7). -/
def Obligations.ResetMeetsInvariants : Prop :=
  ParamInv State.reset ∧ DerivedInv State.reset ∧ StructInv State.reset ∧ PhaseInv State.reset ∧
  CounterInv State.reset

/-! ### System commands -/

/-- R192: NOP, opcode 0x00 with any other fields (R85), changes nothing; reserved opcodes and refused operands behave as NOP. A NOP between two ticks leaves both results as they would be without it. -/
def Obligations.NopAndIgnored : Prop :=
  (∀ (ch : BitVec 8) (imm : BitVec 16) (val : Num64), decode (packWord 0x00#8 ch imm val) = .nop) ∧
  (∀ s : State, exec .nop s = .next s) ∧
  (∀ (w : CmdWord) (s : State), (∀ row ∈ opcodeTable, row.op ≠ opField w) →
    exec (decode w) s = .next s) ∧
  (∀ (i : Instr) (s : State), i.wf = false → exec i s = .next s) ∧
  (∀ (s t u : State), exec .tick64 s = .next t → exec .nop t = .next u →
    exec .tick64 u = exec .tick64 t)

/-- TICK64 and TICK32 (R195, R196; opcodes 0x02 and 0x03, R85) complete and write exactly this: every voice its VoiceProcess, the effects in the order divider, EQ, chorus, reverb on the voices' sum (index order, from 0) times C.GAIN on both channels, the outputs, the width and the waiting pair. The two differ in OUT_W32 alone. -/
def Obligations.TickCommands : Prop :=
  (∀ (ch : BitVec 8) (imm : BitVec 16) (val : Num64),
    decode (packWord 0x02#8 ch imm val) = .tick64 ∧ decode (packWord 0x03#8 ch imm val) = .tick32) ∧
  ∀ s : State,
    let outs := s.voices.map (voiceProcess s.params s.ctrl)
    let m := fmul ((outs.toList.map Prod.snd).foldl fadd n0) s.ctrl.gain
    let d := divProcess s.params.divN ⟨m, m⟩ s.fx
    let e := eqProcess s.ctrl d.2 d.1
    let h := chProcess s.params s.ctrl e.2 e.1
    let r := rvProcess s.params s.ctrl h.2 h.1
    exec .tick64 s = .next
      { s with voices := outs.map Prod.fst, fx := r.1, outL := r.2.left, outR := r.2.right
               outW32 := false, outValid := true } ∧
    exec .tick32 s = .next
      { s with voices := outs.map Prod.fst, fx := r.1, outL := r.2.left, outR := r.2.right
               outW32 := true, outValid := true }

/-- SET_FS (R194) completes for a finite operand and writes exactly this: the clamped rate, every rate-dependent register, every voice's f0, partial tables and coefficients, and zero filter accumulators and effect state; the parameters, C.GAIN, C.BENDMUL, the voices' notes, envelopes, LFOs and phases, and the outputs are kept. -/
def Obligations.SetFs : Prop :=
  ∀ (s : State) (val : Num64) (ch : BitVec 8) (imm : BitVec 16), isFinite val = true →
    decode (packWord 0x10#8 ch imm val) = .setFs val ∧
    (let f := clamp val 0x40BF400000000000#64 0x4107700000000000#64
     let p := s.params
     let eq := eqSetCoef p { s.ctrl with fs := f }
     exec (.setFs val) s = .next
      { s with
        ctrl :=
          { fs := f, gain := s.ctrl.gain, bendMul := s.ctrl.bendMul
            amp := ⟨envRate f p.amp.attack, envRate f p.amp.decay, envRate f p.amp.release⟩
            flt := ⟨envRate f p.flt.attack, envRate f p.flt.decay, envRate f p.flt.release⟩
            lfoDStep := envRate f p.vibDelay, lfoFStep := fdiv p.vibRate f
            eqB0 := eq.eqB0, eqB1 := eq.eqB1, eqB2 := eq.eqB2, eqA1 := eq.eqA1, eqA2 := eq.eqA2
            chR1 := fdiv p.chRate f, chR2 := fdiv (fmul (fdiv p.chRate f) n11) n12
            chBase := fmul (fmul p.chDelay n1em3) f, chDepthS := fmul (fmul p.chDepth n1em3) f
            chLen := (floorInt f).toNat
            rvG := exp10N (fdiv (fmul nNeg3 rvPath) (fmul p.rvT60 f)) }
        voices := s.voices.map fun v =>
          { v with
            f0 := voiceF0 f v.pitch v.bend
            osc0 := oscSetFreq (voiceF0 f v.pitch v.bend) n0 v.osc0
            osc1 := oscSetFreq (voiceF0 f v.pitch v.bend) p.inharm v.osc1
            k := svfK f p.cutoff, oqk := fadd (fdiv n1 p.reso) (svfK f p.cutoff)
            s0 := n0, s1 := n0, s2 := n0, s3 := n0 }
        fx :=
          { divCnt := 0, divH := ⟨n0, n0⟩, eqZ1 := ⟨n0, n0⟩, eqZ2 := ⟨n0, n0⟩
            chBuf0 := [], chBuf1 := [], chHead := 0, chP1 := n0, chP2 := n0
            rv := #v[⟨[], 0⟩, ⟨[], 0⟩, ⟨[], 0⟩, ⟨[], 0⟩]
            ap := #v[⟨[], 0⟩, ⟨[], 0⟩, ⟨[], 0⟩, ⟨[], 0⟩, ⟨[], 0⟩, ⟨[], 0⟩, ⟨[], 0⟩, ⟨[], 0⟩] } })

/-! ### Notes -/

/-- NOTE_ON (R173, R191, R197) completes for a finite velocity. With no free and no releasing voice nothing changes; otherwise the first free voice, or with none free the first releasing one, takes the note, and exactly its registers are written: the clamped pitch and velocity, the bend, the two cached factors, f0 and both tables, all phases, the coefficients at the base cutoff, the four accumulators, both envelopes to Attack from their current levels, and the LFO. The channel has no effect. -/
def Obligations.NoteOn : Prop :=
  ∀ (s : State) (ch : BitVec 8) (imm : BitVec 16) (val : Num64), isFinite val = true →
    decode (packWord 0x08#8 ch imm val) = .noteOn ch imm val ∧
    ((∀ v : Fin Config.nVoice, s.voices[v].amp.stage ≠ .stop ∧ s.voices[v].amp.stage ≠ .release) →
      exec (.noteOn ch imm val) s = .next s) ∧
    (∀ (v : Fin Config.nVoice) (pitch : Fin 128), (pitch.val : Int) = iclamp imm.toInt 0 127 →
      ((s.voices[v].amp.stage = .stop ∧ ∀ u, u < v → s.voices[u].amp.stage ≠ .stop) ∨
       ((∀ u : Fin Config.nVoice, s.voices[u].amp.stage ≠ .stop) ∧
        s.voices[v].amp.stage = .release ∧ ∀ u, u < v → s.voices[u].amp.stage ≠ .release)) →
      (let w := s.voices[v]
       let vel := clamp val n0 n1
       let oct := fdiv (ofInt ((pitch.val : Int) - 69)) n12
       let f0 := fmul (fdiv (fmul n440 (exp2N oct)) s.ctrl.fs) s.ctrl.bendMul
       exec (.noteOn ch imm val) s = .next
        { s with voices := s.voices.set v (
          { pitch := pitch, vel := vel, bend := s.ctrl.bendMul, f0 := f0
            velamp := fsub n1 (fmul s.params.velSens (fsub n1 vel))
            keyf := fmul s.params.keyFollow oct
            osc0 := oscReset v.val 0 s.params.randPhase (oscSetFreq f0 n0 w.osc0)
            osc1 := oscReset v.val 1 s.params.randPhase (oscSetFreq f0 s.params.inharm w.osc1)
            k := svfK s.ctrl.fs s.params.cutoff
            oqk := fadd (fdiv n1 s.params.reso) (svfK s.ctrl.fs s.params.cutoff)
            s0 := n0, s1 := n0, s2 := n0, s3 := n0
            amp := { stage := .attack, rem := n1, lvl := w.amp.lvl, start := w.amp.lvl }
            flt := { stage := .attack, rem := n1, lvl := w.flt.lvl, start := w.flt.lvl }
            lfo := { dly := n1, ph := nQuarter } } : Voice) }))

/-- NOTE_OFF (R174, R198) completes for every operand, an infinite or NaN velocity included: every voice that plays the clamped pitch and is not free gets EnvNoteOff on both envelopes, and nothing else changes. Channel and velocity have no effect. -/
def Obligations.NoteOff : Prop :=
  ∀ (s : State) (ch : BitVec 8) (imm : BitVec 16) (val : Num64) (pitch : Fin 128),
    (pitch.val : Int) = iclamp imm.toInt 0 127 →
    decode (packWord 0x09#8 ch imm val) = .noteOff ch imm val ∧
    exec (.noteOff ch imm val) s = .next
      { s with voices := s.voices.map fun v =>
          if v.pitch = pitch ∧ v.amp.stage ≠ .stop then
            { v with amp := envNoteOff v.amp, flt := envNoteOff v.flt }
          else v }

/-! ### Parameter commands -/

/-- SET_VOLUME and SET_EXPRESSION (R199, R200) complete for a finite operand and write their register and C.GAIN, nothing else. -/
def Obligations.VolumeAndExpression : Prop :=
  ∀ (s : State) (val : Num64) (ch : BitVec 8) (imm : BitVec 16), isFinite val = true →
    decode (packWord 0x11#8 ch imm val) = .setVolume val ∧
    exec (.setVolume val) s = .next
      { s with
        params := { s.params with volume := fmax val n0 }
        ctrl := { s.ctrl with gain := fmul (fmax val n0) s.params.expression } } ∧
    decode (packWord 0x12#8 ch imm val) = .setExpression val ∧
    exec (.setExpression val) s = .next
      { s with
        params := { s.params with expression := clamp val n0 n1 }
        ctrl := { s.ctrl with gain := fmul s.params.volume (clamp val n0 n1) } }

/-- SET_BEND_RANGE and SET_BEND (R201, R202) complete for a finite operand: the range is stored and nothing else changes; the bend writes C.BENDMUL and every voice's bend, f0 and tables, with the range current then. -/
def Obligations.PitchBend : Prop :=
  ∀ (s : State) (val : Num64) (ch : BitVec 8) (imm : BitVec 16), isFinite val = true →
    decode (packWord 0x13#8 ch imm val) = .setBendRange val ∧
    exec (.setBendRange val) s = .next
      { s with params := { s.params with bendRange := clamp val n0 n48 } } ∧
    decode (packWord 0x14#8 ch imm val) = .setBend val ∧
    (let mul := exp2N (fdiv (fmul (clamp val nNeg1 n1) s.params.bendRange) n12)
     exec (.setBend val) s = .next
      { s with
        params := { s.params with bend := clamp val nNeg1 n1 }
        ctrl := { s.ctrl with bendMul := mul }
        voices := s.voices.map fun v =>
          { v with
            bend := mul
            f0 := voiceF0 s.ctrl.fs v.pitch mul
            osc0 := oscSetFreq (voiceF0 s.ctrl.fs v.pitch mul) n0 v.osc0
            osc1 := oscSetFreq (voiceF0 s.ctrl.fs v.pitch mul) s.params.inharm v.osc1 } })

/-- SET_MODWHEEL, SET_PEDAL and SET_VELSENS (R183, R203, R204) complete for a finite operand and write their one register, nothing else; a pedal index outside 0..2 writes nothing. -/
def Obligations.StoredControls : Prop :=
  ∀ (s : State) (val : Num64) (ch : BitVec 8) (imm : BitVec 16), isFinite val = true →
    decode (packWord 0x15#8 ch imm val) = .setModwheel val ∧
    exec (.setModwheel val) s = .next
      { s with params := { s.params with modWheel := clamp val n0 n1 } } ∧
    decode (packWord 0x17#8 ch imm val) = .setVelsens val ∧
    exec (.setVelsens val) s = .next
      { s with params := { s.params with velSens := clamp val n0 n1 } } ∧
    (∀ k : Fin 3, (k.val : Int) = imm.toInt →
      decode (packWord 0x16#8 ch imm val) = .setPedal imm val ∧
      exec (.setPedal imm val) s = .next
        { s with params :=
          { s.params with pedal := s.params.pedal.set k (clamp val n0 n1) } }) ∧
    ((imm.toInt < 0 ∨ 3 ≤ imm.toInt) → exec (.setPedal imm val) s = .next s)

/-- SET_INHARM, SET_OSCMIX, SET_RANDPHASE and the vibrato parameters (R110, R111, R165 to R167, R180) complete for a finite operand and write exactly this. SET_INHARM rebuilds the table of oscillator 1 of every voice. -/
def Obligations.OscillatorParams : Prop :=
  ∀ (s : State) (val : Num64) (ch : BitVec 8) (imm : BitVec 16), isFinite val = true →
    decode (packWord 0x20#8 ch imm val) = .setInharm val ∧
    exec (.setInharm val) s = .next
      { s with
        params := { s.params with inharm := fmax val n0 }
        voices := s.voices.map fun v => { v with osc1 := oscSetFreq v.f0 (fmax val n0) v.osc1 } } ∧
    decode (packWord 0x21#8 ch imm val) = .setOscmix val ∧
    exec (.setOscmix val) s = .next
      { s with params := { s.params with oscMix := clamp val n0 n1 } } ∧
    decode (packWord 0x22#8 ch imm val) = .setRandphase imm ∧
    exec (.setRandphase imm) s = .next
      { s with params := { s.params with randPhase := decide (imm ≠ 0) } } ∧
    decode (packWord 0x23#8 ch imm val) = .setVibDepth val ∧
    exec (.setVibDepth val) s = .next
      { s with params := { s.params with vibDepth := clamp val n0 n1200 } } ∧
    decode (packWord 0x24#8 ch imm val) = .setVibRate val ∧
    exec (.setVibRate val) s = .next
      { s with
        params := { s.params with vibRate := fmax val n0 }
        ctrl := { s.ctrl with lfoFStep := fdiv (fmax val n0) s.ctrl.fs } } ∧
    decode (packWord 0x25#8 ch imm val) = .setVibDelay val ∧
    exec (.setVibDelay val) s = .next
      { s with
        params := { s.params with vibDelay := val }
        ctrl := { s.ctrl with lfoDStep := envRate s.ctrl.fs val } }

/-- SET_CUTOFF, SET_RESO, SET_FTYPE and SET_FITER (R125 to R128) complete for a finite operand and write exactly this: the cutoff is stored raw and both coefficients of every voice follow; the floored Q rewrites OQK of every voice from its current K; type and second-stage flag are stored alone. SvfSetFreq, for every rate, Q and operand, is the two formulas of R121 on the clamped cutoff. -/
def Obligations.FilterParams : Prop :=
  (∀ (s : State) (val : Num64) (ch : BitVec 8) (imm : BitVec 16), isFinite val = true →
    decode (packWord 0x28#8 ch imm val) = .setCutoff val ∧
    exec (.setCutoff val) s = .next
      { s with
        params := { s.params with cutoff := val }
        voices := s.voices.map fun v =>
          { v with
            k := svfK s.ctrl.fs val
            oqk := fadd (fdiv n1 s.params.reso) (svfK s.ctrl.fs val) } } ∧
    decode (packWord 0x29#8 ch imm val) = .setReso val ∧
    exec (.setReso val) s = .next
      { s with
        params := { s.params with reso := fmax val n1em3 }
        voices := s.voices.map fun v =>
          { v with oqk := fadd (fdiv n1 (fmax val n1em3)) v.k } } ∧
    decode (packWord 0x2A#8 ch imm val) = .setFtype imm ∧
    (∀ k : Fin 3, (k.val : Int) = iclamp imm.toInt 0 2 →
      exec (.setFtype imm) s = .next { s with params := { s.params with ftype := k } }) ∧
    decode (packWord 0x2B#8 ch imm val) = .setFiter imm ∧
    exec (.setFiter imm) s = .next
      { s with params := { s.params with fiter := decide (imm ≠ 0) } }) ∧
  (∀ (p : Params) (c : Ctrl) (f : Num64) (v : Voice),
    let fc := clamp f n20 (fmul n0p9 (fdiv c.fs n2))
    let k := fmul n2 (sinN (fdiv (fmul nPi fc) c.fs))
    svfK c.fs f = k ∧ svfSetFreq p c f v = { v with k := k, oqk := fadd (fdiv n1 p.reso) k })

/-- SET_FENV_AMT and SET_KEYFOLLOW (R181, R182) complete for a finite operand: the first is clamped and puts every voice's coefficients back at the base cutoff; the second is clamped and stored, and sounding voices keep their cached factor. -/
def Obligations.FilterModulation : Prop :=
  ∀ (s : State) (val : Num64) (ch : BitVec 8) (imm : BitVec 16), isFinite val = true →
    decode (packWord 0x2C#8 ch imm val) = .setFenvAmt val ∧
    exec (.setFenvAmt val) s = .next
      { s with
        params := { s.params with fenvAmt := clamp val nNeg64 n64 }
        voices := s.voices.map fun v =>
          { v with
            k := svfK s.ctrl.fs s.params.cutoff
            oqk := fadd (fdiv n1 s.params.reso) (svfK s.ctrl.fs s.params.cutoff) } } ∧
    decode (packWord 0x2D#8 ch imm val) = .setKeyfollow val ∧
    exec (.setKeyfollow val) s = .next
      { s with params := { s.params with keyFollow := clamp val nNeg64 n64 } }

/-- The eight envelope commands (R147 to R154) complete for a finite operand and write exactly this: a time is stored raw with its rate, a sustain level is clamped and stored alone. Running envelopes are not touched. -/
def Obligations.EnvelopeParams : Prop :=
  ∀ (s : State) (val : Num64) (ch : BitVec 8) (imm : BitVec 16), isFinite val = true →
    decode (packWord 0x30#8 ch imm val) = .setAmpAttack val ∧
    exec (.setAmpAttack val) s = .next
      { s with
        params := { s.params with amp := { s.params.amp with attack := val } }
        ctrl := { s.ctrl with amp := { s.ctrl.amp with ra := envRate s.ctrl.fs val } } } ∧
    decode (packWord 0x31#8 ch imm val) = .setAmpDecay val ∧
    exec (.setAmpDecay val) s = .next
      { s with
        params := { s.params with amp := { s.params.amp with decay := val } }
        ctrl := { s.ctrl with amp := { s.ctrl.amp with rd := envRate s.ctrl.fs val } } } ∧
    decode (packWord 0x32#8 ch imm val) = .setAmpSustain val ∧
    exec (.setAmpSustain val) s = .next
      { s with params := { s.params with amp := { s.params.amp with sustain := clamp val n0 n1 } } } ∧
    decode (packWord 0x33#8 ch imm val) = .setAmpRelease val ∧
    exec (.setAmpRelease val) s = .next
      { s with
        params := { s.params with amp := { s.params.amp with release := val } }
        ctrl := { s.ctrl with amp := { s.ctrl.amp with rr := envRate s.ctrl.fs val } } } ∧
    decode (packWord 0x34#8 ch imm val) = .setFltAttack val ∧
    exec (.setFltAttack val) s = .next
      { s with
        params := { s.params with flt := { s.params.flt with attack := val } }
        ctrl := { s.ctrl with flt := { s.ctrl.flt with ra := envRate s.ctrl.fs val } } } ∧
    decode (packWord 0x35#8 ch imm val) = .setFltDecay val ∧
    exec (.setFltDecay val) s = .next
      { s with
        params := { s.params with flt := { s.params.flt with decay := val } }
        ctrl := { s.ctrl with flt := { s.ctrl.flt with rd := envRate s.ctrl.fs val } } } ∧
    decode (packWord 0x36#8 ch imm val) = .setFltSustain val ∧
    exec (.setFltSustain val) s = .next
      { s with params := { s.params with flt := { s.params.flt with sustain := clamp val n0 n1 } } } ∧
    decode (packWord 0x37#8 ch imm val) = .setFltRelease val ∧
    exec (.setFltRelease val) s = .next
      { s with
        params := { s.params with flt := { s.params.flt with release := val } }
        ctrl := { s.ctrl with flt := { s.ctrl.flt with rr := envRate s.ctrl.fs val } } }

/-- SET_DIV_N and the EQ commands (R221, R224, R226 to R228) complete for a finite operand: the factor is stored raw with counter and held samples kept; each EQ command stores its register and recomputes the five coefficients, which are the formulas of R224, and keeps the EQ state. -/
def Obligations.DividerAndEqParams : Prop :=
  (∀ (s : State) (val : Num64) (ch : BitVec 8) (imm : BitVec 16), isFinite val = true →
    decode (packWord 0x40#8 ch imm val) = .setDivN imm ∧
    exec (.setDivN imm) s = .next { s with params := { s.params with divN := imm.toInt } } ∧
    decode (packWord 0x41#8 ch imm val) = .setEqFreq val ∧
    (let p := { s.params with eqFreq := val }
     exec (.setEqFreq val) s = .next { s with params := p, ctrl := eqSetCoef p s.ctrl }) ∧
    decode (packWord 0x42#8 ch imm val) = .setEqGain val ∧
    (let p := { s.params with eqGain := clamp val nNeg120 n120 }
     exec (.setEqGain val) s = .next { s with params := p, ctrl := eqSetCoef p s.ctrl }) ∧
    decode (packWord 0x43#8 ch imm val) = .setEqQ val ∧
    (let p := { s.params with eqQ := val }
     exec (.setEqQ val) s = .next { s with params := p, ctrl := eqSetCoef p s.ctrl })) ∧
  (∀ (p : Params) (c : Ctrl),
    let f := clamp p.eqFreq n20 (fmul n0p9 (fdiv c.fs n2))
    let a := exp10N (fdiv p.eqGain n40)
    let w := fdiv (fmul (fmul n2 nPi) f) c.fs
    let alpha := fdiv (sinN w) (fmul n2 (fmax p.eqQ n1em3))
    let a0 := fadd n1 (fdiv alpha a)
    eqSetCoef p c =
      { c with
        eqB0 := fdiv (fadd n1 (fmul alpha a)) a0
        eqB1 := fdiv (fmul nNeg2 (cosN w)) a0
        eqB2 := fdiv (fsub n1 (fmul alpha a)) a0
        eqA1 := fdiv (fmul nNeg2 (cosN w)) a0
        eqA2 := fdiv (fsub n1 (fdiv alpha a)) a0 })

/-- The chorus commands (R231, R234 to R237) complete for a finite operand: rate, depth and delay are floored at 0 and all five chorus registers are recomputed from the parameters and C.FS; the mix is clamped and stored alone. Rings, head and phases are kept. -/
def Obligations.ChorusParams : Prop :=
  (∀ (s : State) (val : Num64) (ch : BitVec 8) (imm : BitVec 16), isFinite val = true →
    decode (packWord 0x48#8 ch imm val) = .setChRate val ∧
    (let p := { s.params with chRate := fmax val n0 }
     exec (.setChRate val) s = .next { s with params := p, ctrl := chSetCoef p s.ctrl }) ∧
    decode (packWord 0x49#8 ch imm val) = .setChDepth val ∧
    (let p := { s.params with chDepth := fmax val n0 }
     exec (.setChDepth val) s = .next { s with params := p, ctrl := chSetCoef p s.ctrl }) ∧
    decode (packWord 0x4A#8 ch imm val) = .setChDelay val ∧
    (let p := { s.params with chDelay := fmax val n0 }
     exec (.setChDelay val) s = .next { s with params := p, ctrl := chSetCoef p s.ctrl }) ∧
    decode (packWord 0x4B#8 ch imm val) = .setChMix val ∧
    exec (.setChMix val) s = .next
      { s with params := { s.params with chMix := clamp val n0 n1 } }) ∧
  (∀ (p : Params) (c : Ctrl), chSetCoef p c =
    { c with
      chLen := (floorInt c.fs).toNat
      chR1 := fdiv p.chRate c.fs
      chR2 := fdiv (fmul (fdiv p.chRate c.fs) n11) n12
      chBase := fmul (fmul p.chDelay n1em3) c.fs
      chDepthS := fmul (fmul p.chDepth n1em3) c.fs })

/-- SET_RV_T60 and SET_RV_MIX (R251, R258, R259) complete for a finite operand: the decay time is floored at 1e-3 and C.RV_G follows; the mix is clamped and stored alone. The delay memories are kept. -/
def Obligations.ReverbParams : Prop :=
  ∀ (s : State) (val : Num64) (ch : BitVec 8) (imm : BitVec 16), isFinite val = true →
    decode (packWord 0x50#8 ch imm val) = .setRvT60 val ∧
    exec (.setRvT60 val) s = .next
      { s with
        params := { s.params with rvT60 := fmax val n1em3 }
        ctrl := { s.ctrl with
          rvG := exp10N (fdiv (fmul nNeg3 0x40B2158000000000#64) (fmul (fmax val n1em3) s.ctrl.fs)) } } ∧
    decode (packWord 0x51#8 ch imm val) = .setRvMix val ∧
    exec (.setRvMix val) s = .next
      { s with params := { s.params with rvMix := clamp val n0 n1 } }

/-! ### Oscillators and tables -/

/-- OscSetFreq (R104 to R106) on canonical tables: the partial count is in 1..128; every partial below it has its step `r_i * f0`, at most QNYQ, and its amplitude `1 / r_i`; every other entry and every phase is kept; and a count below 128 means that the next partial's step is not at most QNYQ. -/
def Obligations.OscSetFreqTable : Prop :=
  ∀ (f0 b : Num64) (o : Osc), o.step.wf → o.amp.wf →
    let t := oscSetFreq f0 b o
    let r := fun i : Nat => fmul (ofInt i) (fsqrt (fadd n1 (fmul b (fmul (ofInt i) (ofInt i)))))
    1 ≤ t.np ∧ t.np ≤ 128 ∧ t.ph = o.ph ∧
    (∀ i, 1 ≤ i → i < t.np → memRead t.step i = fmul (r i) f0 ∧ memRead t.amp i = fdiv n1 (r i) ∧
      fle (memRead t.step i) qNyq = true) ∧
    (∀ i, i = 0 ∨ t.np ≤ i → memRead t.step i = memRead o.step i ∧ memRead t.amp i = memRead o.amp i) ∧
    (t.np < 128 → fle (fmul (r t.np) f0) qNyq = false)

/-- R107: OscReset writes all 128 phases, not only those below the count, with the voice's random phases or with 0, and nothing else. -/
def Obligations.OscResetPhases : Prop :=
  ∀ (v oi : Nat) (random : Bool) (o : Osc), o.ph.wf →
    let t := oscReset v oi random o
    t.np = o.np ∧ t.amp = o.amp ∧ t.step = o.step ∧
    (∀ i, i < 128 → memRead t.ph i = if random then rndPh v oi i else n0) ∧
    (∀ i, 128 ≤ i → memRead t.ph i = memRead o.ph i)

/-- OscProcess (R108): every sounding partial's phase is advanced by its step times the multiplier and wrapped; the result is the sum, from 0 in ascending order, of amplitude times the table value at the advanced phase; tables, count and the other phases are kept. -/
def Obligations.OscProcessSum : Prop :=
  ∀ (m : Num64) (o : Osc), o.ph.wf →
    let t := oscProcess m o
    let p := fun i => frac (fadd (memRead o.ph i) (fmul (memRead o.step i) m))
    t.1.np = o.np ∧ t.1.amp = o.amp ∧ t.1.step = o.step ∧
    (∀ i, 1 ≤ i → i < o.np → memRead t.1.ph i = p i) ∧
    (∀ i, i = 0 ∨ o.np ≤ i → memRead t.1.ph i = memRead o.ph i) ∧
    t.2 = (List.range' 1 (o.np - 1)).foldl
      (fun acc i => fadd acc (fmul (memRead o.amp i) (cosLookup (p i)))) n0

/-- The vocabulary of numbers (R10, R12). Wrapping: for a finite `p >= 0`, `floor` is the integer part, and `frac` is exact and lies in [0, 1). Comparisons are those of the values, an infinity standing for +-2^1024, beyond every finite number, and are false with a NaN. `max`, `min`, `clamp` and `iclamp` select as R12 writes them, a NaN clamping to the lower bound. `ToNum` is exact below 2^53. The literals of the rules are their numbers, or the nearest ones (log entry 19), and the parameters of R7 and R8 have their values (log entry 5). -/
def Obligations.FracWraps : Prop :=
  (∀ p : Num64, isFinite p = true → fle n0 p = true →
    (floorInt p : ℚ) ≤ valueOf p ∧ valueOf p < floorInt p + 1 ∧
    valueOf (frac p) = valueOf p - floorInt p ∧ inPhase (frac p)) ∧
  (∀ a b : Num64, isNaN a = true ∨ isNaN b = true →
    fle a b = false ∧ flt a b = false ∧ feq a b = false) ∧
  (∀ a b : Num64, isNaN a = false → isNaN b = false →
    (fle a b = true ↔ valueOf a ≤ valueOf b) ∧ (flt a b = true ↔ valueOf a < valueOf b) ∧
    (feq a b = true ↔ valueOf a = valueOf b)) ∧
  (∀ a : Num64, (isFinite a = true → |valueOf a| < 2 ^ 1024) ∧
    (isInf a = true → valueOf a = if isNeg a then -2 ^ 1024 else 2 ^ 1024)) ∧
  (∀ a b : Num64, (fle b a = true → fmax a b = a) ∧ (fle b a = false → fmax a b = b) ∧
    (fle a b = true → fmin a b = a) ∧ (fle a b = false → fmin a b = b)) ∧
  (∀ x lo hi : Num64, (fle lo x = false → clamp x lo hi = lo) ∧
    (fle lo x = true → flt hi x = true → clamp x lo hi = hi) ∧
    (fle lo x = true → flt hi x = false → clamp x lo hi = x) ∧
    (isNaN x = true → clamp x lo hi = lo) ∧ (fle lo hi = true → inRange lo hi (clamp x lo hi))) ∧
  (∀ n lo hi : Int, (n < lo → iclamp n lo hi = lo) ∧ (lo ≤ n → hi < n → iclamp n lo hi = hi) ∧
    (lo ≤ n → n ≤ hi → iclamp n lo hi = n)) ∧
  (∀ n : Int, n.natAbs < 2 ^ 53 → isFinite (ofInt n) = true ∧ valueOf (ofInt n) = n) ∧
  (roundsTo (9 / 10) n0p9 ∧ roundsTo (3 / 10) n0p3 ∧ roundsTo (1 / 1000) n1em3) ∧
  ([n0, n1, n2, n5, n11, n12, n20, n40, n48, n64, n120, n440, n1000, n1200, n8192, nTwo32, fsMin, fsMax,
      fsReset, qNyq].map valueOf =
    [0, 1, 2, 5, 11, 12, 20, 40, 48, 64, 120, 440, 1000, 1200, 8192, 4294967296, 8000, 192000, 44100, 1 / 4] ∧
   [nHalf, nQuarter, rvPath, nNegHalf, nNegQuarter, nNeg1, nNeg2, nNeg3, nNeg64, nNeg120].map valueOf =
    [1 / 2, 1 / 4, 9259 / 2, -1 / 2, -1 / 4, -1, -2, -3, -64, -120]) ∧
  (nPi = 0x400921FB54442D18#64 ∧ svfQMin = n1em3 ∧ eqQMin = n1em3 ∧ t60Min = n1em3 ∧ apG = nHalf ∧
    fcMin = n20 ∧ fcMaxR = n0p9 ∧ lfoPh0 = nQuarter) ∧
  (Config.rvLen = #v[1637, 2693, 5813, 6871] ∧
    Config.apLen = #v[113, 199, 151, 241, 173, 277, 127, 223] ∧
    Config.rvNear = #v[409, 673, 1453, 1717] ∧
    Config.nVoice = 16 ∧ Config.npMax = 128 ∧ Config.cosN = 8192 ∧ Config.nPedal = 3 ∧
    Config.chCap = 192000)

/-- CosLookup (R67, R100): for a phase in [0, 1) the index is the integer part of `p * 8192`, exactly, and lies in 0..8191; every table entry is in [-1, 1]; the four quarter points are exact. -/
def Obligations.CosLookupTable : Prop :=
  (∀ p : Num64, inPhase p →
    let k := floorInt (fmul p n8192)
    0 ≤ k ∧ k < 8192 ∧ (k : ℚ) ≤ valueOf p * 8192 ∧ valueOf p * 8192 < k + 1 ∧
    cosLookup p = cosRom k.toNat) ∧
  (∀ k, k < 8192 → inRange nNeg1 n1 (cosRom k)) ∧
  cosRom 0 = n1 ∧ cosRom 2048 = n0 ∧ cosRom 4096 = nNeg1 ∧ cosRom 6144 = n0

/-- The random-phase table (R101): entry 0 is 0, every entry lies in [0, 1) and is, exactly, the generator's value over 2^32, seeded by voice and oscillator; with the rule's two worked values. -/
def Obligations.RandomPhases : Prop :=
  (∀ v o i, v < 16 → o < 2 → i < 128 → inPhase (rndPh v o i)) ∧
  (∀ v o, rndPh v o 0 = n0) ∧
  (∀ v o i, 1 ≤ i → valueOf (rndPh v o i) = (lcg i (2 * v + o + 1) : ℚ) / 4294967296) ∧
  (∀ i x, lcg 0 x = x ∧ lcg (i + 1) x = (1664525 * lcg i x + 1013904223) % 4294967296) ∧
  valueOf (rndPh 0 0 1) = 1015568748 / 2 ^ 32 ∧ valueOf (rndPh 0 0 2) = 1586005467 / 2 ^ 32

/-! ### Filter, envelope, LFO, voice -/

/-- The cutoff clamp and the time-to-rate formula (R121, R141): a cutoff in use lies in [20, 0.9 * (C.FS / 2)], whatever the operand, an infinity or a NaN included; EnvRate is the formula of R141, one rate for each of the three times; of a finite time it is in [0, 1], and 1 for a zero or negative one. -/
def Obligations.ClampedCoefficients : Prop :=
  (∀ fs f : Num64, inRange fsMin fsMax fs →
    let hi := fmul n0p9 (fdiv fs n2)
    fle n20 hi = true ∧ inRange n20 hi (clampFreq fs f) ∧ (inRange n20 hi f → clampFreq fs f = f) ∧
    (flt hi f = true → clampFreq fs f = hi) ∧ (fle n20 f = false → clampFreq fs f = n20)) ∧
  (∀ fs t : Num64, inRange fsMin fsMax fs → isFinite t = true →
    inRange n0 n1 (envRate fs t) ∧ (fle t n0 = true → envRate fs t = n1)) ∧
  (∀ fs t : Num64, envRate fs t = fdiv n1 (fmax n1 (fmul (fmul t n1em3) fs))) ∧
  (∀ (fs : Num64) (e : EnvParams),
    envRates fs e = ⟨envRate fs e.attack, envRate fs e.decay, envRate fs e.release⟩)

/-- R142, R143: note-on restarts the attack from the current level; note-off releases from Attack, Decay and Sustain, from the current level, and does nothing in Release and Stop. Neither changes the level. -/
def Obligations.EnvNoteOnOff : Prop :=
  (∀ e : Env, envNoteOn e = { stage := .attack, rem := n1, lvl := e.lvl, start := e.lvl }) ∧
  (∀ e : Env, e.stage = .stop → e.lvl = n0 → (envNoteOn e).start = n0) ∧
  (∀ e : Env, e.stage = .attack ∨ e.stage = .decay ∨ e.stage = .sustain →
    envNoteOff e = { stage := .release, rem := n1, lvl := e.lvl, start := e.lvl }) ∧
  (∀ e : Env, e.stage = .release ∨ e.stage = .stop → envNoteOff e = e)

/-- EnvProcess, stage by stage (R144): the counter falls by the stage's rate; on reaching 0 the sample is the stage's target and the next stage begins, otherwise it is the ramp; Sustain holds, Stop gives 0, and the end is signalled exactly on entering Stop. -/
def Obligations.EnvProcessStages : Prop :=
  ∀ (r : EnvRates) (sus : Num64) (e : Env),
    let o := envProcess r sus e
    let ramp := fun target rem => fadd e.start (fmul (fsub target e.start) (fsub n1 rem))
    (e.stage = .attack → fle (fsub e.rem r.ra) n0 = true →
      o = ⟨{ stage := .decay, rem := n1, lvl := n1, start := n1 }, n1, false⟩) ∧
    (e.stage = .attack → fle (fsub e.rem r.ra) n0 = false →
      o = ⟨{ e with rem := fsub e.rem r.ra, lvl := ramp n1 (fsub e.rem r.ra) },
        ramp n1 (fsub e.rem r.ra), false⟩) ∧
    (e.stage = .decay → fle (fsub e.rem r.rd) n0 = true →
      o = ⟨{ e with stage := .sustain, rem := n1, lvl := sus }, sus, false⟩) ∧
    (e.stage = .decay → fle (fsub e.rem r.rd) n0 = false →
      o = ⟨{ e with rem := fsub e.rem r.rd, lvl := ramp sus (fsub e.rem r.rd) },
        ramp sus (fsub e.rem r.rd), false⟩) ∧
    (e.stage = .sustain → o = ⟨e, e.lvl, false⟩) ∧
    (e.stage = .release → fle (fsub e.rem r.rr) n0 = true →
      o = ⟨{ e with stage := .stop, rem := n0, lvl := n0 }, n0, true⟩) ∧
    (e.stage = .release → fle (fsub e.rem r.rr) n0 = false →
      o = ⟨{ e with rem := fsub e.rem r.rr, lvl := ramp n0 (fsub e.rem r.rr) },
        ramp n0 (fsub e.rem r.rr), false⟩) ∧
    (e.stage = .stop → o = ⟨e, n0, false⟩)

/-- VoiceProcess with its LFO, cutoff modulation and filter (R122, R123, R163, R175, R176): a free voice gives 0 and changes nothing; on the tick that ends the amplitude envelope only that envelope changes and the result is 0; otherwise the chain of R175 runs as written. -/
def Obligations.VoiceProcessChain : Prop :=
  (∀ (p : Params) (c : Ctrl) (v : Voice),
    (v.amp.stage = .stop → voiceProcess p c v = (v, n0)) ∧
    (v.amp.stage ≠ .stop → (envProcess c.amp p.amp.sustain v.amp).fin = true →
      voiceProcess p c v = ({ v with amp := (envProcess c.amp p.amp.sustain v.amp).env }, n0)) ∧
    (v.amp.stage ≠ .stop → (envProcess c.amp p.amp.sustain v.amp).fin = false →
      let a := envProcess c.amp p.amp.sustain v.amp
      let fe := envProcess c.flt p.flt.sustain v.flt
      let l := lfoProcess c v.lfo
      let m := exp2N (fdiv (fmul p.vibDepth l.2) n1200)
      let o0 := oscProcess m v.osc0
      let o1 := oscProcess m v.osc1
      let x := fadd (fmul (fsub n1 p.oscMix) o0.2) (fmul p.oscMix o1.2)
      let active := feq p.fenvAmt n0 = false ∨ feq v.keyf n0 = false
      let kMod := svfK c.fs (fmul p.cutoff (exp2N (fadd (fmul p.fenvAmt fe.out) v.keyf)))
      let k := if active then kMod else v.k
      let oqk := if active then fadd (fdiv n1 p.reso) kMod else v.oqk
      let y := svfProcess p { v with k := k, oqk := oqk } x
      let g := fmul a.out v.velamp
      voiceProcess p c v =
        ({ v with
            amp := a.env, flt := fe.env, lfo := l.1, osc0 := o0.1, osc1 := o1.1, k := k, oqk := oqk
            s0 := y.1.s0, s1 := y.1.s1, s2 := y.1.s2, s3 := y.1.s3 },
         fmul (fmul g g) y.2))) ∧
  (∀ (p : Params) (v : Voice) (x : Num64),
    let hp := fsub (fsub x v.s0) (fmul v.oqk v.s1)
    let lp := fadd v.s0 (fmul v.k v.s1)
    let bp := fadd v.s1 (fmul v.k hp)
    let y := if p.ftype = 0 then lp else if p.ftype = 1 then hp else bp
    let hp' := fsub (fsub y v.s2) (fmul v.oqk v.s3)
    let lp' := fadd v.s2 (fmul v.k v.s3)
    let bp' := fadd v.s3 (fmul v.k hp')
    svfProcess p v x =
      if p.fiter then
        ({ v with s0 := lp, s1 := bp, s2 := lp', s3 := bp' },
          if p.ftype = 0 then lp' else if p.ftype = 1 then hp' else bp')
      else ({ v with s0 := lp, s1 := bp }, y)) ∧
  (∀ (c : Ctrl) (l : Lfo),
    (flt n0 l.dly = true →
      (let d := fsub l.dly c.lfoDStep
       lfoProcess c l = ({ l with dly := if flt d n0 then n0 else d }, n0))) ∧
    (flt n0 l.dly = false →
      lfoProcess c l = ({ l with ph := frac (fadd l.ph c.lfoFStep) }, cosLookup l.ph)))

/-- R191: AllocVoice gives the first free voice; with none free the first releasing one; with neither, none. It reads the amplitude-envelope stages alone. -/
def Obligations.AllocVoice : Prop :=
  (∀ (vs : Vector Voice Config.nVoice) (v : Fin Config.nVoice),
    allocVoice vs = some v ↔
      (vs[v].amp.stage = .stop ∧ ∀ u, u < v → vs[u].amp.stage ≠ .stop) ∨
      ((∀ u : Fin Config.nVoice, vs[u].amp.stage ≠ .stop) ∧ vs[v].amp.stage = .release ∧
        ∀ u, u < v → vs[u].amp.stage ≠ .release)) ∧
  (∀ vs : Vector Voice Config.nVoice,
    allocVoice vs = none ↔
      ∀ u : Fin Config.nVoice, vs[u].amp.stage ≠ .stop ∧ vs[u].amp.stage ≠ .release) ∧
  (∀ vs ws : Vector Voice Config.nVoice,
    (∀ u : Fin Config.nVoice, vs[u].amp.stage = ws[u].amp.stage) → allocVoice vs = allocVoice ws)

/-- R206: (a) a NOTE_ON changes at most one voice; (b) never one in Attack, Decay or Sustain; (c) with a finite velocity the lowest free voice is taken, and only with none free the lowest releasing one, and no other; (d) after sixteen NOTE_ONs from reset among any commands but NOTE_OFF and RESET, ticks included, a seventeenth changes nothing. -/
def Obligations.PoolProperties : Prop :=
  (∀ (s t : State) (ch : BitVec 8) (imm : BitVec 16) (val : Num64),
    exec (.noteOn ch imm val) s = .next t →
    (∀ u v : Fin Config.nVoice, t.voices[u] ≠ s.voices[u] → t.voices[v] ≠ s.voices[v] → u = v) ∧
    (∀ v : Fin Config.nVoice, t.voices[v] ≠ s.voices[v] →
      (s.voices[v].amp.stage = .stop ∧ ∀ u, u < v → s.voices[u].amp.stage ≠ .stop) ∨
      ((∀ u : Fin Config.nVoice, s.voices[u].amp.stage ≠ .stop) ∧ s.voices[v].amp.stage = .release ∧
        ∀ u, u < v → s.voices[u].amp.stage ≠ .release)) ∧
    (isFinite val = true → ∀ v : Fin Config.nVoice,
      ((s.voices[v].amp.stage = .stop ∧ ∀ u, u < v → s.voices[u].amp.stage ≠ .stop) ∨
       ((∀ u : Fin Config.nVoice, s.voices[u].amp.stage ≠ .stop) ∧ s.voices[v].amp.stage = .release ∧
        ∀ u, u < v → s.voices[u].amp.stage ≠ .release)) →
      t.voices[v].amp.stage = .attack ∧ t.voices[v] ≠ s.voices[v] ∧
      ∀ u, u ≠ v → t.voices[u] = s.voices[u])) ∧
  (∀ (ws : List CmdWord) (h : List HostCycle),
    (∀ w ∈ ws, decode w ≠ .reset ∧ ∀ ch imm val, decode w ≠ .noteOff ch imm val) →
    16 ≤ (ws.filter fun w => isNoteOn (decode w)).length →
    let full := afterCommands ws { State.reset with host := h }
    ∀ (ch : BitVec 8) (imm : BitVec 16) (val : Num64), exec (.noteOn ch imm val) full = .next full)

/-! ### Effect chain -/

/-- Rings (R64, R65): after a push the newest word is the pushed one, every older word has become one push older, the head has moved on by one modulo the length, and the oldest word is the one that the next push overwrites. -/
def Obligations.RingPushRead : Prop :=
  ∀ (len : Nat) (r : Ring) (x : Num64), RingInv len r →
    let q := ringPush len r x
    q.head = (r.head + 1) % len ∧
    readInt q.mem q.head len 0 = x ∧
    (∀ d : Int, 0 ≤ d → d + 1 < (len : Int) →
      readInt q.mem q.head len (d + 1) = readInt r.mem r.head len d) ∧
    readInt r.mem r.head len ((len : Int) - 1) = memRead r.mem r.head

/-- Fractional reads (R66): the offset is clamped into the ring, whatever it is (a NaN reads at 0), so that both words read are in the ring and the fraction is in [0, 1); at an integer offset the result is the word itself. -/
def Obligations.ReadFracBounds : Prop :=
  ∀ (m : Memory) (h len : Nat) (o : Num64), 2 ≤ len → len ≤ Config.chCap →
    let oc := clamp o n0 (ofInt ((len : Int) - 2))
    let i := floorInt oc
    let f := fsub oc (ofInt i)
    let a := readInt m h len i
    let b := readInt m h len (i + 1)
    0 ≤ i ∧ i ≤ (len : Int) - 2 ∧ inPhase f ∧ valueOf f = valueOf oc - i ∧
    readFrac m h len o = fadd (fmul (fsub n1 f) a) (fmul f b) ∧
    (isNaN o = true → oc = n0) ∧
    (isZero f = true → isFinite a = true → isFinite b = true → feq (readFrac m h len o) a = true)

/-- The sample divider (R220): for N above 1, from an empty window, output `i` is input `i - i mod N`, the first of its window; for N at most 1 the outputs are the inputs and the counter is 0. And one call for every N, counter and held sample, a counter inside a window and one beyond a smaller N included: the sample held or newly taken is given, and the counter, which `>=` returns to 0, and the held sample are all that is written. -/
def Obligations.DividerWindow : Prop :=
  (∀ (n : Int) (xs : List Stereo) (fx : Fx), 2 ≤ n → fx.divCnt = 0 →
    ∀ i, i < xs.length → (divRun n xs fx)[i]? = xs[i - i % n.toNat]?) ∧
  (∀ (n : Int) (xs : List Stereo) (fx : Fx), n ≤ 1 → divRun n xs fx = xs) ∧
  (∀ (n : Int) (x : Stereo) (fx : Fx), n ≤ 1 → divProcess n x fx = ({ fx with divCnt := 0 }, x)) ∧
  (∀ (n : Int) (x : Stereo) (fx : Fx), 1 < n →
    let h := if fx.divCnt = 0 then x else fx.divH
    divProcess n x fx =
      ({ fx with divH := h, divCnt := if n ≤ (fx.divCnt : Int) + 1 then 0 else fx.divCnt + 1 }, h))

/-- The 0 dB EQ (R224, R225): with P.EQ_GAIN zero and `1 + alpha` not zero, B0 is 1, B1 is A1 and B2 is A2, bit for bit; and with those coefficients and a zero state one call gives its input back as a value and leaves the state zero. And EqProcess in general, for every coefficient, state and channel: the three equations of R225, the right channel as the left, nothing else written. -/
def Obligations.EqZeroDb : Prop :=
  (∀ (p : Params) (c : Ctrl), inRange fsMin fsMax c.fs → isFinite p.eqQ = true →
    isZero p.eqGain = true →
    isZero (fadd n1 (eqAlpha (fdiv (fmul (fmul n2 nPi) (clampFreq c.fs p.eqFreq)) c.fs) p.eqQ)) = false →
    (eqSetCoef p c).eqB0 = n1 ∧ (eqSetCoef p c).eqB1 = (eqSetCoef p c).eqA1 ∧
    (eqSetCoef p c).eqB2 = (eqSetCoef p c).eqA2) ∧
  (∀ (c : Ctrl) (z1 z2 x : Num64), c.eqB0 = n1 → c.eqB1 = c.eqA1 → c.eqB2 = c.eqA2 →
    isZero z1 = true → isZero z2 = true → isFinite x = true →
    isFinite (fmul c.eqB1 x) = true → isFinite (fmul c.eqB2 x) = true →
    feq (eqChannel c z1 z2 x).out x = true ∧ isZero (eqChannel c z1 z2 x).z1 = true ∧
    isZero (eqChannel c z1 z2 x).z2 = true) ∧
  (∀ (c : Ctrl) (x : Stereo) (fx : Fx),
    let yl := fadd (fmul c.eqB0 x.left) fx.eqZ1.left
    let yr := fadd (fmul c.eqB0 x.right) fx.eqZ1.right
    eqProcess c x fx =
      ({ fx with
          eqZ1 := ⟨fadd (fsub (fmul c.eqB1 x.left) (fmul c.eqA1 yl)) fx.eqZ2.left,
                   fadd (fsub (fmul c.eqB1 x.right) (fmul c.eqA1 yr)) fx.eqZ2.right⟩
          eqZ2 := ⟨fsub (fmul c.eqB2 x.left) (fmul c.eqA2 yl),
                   fsub (fmul c.eqB2 x.right) (fmul c.eqA2 yr)⟩ }, ⟨yl, yr⟩)) ∧
  (∀ (c : Ctrl) (z1 z2 x : Num64),
    let y := fadd (fmul c.eqB0 x) z1
    eqChannel c z1 z2 x =
      ⟨fadd (fsub (fmul c.eqB1 x) (fmul c.eqA1 y)) z2, fsub (fmul c.eqB2 x) (fmul c.eqA2 y), y⟩)

/-- The chorus with depth 0 (R232, R233): all four offsets are C.CH_BASE whatever the LFO phases are, both taps of a channel are the same read of its ring, and the wet signal equals that read. And ChProcess in general, for every depth, phase and ring: one push into each ring at the common head, the offsets C.CH_BASE plus (left) and minus (right) C.CH_DEPTH_S times the two table values at the old phases, the blend and the mix of R232, each phase advanced by its own rate, nothing else written. -/
def Obligations.ChorusDepthZero : Prop :=
  (∀ (p : Params) (c : Ctrl) (x : Stereo) (fx : Fx), c.chDepthS = n0 → isFinite c.chBase = true →
    isNeg c.chBase = false → inPhase fx.chP1 → inPhase fx.chP2 →
    let head := (fx.chHead + 1) % c.chLen
    let tL := readFrac (memWrite fx.chBuf0 fx.chHead x.left) head c.chLen c.chBase
    let tR := readFrac (memWrite fx.chBuf1 fx.chHead x.right) head c.chLen c.chBase
    isFinite tL = true → isFinite tR = true →
    ∃ wL wR, feq wL tL = true ∧ feq wR tR = true ∧
      (chProcess p c x fx).2 =
        ⟨fadd (fmul x.left (fsub n1 p.chMix)) (fmul wL p.chMix),
         fadd (fmul x.right (fsub n1 p.chMix)) (fmul wR p.chMix)⟩) ∧
  (∀ (p : Params) (c : Ctrl) (x : Stereo) (fx : Fx),
    let buf0 := memWrite fx.chBuf0 fx.chHead x.left
    let buf1 := memWrite fx.chBuf1 fx.chHead x.right
    let head := (fx.chHead + 1) % c.chLen
    let c1 := cosLookup fx.chP1
    let c2 := cosLookup fx.chP2
    let tL1 := readFrac buf0 head c.chLen (fadd c.chBase (fmul c.chDepthS c1))
    let tL2 := readFrac buf0 head c.chLen (fadd c.chBase (fmul c.chDepthS c2))
    let tR1 := readFrac buf1 head c.chLen (fsub c.chBase (fmul c.chDepthS c1))
    let tR2 := readFrac buf1 head c.chLen (fsub c.chBase (fmul c.chDepthS c2))
    let wL := fadd tL1 (fmul n0p3 (fsub tL2 tL1))
    let wR := fadd tR1 (fmul n0p3 (fsub tR2 tR1))
    chProcess p c x fx =
      ({ fx with
          chBuf0 := buf0, chBuf1 := buf1, chHead := head
          chP1 := frac (fadd fx.chP1 c.chR1), chP2 := frac (fadd fx.chP2 c.chR2) },
        ⟨fadd (fmul x.left (fsub n1 p.chMix)) (fmul wL p.chMix),
         fadd (fmul x.right (fsub n1 p.chMix)) (fmul wR p.chMix)⟩))

/-- RvProcess (R252 to R256): line `i` gets one new word, at its head, the flushed output of its two all-passes on its row of the cross-feed matrix, written out; each all-pass gets one new word; every other word of the twelve memories is kept and every head moves on by one; the outputs mix the taps read before any push; nothing else of the effect chain is written. `flush` gives +0 for a nonzero value below 2^-1022 in magnitude and every other value unchanged. -/
def Obligations.ReverbStep : Prop :=
  (∀ (p : Params) (c : Ctrl) (x : Stereo) (fx : Fx), (∀ i : Fin 4, RingInv Config.rvLen[i] fx.rv[i]) →
    (∀ j : Fin 8, RingInv Config.apLen[j] fx.ap[j]) →
    let t := (rvProcess p c x fx).1
    let tail := fun i : Fin 4 => memRead fx.rv[i].mem fx.rv[i].head
    let near := fun i : Fin 4 =>
      readInt fx.rv[i].mem fx.rv[i].head Config.rvLen[i] ((Config.rvNear[i] : Int) - 1)
    let v0 := fadd (fmul c.rvG (tail 0)) (fmul nHalf (fadd x.left x.right))
    let mix : Vector (Vector Num64 4) 4 :=
      #v[#v[nHalf, nHalf, nHalf, nHalf],
         #v[nHalf, nNegHalf, nHalf, nNegHalf],
         #v[nHalf, nHalf, nNegHalf, nNegHalf],
         #v[nHalf, nNegHalf, nNegHalf, nHalf]]
    let m := fun i : Fin 4 =>
      fadd (fadd (fadd (fmul mix[i][0] v0) (fmul mix[i][1] (fmul c.rvG (tail 1))))
        (fmul mix[i][2] (fmul c.rvG (tail 2)))) (fmul mix[i][3] (fmul c.rvG (tail 3)))
    let wet := fun row near' : Vector Num64 4 =>
      fadd (fadd (fadd (fadd (fadd (fadd (fadd (fadd n0
        (fmul row[0] (tail 0))) (fmul near'[0] (near 0))) (fmul row[1] (tail 1))) (fmul near'[1] (near 1)))
        (fmul row[2] (tail 2))) (fmul near'[2] (near 2))) (fmul row[3] (tail 3))) (fmul near'[3] (near 3))
    (∀ (i : Fin 4) (a b : Fin 8), a.val = 2 * i.val → b.val = 2 * i.val + 1 →
      let dA := memRead fx.ap[a].mem fx.ap[a].head
      let wA := fadd (m i) (fmul nHalf dA)
      let yA := fsub dA (fmul nHalf wA)
      let dB := memRead fx.ap[b].mem fx.ap[b].head
      let wB := fadd yA (fmul nHalf dB)
      let yB := fsub dB (fmul nHalf wB)
      memRead t.ap[a].mem fx.ap[a].head = wA ∧ memRead t.ap[b].mem fx.ap[b].head = wB ∧
      memRead t.rv[i].mem fx.rv[i].head = flush yB) ∧
    (∀ i : Fin 4, t.rv[i].head = (fx.rv[i].head + 1) % Config.rvLen[i] ∧
      ∀ k, k ≠ fx.rv[i].head → memRead t.rv[i].mem k = memRead fx.rv[i].mem k) ∧
    (∀ j : Fin 8, t.ap[j].head = (fx.ap[j].head + 1) % Config.apLen[j] ∧
      ∀ k, k ≠ fx.ap[j].head → memRead t.ap[j].mem k = memRead fx.ap[j].mem k) ∧
    t = { fx with rv := t.rv, ap := t.ap } ∧
    (rvProcess p c x fx).2 =
      ⟨fadd (fmul x.left (fsub n1 p.rvMix))
         (fmul (wet #v[nQuarter, n0, nQuarter, n0] #v[n0, nNegQuarter, n0, nNegQuarter]) p.rvMix),
       fadd (fmul x.right (fsub n1 p.rvMix))
         (fmul (wet #v[n0, nNegQuarter, n0, nNegQuarter] #v[nQuarter, n0, nQuarter, n0]) p.rvMix)⟩) ∧
  (∀ y : Num64, (isSubnormal y → flush y = 0x0000000000000000#64) ∧ (¬ isSubnormal y → flush y = y)) ∧
  (∀ y : Num64, isSubnormal y ↔ 0 < |valueOf y| ∧ |valueOf y| < (2 : ℚ) ^ (-1022 : ℤ))

/-! ### Arithmetic -/

/-- SIN, COS, EXP2 and EXP10 (R11), for every configuration: the pinned points, an operand of -0 counting as 0; for every finite operand not a NaN, SIN and COS in [-1, 1], EXP2 and EXP10 at least 0; EXP2 finite below 1024, infinite from there, and in [0, 2^-1022] below -1022; EXP10 finite where the real number 10^x is below the largest finite value, infinite where it is above, and in [0, 2^-1022] where it is below 2^-1022. -/
def Obligations.PinnedFunctions : Prop :=
  (∀ x : Num64, isZero x = true → sinN x = n0 ∧ cosN x = n1 ∧ exp2N x = n1 ∧ exp10N x = n1) ∧
  (∀ n : Int, -64 ≤ n → n ≤ 64 →
    isFinite (exp2N (ofInt n)) = true ∧ valueOf (exp2N (ofInt n)) = (2 : ℚ) ^ n) ∧
  (∀ x : Num64, isFinite x = true →
    inRange nNeg1 n1 (sinN x) ∧ inRange nNeg1 n1 (cosN x) ∧
    fle n0 (exp2N x) = true ∧ fle n0 (exp10N x) = true ∧
    (valueOf x < 1024 → isFinite (exp2N x) = true) ∧ (1024 ≤ valueOf x → exp2N x = pinf) ∧
    (valueOf x < -1022 → inRange n0 0x0010000000000000#64 (exp2N x)) ∧
    ((10 : ℝ) ^ (valueOf x : ℝ) < largestFinite → isFinite (exp10N x) = true) ∧
    ((largestFinite : ℝ) < (10 : ℝ) ^ (valueOf x : ℝ) → exp10N x = pinf) ∧
    ((10 : ℝ) ^ (valueOf x : ℝ) < (2 : ℝ) ^ (-1022 : ℤ) →
      inRange n0 0x0010000000000000#64 (exp10N x)))

/-- Sums, differences and products (R10): of finite numbers correctly rounded, to nearest, ties to even, overflow to an infinity; a NaN from a NaN, from infinity minus infinity and from zero times infinity, otherwise the signed infinity; an exact zero sum is +0 but for two negative zeros, and a product has the exclusive or of the signs (log entries 1 and 10). -/
def Obligations.RoundingAddMul : Prop :=
  (∀ a b : Num64, isFinite a = true → isFinite b = true →
    roundsTo ((valueOf a : ℝ) + valueOf b) (fadd a b) ∧
    roundsTo ((valueOf a : ℝ) - valueOf b) (fsub a b) ∧
    roundsTo ((valueOf a : ℝ) * valueOf b) (fmul a b) ∧
    (valueOf a + valueOf b = 0 → fadd a b = if isNeg a && isNeg b then 0x8000000000000000#64 else n0) ∧
    (valueOf a = valueOf b → fsub a b = if isNeg a && !isNeg b then 0x8000000000000000#64 else n0) ∧
    isNeg (fmul a b) = (isNeg a != isNeg b)) ∧
  (∀ a b : Num64, isNaN a = true ∨ isNaN b = true →
    isNaN (fadd a b) = true ∧ isNaN (fsub a b) = true ∧ isNaN (fmul a b) = true) ∧
  (∀ a b : Num64, isInf a = true → isInf b = true →
    (isNeg a = isNeg b → fadd a b = a ∧ isNaN (fsub a b) = true) ∧
    (isNeg a ≠ isNeg b → isNaN (fadd a b) = true ∧ fsub a b = a)) ∧
  (∀ a b : Num64, isInf a = true → isFinite b = true →
    fadd a b = a ∧ fadd b a = a ∧ fsub a b = a ∧ isInf (fsub b a) = true ∧ isNeg (fsub b a) = !isNeg a) ∧
  (∀ a b : Num64, isInf a = true → isZero b = true →
    isNaN (fmul a b) = true ∧ isNaN (fmul b a) = true) ∧
  (∀ a b : Num64, isInf a = true → isNaN b = false → isZero b = false →
    isInf (fmul a b) = true ∧ isNeg (fmul a b) = (isNeg a != isNeg b) ∧
    isInf (fmul b a) = true ∧ isNeg (fmul b a) = (isNeg a != isNeg b))

/-- Quotients and square roots (R10): of finite numbers correctly rounded; a NaN from a NaN, from 0/0, infinity/infinity and the root of a negative number; a finite number that is not zero over zero and an infinity over a finite number give the signed infinity, a finite number over an infinity the signed zero; a quotient has the exclusive or of the signs; the root of either zero and of +infinity is the operand (log entries 1 and 10). -/
def Obligations.RoundingDivSqrt : Prop :=
  (∀ a b : Num64, isFinite a = true → isFinite b = true → isZero b = false →
    roundsTo ((valueOf a : ℝ) / valueOf b) (fdiv a b) ∧ isNeg (fdiv a b) = (isNeg a != isNeg b)) ∧
  (∀ a b : Num64, isNaN a = true ∨ isNaN b = true → isNaN (fdiv a b) = true) ∧
  (∀ a b : Num64, (isInf a = true ∧ isInf b = true) ∨ (isZero a = true ∧ isZero b = true) →
    isNaN (fdiv a b) = true) ∧
  (∀ a b : Num64, isInf a = true → isFinite b = true →
    isInf (fdiv a b) = true ∧ isNeg (fdiv a b) = (isNeg a != isNeg b) ∧
    isZero (fdiv b a) = true ∧ isNeg (fdiv b a) = (isNeg a != isNeg b)) ∧
  (∀ a b : Num64, isFinite a = true → isZero a = false → isZero b = true →
    isInf (fdiv a b) = true ∧ isNeg (fdiv a b) = (isNeg a != isNeg b)) ∧
  (∀ a : Num64, isFinite a = true → fle n0 a = true →
    roundsTo (Real.sqrt (valueOf a)) (fsqrt a) ∧ isNeg (fsqrt a) = isNeg a ∧
    (isZero a = true → fsqrt a = a)) ∧
  (∀ a : Num64, isNaN a = true ∨ (isNeg a = true ∧ isZero a = false) → isNaN (fsqrt a) = true) ∧
  fsqrt pinf = pinf

/-! ### Invariants -/

/-- Every step keeps the parameter file legal (R22) and C.FS in its range (R24). -/
def Obligations.ParamInvStep : Prop :=
  ∀ s t : State, ParamInv s → step s = .next t → ParamInv t

/-- Every step keeps every derived register equal to its formula on the current inputs (R24, R304). -/
def Obligations.DerivedInvStep : Prop :=
  ∀ s t : State, DerivedInv s → step s = .next t → DerivedInv t

/-- Every step keeps the structure (R35 (b), (d), (e), (f), R106, R255): partial counts in 1..128 and stored steps at most QNYQ, levels 0 in Stop, heads in their rings, the filter envelope releasing with the amplitude envelope, no subnormal in a reverb line, the chorus length that of C.FS, and every memory canonical and inside its size (the canonical form is the model's, log entry 7; no rule speaks of it). R35 (c) is CounterInvStep. -/
def Obligations.StructInvStep : Prop :=
  ∀ s t : State, StructInv s → step s = .next t → StructInv t

/-- Every step keeps every phase in [0, 1) (R35 (a)), for every value that the configuration functions may take. -/
def Obligations.PhaseInvStep : Prop :=
  ∀ s t : State, PhaseInv s → step s = .next t → PhaseInv t

/-! ### The whole machine -/

/-- The envelope's rules over all commands (R140, R143, R197, R198): only NOTE_ON takes an envelope out of Stop; only NOTE_OFF takes one into Release; only a tick or RESET takes one into Stop, and a tick only from Release. -/
def Obligations.StageChanges : Prop :=
  ∀ (i : Instr) (s t : State) (v : Fin Config.nVoice), exec i s = .next t →
    ∀ e e' : Env, (e = s.voices[v].amp ∧ e' = t.voices[v].amp) ∨
        (e = s.voices[v].flt ∧ e' = t.voices[v].flt) →
      (e.stage = .stop → e'.stage ≠ .stop → ∃ ch imm val, i = .noteOn ch imm val) ∧
      (e.stage ≠ .release → e'.stage = .release → ∃ ch imm val, i = .noteOff ch imm val) ∧
      (e.stage ≠ .stop → e'.stage = .stop →
        i = .reset ∨ ((i = .tick64 ∨ i = .tick32) ∧ e.stage = .release))

/-- R23 over all commands: a parameter register changes only by its own command or by RESET. -/
def Obligations.ParamsOwnCommand : Prop :=
  ∀ (i : Instr) (s t : State), exec i s = .next t → i ≠ .reset →
    let p := s.params
    let q := t.params
    (q.volume ≠ p.volume → ∃ x, i = .setVolume x) ∧
    (q.expression ≠ p.expression → ∃ x, i = .setExpression x) ∧
    (q.bendRange ≠ p.bendRange → ∃ x, i = .setBendRange x) ∧
    (q.bend ≠ p.bend → ∃ x, i = .setBend x) ∧
    (q.modWheel ≠ p.modWheel → ∃ x, i = .setModwheel x) ∧
    (∀ k : Fin Config.nPedal, q.pedal[k] ≠ p.pedal[k] →
      ∃ imm x, i = .setPedal imm x ∧ imm.toInt = k.val) ∧
    (q.velSens ≠ p.velSens → ∃ x, i = .setVelsens x) ∧
    (q.inharm ≠ p.inharm → ∃ x, i = .setInharm x) ∧
    (q.oscMix ≠ p.oscMix → ∃ x, i = .setOscmix x) ∧
    (q.randPhase ≠ p.randPhase → ∃ x, i = .setRandphase x) ∧
    (q.vibDepth ≠ p.vibDepth → ∃ x, i = .setVibDepth x) ∧
    (q.vibRate ≠ p.vibRate → ∃ x, i = .setVibRate x) ∧
    (q.vibDelay ≠ p.vibDelay → ∃ x, i = .setVibDelay x) ∧
    (q.cutoff ≠ p.cutoff → ∃ x, i = .setCutoff x) ∧
    (q.reso ≠ p.reso → ∃ x, i = .setReso x) ∧
    (q.ftype ≠ p.ftype → ∃ x, i = .setFtype x) ∧
    (q.fiter ≠ p.fiter → ∃ x, i = .setFiter x) ∧
    (q.fenvAmt ≠ p.fenvAmt → ∃ x, i = .setFenvAmt x) ∧
    (q.keyFollow ≠ p.keyFollow → ∃ x, i = .setKeyfollow x) ∧
    (q.amp.attack ≠ p.amp.attack → ∃ x, i = .setAmpAttack x) ∧
    (q.amp.decay ≠ p.amp.decay → ∃ x, i = .setAmpDecay x) ∧
    (q.amp.sustain ≠ p.amp.sustain → ∃ x, i = .setAmpSustain x) ∧
    (q.amp.release ≠ p.amp.release → ∃ x, i = .setAmpRelease x) ∧
    (q.flt.attack ≠ p.flt.attack → ∃ x, i = .setFltAttack x) ∧
    (q.flt.decay ≠ p.flt.decay → ∃ x, i = .setFltDecay x) ∧
    (q.flt.sustain ≠ p.flt.sustain → ∃ x, i = .setFltSustain x) ∧
    (q.flt.release ≠ p.flt.release → ∃ x, i = .setFltRelease x) ∧
    (q.divN ≠ p.divN → ∃ x, i = .setDivN x) ∧
    (q.eqFreq ≠ p.eqFreq → ∃ x, i = .setEqFreq x) ∧
    (q.eqGain ≠ p.eqGain → ∃ x, i = .setEqGain x) ∧
    (q.eqQ ≠ p.eqQ → ∃ x, i = .setEqQ x) ∧
    (q.chRate ≠ p.chRate → ∃ x, i = .setChRate x) ∧
    (q.chDepth ≠ p.chDepth → ∃ x, i = .setChDepth x) ∧
    (q.chDelay ≠ p.chDelay → ∃ x, i = .setChDelay x) ∧
    (q.chMix ≠ p.chMix → ∃ x, i = .setChMix x) ∧
    (q.rvT60 ≠ p.rvT60 → ∃ x, i = .setRvT60 x) ∧
    (q.rvMix ≠ p.rvMix → ∃ x, i = .setRvMix x)

/-- What a tick leaves (R30, R31, R64, R108, R123, R175, R195, R232): parameters, control registers and the host's pins; in every voice the note registers, the partial counts and the tables; a free voice whole; with P.FITER clear the second stage's accumulators; and every word of the chorus rings, the reverb lines and the all-passes but the one at each head, which moves on by one. -/
def Obligations.TickFrame : Prop :=
  ∀ (i : Instr) (s t : State), i = .tick64 ∨ i = .tick32 → exec i s = .next t →
    t.params = s.params ∧ t.ctrl = s.ctrl ∧ t.host = s.host ∧
    (∀ v : Fin Config.nVoice, s.voices[v].osc0.ph.wf → s.voices[v].osc1.ph.wf →
      let a := s.voices[v]
      let b := t.voices[v]
      b.pitch = a.pitch ∧ b.vel = a.vel ∧ b.bend = a.bend ∧ b.f0 = a.f0 ∧ b.velamp = a.velamp ∧
      b.keyf = a.keyf ∧ b.osc0.np = a.osc0.np ∧ b.osc0.amp = a.osc0.amp ∧ b.osc0.step = a.osc0.step ∧
      b.osc1.np = a.osc1.np ∧ b.osc1.amp = a.osc1.amp ∧ b.osc1.step = a.osc1.step ∧
      (s.params.fiter = false → b.s2 = a.s2 ∧ b.s3 = a.s3) ∧
      (a.amp.stage = .stop → b = a)) ∧
    (s.fx.chBuf0.wf → s.fx.chBuf1.wf → ∀ k, k ≠ s.fx.chHead →
      memRead t.fx.chBuf0 k = memRead s.fx.chBuf0 k ∧ memRead t.fx.chBuf1 k = memRead s.fx.chBuf1 k) ∧
    t.fx.chHead = (s.fx.chHead + 1) % s.ctrl.chLen ∧
    (∀ i : Fin 4, RingInv Config.rvLen[i] s.fx.rv[i] →
      t.fx.rv[i].head = (s.fx.rv[i].head + 1) % Config.rvLen[i] ∧
      ∀ k, k ≠ s.fx.rv[i].head → memRead t.fx.rv[i].mem k = memRead s.fx.rv[i].mem k) ∧
    (∀ j : Fin 8, RingInv Config.apLen[j] s.fx.ap[j] →
      t.fx.ap[j].head = (s.fx.ap[j].head + 1) % Config.apLen[j] ∧
      ∀ k, k ≠ s.fx.ap[j].head → memRead t.fx.ap[j].mem k = memRead s.fx.ap[j].mem k)

/-- The mod wheel and the pedals are read by nothing (R203, R204): two states that differ in them alone stay so over any run, and the host takes the same pairs from both. -/
def Obligations.InertControls : Prop :=
  ∀ (n : Nat) (s1 s2 : State), eraseInert s1 = eraseInert s2 →
    takenPairs n s1 = takenPairs n s2 ∧
    ∃ t1 t2, Sys2Proof.core.run n s1 = .next t1 ∧ Sys2Proof.core.run n s2 = .next t2 ∧
      eraseInert t1 = eraseInert t2

/-! ### Binary32 and counters -/

/-- RN32 (R12, R82), which the output port applies after TICK32: a finite number becomes the nearest binary32 number, ties to even, or the infinity from halfway beyond the largest; an infinity stays one; the sign is kept; a NaN becomes a NaN. -/
def Obligations.Binary32Rounding : Prop :=
  ∀ x : Num64,
    (isFinite x = true → roundsTo32 (valueOf x) (rn32 x)) ∧
    (isInf x = true → isInf32 (rn32 x) = true) ∧
    (isNaN x = false → isNeg32 (rn32 x) = isNeg x) ∧
    (isNaN x = true → isNaN32 (rn32 x) = true)

/-- Every step keeps every envelope's counter (R35 (c)), level and start level (R28, R140), every LFO delay counter (R29) and every voice's velocity and velocity factor (R25) in [0, 1], in states with legal parameters and current derived registers, so that every rate that a counter falls by, every sustain level and P.VELSENS are in [0, 1]; and in such states every envelope's output is in [0, 1] (R140). -/
def Obligations.CounterInvStep : Prop :=
  (∀ s t : State, CounterInv s → step s = .next t → CounterInv t) ∧
  (∀ (s : State) (v : Fin Config.nVoice), CounterInv s →
    inRange n0 n1 (envProcess s.ctrl.amp s.params.amp.sustain s.voices[v].amp).out ∧
    inRange n0 n1 (envProcess s.ctrl.flt s.params.flt.sustain s.voices[v].flt).out)
end

