-- ==== Sys2Proof/Laws/Order.lean ====
section
/-! SUPPORT. Comparison, finiteness and the helpers of spec/00_scope.md R12 that use them: what `fle`, `flt`, `clamp`, `fmax` and `iclamp` give. -/

namespace Sys2Proof.Machine

theorem fle_iff {a b : Num64} :
    fle a b = true ↔ isNaN a = false ∧ isNaN b = false ∧ orderKey a ≤ orderKey b := by
  simp [fle, and_assoc]

theorem flt_iff {a b : Num64} :
    flt a b = true ↔ isNaN a = false ∧ isNaN b = false ∧ orderKey a < orderKey b := by
  simp [flt, and_assoc]

theorem feq_iff {a b : Num64} :
    feq a b = true ↔ isNaN a = false ∧ isNaN b = false ∧ orderKey a = orderKey b := by
  simp [feq, and_assoc]

theorem fle_trans {a b c : Num64} (h1 : fle a b = true) (h2 : fle b c = true) : fle a c = true := by
  rw [fle_iff] at *
  exact ⟨h1.1, h2.2.1, h1.2.2.trans h2.2.2⟩

theorem fle_refl {a : Num64} (h : isNaN a = false) : fle a a = true :=
  fle_iff.2 ⟨h, h, le_refl _⟩

theorem isFinite_iff {x : Num64} : isFinite x = true ↔ magBits x < infMag := by simp [isFinite]

theorem isNaN_iff {x : Num64} : isNaN x = true ↔ infMag < magBits x := by simp [isNaN]

theorem isNaN_eq_false_iff {x : Num64} : isNaN x = false ↔ magBits x ≤ infMag := by simp [isNaN]

theorem isInf_iff {x : Num64} : isInf x = true ↔ magBits x = infMag := by simp [isInf]

theorem isNaN_of_isFinite {x : Num64} (h : isFinite x = true) : isNaN x = false := by
  rw [isFinite_iff] at h
  rw [isNaN_eq_false_iff]
  omega

theorem isInf_of_isFinite {x : Num64} (h : isFinite x = true) : isInf x = false := by
  rw [isFinite_iff] at h
  simp only [isInf, decide_eq_false_iff_not]
  omega

/-- A value between two finite values is finite. -/
theorem isFinite_of_between {lo x hi : Num64} (hl : isFinite lo = true) (hh : isFinite hi = true)
    (h1 : fle lo x = true) (h2 : fle x hi = true) : isFinite x = true := by
  rw [isFinite_iff] at *
  rw [fle_iff] at h1 h2
  obtain ⟨-, -, h1⟩ := h1
  obtain ⟨-, -, h2⟩ := h2
  unfold orderKey at h1 h2
  cases hx : isNeg x <;> cases hlo : isNeg lo <;> cases hhi : isNeg hi <;>
    simp only [hx, hlo, hhi, if_true, if_false, Bool.false_eq_true] at h1 h2 <;> omega

theorem isFinite_of_inRange {lo x hi : Num64} (hl : isFinite lo = true) (hh : isFinite hi = true)
    (h : inRange lo hi x) : isFinite x = true := isFinite_of_between hl hh h.1 h.2

/-- `clamp` gives a value of its range, whatever its operand (R12). -/
theorem clamp_inRange {x lo hi : Num64} (h : fle lo hi = true) : inRange lo hi (clamp x lo hi) := by
  have hn := fle_iff.1 h
  unfold clamp
  by_cases h1 : fle lo x = true
  · by_cases h2 : flt hi x = true
    · simp only [h1, h2, Bool.not_true, Bool.false_eq_true, if_false, if_true]
      exact ⟨h, fle_refl hn.2.1⟩
    · simp only [h1, h2, Bool.not_true, Bool.false_eq_true, if_false]
      refine ⟨h1, ?_⟩
      rw [flt_iff] at h2
      have h1' := fle_iff.1 h1
      rw [fle_iff]
      refine ⟨h1'.2.1, hn.2.1, ?_⟩
      by_contra h3
      exact h2 ⟨hn.2.1, h1'.2.1, by omega⟩
  · simp only [h1, Bool.not_false, if_true]
    exact ⟨fle_refl hn.1, h⟩

/-- A value of the range is kept, a value above is the upper bound, and anything else the lower bound. -/
theorem clamp_cases (x lo hi : Num64) :
    (inRange lo hi x ∧ clamp x lo hi = x) ∨ (flt hi x = true ∧ fle lo x = true ∧ clamp x lo hi = hi) ∨
      (clamp x lo hi = lo ∧ fle lo x = false) ∨ (fle lo x = true ∧ isNaN hi = true) := by
  by_cases h1 : fle lo x = true
  · by_cases h2 : flt hi x = true
    · exact .inr (.inl ⟨h2, h1, by simp [clamp, h1, h2]⟩)
    · by_cases h3 : isNaN hi = true
      · exact .inr (.inr (.inr ⟨h1, h3⟩))
      · refine .inl ⟨⟨h1, ?_⟩, by simp [clamp, h1, h2]⟩
        rw [flt_iff] at h2
        have h1' := fle_iff.1 h1
        rw [fle_iff]
        have h3' : isNaN hi = false := by simpa using h3
        refine ⟨h1'.2.1, h3', ?_⟩
        by_contra h4
        exact h2 ⟨h3', h1'.2.1, by omega⟩
  · exact .inr (.inr (.inl ⟨by simp [clamp, h1], by simpa using h1⟩))

/-- `max(x, lo)` of finite operands is finite and at least `lo` (R12). -/
theorem fmax_finiteFrom {x lo : Num64} (hx : isFinite x = true) (hl : isFinite lo = true) :
    finiteFrom lo (fmax x lo) := by
  unfold fmax
  by_cases h : fle lo x = true
  · rw [if_pos h]
    exact ⟨hx, h⟩
  · rw [if_neg h]
    exact ⟨hl, fle_refl (isNaN_of_isFinite hl)⟩

theorem iclamp_range {n lo hi : Int} (h : lo ≤ hi) : lo ≤ iclamp n lo hi ∧ iclamp n lo hi ≤ hi := by
  unfold iclamp
  split <;> [skip; split] <;> omega

/-- R84: the operand `imm` is a 16-bit two's-complement integer. -/
theorem immVal_range (imm : BitVec 16) : -32768 ≤ immVal imm ∧ immVal imm ≤ 32767 := by
  have h1 := BitVec.toInt_lt (x := imm)
  have h2 := BitVec.le_toInt (x := imm)
  unfold immVal
  norm_num at h1 h2
  omega

/-- The pitch of a note command is the clamped operand (R173, R198). -/
theorem pitchOf_val (imm : BitVec 16) : ((pitchOf imm).val : Int) = iclamp (immVal imm) 0 127 := by
  have h := iclamp_range (n := immVal imm) (lo := 0) (hi := 127) (by omega)
  unfold pitchOf
  rw [Fin.val_ofNat, Nat.mod_eq_of_lt (by omega)]
  omega

/-- The filter type of SET_FTYPE is the clamped operand (R127). -/
theorem ftypeOf_val (imm : BitVec 16) : ((ftypeOf imm).val : Int) = iclamp (immVal imm) 0 2 := by
  have h := iclamp_range (n := immVal imm) (lo := 0) (hi := 2) (by omega)
  unfold ftypeOf
  rw [Fin.val_ofNat, Nat.mod_eq_of_lt (by omega)]
  omega

/-- A pedal index that is in range names its own register (R204). -/
theorem pedalIndex_val {imm : BitVec 16} (h : pedalIndexOk imm = true) :
    ((pedalIndex imm).val : Int) = immVal imm := by
  have h' : 0 ≤ immVal imm ∧ immVal imm < 3 := by simpa [pedalIndexOk] using h
  unfold pedalIndex
  rw [Fin.val_ofNat, Nat.mod_eq_of_lt (by show _ < 3; omega)]
  omega

/-- `flush` leaves no subnormal value (R12, R255). -/
theorem flush_not_subnormal (x : Num64) : ¬ isSubnormal (flush x) := by
  unfold flush
  split
  · simp [isSubnormal, pzero, magBits]
  · assumption

end Sys2Proof.Machine
end

