-- ==== Sys2Proof/Laws/Arith.lean ====
section
/-! SUPPORT. The numbers behind the patterns: comparison and floor as facts about values, and what rounding gives (spec/00_scope.md R10, R12). `roundNum_roundsTo` says once what the rounding at the end of every arithmetic operation does; `sticky_approx` and `isqrt_spec` connect division and square root to it; `ramp_inUnit` keeps the envelope's ramp in [0, 1]. -/

namespace Sys2Proof.Machine

/-! ### Values of patterns -/

/-- The value of a finite magnitude pattern with `fb` fraction bits, in units of the least subnormal. -/
def fmtUnits (fb m : Nat) : Nat := if m < 2 ^ fb then m else (m % 2 ^ fb + 2 ^ fb) * 2 ^ (m / 2 ^ fb - 1)

/-- The value of a finite binary64 magnitude pattern, in units of 2^-1074. -/
abbrev magUnits (m : Nat) : Nat := fmtUnits 52 m

theorem fmtUnits_zero (fb : Nat) : fmtUnits fb 0 = 0 := if_pos (by positivity)

/-- A significand `s` in units of the `t`-th last place. -/
theorem fmtUnits_raw (fb t s : Nat) (h1 : s ≤ 2 ^ (fb + 1)) (h2 : 0 < t → 2 ^ fb ≤ s) :
    fmtUnits fb (t * 2 ^ fb + s) = s * 2 ^ t := by
  have hP : 0 < 2 ^ fb := by positivity
  rw [pow_succ] at h1
  unfold fmtUnits
  generalize 2 ^ fb = P at *
  by_cases hs : s < P
  · obtain rfl : t = 0 := by
      by_contra h
      exact absurd (h2 (Nat.pos_of_ne_zero h)) (not_le.2 hs)
    simp [hs]
  · obtain ⟨r, rfl⟩ : ∃ r, s = P + r := ⟨s - P, by omega⟩
    have e : t * P + (P + r) = r + P * (t + 1) := by ring
    rw [e, if_neg (by rw [Nat.mul_succ]; omega)]
    rcases Nat.lt_or_ge r P with hr | hr
    · rw [Nat.add_mul_mod_self_left, Nat.mod_eq_of_lt hr, Nat.add_mul_div_left _ _ hP, Nat.div_eq_of_lt hr,
        Nat.zero_add, Nat.add_sub_cancel, Nat.add_comm]
    · obtain rfl : r = P := by omega
      rw [Nat.add_mul_mod_self_left, Nat.mod_self, Nat.add_mul_div_left _ _ hP, Nat.div_self hP,
        show 1 + (t + 1) - 1 = t + 1 by omega, pow_succ]
      ring

theorem fmtUnits_lt_succ (fb m : Nat) : fmtUnits fb m < fmtUnits fb (m + 1) := by
  have hP : 0 < 2 ^ fb := by positivity
  have hdm := Nat.div_add_mod' m (2 ^ fb)
  have hr := Nat.mod_lt m hP
  have e2 : 2 ^ (fb + 1) = 2 * 2 ^ fb := by ring
  obtain h0 | ⟨q, hq⟩ : m / 2 ^ fb = 0 ∨ ∃ q, m / 2 ^ fb = q + 1 := by
    cases m / 2 ^ fb with
    | zero => exact .inl rfl
    | succ q => exact .inr ⟨q, rfl⟩
  · rw [h0, Nat.zero_mul, Nat.zero_add] at hdm
    have a := fmtUnits_raw fb 0 m (by omega) (by omega)
    have b := fmtUnits_raw fb 0 (m + 1) (by omega) (by omega)
    rw [Nat.zero_mul, Nat.zero_add] at a b
    rw [a, b]
    omega
  · rw [hq, Nat.succ_mul] at hdm
    have a := fmtUnits_raw fb q (m % 2 ^ fb + 2 ^ fb) (by omega) (by omega)
    have b := fmtUnits_raw fb q (m % 2 ^ fb + 2 ^ fb + 1) (by omega) (by omega)
    rw [show q * 2 ^ fb + (m % 2 ^ fb + 2 ^ fb) = m by omega] at a
    rw [show q * 2 ^ fb + (m % 2 ^ fb + 2 ^ fb + 1) = m + 1 by omega] at b
    rw [a, b]
    exact Nat.mul_lt_mul_of_pos_right (Nat.lt_succ_self _) (by positivity)

theorem fmtUnits_strictMono (fb : Nat) : StrictMono (fmtUnits fb) := strictMono_nat_of_lt_succ (fmtUnits_lt_succ fb)

theorem magUnits_strictMono : StrictMono magUnits := fmtUnits_strictMono 52

theorem magUnits_zero : magUnits 0 = 0 := rfl

/-- A finite pattern's signed significand and exponent make its magnitude in units of 2^-1074. -/
theorem valueOf_eq_units (x : Num64) :
    valueOf x = (if isNeg x then -(magUnits (magBits x) : ℚ) else magUnits (magBits x)) * (2 : ℚ) ^ (-1074 : ℤ) := by
  have key : (signif x : ℚ) * (2 : ℚ) ^ expo x = (magUnits (magBits x) : ℚ) * (2 : ℚ) ^ (-1074 : ℤ) := by
    unfold signif expo magUnits fmtUnits
    split
    · rfl
    · next h =>
      have h1 : 1 ≤ magBits x / 2 ^ 52 := by omega
      have e : ((magBits x / 2 ^ 52 : ℕ) : ℤ) - 1075 = ((magBits x / 2 ^ 52 - 1 : ℕ) : ℤ) + (-1074) := by omega
      rw [e, zpow_add₀ (by norm_num), zpow_natCast]
      push_cast
      ring
  unfold valueOf signedSignif
  split
  · push_cast; rw [neg_mul, neg_mul, key]
  · exact_mod_cast key

theorem valueOf_eq_real (z : Num64) : ((valueOf z : ℚ) : ℝ) =
    if isNeg z then -((magUnits (magBits z) : ℝ) * 2 ^ (-1074 : ℤ)) else (magUnits (magBits z) : ℝ) * 2 ^ (-1074 : ℤ) := by
  rw [valueOf_eq_units]
  split
  · rw [neg_mul, Rat.cast_neg, Rat.cast_mul, Rat.cast_natCast, Rat.cast_zpow, Rat.cast_ofNat]
  · rw [Rat.cast_mul, Rat.cast_natCast, Rat.cast_zpow, Rat.cast_ofNat]

theorem abs_valueOf (z : Num64) : |(valueOf z : ℝ)| = (magUnits (magBits z) : ℝ) * 2 ^ (-1074 : ℤ) := by
  rw [valueOf_eq_real]
  split
  · rw [abs_neg, abs_of_nonneg (by positivity)]
  · rw [abs_of_nonneg (by positivity)]

theorem valueOf_real (x : Num64) : ((valueOf x : ℚ) : ℝ) = if isNeg x then -((signif x : ℝ) * 2 ^ expo x) else (signif x : ℝ) * 2 ^ expo x := by
  unfold valueOf signedSignif
  split <;> simp

theorem isNeg_mkNum {neg : Bool} {k : Nat} (h : k < 2 ^ 63) : isNeg (mkNum neg k) = neg := by
  unfold isNeg mkNum
  rw [BitVec.toNat_ofNat]
  cases neg
  · simp only [Bool.false_eq_true, if_false, decide_eq_false_iff_not]; omega
  · simp only [if_true, decide_eq_true_eq]; omega

theorem magBits_mkNum {neg : Bool} {k : Nat} (h : k < 2 ^ 63) : magBits (mkNum neg k) = k := by
  unfold magBits mkNum
  rw [BitVec.toNat_ofNat]
  cases neg
  · simp only [Bool.false_eq_true, if_false]; omega
  · simp only [if_true]; omega

theorem toNat_mkNum_mod (neg : Bool) {k : Nat} : (mkNum neg k).toNat % 2 = k % 2 := by
  unfold mkNum
  rw [BitVec.toNat_ofNat]
  cases neg
  · simp only [Bool.false_eq_true, if_false]; omega
  · simp only [if_true]; omega

theorem magBits_lt (x : Num64) : magBits x < 2 ^ 63 := Nat.mod_lt _ (by norm_num)

@[simp] theorem isNeg_negate (b : Num64) : isNeg (negate b) = !isNeg b := isNeg_mkNum (magBits_lt b)
@[simp] theorem magBits_negate (b : Num64) : magBits (negate b) = magBits b := magBits_mkNum (magBits_lt b)

theorem isInf_mkNum (neg : Bool) : isInf (mkNum neg infMag) = true := by
  rw [isInf_iff, magBits_mkNum (by decide)]

theorem isZero_mkNum (neg : Bool) : isZero (mkNum neg 0) = true := by cases neg <;> decide

/-- Whatever the configuration's free value is, the NaN of an operator is a NaN. -/
theorem isNaN_nanOf (op : FloatOp) (a b : Num64) : isNaN (nanOf op a b) = true := by
  unfold nanOf
  split
  · assumption
  · decide

/-- Rounding keeps the sign, a zero's and an infinity's too. -/
theorem isNeg_roundNum (neg : Bool) (m : Nat) (e : Int) : isNeg (roundNum neg m e) = neg := by
  unfold roundNum roundMag
  apply isNeg_mkNum
  split
  · norm_num
  · exact lt_of_le_of_lt (min_le_left _ _) (by decide)

/-- The magnitude of a value, with its sign apart. -/
theorem valueOf_eq_abs (x : Num64) : |valueOf x| = (magUnits (magBits x) : ℚ) * (2 : ℚ) ^ (-1074 : ℤ) ∧
    valueOf x = if isNeg x then -|valueOf x| else |valueOf x| := by
  have e := valueOf_eq_units x
  have hy : (0 : ℚ) ≤ (magUnits (magBits x) : ℚ) * (2 : ℚ) ^ (-1074 : ℤ) := by positivity
  generalize (2 : ℚ) ^ (-1074 : ℤ) = w at *
  generalize (magUnits (magBits x) : ℚ) = y at *
  rw [e]
  split
  · rw [neg_mul, abs_neg, abs_of_nonneg hy]; exact ⟨rfl, rfl⟩
  · rw [abs_of_nonneg hy]; exact ⟨rfl, rfl⟩

theorem negate_spec (b : Num64) (hb : isFinite b = true) : isFinite (negate b) = true ∧ valueOf (negate b) = -valueOf b := by
  have h := magBits_lt b
  unfold negate
  refine ⟨by rw [isFinite_iff, magBits_mkNum h]; exact isFinite_iff.1 hb, ?_⟩
  rw [valueOf_eq_units, valueOf_eq_units, isNeg_mkNum h, magBits_mkNum h]
  cases isNeg b <;> simp

theorem signif_lt (x : Num64) : signif x < 2 ^ 53 := by
  unfold signif; split <;> omega

theorem valueOf_mkNum_zero (neg : Bool) : valueOf (mkNum neg 0) = 0 := by
  rw [valueOf_eq_units, magBits_mkNum (by norm_num), magUnits_zero]; simp


/-! ### Comparison and floor -/

theorem orderKey_le_iff (a b : Num64) : orderKey a ≤ orderKey b ↔ valueOf a ≤ valueOf b := by
  rw [valueOf_eq_units, valueOf_eq_units, mul_le_mul_iff_left₀ (by positivity)]
  have hm := fun i j => magUnits_strictMono.le_iff_le (a := i) (b := j)
  have h0 : ∀ i, magUnits i = 0 ↔ i = 0 := fun i => magUnits_strictMono.injective.eq_iff (b := 0)
  unfold orderKey
  generalize magBits a = i
  generalize magBits b = j
  cases isNeg a <;> cases isNeg b <;> simp only [if_true, if_false, Bool.false_eq_true]
  · rw [Nat.cast_le, Nat.cast_le, hm]
  · constructor
    · intro h
      have hi : i = 0 := by omega
      have hj : j = 0 := by omega
      subst hi hj; simp [magUnits, fmtUnits]
    · intro h
      have h1 : (0:ℚ) ≤ magUnits i := by positivity
      have h2 : (0:ℚ) ≤ magUnits j := by positivity
      have e1 : (magUnits i : ℚ) = 0 := by linarith
      have e2 : (magUnits j : ℚ) = 0 := by linarith
      have := (h0 i).1 (by exact_mod_cast e1)
      have := (h0 j).1 (by exact_mod_cast e2)
      omega
  · constructor
    · intro _
      have h1 : (0:ℚ) ≤ magUnits i := by positivity
      have h2 : (0:ℚ) ≤ magUnits j := by positivity
      linarith
    · omega
  · rw [neg_le_neg_iff, neg_le_neg_iff, Nat.cast_le, Nat.cast_le, hm]

theorem fle_iff_valueOf {a b : Num64} (ha : isNaN a = false) (hb : isNaN b = false) : fle a b = true ↔ valueOf a ≤ valueOf b := by
  rw [fle_iff]; simp [ha, hb, orderKey_le_iff]

theorem flt_iff_valueOf {a b : Num64} (ha : isNaN a = false) (hb : isNaN b = false) : flt a b = true ↔ valueOf a < valueOf b := by
  rw [flt_iff]; simp [ha, hb, ← not_le, orderKey_le_iff]

theorem feq_iff_valueOf {a b : Num64} (ha : isNaN a = false) (hb : isNaN b = false) : feq a b = true ↔ valueOf a = valueOf b := by
  have h : orderKey a = orderKey b ↔ valueOf a = valueOf b := by
    rw [le_antisymm_iff, orderKey_le_iff, orderKey_le_iff, ← le_antisymm_iff]
  rw [feq_iff]
  simp [ha, hb, h]

theorem floorInt_eq_floor {x : Num64} (h : isFinite x = true) : floorInt x = ⌊valueOf x⌋ := by
  unfold floorInt
  rw [if_pos h]
  unfold valueOf
  split
  · next h0 =>
    obtain ⟨k, hk⟩ := Int.eq_ofNat_of_zero_le h0
    rw [hk, zpow_natCast, Int.toNat_natCast]
    have : ((signedSignif x : ℚ) * 2 ^ k) = ((signedSignif x * 2 ^ k : ℤ) : ℚ) := by push_cast; ring
    rw [this, Int.floor_intCast]
  · next h0 =>
    have : ∃ k : ℕ, expo x = -(k : ℤ) := ⟨(-(expo x)).toNat, by omega⟩
    obtain ⟨k, hk⟩ := this
    rw [hk, neg_neg, Int.toNat_natCast, zpow_neg, zpow_natCast, ← div_eq_mul_inv]
    have := Rat.floor_intCast_div_natCast (signedSignif x) (2 ^ k)
    rw [show ((2 : ℚ) ^ k) = ((2 ^ k : ℕ) : ℚ) by push_cast; rfl, this]
    push_cast; rfl

/-! ### Rounding -/

/-- The integer significand that `roundMag` computes. -/
def roundSig (m : Nat) (e q : Int) : Nat :=
  if q ≤ e then m * 2 ^ (e - q).toNat else shiftRoundEven m (q - e).toNat

/-- The exponent of the last place, with `fb` fraction bits and least exponent `qmin`. -/
def lastPlace (fb : Nat) (qmin : Int) (m : Nat) (e : Int) : Int := max ((Nat.log2 m : Int) + e - fb) qmin

/-- The magnitude pattern that rounding gives before it is capped at the infinity. -/
def rawMag (fb : Nat) (qmin : Int) (m : Nat) (e : Int) : Nat :=
  (lastPlace fb qmin m e - qmin).toNat * 2 ^ fb + roundSig m e (lastPlace fb qmin m e)

theorem roundMag_eq (fb : Nat) (qmin : Int) (top : Nat) {m : Nat} (hm : m ≠ 0) (e : Int) :
    roundMag fb qmin top m e = min top (rawMag fb qmin m e) := by
  unfold roundMag
  rw [if_neg hm]
  rfl

/-- `m * 2^e` is the positive real `x`, or an odd `m` of at least 56 bits stands for an `x` strictly between its even neighbours (a sticky bit). -/
def Approx (m : Nat) (e : Int) (x : ℝ) : Prop :=
  x = m * (2 : ℝ) ^ e ∨
    (m % 2 = 1 ∧ 2 ^ 55 ≤ m ∧ ((m : ℝ) - 1) * 2 ^ e < x ∧ x < ((m : ℝ) + 1) * 2 ^ e)

theorem shiftRoundEven_near (m t : Nat) (y : ℝ) (h : y = m / 2 ^ t ∨
    (m % 2 = 1 ∧ 2 ≤ t ∧ ((m : ℝ) - 1) / 2 ^ t < y ∧ y < ((m : ℝ) + 1) / 2 ^ t)) :
    |(shiftRoundEven m t : ℝ) - y| ≤ 1 / 2 ∧
      (|(shiftRoundEven m t : ℝ) - y| = 1 / 2 → shiftRoundEven m t % 2 = 0) := by
  have hp : (0 : ℝ) < 2 ^ t := by positivity
  have hdm := Nat.div_add_mod m (2 ^ t)
  have hlt := Nat.mod_lt m (show 0 < 2 ^ t by positivity)
  unfold shiftRoundEven
  dsimp only
  set q := m / 2 ^ t
  set r := m % 2 ^ t
  have hm : (m : ℝ) = 2 ^ t * q + r := by exact_mod_cast hdm.symm
  have hltR : (r : ℝ) < 2 ^ t := by exact_mod_cast hlt
  have hr0 : (0 : ℝ) ≤ r := by positivity
  rcases h with h | ⟨hodd, ht, h1, h2⟩
  · have hy : y = q + r / 2 ^ t := by rw [h, hm]; field_simp
    split
    · next hc =>
      have hc' : (2 : ℝ) ^ t ≤ 2 * r := by
        rcases hc with hc | hc
        · exact_mod_cast hc.le
        · exact_mod_cast hc.1.ge
      have e : ((q + 1 : ℕ) : ℝ) - y = 1 - r / 2 ^ t := by rw [hy]; push_cast; ring
      have b1 : (1 : ℝ) / 2 ≤ r / 2 ^ t := by rw [le_div_iff₀ hp]; linarith
      have b2 : (r : ℝ) / 2 ^ t < 1 := by rw [div_lt_one hp]; exact hltR
      rw [e, abs_of_nonneg (by linarith)]
      refine ⟨by linarith, fun heq => ?_⟩
      have : (r : ℝ) / 2 ^ t = 1 / 2 := by linarith
      rw [div_eq_iff hp.ne'] at this
      have h3 : 2 * r = 2 ^ t := by
        have : (2 * r : ℝ) = 2 ^ t := by linarith
        exact_mod_cast this
      rcases hc with hc | hc
      · omega
      · omega
    · next hc =>
      have hc1 : 2 * r ≤ 2 ^ t := by by_contra hh; exact hc (.inl (by omega))
      have hc' : (2 * r : ℝ) ≤ 2 ^ t := by exact_mod_cast hc1
      have e : (q : ℝ) - y = -(r / 2 ^ t) := by rw [hy]; ring
      have b1 : (r : ℝ) / 2 ^ t ≤ 1 / 2 := by rw [div_le_iff₀ hp]; linarith
      have b2 : (0 : ℝ) ≤ r / 2 ^ t := by positivity
      rw [e, abs_neg, abs_of_nonneg b2]
      refine ⟨b1, fun heq => ?_⟩
      rw [div_eq_iff hp.ne'] at heq
      have h3 : 2 * r = 2 ^ t := by
        have : (2 * r : ℝ) = 2 ^ t := by linarith
        exact_mod_cast this
      by_contra hh
      exact hc (.inr ⟨h3, by omega⟩)
  · obtain ⟨k, rfl⟩ : ∃ k, t = k + 2 := ⟨t - 2, by omega⟩
    have hpk : (2 : ℕ) ^ (k + 2) = 4 * 2 ^ k := by ring
    have hrodd : r % 2 = 1 := by
      have : m = 2 * (2 * 2 ^ k * q) + r := by rw [← hdm, hpk]; ring
      omega
    have b1 : (q : ℝ) + (r - 1) / 2 ^ (k + 2) < y := by
      refine lt_of_eq_of_lt ?_ h1; rw [hm]; field_simp; ring
    have b2 : y < (q : ℝ) + (r + 1) / 2 ^ (k + 2) := by
      refine lt_of_lt_of_eq h2 ?_; rw [hm]; field_simp
      try ring
    have c0 : (0 : ℝ) ≤ (r - 1) / 2 ^ (k + 2) := by
      apply div_nonneg _ hp.le
      have : 1 ≤ r := by omega
      have : (1 : ℝ) ≤ r := by exact_mod_cast this
      linarith
    have c1 : ((r : ℝ) + 1) / 2 ^ (k + 2) ≤ 1 := by
      rw [div_le_one hp]
      exact_mod_cast hlt
    split
    · next hc =>
      have hc1 : 2 ^ (k + 2) + 2 ≤ 2 * r := by
        rcases hc with hc | hc <;> omega
      have c2 : (1 : ℝ) / 2 ≤ (r - 1) / 2 ^ (k + 2) := by
        rw [le_div_iff₀ hp]
        have : (2 ^ (k + 2) + 2 : ℝ) ≤ 2 * r := by exact_mod_cast hc1
        linarith
      have : |((q + 1 : ℕ) : ℝ) - y| < 1 / 2 := by
        push_cast; rw [abs_lt]; constructor <;> linarith
      exact ⟨this.le, fun h => absurd h this.ne⟩
    · next hc =>
      have hc1 : 2 * r + 2 ≤ 2 ^ (k + 2) := by
        have : ¬ 2 ^ (k + 2) < 2 * r := fun hh => hc (.inl hh)
        omega
      have c2 : ((r : ℝ) + 1) / 2 ^ (k + 2) ≤ 1 / 2 := by
        rw [div_le_iff₀ hp]
        have : (2 * r + 2 : ℝ) ≤ 2 ^ (k + 2) := by exact_mod_cast hc1
        linarith
      have : |(q : ℝ) - y| < 1 / 2 := by
        rw [abs_lt]; constructor <;> linarith
      exact ⟨this.le, fun h => absurd h this.ne⟩

theorem lastPlace_ge (fb : Nat) (qmin : Int) (m : Nat) (e : Int) : (Nat.log2 m : Int) + e - fb ≤ lastPlace fb qmin m e :=
  le_max_left _ _

theorem pow_log2_le {m : Nat} (hm : m ≠ 0) : (2 : ℝ) ^ Nat.log2 m ≤ m := by
  exact_mod_cast Nat.log2_self_le hm

theorem approx_bounds {m : Nat} {e : Int} {x : ℝ} (hm : m ≠ 0) (h : Approx m e x) :
    (2 : ℝ) ^ ((Nat.log2 m : Int) + e) ≤ x ∧ x ≤ (2 : ℝ) ^ ((Nat.log2 m : Int) + 1 + e) := by
  have hp : (0 : ℝ) < 2 ^ e := by positivity
  have h1 : 2 ^ Nat.log2 m ≤ m := Nat.log2_self_le hm
  have h2 : m + 1 ≤ 2 ^ (Nat.log2 m + 1) := Nat.lt_log2_self
  rw [zpow_add₀ (by norm_num), zpow_add₀ (by norm_num) _ e, ← Nat.cast_succ, zpow_natCast, zpow_natCast]
  change _ ∧ x ≤ 2 ^ (Nat.log2 m + 1) * 2 ^ e
  have h2' : (m : ℝ) + 1 ≤ 2 ^ (Nat.log2 m + 1) := by exact_mod_cast h2
  rcases h with h | ⟨ho, hb, h3, h4⟩
  · rw [h]
    refine ⟨mul_le_mul_of_nonneg_right (pow_log2_le hm) hp.le, mul_le_mul_of_nonneg_right ?_ hp.le⟩
    linarith
  · have h5 : 2 ^ Nat.log2 m + 1 ≤ m := by
      have hne : Nat.log2 m ≠ 0 := by
        intro h0; rw [h0] at h2; omega
      obtain ⟨k, hk⟩ := Nat.exists_eq_succ_of_ne_zero hne
      rw [hk, Nat.succ_eq_add_one, pow_succ] at h1 ⊢
      omega
    have h5' : (2 : ℝ) ^ Nat.log2 m ≤ (m : ℝ) - 1 := by
      have : (2 : ℝ) ^ Nat.log2 m + 1 ≤ m := by exact_mod_cast h5
      linarith
    exact ⟨(mul_le_mul_of_nonneg_right h5' hp.le).trans h3.le, h4.le.trans (mul_le_mul_of_nonneg_right h2' hp.le)⟩

theorem roundSig_near {fb : Nat} (hfb : fb ≤ 52) (qmin : Int) {m : Nat} {e : Int} {x : ℝ} (hm : m ≠ 0) (h : Approx m e x) :
    |(roundSig m e (lastPlace fb qmin m e) : ℝ) - x / 2 ^ lastPlace fb qmin m e| ≤ 1 / 2 ∧
      (|(roundSig m e (lastPlace fb qmin m e) : ℝ) - x / 2 ^ lastPlace fb qmin m e| = 1 / 2 → roundSig m e (lastPlace fb qmin m e) % 2 = 0) := by
  have hq := lastPlace_ge fb qmin m e
  generalize lastPlace fb qmin m e = q at *
  unfold roundSig
  split
  · next hle =>
    have hx : x = m * (2 : ℝ) ^ e := by
      rcases h with h | ⟨-, hb, -⟩
      · exact h
      · have : 55 ≤ Nat.log2 m := (Nat.le_log2 hm).2 hb
        omega
    have : ((m * 2 ^ (e - q).toNat : ℕ) : ℝ) - x / 2 ^ q = 0 := by
      obtain ⟨k, hk⟩ := Int.eq_ofNat_of_zero_le (show 0 ≤ e - q by omega)
      have he : e = k + q := by omega
      rw [hx, hk, Int.toNat_natCast, he, zpow_add₀ (by norm_num), zpow_natCast]
      push_cast; field_simp
      ring
    rw [this, abs_zero]
    norm_num
  · next hle =>
    obtain ⟨k, hk⟩ := Int.eq_ofNat_of_zero_le (show 0 ≤ q - e by omega)
    have he : q = k + e := by omega
    rw [hk, Int.toNat_natCast]
    have hp : (0 : ℝ) < 2 ^ e := by positivity
    apply shiftRoundEven_near
    rw [he, zpow_add₀ (by norm_num), zpow_natCast]
    rcases h with h | ⟨ho, hb, h3, h4⟩
    · left; rw [h]; field_simp
    · right
      have h55 : 55 ≤ Nat.log2 m := (Nat.le_log2 hm).2 hb
      refine ⟨ho, by omega, ?_, ?_⟩
      · rw [div_lt_div_iff₀ (by positivity) (by positivity)]
        have := mul_lt_mul_of_pos_right h3 (show (0 : ℝ) < 2 ^ k by positivity)
        linarith
      · rw [div_lt_div_iff₀ (by positivity) (by positivity)]
        have := mul_lt_mul_of_pos_right h4 (show (0 : ℝ) < 2 ^ k by positivity)
        linarith

theorem roundSig_range {fb : Nat} (hfb : fb ≤ 52) (qmin : Int) {m : Nat} {e : Int} {x : ℝ} (hm : m ≠ 0) (h : Approx m e x) :
    roundSig m e (lastPlace fb qmin m e) ≤ 2 ^ (fb + 1) ∧
      (qmin < lastPlace fb qmin m e → (2 : ℝ) ^ fb ≤ x / 2 ^ lastPlace fb qmin m e ∧ 2 ^ fb ≤ roundSig m e (lastPlace fb qmin m e)) := by
  obtain ⟨h1, -⟩ := roundSig_near hfb qmin hm h
  obtain ⟨b1, b2⟩ := approx_bounds hm h
  rw [abs_le] at h1
  have hp : (0 : ℝ) < 2 ^ lastPlace fb qmin m e := by positivity
  constructor
  · have : x / 2 ^ lastPlace fb qmin m e ≤ 2 ^ (fb + 1) := by
      rw [div_le_iff₀ hp]
      refine b2.trans ?_
      rw [show (2 : ℝ) ^ (fb + 1) = 2 ^ ((fb + 1 : ℕ) : ℤ) from (zpow_natCast _ _).symm, ← zpow_add₀ (by norm_num)]
      apply zpow_le_zpow_right₀ (by norm_num)
      have := lastPlace_ge fb qmin m e
      omega
    have h2 : (roundSig m e (lastPlace fb qmin m e) : ℝ) < 2 ^ (fb + 1) + 1 := by linarith [h1.2]
    have : roundSig m e (lastPlace fb qmin m e) < 2 ^ (fb + 1) + 1 := by exact_mod_cast h2
    omega
  · intro hq
    have hq2 : lastPlace fb qmin m e = (Nat.log2 m : Int) + e - fb := by
      unfold lastPlace at *
      rcases max_choice ((Nat.log2 m : Int) + e - fb) qmin with h | h <;> omega
    have : (2 : ℝ) ^ fb ≤ x / 2 ^ lastPlace fb qmin m e := by
      rw [le_div_iff₀ hp]
      refine le_trans ?_ b1
      rw [show (2 : ℝ) ^ fb = 2 ^ (fb : ℤ) from (zpow_natCast _ _).symm, ← zpow_add₀ (by norm_num), hq2]
      apply zpow_le_zpow_right₀ (by norm_num)
      omega
    refine ⟨this, ?_⟩
    have h2 : (2 : ℝ) ^ fb < roundSig m e (lastPlace fb qmin m e) + 1 := by linarith [h1.1]
    have : 2 ^ fb < roundSig m e (lastPlace fb qmin m e) + 1 := by exact_mod_cast h2
    omega

/-- Every magnitude is a multiple of `2^t` or lies below `2^fb * 2^t`. -/
theorem fmtUnits_cases (fb j t : Nat) : (∃ n, fmtUnits fb j = n * 2 ^ t) ∨ fmtUnits fb j < 2 ^ fb * 2 ^ t := by
  have hP : 0 < 2 ^ fb := by positivity
  by_cases h : j < (t + 1) * 2 ^ fb
  · right
    calc fmtUnits fb j < fmtUnits fb ((t + 1) * 2 ^ fb) := fmtUnits_strictMono fb h
      _ = fmtUnits fb (t * 2 ^ fb + 2 ^ fb) := by ring_nf
      _ = 2 ^ fb * 2 ^ t := fmtUnits_raw fb t _ (Nat.pow_le_pow_right (by norm_num) (by omega)) (fun _ => le_refl _)
  · left
    have hd : t + 1 ≤ j / 2 ^ fb := (Nat.le_div_iff_mul_le hP).2 (not_lt.1 h)
    have hge : ¬ j < 2 ^ fb := fun hh => by rw [Nat.div_eq_of_lt hh] at hd; omega
    unfold fmtUnits
    rw [if_neg hge]
    obtain ⟨k, hk⟩ : ∃ k, j / 2 ^ fb - 1 = t + k := ⟨j / 2 ^ fb - 1 - t, by omega⟩
    exact ⟨(j % 2 ^ fb + 2 ^ fb) * 2 ^ k, by rw [hk, pow_add]; ring⟩

theorem int_near {s n : ℕ} {v : ℝ} (h : |(s : ℝ) - v| ≤ 1 / 2) :
    |(s : ℝ) - v| ≤ |(n : ℝ) - v| ∧ (|(s : ℝ) - v| = |(n : ℝ) - v| → n = s ∨ |(s : ℝ) - v| = 1 / 2) := by
  by_cases hn : n = s
  · subst hn; simp
  · have h1 : (1 : ℝ) ≤ |(n : ℝ) - s| := by
      have : (1 : ℤ) ≤ |(n : ℤ) - s| := Int.one_le_abs (by omega)
      exact_mod_cast this
    have h2 : |(n : ℝ) - s| ≤ |(n : ℝ) - v| + |(s : ℝ) - v| := by
      have := abs_sub_le (n : ℝ) v s
      rwa [abs_sub_comm v] at this
    constructor
    · linarith
    · intro heq; right; linarith

/-- Rounding gives a nearest magnitude of the format, and of two nearest ones an even pattern. -/
theorem rawMag_nearest {fb : Nat} (hfb0 : 0 < fb) (hfb : fb ≤ 52) (qmin : Int) {m : Nat} {e : Int} {x : ℝ} (hm : m ≠ 0) (h : Approx m e x) (j : Nat) :
    |(fmtUnits fb (rawMag fb qmin m e) : ℝ) * 2 ^ qmin - x| ≤ |(fmtUnits fb j : ℝ) * 2 ^ qmin - x| ∧
    (|(fmtUnits fb (rawMag fb qmin m e) : ℝ) * 2 ^ qmin - x| = |(fmtUnits fb j : ℝ) * 2 ^ qmin - x| →
      fmtUnits fb j = fmtUnits fb (rawMag fb qmin m e) ∨ rawMag fb qmin m e % 2 = 0) := by
  obtain ⟨h1, h2⟩ := roundSig_near hfb qmin hm h
  obtain ⟨h3, h4⟩ := roundSig_range hfb qmin hm h
  unfold rawMag
  have hq0 : qmin ≤ lastPlace fb qmin m e := le_max_right _ _
  generalize roundSig m e (lastPlace fb qmin m e) = s at *
  generalize lastPlace fb qmin m e = q at *
  obtain ⟨t, ht⟩ := Int.eq_ofNat_of_zero_le (show 0 ≤ q - qmin by omega)
  have hq : q = (t : ℤ) + qmin := by omega
  rw [ht, Int.toNat_natCast, fmtUnits_raw fb t s h3 (fun h => (h4 (by omega)).2)]
  have hw : (0 : ℝ) < 2 ^ q := by positivity
  have hw2 : (2 : ℝ) ^ q = 2 ^ t * 2 ^ qmin := by rw [hq, zpow_add₀ (by norm_num), zpow_natCast]
  obtain ⟨v, hv⟩ : ∃ v, x / 2 ^ q = v := ⟨_, rfl⟩
  have hx : x = v * 2 ^ q := by rw [← hv]; field_simp
  rw [hv] at h1 h2 h4
  have es : ∀ n : ℕ, ((n * 2 ^ t : ℕ) : ℝ) * 2 ^ qmin - x = (n - v) * 2 ^ q := by
    intro n; rw [hx, hw2]; push_cast; ring
  have ea : ∀ n : ℕ, |((n * 2 ^ t : ℕ) : ℝ) * 2 ^ qmin - x| = |(n : ℝ) - v| * 2 ^ q := by
    intro n; rw [es, abs_mul, abs_of_pos hw]
  have par : s % 2 = 0 → (t * 2 ^ fb + s) % 2 = 0 := by
    obtain ⟨f, rfl⟩ := Nat.exists_eq_succ_of_ne_zero hfb0.ne'
    have e2 : t * 2 ^ (f + 1) = 2 * (t * 2 ^ f) := by ring
    rw [Nat.succ_eq_add_one, e2]
    omega
  by_cases hmul : ∃ n, fmtUnits fb j = n * 2 ^ t
  · obtain ⟨n, hn⟩ := hmul
    rw [hn, ea, ea]
    obtain ⟨k1, k2⟩ := int_near (n := n) h1
    refine ⟨mul_le_mul_of_nonneg_right k1 hw.le, fun heq => ?_⟩
    rcases k2 (mul_right_cancel₀ hw.ne' heq) with k | k
    · left; rw [k]
    · right; exact par (h2 k)
  · have hlt := (fmtUnits_cases fb j t).resolve_left hmul
    have htpos : qmin < q := by
      by_contra hc
      have : t = 0 := by omega
      exact hmul ⟨fmtUnits fb j, by rw [this]; simp⟩
    obtain ⟨k1, -⟩ := int_near (n := 2 ^ fb) h1
    have hv52 := (h4 htpos).1
    have hltR : (fmtUnits fb j : ℝ) * 2 ^ qmin < 2 ^ fb * 2 ^ q := by
      rw [hw2, ← mul_assoc]
      apply mul_lt_mul_of_pos_right _ (by positivity)
      exact_mod_cast hlt
    have hxge : (2 : ℝ) ^ fb * 2 ^ q ≤ x := by rw [hx]; exact mul_le_mul_of_nonneg_right hv52 hw.le
    have hstrict : |((s * 2 ^ t : ℕ) : ℝ) * 2 ^ qmin - x| < |(fmtUnits fb j : ℝ) * 2 ^ qmin - x| := by
      rw [ea, abs_sub_comm _ x, abs_of_pos (show 0 < x - (fmtUnits fb j : ℝ) * 2 ^ qmin by linarith)]
      have : |(s : ℝ) - v| ≤ v - 2 ^ fb := by
        refine k1.trans ?_
        rw [Nat.cast_pow, Nat.cast_ofNat, abs_sub_comm, abs_of_nonneg (by linarith)]
      calc |(s : ℝ) - v| * 2 ^ q ≤ (v - 2 ^ fb) * 2 ^ q := mul_le_mul_of_nonneg_right this hw.le
        _ = x - 2 ^ fb * 2 ^ q := by rw [hx]; ring
        _ < _ := by linarith
    exact ⟨hstrict.le, fun heq => absurd heq hstrict.ne⟩

/-- The rounded magnitude stays below the infinity pattern `top` exactly when the number lies below the middle of the last two magnitudes. -/
theorem rawMag_lt_iff {fb : Nat} (hfb0 : 0 < fb) (hfb : fb ≤ 52) (qmin : Int) {m : Nat} {e : Int} {x : ℝ}
    (hm : m ≠ 0) (h : Approx m e x) {top : Nat} (htop : 0 < top) (hodd : (top - 1) % 2 = 1) :
    rawMag fb qmin m e < top ↔
      2 * x < ((fmtUnits fb (top - 1) : ℝ) + fmtUnits fb top) * 2 ^ qmin := by
  have near := rawMag_nearest hfb0 hfb qmin hm h
  have hw : (0 : ℝ) < 2 ^ qmin := by positivity
  generalize (2 : ℝ) ^ qmin = w at *
  have mono : ∀ i j, i ≤ j → (fmtUnits fb i : ℝ) * w ≤ (fmtUnits fb j : ℝ) * w := by
    intro i j hij
    apply mul_le_mul_of_nonneg_right _ hw.le
    exact_mod_cast (fmtUnits_strictMono fb).monotone hij
  have hlt : (fmtUnits fb (top - 1) : ℝ) * w < fmtUnits fb top * w := by
    apply mul_lt_mul_of_pos_right _ hw
    exact_mod_cast fmtUnits_strictMono fb (by omega : top - 1 < top)
  generalize rawMag fb qmin m e = k at *
  rw [add_mul]
  constructor
  · intro hk
    obtain ⟨n1, n2⟩ := near top
    have hmk := mono k (top - 1) (by omega)
    by_contra hc
    rw [not_lt] at hc
    have e1 : |(fmtUnits fb k : ℝ) * w - x| = x - fmtUnits fb k * w := by
      rw [abs_sub_comm, abs_of_nonneg]; linarith
    rcases le_or_gt x (fmtUnits fb top * w) with h5 | h5
    · have e2 : |(fmtUnits fb top : ℝ) * w - x| = fmtUnits fb top * w - x := abs_of_nonneg (by linarith)
      rw [e1, e2] at n1 n2
      have hke : (fmtUnits fb k : ℝ) * w = (fmtUnits fb (top - 1) : ℝ) * w := by linarith
      have hkk : k = top - 1 := by
        have := mul_right_cancel₀ hw.ne' hke
        exact (fmtUnits_strictMono fb).injective (by exact_mod_cast this)
      rcases n2 (by linarith) with this | this
      · have := (fmtUnits_strictMono fb).injective this
        omega
      · omega
    · have e2 : |(fmtUnits fb top : ℝ) * w - x| = x - fmtUnits fb top * w := by rw [abs_sub_comm, abs_of_nonneg]; linarith
      rw [e1, e2] at n1
      linarith
  · intro hx
    by_contra hc
    rw [not_lt] at hc
    obtain ⟨n1, -⟩ := near (top - 1)
    have hmk := mono top k hc
    rw [abs_of_nonneg (show 0 ≤ (fmtUnits fb k : ℝ) * w - x by linarith)] at n1
    rcases le_total x (fmtUnits fb (top - 1) * w) with h5 | h5
    · rw [abs_of_nonneg (by linarith)] at n1; linarith
    · rw [abs_sub_comm, abs_of_nonneg (by linarith)] at n1; linarith

/-- The signed number of a magnitude pattern. -/
noncomputable def signedUnits (fb : Nat) (qmin : Int) (neg : Bool) (k : Nat) : ℝ :=
  if neg then -((fmtUnits fb k : ℝ) * 2 ^ qmin) else (fmtUnits fb k : ℝ) * 2 ^ qmin

/-- Rounding the magnitude and keeping the sign gives a nearest signed number, and of two nearest ones an even pattern. -/
theorem signed_nearest {fb : Nat} (hfb0 : 0 < fb) (hfb : fb ≤ 52) (qmin : Int) {m : Nat} {e : Int} {x : ℝ}
    (hm : m ≠ 0) (h : Approx m e x) (neg nz : Bool) (j : Nat) :
    |signedUnits fb qmin neg (rawMag fb qmin m e) - (if neg then -x else x)| ≤
      |signedUnits fb qmin nz j - (if neg then -x else x)| ∧
    (|signedUnits fb qmin neg (rawMag fb qmin m e) - (if neg then -x else x)| =
      |signedUnits fb qmin nz j - (if neg then -x else x)| →
      signedUnits fb qmin nz j = signedUnits fb qmin neg (rawMag fb qmin m e) ∨ rawMag fb qmin m e % 2 = 0) := by
  have hx : 0 < x := lt_of_lt_of_le (by positivity) (approx_bounds hm h).1
  have near := rawMag_nearest hfb0 hfb qmin hm h
  unfold signedUnits
  generalize rawMag fb qmin m e = k at *
  have hw : (0 : ℝ) < 2 ^ qmin := by positivity
  generalize (2 : ℝ) ^ qmin = w at *
  have h0 : (0 : ℝ) ≤ (fmtUnits fb j : ℝ) * w := mul_nonneg (Nat.cast_nonneg _) hw.le
  have same : ∀ i : Nat, |(if neg then -((fmtUnits fb i : ℝ) * w) else (fmtUnits fb i : ℝ) * w) - (if neg then -x else x)| =
      |(fmtUnits fb i : ℝ) * w - x| := by
    intro i
    cases neg
    · simp
    · simp only [if_true]; rw [← abs_neg]; congr 1; ring
  rw [same k]
  by_cases hs : nz = neg
  · subst hs
    rw [same j]
    obtain ⟨n1, n2⟩ := near j
    exact ⟨n1, fun heq => (n2 heq).imp_left fun hh => by rw [hh]⟩
  · have hzx : |(if nz then -((fmtUnits fb j : ℝ) * w) else (fmtUnits fb j : ℝ) * w) - (if neg then -x else x)| =
        (fmtUnits fb j : ℝ) * w + x := by
      cases neg <;> cases nz <;> simp only [if_true, Bool.false_eq_true, if_false, not_true_eq_false] at hs ⊢
      · rw [abs_of_nonpos (by linarith)]; ring
      · rw [abs_of_nonneg (by linarith)]; ring
    rw [hzx]
    obtain ⟨n1, n2⟩ := near 0
    have ez : |(fmtUnits fb 0 : ℝ) * w - x| = x := by
      rw [fmtUnits_zero]; simp [abs_of_pos hx]
    rw [ez] at n1 n2
    refine ⟨by linarith, fun heq => ?_⟩
    rcases n2 (by linarith) with hh | hh
    · left
      have hj : (fmtUnits fb j : ℝ) * w = 0 := by linarith
      have hk : (fmtUnits fb k : ℝ) * w = 0 := by rw [← hh, fmtUnits_zero]; simp
      rw [hj, hk]
      simp
    · right; exact hh

theorem valueOf_eq_signedUnits (z : Num64) : (valueOf z : ℝ) = signedUnits 52 (-1074) (isNeg z) (magBits z) :=
  valueOf_eq_real z

/-- The middle of the largest finite binary64 magnitude and the next one is `overflowBound`. -/
theorem overflowBound_eq : ((magUnits (infMag - 1) : ℝ) + magUnits infMag) * 2 ^ (-1074 : ℤ) = 2 * (overflowBound : ℝ) := by
  have u1 : magUnits (infMag - 1) = 9007199254740991 * 2 ^ 2045 := fmtUnits_raw 52 2045 9007199254740991 (by norm_num) (by norm_num)
  have u2 : magUnits infMag = 9007199254740992 * 2 ^ 2045 := fmtUnits_raw 52 2045 9007199254740992 (by norm_num) (by norm_num)
  obtain ⟨g, hg⟩ : ∃ g, (2 : ℝ) ^ (970 : ℤ) = g := ⟨_, rfl⟩
  have hB : ((2 ^ 2045 : ℕ) : ℝ) * 2 ^ (-1074 : ℤ) = 2 * g := by
    rw [← hg, Nat.cast_pow, Nat.cast_ofNat, ← zpow_natCast, ← zpow_add₀ (by norm_num),
      show ((2045 : ℕ) : ℤ) + (-1074) = 1 + 970 by norm_num, zpow_add₀ (by norm_num), zpow_one]
  have hob : (overflowBound : ℝ) = 18014398509481983 * g := by
    unfold overflowBound
    have h1024 : (1024 : ℕ) = 54 + 970 := rfl
    have hg' : (2 : ℝ) ^ 970 = g := (zpow_ofNat (2 : ℝ) 970).symm.trans hg
    rw [Rat.cast_sub, Rat.cast_pow, Rat.cast_pow, Rat.cast_ofNat, h1024, pow_add, hg']
    ring
  rw [u1, u2, hob, Nat.cast_mul, Nat.cast_mul, add_mul, mul_assoc, mul_assoc, hB]
  push_cast
  ring

/-- Rounding a nonzero magnitude is correct rounding. -/
theorem roundNum_roundsTo {m : Nat} {e : Int} {x : ℝ} (hm : m ≠ 0) (h : Approx m e x) (neg : Bool) :
    roundsTo (if neg then -x else x) (roundNum neg m e) := by
  have hx : 0 < x := lt_of_lt_of_le (by positivity) (approx_bounds hm h).1
  have habs : |if neg then -x else x| = x := by
    cases neg
    · simp [abs_of_pos hx]
    · simp [abs_of_pos hx]
  have hsgn : (if neg then -x else x) < 0 ↔ neg = true := by
    cases neg
    · simp [hx.le]
    · simp [hx]
  have hround : roundNum neg m e = mkNum neg (min infMag (rawMag 52 (-1074) m e)) := by
    unfold roundNum; rw [roundMag_eq 52 (-1074) infMag hm]
  have hi63 : infMag < 2 ^ 63 := by decide
  have hfin := rawMag_lt_iff (by norm_num) le_rfl (-1074) hm h (top := infMag) (by decide) (by decide)
  rw [overflowBound_eq] at hfin
  have near := signed_nearest (by norm_num) le_rfl (-1074) hm h neg
  generalize rawMag 52 (-1074) m e = k at *
  constructor
  · rw [habs]
    intro hlt
    have hk : k < infMag := hfin.2 (by linarith)
    rw [hround, min_eq_right hk.le]
    have hk63 : k < 2 ^ 63 := hk.trans hi63
    refine ⟨by rw [isFinite_iff, magBits_mkNum hk63]; exact hk, fun z _ => ?_⟩
    rw [toNat_mkNum_mod neg, ← Rat.cast_inj (α := ℝ), valueOf_eq_signedUnits, valueOf_eq_signedUnits, isNeg_mkNum hk63,
      magBits_mkNum hk63]
    exact near (isNeg z) (magBits z)
  · rw [habs]
    intro hge
    have hk : infMag ≤ k := by
      by_contra hc
      have := hfin.1 (by omega)
      linarith
    rw [hround, min_eq_left hk, hsgn, isNeg_mkNum hi63]
    exact ⟨by rw [isInf_iff, magBits_mkNum hi63], Iff.rfl⟩

theorem roundNum_zero (neg : Bool) (e : Int) : roundNum neg 0 e = mkNum neg 0 := by
  unfold roundNum roundMag; rfl

theorem roundsTo_zero (neg : Bool) : roundsTo 0 (mkNum neg 0) := by
  constructor
  · intro _
    refine ⟨by cases neg <;> decide, fun z _ => ?_⟩
    rw [valueOf_mkNum_zero]
    refine ⟨by simp, fun h => .inl ?_⟩
    have : |((valueOf z : ℚ) : ℝ)| = 0 := by simpa using h.symm
    exact_mod_cast abs_eq_zero.1 this
  · intro h
    exfalso
    rw [abs_zero] at h
    have : (0 : ℚ) < overflowBound := by unfold overflowBound; decide +kernel
    have : (0 : ℝ) < overflowBound := by exact_mod_cast this
    linarith

theorem roundInt_roundsTo (t : Int) (e : Int) (h : t ≠ 0) : roundsTo ((t : ℝ) * 2 ^ e) (roundInt t e) := by
  unfold roundInt
  have hx : (t : ℝ) * 2 ^ e = if decide (t < 0) then -((t.natAbs : ℝ) * 2 ^ e) else (t.natAbs : ℝ) * 2 ^ e := by
    have : (t.natAbs : ℝ) = |(t : ℝ)| := by rw [Nat.cast_natAbs]; simp
    rw [this]
    by_cases hn : t < 0
    · rw [abs_of_neg (by exact_mod_cast hn)]; simp [hn]
    · rw [abs_of_nonneg (by exact_mod_cast (not_lt.1 hn))]; simp [hn]
  rw [hx]
  exact roundNum_roundsTo (by omega) (.inl rfl) _

theorem sticky_approx (n d : ℕ) (E : ℤ) (hd : 0 < d) (hbig : 2 ^ 55 ≤ n / d) :
    Approx (stickyDiv n d) (E - 1) ((n : ℝ) / d * 2 ^ E) := by
  have hdm := Nat.div_add_mod n d
  have hlt := Nat.mod_lt n hd
  have hdr : (0 : ℝ) < d := by exact_mod_cast hd
  have hp : (0 : ℝ) < 2 ^ (E - 1) := by positivity
  have e : (n : ℝ) / d * 2 ^ E = 2 * ((n : ℝ) / d) * 2 ^ (E - 1) := by
    rw [show E = 1 + (E - 1) by ring, zpow_add₀ (by norm_num), zpow_one, show 1 + (E - 1) - 1 = E - 1 by ring]; ring
  rw [e]
  unfold stickyDiv
  set q := n / d
  set r := n % d
  have hdmR : (d : ℝ) * q + r = n := by exact_mod_cast hdm
  have hn : (n : ℝ) / d = q + r / d := by rw [← hdmR]; field_simp
  rw [hn]
  by_cases hr : r = 0
  · left; rw [if_pos hr, hr]; push_cast; ring
  · right
    rw [if_neg hr]
    have h1 : (0 : ℝ) < r / d := by
      have : (0 : ℝ) < r := by exact_mod_cast Nat.pos_of_ne_zero hr
      positivity
    have h2 : (r : ℝ) / d < 1 := by rw [div_lt_one hdr]; exact_mod_cast hlt
    refine ⟨by omega, by omega, ?_, ?_⟩
    · apply mul_lt_mul_of_pos_right _ hp; push_cast; linarith
    · apply mul_lt_mul_of_pos_right _ hp; push_cast; linarith

theorem isqrt_spec (k n : Nat) (h : n < 4 ^ k) : isqrt k n * isqrt k n ≤ n ∧ n < (isqrt k n + 1) * (isqrt k n + 1) := by
  induction k generalizing n with
  | zero => simp at h; subst h; simp [isqrt]
  | succ k ih =>
    have h4 : n / 4 < 4 ^ k := by rw [Nat.div_lt_iff_lt_mul (by norm_num)]; rw [pow_succ] at h; omega
    obtain ⟨h1, h2⟩ := ih (n / 4) h4
    unfold isqrt
    dsimp only
    generalize isqrt k (n / 4) = r at *
    have h1' : 4 * (r * r) ≤ n := by omega
    have h2' : n < 4 * ((r + 1) * (r + 1)) := by omega
    split
    · next hc => exact ⟨hc, by nlinarith⟩
    · next hc => exact ⟨by nlinarith, by omega⟩

/-! ### What follows from correct rounding -/

/-- A finite number lies below the overflow bound. -/
theorem abs_valueOf_lt {z : Num64} (h : isFinite z = true) : |(valueOf z : ℝ)| < (overflowBound : ℝ) := by
  have key : |valueOf z| < overflowBound := by
    have h1 : magUnits (magBits z) ≤ magUnits (infMag - 1) :=
      magUnits_strictMono.monotone (by have := isFinite_iff.1 h; omega)
    have h2 : magUnits (infMag - 1) = 9007199254740991 * 2 ^ 2045 :=
      fmtUnits_raw 52 2045 9007199254740991 (by norm_num) (by norm_num)
    have h3 := (valueOf_eq_abs z).1
    have h4 : ((9007199254740991 * 2 ^ 2045 : ℕ) : ℚ) * 2 ^ (-1074 : ℤ) < overflowBound := by
      unfold overflowBound; decide +kernel
    rw [h3]
    refine lt_of_le_of_lt (mul_le_mul_of_nonneg_right ?_ (by positivity)) h4
    rw [← h2]
    exact_mod_cast h1
  rw [← Rat.cast_abs]
  exact_mod_cast key

/-- A result that is representable is given exactly. -/
theorem roundsTo_exact {x : ℝ} {y z : Num64} (h : roundsTo x y) (hz : isFinite z = true)
    (hx : x = valueOf z) : isFinite y = true ∧ valueOf y = valueOf z := by
  obtain ⟨h1, h2⟩ := h.1 (by rw [hx]; exact abs_valueOf_lt hz)
  refine ⟨h1, ?_⟩
  have := (h2 z hz).1
  rw [hx, sub_self, abs_zero] at this
  have h0 : ((valueOf y : ℚ) : ℝ) - valueOf z = 0 := abs_eq_zero.1 (le_antisymm this (abs_nonneg _))
  have h0' : ((valueOf y : ℚ) : ℝ) = valueOf z := by linarith
  exact_mod_cast h0'

theorem roundsTo_not_nan {x : ℝ} {y : Num64} (h : roundsTo x y) : isNaN y = false := by
  rcases lt_or_ge |x| (overflowBound : ℝ) with hx | hx
  · exact isNaN_of_isFinite (h.1 hx).1
  · rw [isNaN_eq_false_iff]
    exact (isInf_iff.1 (h.2 hx).1).le

theorem fle_inf_of_finite {y z : Num64} (hy : isInf y = true) (hz : isFinite z = true) :
    (isNeg y = true → fle y z = true) ∧ (isNeg y = false → fle z y = true) := by
  rw [isInf_iff] at hy
  have hz' := isFinite_iff.1 hz
  have hny : isNaN y = false := isNaN_eq_false_iff.2 hy.le
  have hnz := isNaN_of_isFinite hz
  constructor <;> intro h <;> rw [fle_iff]
  · refine ⟨hny, hnz, ?_⟩
    unfold orderKey; rw [h, hy]; simp only [if_true]; split <;> omega
  · refine ⟨hnz, hny, ?_⟩
    unfold orderKey; rw [h, hy]; simp only [Bool.false_eq_true, if_false]; split <;> omega

/-- Rounding does not cross a representable number: from above. -/
theorem roundsTo_le {x : ℝ} {y z : Num64} (h : roundsTo x y) (hz : isFinite z = true)
    (hx : x ≤ valueOf z) : fle y z = true := by
  rcases lt_or_ge |x| (overflowBound : ℝ) with hb | hb
  · obtain ⟨h1, h2⟩ := h.1 hb
    rw [fle_iff_valueOf (isNaN_of_isFinite h1) (isNaN_of_isFinite hz)]
    by_contra hc
    have hc' : ((valueOf z : ℚ) : ℝ) < valueOf y := by exact_mod_cast not_le.1 hc
    have := (h2 z hz).1
    rw [abs_of_nonneg (by linarith), abs_of_nonneg (by linarith)] at this
    linarith
  · obtain ⟨h1, h2⟩ := h.2 hb
    apply (fle_inf_of_finite h1 hz).1
    rw [h2]
    by_contra hc
    rw [abs_of_nonneg (not_lt.1 hc)] at hb
    have := abs_lt.1 (abs_valueOf_lt hz)
    linarith

/-- Rounding does not cross a representable number: from below. -/
theorem roundsTo_ge {x : ℝ} {y z : Num64} (h : roundsTo x y) (hz : isFinite z = true)
    (hx : (valueOf z : ℝ) ≤ x) : fle z y = true := by
  rcases lt_or_ge |x| (overflowBound : ℝ) with hb | hb
  · obtain ⟨h1, h2⟩ := h.1 hb
    rw [fle_iff_valueOf (isNaN_of_isFinite hz) (isNaN_of_isFinite h1)]
    by_contra hc
    have hc' : ((valueOf y : ℚ) : ℝ) < valueOf z := by exact_mod_cast not_le.1 hc
    have := (h2 z hz).1
    rw [abs_of_nonpos (by linarith), abs_of_nonpos (by linarith)] at this
    linarith
  · obtain ⟨h1, h2⟩ := h.2 hb
    apply (fle_inf_of_finite h1 hz).2
    rw [Bool.eq_false_iff, ne_eq, h2]
    intro hc
    rw [abs_of_neg hc] at hb
    have := abs_lt.1 (abs_valueOf_lt hz)
    linarith

/-- A significand below 2^53 at an exponent of the format is rounded to itself. -/
theorem roundNum_exact {m : Nat} {e : Int} (hm : m < 2 ^ 53) (h1 : -1074 ≤ e) (h2 : e ≤ 971) (neg : Bool) :
    isFinite (roundNum neg m e) = true ∧
      valueOf (roundNum neg m e) = if neg then -((m : ℚ) * 2 ^ e) else (m : ℚ) * 2 ^ e := by
  by_cases h0 : m = 0
  · subst h0
    rw [roundNum_zero, valueOf_mkNum_zero]
    exact ⟨by cases neg <;> decide, by simp⟩
  have hl : Nat.log2 m < 53 := (Nat.log2_lt h0).2 hm
  have hq : lastPlace 52 (-1074) m e ≤ e := by unfold lastPlace; push_cast; omega
  have hq0 : -1074 ≤ lastPlace 52 (-1074) m e := le_max_right _ _
  have hsig : roundSig m e (lastPlace 52 (-1074) m e) = m * 2 ^ (e - lastPlace 52 (-1074) m e).toNat := if_pos hq
  have hraw : magUnits (rawMag 52 (-1074) m e) = m * 2 ^ (e + 1074).toNat := by
    obtain ⟨r1, r2⟩ := roundSig_range le_rfl (-1074) h0 (.inl rfl : Approx m e _)
    change fmtUnits 52 (rawMag 52 (-1074) m e) = _
    unfold rawMag
    rw [fmtUnits_raw _ _ _ r1 (fun h => (r2 (by omega)).2), hsig, mul_assoc, ← pow_add]
    congr 2; omega
  have hlt : rawMag 52 (-1074) m e < infMag := by
    apply magUnits_strictMono.lt_iff_lt.1
    have h3 : magUnits infMag = 9007199254740992 * 2 ^ 2045 :=
      fmtUnits_raw 52 2045 9007199254740992 (by norm_num) (by norm_num)
    have hm' : m < 9007199254740992 := hm
    rw [hraw, h3]
    exact Nat.mul_lt_mul_of_lt_of_le hm' (Nat.pow_le_pow_right (by norm_num) (by omega)) (Nat.two_pow_pos _)
  have hr : roundNum neg m e = mkNum neg (rawMag 52 (-1074) m e) := by
    unfold roundNum
    rw [roundMag_eq _ _ _ h0]
    exact congrArg (mkNum neg) (min_eq_right hlt.le)
  have h63 : rawMag 52 (-1074) m e < 2 ^ 63 := hlt.trans (by decide)
  rw [hr, valueOf_eq_units, isNeg_mkNum h63, magBits_mkNum h63, hraw]
  refine ⟨by rw [isFinite_iff, magBits_mkNum h63]; exact hlt, ?_⟩
  have : ((m * 2 ^ (e + 1074).toNat : ℕ) : ℚ) * 2 ^ (-1074 : ℤ) = m * 2 ^ e := by
    obtain ⟨k, hk⟩ := Int.eq_ofNat_of_zero_le (show 0 ≤ e + 1074 by omega)
    rw [hk, Int.toNat_natCast, Nat.cast_mul, Nat.cast_pow, Nat.cast_ofNat, mul_assoc, ← zpow_natCast,
      ← zpow_add₀ (by norm_num)]
    congr 2; omega
  cases neg
  · simpa using this
  · simp only [if_true]; rw [neg_mul, this]

/-- `ToNum` is exact on every integer of less than 54 bits. -/
theorem valueOf_ofInt {n : Int} (h : n.natAbs < 2 ^ 53) :
    isFinite (ofInt n) = true ∧ valueOf (ofInt n) = n := by
  obtain ⟨h1, h2⟩ := roundNum_exact h (e := 0) (by norm_num) (by norm_num) (decide (n < 0))
  refine ⟨h1, ?_⟩
  unfold ofInt roundInt
  rw [h2, zpow_zero, mul_one]
  have : (n.natAbs : ℚ) = |(n : ℚ)| := by rw [Nat.cast_natAbs, Int.cast_abs]
  rw [this]
  by_cases hn : n < 0
  · rw [abs_of_neg (by exact_mod_cast hn)]; simp [hn]
  · rw [abs_of_nonneg (by exact_mod_cast (not_lt.1 hn))]; simp [hn]

/-! ### Rounding inside [0, 1] -/

/-- Rounding moves a number of [0, 1] by at most 2^-54. -/
theorem roundsTo_unit_error {x : ℝ} {y : Num64} (h : roundsTo x y) (h0 : 0 ≤ x) (h1 : x ≤ 1) :
    |(valueOf y : ℝ) - x| ≤ 1 / 2 ^ 54 := by
  have hov : (2 : ℝ) < (overflowBound : ℝ) := by
    have : (2 : ℚ) < overflowBound := by unfold overflowBound; decide +kernel
    exact_mod_cast this
  obtain ⟨-, near⟩ := h.1 (by rw [abs_of_nonneg h0]; linarith)
  obtain ⟨k, hk⟩ : ∃ k : ℕ, round (x * 2 ^ 53) = (k : ℤ) :=
    Int.eq_ofNat_of_zero_le (by rw [round_eq]; positivity)
  have hr := abs_sub_round (x * 2 ^ 53)
  rw [hk, Int.cast_natCast] at hr
  have hk53 : k ≤ 2 ^ 53 := by
    have : (k : ℝ) < 2 ^ 53 + 1 := by have := (abs_le.1 hr).1; nlinarith
    have : k < 2 ^ 53 + 1 := by exact_mod_cast this
    omega
  obtain ⟨z, hz, hv⟩ : ∃ z : Num64, isFinite z = true ∧ (valueOf z : ℝ) = k / 2 ^ 53 := by
    rcases Nat.lt_or_ge k (2 ^ 53) with hlt | hge
    · obtain ⟨f, v⟩ := roundNum_exact (e := -53) hlt (by norm_num) (by norm_num) false
      refine ⟨_, f, ?_⟩
      rw [v]
      push_cast
      norm_num [zpow_neg]
      ring
    · obtain rfl : k = 2 ^ 53 := le_antisymm hk53 hge
      refine ⟨n1, by decide, ?_⟩
      have : valueOf n1 = 1 := by decide +kernel
      rw [this]; norm_num
  refine (near z hz).1.trans ?_
  rw [hv, show (k : ℝ) / 2 ^ 53 - x = -((x * 2 ^ 53 - k) / 2 ^ 53) by field_simp; ring, abs_neg, abs_div,
    abs_of_pos (show (0 : ℝ) < 2 ^ 53 by positivity), div_le_iff₀ (by positivity)]
  refine hr.trans (by norm_num)

/-- A number below 1 + 2^-53 does not round above 1. -/
theorem roundsTo_le_one {x : ℝ} {y : Num64} (h : roundsTo x y) (h0 : 0 ≤ x) (h1 : x ≤ 1 + 1 / 2 ^ 54) :
    fle y n1 = true := by
  rcases le_or_gt x 1 with hx | hx
  · apply roundsTo_le h (by decide)
    have : valueOf n1 = 1 := by decide +kernel
    rw [this]; exact_mod_cast hx
  have hov : (2 : ℝ) < (overflowBound : ℝ) := by
    have : (2 : ℚ) < overflowBound := by unfold overflowBound; decide +kernel
    exact_mod_cast this
  have e1 : valueOf n1 = 1 := by decide +kernel
  obtain ⟨hf, near⟩ := h.1 (by rw [abs_of_nonneg h0]; norm_num at h1 ⊢; linarith)
  have hn := isNaN_of_isFinite hf
  by_contra hc
  have hs : ¬ orderKey y ≤ orderKey n1 := fun hh => hc (fle_iff.2 ⟨hn, by decide, hh⟩)
  have hle : fle 0x3FF0000000000001#64 y = true := by
    rw [fle_iff]
    have k1 : orderKey n1 = 4607182418800017408 := by decide
    have k2 : orderKey 0x3FF0000000000001#64 = 4607182418800017409 := by decide
    exact ⟨by decide, hn, by omega⟩
  rw [fle_iff_valueOf (by decide) hn] at hle
  have e2 : valueOf 0x3FF0000000000001#64 = 1 + 1 / 2 ^ 52 := by decide +kernel
  rw [e2] at hle
  have hle' : (1 : ℝ) + 1 / 2 ^ 52 ≤ valueOf y := by
    have := (Rat.cast_le (K := ℝ)).2 hle
    norm_num at this ⊢
    exact this
  have := (near n1 (by decide)).1
  rw [e1, Rat.cast_one, abs_sub_comm 1 x, abs_of_pos (by linarith), abs_of_pos (by norm_num at *; linarith)] at this
  norm_num at *
  linarith

/-- The ramp of R144, `start + (target - start) * (1 - rem)` as it is rounded, stays in [0, 1]. -/
theorem ramp_inUnit {s t u d m y : Num64} (hs : inRange n0 n1 s) (ht : inRange n0 n1 t) (hu : inRange n0 n1 u)
    (hd : roundsTo ((valueOf t : ℝ) - valueOf s) d) (hm : roundsTo ((valueOf d : ℝ) * valueOf u) m)
    (hy : roundsTo ((valueOf s : ℝ) + valueOf m) y) : inRange n0 n1 y := by
  have e0 : valueOf n0 = 0 := by decide +kernel
  have e1 : valueOf n1 = 1 := by decide +kernel
  have val : ∀ x, inRange n0 n1 x → isFinite x = true ∧ (0 : ℝ) ≤ valueOf x ∧ (valueOf x : ℝ) ≤ 1 := by
    intro x hx
    have hf := isFinite_of_inRange (by decide) (by decide) hx
    have a := (fle_iff_valueOf (by decide) (isNaN_of_isFinite hf)).1 hx.1
    have b := (fle_iff_valueOf (isNaN_of_isFinite hf) (by decide)).1 hx.2
    rw [e0] at a
    rw [e1] at b
    exact ⟨hf, by exact_mod_cast a, by exact_mod_cast b⟩
  obtain ⟨fs, s0, s1⟩ := val s hs
  obtain ⟨-, t0, t1⟩ := val t ht
  obtain ⟨-, u0, u1⟩ := val u hu
  -- a finite bound of a rounded number is a bound of its value
  have up : ∀ {x : ℝ} {a z : Num64}, roundsTo x a → isFinite z = true → x ≤ valueOf z → (valueOf a : ℝ) ≤ valueOf z := by
    intro x a z ha hz hx
    have := (fle_iff_valueOf (roundsTo_not_nan ha) (isNaN_of_isFinite hz)).1 (roundsTo_le ha hz hx)
    exact_mod_cast this
  have dn : ∀ {x : ℝ} {a z : Num64}, roundsTo x a → isFinite z = true → (valueOf z : ℝ) ≤ x → (valueOf z : ℝ) ≤ valueOf a := by
    intro x a z ha hz hx
    have := (fle_iff_valueOf (isNaN_of_isFinite hz) (roundsTo_not_nan ha)).1 (roundsTo_ge ha hz hx)
    exact_mod_cast this
  have z0 : ((valueOf n0 : ℚ) : ℝ) = 0 := by rw [e0]; norm_num
  have z1 : ((valueOf n1 : ℚ) : ℝ) = 1 := by rw [e1]; norm_num
  have goal : ∀ x : ℝ, (valueOf s : ℝ) + valueOf m = x → 0 ≤ x → x ≤ 1 + 1 / 2 ^ 54 → inRange n0 n1 y := by
    intro x hx h0 h1
    rw [hx] at hy
    exact ⟨roundsTo_ge hy (by decide) (by rw [z0]; exact h0), roundsTo_le_one hy h0 h1⟩
  rcases le_total (valueOf s : ℝ) (valueOf t) with hst | hst
  · have d0 := dn hd (z := n0) (by decide) (by rw [z0]; linarith)
    rw [z0] at d0
    have de := roundsTo_unit_error hd (by linarith) (by linarith)
    have d1 := up hd (z := n1) (by decide) (by rw [z1]; linarith)
    rw [z1] at d1
    have fd : isFinite d = true := by
      apply isFinite_of_inRange (lo := n0) (hi := n1) (by decide) (by decide)
      exact ⟨roundsTo_ge hd (by decide) (by rw [z0]; linarith), roundsTo_le hd (by decide) (by rw [z1]; linarith)⟩
    have m0 := dn hm (z := n0) (by decide) (by rw [z0]; positivity)
    have m1 := up hm fd (by nlinarith)
    rw [z0] at m0
    refine goal _ rfl (by linarith) ?_
    have := (abs_le.1 de).2
    linarith
  · obtain ⟨fns, vns⟩ := negate_spec s fs
    have hns : ((valueOf (negate s) : ℚ) : ℝ) = -(valueOf s : ℝ) := by rw [vns]; push_cast; rfl
    have d0 := up hd (z := n0) (by decide) (by rw [z0]; linarith)
    have d1 := dn hd fns (by rw [hns]; linarith)
    rw [z0] at d0
    rw [hns] at d1
    have m0 := up hm (z := n0) (by decide) (by rw [z0]; nlinarith)
    have m1 := dn hm fns (by rw [hns]; nlinarith)
    rw [z0] at m0
    rw [hns] at m1
    exact goal _ rfl (by linarith) (by norm_num; linarith)

end Sys2Proof.Machine
end

