-- ==== Sys2Proof/Laws/Decode.lean ====
section
/-! SUPPORT. The fields of a command word (spec/30_encoding.md R81): what packing puts in comes out, a word is its fields, and decoding goes through the row of the opcode (R85, R89). -/

namespace Sys2Proof

/-- Each bit of a packed word comes from one field. -/
theorem getLsbD_packWord (op ch : BitVec 8) (imm : BitVec 16) (val : Num64) (k : Nat) :
    (packWord op ch imm val).getLsbD k =
      if k < 64 then val.getLsbD k else if k < 80 then imm.getLsbD (k - 64)
      else if k < 88 then ch.getLsbD (k - 80) else op.getLsbD (k - 88) := by
  have e : (packWord op ch imm val).getLsbD k =
      (@HAppend.hAppend (BitVec 8) (BitVec (8 + (16 + 64))) (BitVec (8 + (8 + (16 + 64)))) _ op
        (ch ++ (imm ++ val))).getLsbD k := rfl
  rw [e, BitVec.getLsbD_append, BitVec.getLsbD_append, BitVec.getLsbD_append]
  by_cases h1 : k < 64
  · have h2 : k < 8 + (16 + 64) := by omega
    have h3 : k < 16 + 64 := by omega
    simp [h1, h2, h3]
  · by_cases h2 : k < 80
    · have h3 : k < 8 + (16 + 64) := by omega
      simp [h1, h2, h3]
    · by_cases h3 : k < 88
      · have h4 : k < 8 + (16 + 64) := by omega
        have h5 : ¬ k < 16 + 64 := by omega
        simp [h1, h2, h3]
      · have h4 : ¬ k < 8 + (16 + 64) := by omega
        simp [h1, h2, h3]

@[simp] theorem opField_packWord (op ch : BitVec 8) (imm : BitVec 16) (val : Num64) :
    opField (packWord op ch imm val) = op := by
  unfold opField
  ext i hi
  rw [BitVec.getElem_extractLsb', getLsbD_packWord, if_neg (by omega), if_neg (by omega),
    if_neg (by omega), Nat.add_sub_cancel_left, BitVec.getLsbD_eq_getElem]

@[simp] theorem chField_packWord (op ch : BitVec 8) (imm : BitVec 16) (val : Num64) :
    chField (packWord op ch imm val) = ch := by
  unfold chField
  ext i hi
  rw [BitVec.getElem_extractLsb', getLsbD_packWord, if_neg (by omega), if_neg (by omega),
    if_pos (by omega), Nat.add_sub_cancel_left, BitVec.getLsbD_eq_getElem]

@[simp] theorem immField_packWord (op ch : BitVec 8) (imm : BitVec 16) (val : Num64) :
    immField (packWord op ch imm val) = imm := by
  unfold immField
  ext i hi
  rw [BitVec.getElem_extractLsb', getLsbD_packWord, if_neg (by omega), if_pos (by omega),
    Nat.add_sub_cancel_left, BitVec.getLsbD_eq_getElem]

@[simp] theorem valField_packWord (op ch : BitVec 8) (imm : BitVec 16) (val : Num64) :
    valField (packWord op ch imm val) = val := by
  unfold valField
  ext i hi
  rw [BitVec.getElem_extractLsb', getLsbD_packWord, if_pos (by omega), Nat.zero_add,
    BitVec.getLsbD_eq_getElem]

/-- A word is its four fields (R81). -/
theorem packWord_fields (w : CmdWord) :
    packWord (opField w) (chField w) (immField w) (valField w) = w := by
  apply BitVec.eq_of_getLsbD_eq
  intro k hk
  rw [getLsbD_packWord]
  unfold opField chField immField valField
  simp only [BitVec.getLsbD_extractLsb']
  split
  · simp [*]
  · split
    · have : k - 64 < 16 := by omega
      rw [decide_eq_true this, Bool.true_and]; congr 1; omega
    · split
      · have : k - 80 < 8 := by omega
        rw [decide_eq_true this, Bool.true_and]; congr 1; omega
      · have : k - 88 < 8 := by omega
        rw [decide_eq_true this, Bool.true_and]; congr 1; omega

/-- Decoding through the row of the opcode (R89). -/
theorem decode_of_row {w : CmdWord} {row : OpRow}
    (h : opcodeTable.find? (fun r => decide (r.op = opField w)) = some row) :
    decode w = if operandsOk row (immField w) (valField w) then
      row.build (chField w) (immField w) (valField w) else .nop := by
  unfold decode
  rw [h]

theorem decode_of_none {w : CmdWord}
    (h : opcodeTable.find? (fun r => decide (r.op = opField w)) = none) : decode w = .nop := by
  unfold decode
  rw [h]

end Sys2Proof
end

