-- ==== Sys2Proof/Laws/Exp10.lean ====
section
/-! SUPPORT. The two operands at which EXP10's range changes (spec/00_scope.md R11; log entry 2), against the real exponential: `exp10Top_le_iff` and `le_exp10Bottom_iff` say that the binary64 comparisons in `exp10N` are the comparisons of `10^x` with the largest finite value and with 2^-1022. -/

namespace Sys2Proof.Machine

open Finset in
/-- The series of `log ((1 + x) / (1 - x))` from both sides. -/
theorem log_ratio_bounds {x : ℝ} (h0 : 0 ≤ x) (h1 : x < 1) (n : ℕ) :
    2 * ∑ i ∈ range n, x ^ (2 * i + 1) / (2 * i + 1) ≤ Real.log ((1 + x) / (1 - x)) ∧
    Real.log ((1 + x) / (1 - x)) ≤
      2 * (∑ i ∈ range n, x ^ (2 * i + 1) / (2 * i + 1) + x ^ (2 * n + 1) / (1 - x ^ 2)) := by
  have a := Real.sum_range_le_log_div h0 h1 n
  have b := Real.log_div_le_sum_range_add h0 h1 n
  constructor <;> linarith

theorem log_two_bounds : 0.693147180559945309417232 < Real.log 2 ∧
    Real.log 2 < 0.693147180559945309417233 := by
  have h := log_ratio_bounds (x := 1 / 3) (by norm_num) (by norm_num) 26
  rw [show ((1 : ℝ) + 1 / 3) / (1 - 1 / 3) = 2 by norm_num] at h
  norm_num [Finset.sum_range_succ] at h ⊢
  constructor <;> linarith

theorem log_ten_bounds : 2.302585092994045684017990 < Real.log 10 ∧
    Real.log 10 < 2.302585092994045684017996 := by
  have h := log_ratio_bounds (x := 1 / 9) (by norm_num) (by norm_num) 14
  rw [show ((1 : ℝ) + 1 / 9) / (1 - 1 / 9) = 5 / 4 by norm_num] at h
  have e : Real.log 10 = 3 * Real.log 2 + Real.log (5 / 4) := by
    rw [show (10 : ℝ) = 2 ^ 3 * (5 / 4) by norm_num, Real.log_mul (by norm_num) (by norm_num), Real.log_pow]
    push_cast; ring
  have h2 := log_two_bounds
  norm_num [Finset.sum_range_succ] at h h2 ⊢
  rw [e]
  constructor <;> linarith

theorem log_largestFinite_bounds :
    1024 * Real.log 2 - 1 / 2 ^ 52 < Real.log (largestFinite : ℝ) ∧
    Real.log (largestFinite : ℝ) < 1024 * Real.log 2 := by
  have e : (largestFinite : ℝ) = 2 ^ 1024 * (1 - 1 / 2 ^ 53) := by
    unfold largestFinite
    rw [Rat.cast_sub, Rat.cast_pow, Rat.cast_pow, Rat.cast_ofNat, mul_sub, mul_one, show (1024 : ℕ) = 971 + 53 from rfl, pow_add]
    field_simp
  rw [e, Real.log_mul (by positivity) (by norm_num), Real.log_pow]
  have a := Real.one_sub_inv_le_log_of_pos (x := 1 - 1 / 2 ^ 53) (by norm_num)
  have b := Real.log_le_sub_one_of_pos (x := 1 - 1 / 2 ^ 53) (by norm_num)
  norm_num at a b ⊢
  constructor <;> linarith

/-! ### The thresholds and their neighbours -/

theorem valueOf_of_fields {x : Num64} {m e : Int} (hm : signedSignif x = m) (he : expo x = e) :
    valueOf x = m * (2 : ℚ) ^ e := by
  unfold valueOf
  rw [hm, he]

/-- The binary64 value before `exp10Top`. -/
def exp10TopPred : Num64 := 0x40734413509F79FE#64
/-- The binary64 value after `exp10Bottom`. -/
def exp10BottomSucc : Num64 := 0xC0733A7146F72A41#64

theorem valueOf_exp10Top : valueOf exp10Top = 5422874305198591 * (2 : ℚ) ^ (-44 : ℤ) :=
  valueOf_of_fields (m := 5422874305198591) (by decide) (by decide)
theorem valueOf_exp10TopPred : valueOf exp10TopPred = 5422874305198590 * (2 : ℚ) ^ (-44 : ℤ) :=
  valueOf_of_fields (m := 5422874305198590) (by decide) (by decide)
theorem valueOf_exp10Bottom : valueOf exp10Bottom = -5412282753821250 * (2 : ℚ) ^ (-44 : ℤ) :=
  valueOf_of_fields (m := -5412282753821250) (by decide) (by decide)
theorem valueOf_exp10BottomSucc : valueOf exp10BottomSucc = -5412282753821249 * (2 : ℚ) ^ (-44 : ℤ) :=
  valueOf_of_fields (m := -5412282753821249) (by decide) (by decide)

/-- `10^x < y` in logarithms. -/
theorem ten_rpow_lt_iff {x y : ℝ} (hy : 0 < y) : (10 : ℝ) ^ x < y ↔ x * Real.log 10 < Real.log y := by
  rw [← Real.log_rpow (by norm_num), Real.log_lt_log_iff (by positivity) hy]

theorem lt_ten_rpow_iff {x y : ℝ} (hy : 0 < y) : y < (10 : ℝ) ^ x ↔ Real.log y < x * Real.log 10 := by
  rw [← Real.log_rpow (by norm_num), Real.log_lt_log_iff hy (by positivity)]

theorem largestFinite_pos : (0 : ℝ) < (largestFinite : ℝ) := by
  have : (0 : ℚ) < largestFinite := by unfold largestFinite; decide +kernel
  exact_mod_cast this

/-- `exp10Top` is the least operand with `10^x` above the largest finite value; at every other `10^x` is below it. -/
theorem exp10Top_le_iff {x : Num64} (hx : isFinite x = true) :
    (fle exp10Top x = true ↔ (largestFinite : ℝ) < (10 : ℝ) ^ (valueOf x : ℝ)) ∧
    (fle exp10Top x = false ↔ (10 : ℝ) ^ (valueOf x : ℝ) < (largestFinite : ℝ)) := by
  have hn := isNaN_of_isFinite hx
  have up : fle exp10Top x = true → (largestFinite : ℝ) < (10 : ℝ) ^ (valueOf x : ℝ) := by
    intro h
    rw [fle_iff_valueOf (by decide) hn, valueOf_exp10Top] at h
    have h' : (5422874305198591 : ℝ) / 17592186044416 ≤ valueOf x := by
      have : ((5422874305198591 * (2 : ℚ) ^ (-44 : ℤ) : ℚ) : ℝ) ≤ valueOf x := by exact_mod_cast h
      norm_num at this ⊢
      exact this
    rw [lt_ten_rpow_iff largestFinite_pos]
    have a := log_largestFinite_bounds.2
    have b := log_two_bounds.2
    have c := log_ten_bounds.1
    have d := mul_le_mul h' c.le (by norm_num) (le_trans (by norm_num) h')
    norm_num at a b c d ⊢
    linarith
  have down : fle exp10Top x = false → (10 : ℝ) ^ (valueOf x : ℝ) < (largestFinite : ℝ) := by
    intro h
    have h1 : fle x exp10TopPred = true := by
      rw [Bool.eq_false_iff, ne_eq, fle_iff] at h
      rw [fle_iff]
      refine ⟨hn, by decide, ?_⟩
      have e1 : orderKey exp10Top = 4644130490496809471 := by decide
      have e2 : orderKey exp10TopPred = 4644130490496809470 := by decide
      have : ¬ orderKey exp10Top ≤ orderKey x := fun hh => h ⟨by decide, hn, hh⟩
      omega
    rw [fle_iff_valueOf hn (by decide), valueOf_exp10TopPred] at h1
    have h' : (valueOf x : ℝ) ≤ 5422874305198590 / 17592186044416 := by
      have : (valueOf x : ℝ) ≤ ((5422874305198590 * (2 : ℚ) ^ (-44 : ℤ) : ℚ) : ℝ) := by exact_mod_cast h1
      norm_num at this ⊢
      exact this
    rw [ten_rpow_lt_iff largestFinite_pos]
    have a := log_largestFinite_bounds.1
    have b := log_two_bounds.1
    have c := log_ten_bounds
    have d := mul_le_mul_of_nonneg_right h' (show 0 ≤ Real.log 10 from le_trans (by norm_num) c.1.le)
    norm_num at a b c d ⊢
    linarith
  refine ⟨⟨up, fun h => ?_⟩, ⟨down, fun h => ?_⟩⟩
  · by_contra hc
    exact absurd (down (by simpa using hc)) (not_lt.2 h.le)
  · by_contra hc
    exact absurd (up (by simpa using hc)) (not_lt.2 h.le)

/-- `exp10Bottom` is the greatest operand with `10^x` below 2^-1022. -/
theorem le_exp10Bottom_iff {x : Num64} (hx : isFinite x = true) :
    fle x exp10Bottom = true ↔ (10 : ℝ) ^ (valueOf x : ℝ) < (2 : ℝ) ^ (-1022 : ℤ) := by
  have hn := isNaN_of_isFinite hx
  have hl : Real.log ((2 : ℝ) ^ (-1022 : ℤ)) = -1022 * Real.log 2 := by rw [Real.log_zpow]; norm_num
  have b := log_two_bounds
  have c := log_ten_bounds
  constructor
  · intro h
    rw [fle_iff_valueOf hn (by decide), valueOf_exp10Bottom] at h
    have h' : (valueOf x : ℝ) ≤ -5412282753821250 / 17592186044416 := by
      have : (valueOf x : ℝ) ≤ ((-5412282753821250 * (2 : ℚ) ^ (-44 : ℤ) : ℚ) : ℝ) := by exact_mod_cast h
      norm_num at this ⊢
      exact this
    rw [ten_rpow_lt_iff (by positivity), hl]
    have d := mul_le_mul_of_nonneg_right h' (show 0 ≤ Real.log 10 from le_trans (by norm_num) c.1.le)
    norm_num at b c d ⊢
    linarith
  · intro h
    by_contra hc
    have h1 : fle exp10BottomSucc x = true := by
      rw [fle_iff] at hc ⊢
      refine ⟨by decide, hn, ?_⟩
      have e1 : orderKey exp10Bottom = -4644119898945432130 := by decide
      have e2 : orderKey exp10BottomSucc = -4644119898945432129 := by decide
      have : ¬ orderKey x ≤ orderKey exp10Bottom := fun hh => hc ⟨hn, by decide, hh⟩
      omega
    rw [fle_iff_valueOf (by decide) hn, valueOf_exp10BottomSucc] at h1
    have h' : (-5412282753821249 : ℝ) / 17592186044416 ≤ valueOf x := by
      have : ((-5412282753821249 * (2 : ℚ) ^ (-44 : ℤ) : ℚ) : ℝ) ≤ valueOf x := by exact_mod_cast h1
      norm_num at this ⊢
      exact this
    rw [ten_rpow_lt_iff (by positivity), hl] at h
    have d := mul_le_mul_of_nonneg_right h' (show 0 ≤ Real.log 10 from le_trans (by norm_num) c.1.le)
    norm_num at b c d h
    linarith

end Sys2Proof.Machine
end

