-- ==== Sys2Proof/Laws/Memory.lean ====
section
/-! SUPPORT. The internal memories (spec/20_memory.md): reads after writes, and that every memory operation keeps the canonical form and the memory's size. -/

namespace Sys2Proof.Machine

/-- In a canonical memory every index after the head entry's lies above it. -/
theorem memWf_cons {j : Nat} {y : Num64} {m : Memory} :
    Memory.wf ((j, y) :: m) ↔ (∀ c ∈ m, j < c.1) ∧ y ≠ pzero ∧ m.wf := by
  simp only [Memory.wf, List.pairwise_cons, List.mem_cons, forall_eq_or_imp]
  tauto

theorem memWf_nil : Memory.wf [] := by simp [Memory.wf]

/-- A read below every listed index gives +0. -/
theorem memRead_of_lt {i : Nat} : ∀ {m : Memory}, (∀ c ∈ m, i < c.1) → memRead m i = pzero
  | [], _ => rfl
  | (j, y) :: rest, h => by
    have hj : i < j := h (j, y) (by simp)
    rw [memRead, if_neg (by omega)]
    exact memRead_of_lt fun c hc => h c (by simp [hc])

/-- What a write can leave in the list: an old entry, or the new word at its index. -/
theorem mem_memWrite {i : Nat} {x : Num64} {c : Nat × Num64} :
    ∀ {m : Memory}, c ∈ memWrite m i x → c ∈ m ∨ (c = (i, x) ∧ x ≠ pzero)
  | [], h => by
    by_cases hx : x = pzero <;> simp_all [memWrite]
  | (j, y) :: rest, h => by
    have ih := @mem_memWrite i x c rest
    by_cases hx : x = pzero <;> by_cases h1 : i < j <;> by_cases h2 : i = j <;>
      simp_all [memWrite] <;> tauto

/-- A write keeps the canonical form. -/
theorem memWrite_wf {i : Nat} {x : Num64} : ∀ {m : Memory}, m.wf → (memWrite m i x).wf
  | [], _ => by
    by_cases hx : x = pzero <;> simp [memWrite, Memory.wf, hx]
  | (j, y) :: rest, h => by
    obtain ⟨hlt, hy, hr⟩ := memWf_cons.1 h
    by_cases h1 : i < j
    · by_cases hx : x = pzero
      · simpa [memWrite, h1, hx] using h
      · rw [memWrite, if_pos h1, if_neg hx, memWf_cons]
        refine ⟨?_, hx, h⟩
        intro c hc
        rcases List.mem_cons.1 hc with rfl | hc
        · exact h1
        · exact h1.trans (hlt c hc)
    · by_cases h2 : i = j
      · subst h2
        by_cases hx : x = pzero
        · simpa [memWrite, hx] using hr
        · rw [memWrite, if_neg h1, if_pos rfl, if_neg hx, memWf_cons]
          exact ⟨hlt, hx, hr⟩
      · rw [memWrite, if_neg h1, if_neg h2, memWf_cons]
        refine ⟨?_, hy, memWrite_wf hr⟩
        intro c hc
        rcases mem_memWrite hc with hc | ⟨rfl, -⟩
        · exact hlt c hc
        · show j < i
          omega

/-- A write inside a memory's size keeps it inside. -/
theorem memWrite_below {n i : Nat} {x : Num64} {m : Memory} (hm : memBelow n m) (hi : i < n) :
    memBelow n (memWrite m i x) := by
  intro c hc
  rcases mem_memWrite hc with hc | ⟨rfl, -⟩
  · exact hm c hc
  · exact hi

theorem memWrite_memOk {n i : Nat} {x : Num64} {m : Memory} (hm : memOk n m) (hi : i < n) :
    memOk n (memWrite m i x) := ⟨memWrite_wf hm.1, memWrite_below hm.2 hi⟩

/-- A read after a write gives the written word at its index and the old word elsewhere (R68). -/
theorem memRead_memWrite {i j : Nat} {x : Num64} :
    ∀ {m : Memory}, m.wf → memRead (memWrite m i x) j = if j = i then x else memRead m j
  | [], _ => by
    by_cases hx : x = pzero <;> by_cases hj : j = i
    · simp [memWrite, memRead, hx, hj]
    · simp [memWrite, memRead, hx, hj]
    · simp [memWrite, memRead, hx, hj]
    · have : ¬ i = j := fun e => hj e.symm
      simp [memWrite, memRead, hx, hj, this]
  | (k, y) :: rest, h => by
    obtain ⟨hlt, hy, hr⟩ := memWf_cons.1 h
    by_cases h1 : i < k
    · by_cases hx : x = pzero
      · by_cases hj : j = i
        · subst hj
          have : memRead ((k, y) :: rest) j = pzero := by
            apply memRead_of_lt
            intro c hc
            rcases List.mem_cons.1 hc with rfl | hc
            · exact h1
            · exact h1.trans (hlt c hc)
          simpa [memWrite, h1, hx] using this
        · simp [memWrite, h1, hx, hj]
      · by_cases hj : j = i
        · subst hj
          simp [memWrite, h1, hx, memRead]
        · have : ¬ i = j := fun e => hj e.symm
          simp [memWrite, h1, hx, memRead, hj, this]
    · by_cases h2 : i = k
      · subst h2
        by_cases hx : x = pzero
        · by_cases hj : j = i
          · subst hj
            simpa [memWrite, hx] using memRead_of_lt hlt
          · have : ¬ i = j := fun e => hj e.symm
            simp [memWrite, hx, memRead, hj, this]
        · by_cases hj : j = i
          · simp [memWrite, hx, memRead, hj]
          · have : ¬ i = j := fun e => hj e.symm
            simp [memWrite, hx, memRead, hj, this]
      · have ih := memRead_memWrite (j := j) (x := x) (i := i) hr
        by_cases hj : j = k
        · subst hj
          have : ¬ j = i := fun e => h2 e.symm
          simp [memWrite, h1, h2, memRead, this]
        · have : ¬ k = j := fun e => hj e.symm
          simp [memWrite, h1, h2, memRead, this, ih]

/-- A push keeps its ring inside its length (R64). -/
theorem ringPush_inv {len : Nat} {r : Ring} {x : Num64} (h : RingInv len r) :
    RingInv len (ringPush len r x) :=
  ⟨memWrite_memOk h.mem h.head, Nat.mod_lt _ (Nat.zero_lt_of_lt h.head)⟩

@[simp] theorem ringPush_mem (len : Nat) (r : Ring) (x : Num64) :
    (ringPush len r x).mem = memWrite r.mem r.head x := rfl
@[simp] theorem ringPush_head (len : Nat) (r : Ring) (x : Num64) :
    (ringPush len r x).head = (r.head + 1) % len := rfl

/-- R65 reads inside the ring. -/
theorem ringIndex_lt {h len : Nat} {d : Int} (hl : 0 < len) : ringIndex h len d < len := by
  have h0 : (0 : Int) < (len : Int) := by exact_mod_cast hl
  have h1 := Int.emod_lt_of_pos ((h : Int) - 1 - d) h0
  have h2 := Int.emod_nonneg ((h : Int) - 1 - d) h0.ne'
  unfold ringIndex
  omega

theorem memOk_nil (n : Nat) : memOk n [] := ⟨memWf_nil, by simp [memBelow]⟩

end Sys2Proof.Machine
end

