-- ==== Sys2Proof/Laws/State.lean ====
section
/-! SUPPORT. One lemma per field per named update of State and of the records inside it, each true by unfolding that one update and tagged @[simp], so that no proof unfolds a record update. -/

namespace Sys2Proof.Machine

/-! ### State -/

@[simp] theorem mapVoices_params (f : Voice → Voice) (s : State) : (mapVoices f s).params = s.params := by unfold mapVoices; dsimp only
@[simp] theorem mapVoices_ctrl (f : Voice → Voice) (s : State) : (mapVoices f s).ctrl = s.ctrl := by unfold mapVoices; dsimp only
@[simp] theorem mapVoices_voices (f : Voice → Voice) (s : State) : (mapVoices f s).voices = s.voices.map f := by unfold mapVoices; dsimp only
@[simp] theorem mapVoices_fx (f : Voice → Voice) (s : State) : (mapVoices f s).fx = s.fx := by unfold mapVoices; dsimp only
@[simp] theorem mapVoices_outL (f : Voice → Voice) (s : State) : (mapVoices f s).outL = s.outL := by unfold mapVoices; dsimp only
@[simp] theorem mapVoices_outR (f : Voice → Voice) (s : State) : (mapVoices f s).outR = s.outR := by unfold mapVoices; dsimp only
@[simp] theorem mapVoices_outW32 (f : Voice → Voice) (s : State) : (mapVoices f s).outW32 = s.outW32 := by unfold mapVoices; dsimp only
@[simp] theorem mapVoices_outValid (f : Voice → Voice) (s : State) : (mapVoices f s).outValid = s.outValid := by unfold mapVoices; dsimp only
@[simp] theorem mapVoices_host (f : Voice → Voice) (s : State) : (mapVoices f s).host = s.host := by unfold mapVoices; dsimp only

@[simp] theorem withGain_params (p : Params) (s : State) : (withGain p s).params = p := by unfold withGain; dsimp only
@[simp] theorem withGain_ctrl (p : Params) (s : State) : (withGain p s).ctrl = { s.ctrl with gain := outputGain p } := by unfold withGain; dsimp only
@[simp] theorem withGain_voices (p : Params) (s : State) : (withGain p s).voices = s.voices := by unfold withGain; dsimp only
@[simp] theorem withGain_fx (p : Params) (s : State) : (withGain p s).fx = s.fx := by unfold withGain; dsimp only
@[simp] theorem withGain_outL (p : Params) (s : State) : (withGain p s).outL = s.outL := by unfold withGain; dsimp only
@[simp] theorem withGain_outR (p : Params) (s : State) : (withGain p s).outR = s.outR := by unfold withGain; dsimp only
@[simp] theorem withGain_outW32 (p : Params) (s : State) : (withGain p s).outW32 = s.outW32 := by unfold withGain; dsimp only
@[simp] theorem withGain_outValid (p : Params) (s : State) : (withGain p s).outValid = s.outValid := by unfold withGain; dsimp only
@[simp] theorem withGain_host (p : Params) (s : State) : (withGain p s).host = s.host := by unfold withGain; dsimp only

@[simp] theorem withCutoffCoef_params (p : Params) (s : State) : (withCutoffCoef p s).params = p := by unfold withCutoffCoef mapVoices; dsimp only
@[simp] theorem withCutoffCoef_ctrl (p : Params) (s : State) : (withCutoffCoef p s).ctrl = s.ctrl := by unfold withCutoffCoef mapVoices; dsimp only
@[simp] theorem withCutoffCoef_voices (p : Params) (s : State) : (withCutoffCoef p s).voices = s.voices.map (svfSetFreq p s.ctrl p.cutoff) := by unfold withCutoffCoef mapVoices; dsimp only
@[simp] theorem withCutoffCoef_fx (p : Params) (s : State) : (withCutoffCoef p s).fx = s.fx := by unfold withCutoffCoef mapVoices; dsimp only
@[simp] theorem withCutoffCoef_outL (p : Params) (s : State) : (withCutoffCoef p s).outL = s.outL := by unfold withCutoffCoef mapVoices; dsimp only
@[simp] theorem withCutoffCoef_outR (p : Params) (s : State) : (withCutoffCoef p s).outR = s.outR := by unfold withCutoffCoef mapVoices; dsimp only
@[simp] theorem withCutoffCoef_outW32 (p : Params) (s : State) : (withCutoffCoef p s).outW32 = s.outW32 := by unfold withCutoffCoef mapVoices; dsimp only
@[simp] theorem withCutoffCoef_outValid (p : Params) (s : State) : (withCutoffCoef p s).outValid = s.outValid := by unfold withCutoffCoef mapVoices; dsimp only
@[simp] theorem withCutoffCoef_host (p : Params) (s : State) : (withCutoffCoef p s).host = s.host := by unfold withCutoffCoef mapVoices; dsimp only

@[simp] theorem withEqCoef_params (p : Params) (s : State) : (withEqCoef p s).params = p := by unfold withEqCoef; dsimp only
@[simp] theorem withEqCoef_ctrl (p : Params) (s : State) : (withEqCoef p s).ctrl = eqSetCoef p s.ctrl := by unfold withEqCoef; dsimp only
@[simp] theorem withEqCoef_voices (p : Params) (s : State) : (withEqCoef p s).voices = s.voices := by unfold withEqCoef; dsimp only
@[simp] theorem withEqCoef_fx (p : Params) (s : State) : (withEqCoef p s).fx = s.fx := by unfold withEqCoef; dsimp only
@[simp] theorem withEqCoef_outL (p : Params) (s : State) : (withEqCoef p s).outL = s.outL := by unfold withEqCoef; dsimp only
@[simp] theorem withEqCoef_outR (p : Params) (s : State) : (withEqCoef p s).outR = s.outR := by unfold withEqCoef; dsimp only
@[simp] theorem withEqCoef_outW32 (p : Params) (s : State) : (withEqCoef p s).outW32 = s.outW32 := by unfold withEqCoef; dsimp only
@[simp] theorem withEqCoef_outValid (p : Params) (s : State) : (withEqCoef p s).outValid = s.outValid := by unfold withEqCoef; dsimp only
@[simp] theorem withEqCoef_host (p : Params) (s : State) : (withEqCoef p s).host = s.host := by unfold withEqCoef; dsimp only

@[simp] theorem withChCoef_params (p : Params) (s : State) : (withChCoef p s).params = p := by unfold withChCoef; dsimp only
@[simp] theorem withChCoef_ctrl (p : Params) (s : State) : (withChCoef p s).ctrl = chSetCoef p s.ctrl := by unfold withChCoef; dsimp only
@[simp] theorem withChCoef_voices (p : Params) (s : State) : (withChCoef p s).voices = s.voices := by unfold withChCoef; dsimp only
@[simp] theorem withChCoef_fx (p : Params) (s : State) : (withChCoef p s).fx = s.fx := by unfold withChCoef; dsimp only
@[simp] theorem withChCoef_outL (p : Params) (s : State) : (withChCoef p s).outL = s.outL := by unfold withChCoef; dsimp only
@[simp] theorem withChCoef_outR (p : Params) (s : State) : (withChCoef p s).outR = s.outR := by unfold withChCoef; dsimp only
@[simp] theorem withChCoef_outW32 (p : Params) (s : State) : (withChCoef p s).outW32 = s.outW32 := by unfold withChCoef; dsimp only
@[simp] theorem withChCoef_outValid (p : Params) (s : State) : (withChCoef p s).outValid = s.outValid := by unfold withChCoef; dsimp only
@[simp] theorem withChCoef_host (p : Params) (s : State) : (withChCoef p s).host = s.host := by unfold withChCoef; dsimp only

@[simp] theorem withRvCoef_params (p : Params) (s : State) : (withRvCoef p s).params = p := by unfold withRvCoef; dsimp only
@[simp] theorem withRvCoef_ctrl (p : Params) (s : State) : (withRvCoef p s).ctrl = rvSetCoef p s.ctrl := by unfold withRvCoef; dsimp only
@[simp] theorem withRvCoef_voices (p : Params) (s : State) : (withRvCoef p s).voices = s.voices := by unfold withRvCoef; dsimp only
@[simp] theorem withRvCoef_fx (p : Params) (s : State) : (withRvCoef p s).fx = s.fx := by unfold withRvCoef; dsimp only
@[simp] theorem withRvCoef_outL (p : Params) (s : State) : (withRvCoef p s).outL = s.outL := by unfold withRvCoef; dsimp only
@[simp] theorem withRvCoef_outR (p : Params) (s : State) : (withRvCoef p s).outR = s.outR := by unfold withRvCoef; dsimp only
@[simp] theorem withRvCoef_outW32 (p : Params) (s : State) : (withRvCoef p s).outW32 = s.outW32 := by unfold withRvCoef; dsimp only
@[simp] theorem withRvCoef_outValid (p : Params) (s : State) : (withRvCoef p s).outValid = s.outValid := by unfold withRvCoef; dsimp only
@[simp] theorem withRvCoef_host (p : Params) (s : State) : (withRvCoef p s).host = s.host := by unfold withRvCoef; dsimp only

@[simp] theorem applyReset_params (s : State) : (applyReset s).params = paramsReset := by unfold applyReset State.reset; dsimp only
@[simp] theorem applyReset_ctrl (s : State) : (applyReset s).ctrl = ctrlReset := by unfold applyReset State.reset; dsimp only
@[simp] theorem applyReset_voices (s : State) : (applyReset s).voices = voicesReset := by unfold applyReset State.reset; dsimp only
@[simp] theorem applyReset_fx (s : State) : (applyReset s).fx = fxFlushed := by unfold applyReset State.reset; dsimp only
@[simp] theorem applyReset_outL (s : State) : (applyReset s).outL = n0 := by unfold applyReset State.reset; dsimp only
@[simp] theorem applyReset_outR (s : State) : (applyReset s).outR = n0 := by unfold applyReset State.reset; dsimp only
@[simp] theorem applyReset_outW32 (s : State) : (applyReset s).outW32 = false := by unfold applyReset State.reset; dsimp only
@[simp] theorem applyReset_outValid (s : State) : (applyReset s).outValid = false := by unfold applyReset State.reset; dsimp only
@[simp] theorem applyReset_host (s : State) : (applyReset s).host = s.host := by unfold applyReset State.reset; dsimp only

@[simp] theorem recomputeDerived_params (s : State) : (recomputeDerived s).params = s.params := by unfold recomputeDerived; dsimp only
@[simp] theorem recomputeDerived_ctrl (s : State) : (recomputeDerived s).ctrl = recomputeCtrl s.params s.ctrl := by unfold recomputeDerived; dsimp only
@[simp] theorem recomputeDerived_voices (s : State) : (recomputeDerived s).voices = s.voices.map (recomputeVoice s.params (recomputeCtrl s.params s.ctrl)) := by unfold recomputeDerived; dsimp only
@[simp] theorem recomputeDerived_fx (s : State) : (recomputeDerived s).fx = s.fx := by unfold recomputeDerived; dsimp only
@[simp] theorem recomputeDerived_outL (s : State) : (recomputeDerived s).outL = s.outL := by unfold recomputeDerived; dsimp only
@[simp] theorem recomputeDerived_outR (s : State) : (recomputeDerived s).outR = s.outR := by unfold recomputeDerived; dsimp only
@[simp] theorem recomputeDerived_outW32 (s : State) : (recomputeDerived s).outW32 = s.outW32 := by unfold recomputeDerived; dsimp only
@[simp] theorem recomputeDerived_outValid (s : State) : (recomputeDerived s).outValid = s.outValid := by unfold recomputeDerived; dsimp only
@[simp] theorem recomputeDerived_host (s : State) : (recomputeDerived s).host = s.host := by unfold recomputeDerived; dsimp only

@[simp] theorem flushState_params (s : State) : (flushState s).params = s.params := by unfold flushState; dsimp only
@[simp] theorem flushState_ctrl (s : State) : (flushState s).ctrl = s.ctrl := by unfold flushState; dsimp only
@[simp] theorem flushState_voices (s : State) : (flushState s).voices = s.voices.map svfReset := by unfold flushState; dsimp only
@[simp] theorem flushState_fx (s : State) : (flushState s).fx = fxFlushed := by unfold flushState; dsimp only
@[simp] theorem flushState_outL (s : State) : (flushState s).outL = s.outL := by unfold flushState; dsimp only
@[simp] theorem flushState_outR (s : State) : (flushState s).outR = s.outR := by unfold flushState; dsimp only
@[simp] theorem flushState_outW32 (s : State) : (flushState s).outW32 = s.outW32 := by unfold flushState; dsimp only
@[simp] theorem flushState_outValid (s : State) : (flushState s).outValid = s.outValid := by unfold flushState; dsimp only
@[simp] theorem flushState_host (s : State) : (flushState s).host = s.host := by unfold flushState; dsimp only

@[simp] theorem synthTick_params (s : State) : (synthTick s).params = s.params := by unfold synthTick; dsimp only
@[simp] theorem synthTick_ctrl (s : State) : (synthTick s).ctrl = s.ctrl := by unfold synthTick; dsimp only
@[simp] theorem synthTick_voices (s : State) : (synthTick s).voices = (s.voices.map (voiceProcess s.params s.ctrl)).map Prod.fst := by unfold synthTick; dsimp only
@[simp] theorem synthTick_outW32 (s : State) : (synthTick s).outW32 = s.outW32 := by unfold synthTick; dsimp only
@[simp] theorem synthTick_outValid (s : State) : (synthTick s).outValid = s.outValid := by unfold synthTick; dsimp only
@[simp] theorem synthTick_host (s : State) : (synthTick s).host = s.host := by unfold synthTick; dsimp only

@[simp] theorem advanceHost_params (s : State) : (advanceHost s).params = s.params := by unfold advanceHost; dsimp only
@[simp] theorem advanceHost_ctrl (s : State) : (advanceHost s).ctrl = s.ctrl := by unfold advanceHost; dsimp only
@[simp] theorem advanceHost_voices (s : State) : (advanceHost s).voices = s.voices := by unfold advanceHost; dsimp only
@[simp] theorem advanceHost_fx (s : State) : (advanceHost s).fx = s.fx := by unfold advanceHost; dsimp only
@[simp] theorem advanceHost_outL (s : State) : (advanceHost s).outL = s.outL := by unfold advanceHost; dsimp only
@[simp] theorem advanceHost_outR (s : State) : (advanceHost s).outR = s.outR := by unfold advanceHost; dsimp only
@[simp] theorem advanceHost_outW32 (s : State) : (advanceHost s).outW32 = s.outW32 := by unfold advanceHost; dsimp only
@[simp] theorem advanceHost_outValid (s : State) : (advanceHost s).outValid = s.outValid := by unfold advanceHost; dsimp only
@[simp] theorem advanceHost_host (s : State) : (advanceHost s).host = s.host.tail := by unfold advanceHost; dsimp only

@[simp] theorem pairTaken_params (s : State) : (pairTaken s).params = s.params := by unfold pairTaken; dsimp only
@[simp] theorem pairTaken_ctrl (s : State) : (pairTaken s).ctrl = s.ctrl := by unfold pairTaken; dsimp only
@[simp] theorem pairTaken_voices (s : State) : (pairTaken s).voices = s.voices := by unfold pairTaken; dsimp only
@[simp] theorem pairTaken_fx (s : State) : (pairTaken s).fx = s.fx := by unfold pairTaken; dsimp only
@[simp] theorem pairTaken_outL (s : State) : (pairTaken s).outL = s.outL := by unfold pairTaken; dsimp only
@[simp] theorem pairTaken_outR (s : State) : (pairTaken s).outR = s.outR := by unfold pairTaken; dsimp only
@[simp] theorem pairTaken_outW32 (s : State) : (pairTaken s).outW32 = s.outW32 := by unfold pairTaken; dsimp only
@[simp] theorem pairTaken_outValid (s : State) : (pairTaken s).outValid = false := by unfold pairTaken; dsimp only
@[simp] theorem pairTaken_host (s : State) : (pairTaken s).host = s.host := by unfold pairTaken; dsimp only

@[simp] theorem offerCommand_params (w : CmdWord) (s : State) : (offerCommand w s).params = s.params := by unfold offerCommand; dsimp only
@[simp] theorem offerCommand_ctrl (w : CmdWord) (s : State) : (offerCommand w s).ctrl = s.ctrl := by unfold offerCommand; dsimp only
@[simp] theorem offerCommand_voices (w : CmdWord) (s : State) : (offerCommand w s).voices = s.voices := by unfold offerCommand; dsimp only
@[simp] theorem offerCommand_fx (w : CmdWord) (s : State) : (offerCommand w s).fx = s.fx := by unfold offerCommand; dsimp only
@[simp] theorem offerCommand_outL (w : CmdWord) (s : State) : (offerCommand w s).outL = s.outL := by unfold offerCommand; dsimp only
@[simp] theorem offerCommand_outR (w : CmdWord) (s : State) : (offerCommand w s).outR = s.outR := by unfold offerCommand; dsimp only
@[simp] theorem offerCommand_outW32 (w : CmdWord) (s : State) : (offerCommand w s).outW32 = s.outW32 := by unfold offerCommand; dsimp only
@[simp] theorem offerCommand_outValid (w : CmdWord) (s : State) : (offerCommand w s).outValid = false := by unfold offerCommand; dsimp only
@[simp] theorem offerCommand_host (w : CmdWord) (s : State) : (offerCommand w s).host = { rst := false, cmd := some w, outReady := false } :: s.host := by unfold offerCommand; dsimp only

/-! ### Voice -/

@[simp] theorem svfSetFreq_pitch (p : Params) (c : Ctrl) (f : Num64) (v : Voice) : (svfSetFreq p c f v).pitch = v.pitch := by unfold svfSetFreq; dsimp only
@[simp] theorem svfSetFreq_vel (p : Params) (c : Ctrl) (f : Num64) (v : Voice) : (svfSetFreq p c f v).vel = v.vel := by unfold svfSetFreq; dsimp only
@[simp] theorem svfSetFreq_bend (p : Params) (c : Ctrl) (f : Num64) (v : Voice) : (svfSetFreq p c f v).bend = v.bend := by unfold svfSetFreq; dsimp only
@[simp] theorem svfSetFreq_f0 (p : Params) (c : Ctrl) (f : Num64) (v : Voice) : (svfSetFreq p c f v).f0 = v.f0 := by unfold svfSetFreq; dsimp only
@[simp] theorem svfSetFreq_velamp (p : Params) (c : Ctrl) (f : Num64) (v : Voice) : (svfSetFreq p c f v).velamp = v.velamp := by unfold svfSetFreq; dsimp only
@[simp] theorem svfSetFreq_keyf (p : Params) (c : Ctrl) (f : Num64) (v : Voice) : (svfSetFreq p c f v).keyf = v.keyf := by unfold svfSetFreq; dsimp only
@[simp] theorem svfSetFreq_osc0 (p : Params) (c : Ctrl) (f : Num64) (v : Voice) : (svfSetFreq p c f v).osc0 = v.osc0 := by unfold svfSetFreq; dsimp only
@[simp] theorem svfSetFreq_osc1 (p : Params) (c : Ctrl) (f : Num64) (v : Voice) : (svfSetFreq p c f v).osc1 = v.osc1 := by unfold svfSetFreq; dsimp only
@[simp] theorem svfSetFreq_k (p : Params) (c : Ctrl) (f : Num64) (v : Voice) : (svfSetFreq p c f v).k = svfK c.fs f := by unfold svfSetFreq; dsimp only
@[simp] theorem svfSetFreq_oqk (p : Params) (c : Ctrl) (f : Num64) (v : Voice) : (svfSetFreq p c f v).oqk = svfOqk p.reso (svfK c.fs f) := by unfold svfSetFreq; dsimp only
@[simp] theorem svfSetFreq_s0 (p : Params) (c : Ctrl) (f : Num64) (v : Voice) : (svfSetFreq p c f v).s0 = v.s0 := by unfold svfSetFreq; dsimp only
@[simp] theorem svfSetFreq_s1 (p : Params) (c : Ctrl) (f : Num64) (v : Voice) : (svfSetFreq p c f v).s1 = v.s1 := by unfold svfSetFreq; dsimp only
@[simp] theorem svfSetFreq_s2 (p : Params) (c : Ctrl) (f : Num64) (v : Voice) : (svfSetFreq p c f v).s2 = v.s2 := by unfold svfSetFreq; dsimp only
@[simp] theorem svfSetFreq_s3 (p : Params) (c : Ctrl) (f : Num64) (v : Voice) : (svfSetFreq p c f v).s3 = v.s3 := by unfold svfSetFreq; dsimp only
@[simp] theorem svfSetFreq_amp (p : Params) (c : Ctrl) (f : Num64) (v : Voice) : (svfSetFreq p c f v).amp = v.amp := by unfold svfSetFreq; dsimp only
@[simp] theorem svfSetFreq_flt (p : Params) (c : Ctrl) (f : Num64) (v : Voice) : (svfSetFreq p c f v).flt = v.flt := by unfold svfSetFreq; dsimp only
@[simp] theorem svfSetFreq_lfo (p : Params) (c : Ctrl) (f : Num64) (v : Voice) : (svfSetFreq p c f v).lfo = v.lfo := by unfold svfSetFreq; dsimp only

@[simp] theorem svfReset_pitch (v : Voice) : (svfReset v).pitch = v.pitch := by unfold svfReset; dsimp only
@[simp] theorem svfReset_vel (v : Voice) : (svfReset v).vel = v.vel := by unfold svfReset; dsimp only
@[simp] theorem svfReset_bend (v : Voice) : (svfReset v).bend = v.bend := by unfold svfReset; dsimp only
@[simp] theorem svfReset_f0 (v : Voice) : (svfReset v).f0 = v.f0 := by unfold svfReset; dsimp only
@[simp] theorem svfReset_velamp (v : Voice) : (svfReset v).velamp = v.velamp := by unfold svfReset; dsimp only
@[simp] theorem svfReset_keyf (v : Voice) : (svfReset v).keyf = v.keyf := by unfold svfReset; dsimp only
@[simp] theorem svfReset_osc0 (v : Voice) : (svfReset v).osc0 = v.osc0 := by unfold svfReset; dsimp only
@[simp] theorem svfReset_osc1 (v : Voice) : (svfReset v).osc1 = v.osc1 := by unfold svfReset; dsimp only
@[simp] theorem svfReset_k (v : Voice) : (svfReset v).k = v.k := by unfold svfReset; dsimp only
@[simp] theorem svfReset_oqk (v : Voice) : (svfReset v).oqk = v.oqk := by unfold svfReset; dsimp only
@[simp] theorem svfReset_s0 (v : Voice) : (svfReset v).s0 = n0 := by unfold svfReset; dsimp only
@[simp] theorem svfReset_s1 (v : Voice) : (svfReset v).s1 = n0 := by unfold svfReset; dsimp only
@[simp] theorem svfReset_s2 (v : Voice) : (svfReset v).s2 = n0 := by unfold svfReset; dsimp only
@[simp] theorem svfReset_s3 (v : Voice) : (svfReset v).s3 = n0 := by unfold svfReset; dsimp only
@[simp] theorem svfReset_amp (v : Voice) : (svfReset v).amp = v.amp := by unfold svfReset; dsimp only
@[simp] theorem svfReset_flt (v : Voice) : (svfReset v).flt = v.flt := by unfold svfReset; dsimp only
@[simp] theorem svfReset_lfo (v : Voice) : (svfReset v).lfo = v.lfo := by unfold svfReset; dsimp only

@[simp] theorem voiceSetF0_pitch (p : Params) (c : Ctrl) (v : Voice) : (voiceSetF0 p c v).pitch = v.pitch := by unfold voiceSetF0; dsimp only
@[simp] theorem voiceSetF0_vel (p : Params) (c : Ctrl) (v : Voice) : (voiceSetF0 p c v).vel = v.vel := by unfold voiceSetF0; dsimp only
@[simp] theorem voiceSetF0_bend (p : Params) (c : Ctrl) (v : Voice) : (voiceSetF0 p c v).bend = v.bend := by unfold voiceSetF0; dsimp only
@[simp] theorem voiceSetF0_f0 (p : Params) (c : Ctrl) (v : Voice) : (voiceSetF0 p c v).f0 = voiceF0 c.fs v.pitch v.bend := by unfold voiceSetF0; dsimp only
@[simp] theorem voiceSetF0_velamp (p : Params) (c : Ctrl) (v : Voice) : (voiceSetF0 p c v).velamp = v.velamp := by unfold voiceSetF0; dsimp only
@[simp] theorem voiceSetF0_keyf (p : Params) (c : Ctrl) (v : Voice) : (voiceSetF0 p c v).keyf = v.keyf := by unfold voiceSetF0; dsimp only
@[simp] theorem voiceSetF0_osc0 (p : Params) (c : Ctrl) (v : Voice) : (voiceSetF0 p c v).osc0 = oscSetFreq (voiceF0 c.fs v.pitch v.bend) n0 v.osc0 := by unfold voiceSetF0; dsimp only
@[simp] theorem voiceSetF0_osc1 (p : Params) (c : Ctrl) (v : Voice) : (voiceSetF0 p c v).osc1 = oscSetFreq (voiceF0 c.fs v.pitch v.bend) p.inharm v.osc1 := by unfold voiceSetF0; dsimp only
@[simp] theorem voiceSetF0_k (p : Params) (c : Ctrl) (v : Voice) : (voiceSetF0 p c v).k = v.k := by unfold voiceSetF0; dsimp only
@[simp] theorem voiceSetF0_oqk (p : Params) (c : Ctrl) (v : Voice) : (voiceSetF0 p c v).oqk = v.oqk := by unfold voiceSetF0; dsimp only
@[simp] theorem voiceSetF0_s0 (p : Params) (c : Ctrl) (v : Voice) : (voiceSetF0 p c v).s0 = v.s0 := by unfold voiceSetF0; dsimp only
@[simp] theorem voiceSetF0_s1 (p : Params) (c : Ctrl) (v : Voice) : (voiceSetF0 p c v).s1 = v.s1 := by unfold voiceSetF0; dsimp only
@[simp] theorem voiceSetF0_s2 (p : Params) (c : Ctrl) (v : Voice) : (voiceSetF0 p c v).s2 = v.s2 := by unfold voiceSetF0; dsimp only
@[simp] theorem voiceSetF0_s3 (p : Params) (c : Ctrl) (v : Voice) : (voiceSetF0 p c v).s3 = v.s3 := by unfold voiceSetF0; dsimp only
@[simp] theorem voiceSetF0_amp (p : Params) (c : Ctrl) (v : Voice) : (voiceSetF0 p c v).amp = v.amp := by unfold voiceSetF0; dsimp only
@[simp] theorem voiceSetF0_flt (p : Params) (c : Ctrl) (v : Voice) : (voiceSetF0 p c v).flt = v.flt := by unfold voiceSetF0; dsimp only
@[simp] theorem voiceSetF0_lfo (p : Params) (c : Ctrl) (v : Voice) : (voiceSetF0 p c v).lfo = v.lfo := by unfold voiceSetF0; dsimp only

@[simp] theorem voiceSetNote_pitch (p : Params) (c : Ctrl) (pitch : Fin 128) (vel : Num64) (v : Voice) : (voiceSetNote p c pitch vel v).pitch = pitch := by unfold voiceSetNote; dsimp only
@[simp] theorem voiceSetNote_vel (p : Params) (c : Ctrl) (pitch : Fin 128) (vel : Num64) (v : Voice) : (voiceSetNote p c pitch vel v).vel = clamp vel n0 n1 := by unfold voiceSetNote; dsimp only
@[simp] theorem voiceSetNote_bend (p : Params) (c : Ctrl) (pitch : Fin 128) (vel : Num64) (v : Voice) : (voiceSetNote p c pitch vel v).bend = c.bendMul := by unfold voiceSetNote; dsimp only
@[simp] theorem voiceSetNote_f0 (p : Params) (c : Ctrl) (pitch : Fin 128) (vel : Num64) (v : Voice) : (voiceSetNote p c pitch vel v).f0 = v.f0 := by unfold voiceSetNote; dsimp only
@[simp] theorem voiceSetNote_velamp (p : Params) (c : Ctrl) (pitch : Fin 128) (vel : Num64) (v : Voice) : (voiceSetNote p c pitch vel v).velamp = fsub n1 (fmul p.velSens (fsub n1 (clamp vel n0 n1))) := by unfold voiceSetNote; dsimp only
@[simp] theorem voiceSetNote_keyf (p : Params) (c : Ctrl) (pitch : Fin 128) (vel : Num64) (v : Voice) : (voiceSetNote p c pitch vel v).keyf = fmul p.keyFollow (octavesFrom69 pitch) := by unfold voiceSetNote; dsimp only
@[simp] theorem voiceSetNote_osc0 (p : Params) (c : Ctrl) (pitch : Fin 128) (vel : Num64) (v : Voice) : (voiceSetNote p c pitch vel v).osc0 = v.osc0 := by unfold voiceSetNote; dsimp only
@[simp] theorem voiceSetNote_osc1 (p : Params) (c : Ctrl) (pitch : Fin 128) (vel : Num64) (v : Voice) : (voiceSetNote p c pitch vel v).osc1 = v.osc1 := by unfold voiceSetNote; dsimp only
@[simp] theorem voiceSetNote_k (p : Params) (c : Ctrl) (pitch : Fin 128) (vel : Num64) (v : Voice) : (voiceSetNote p c pitch vel v).k = v.k := by unfold voiceSetNote; dsimp only
@[simp] theorem voiceSetNote_oqk (p : Params) (c : Ctrl) (pitch : Fin 128) (vel : Num64) (v : Voice) : (voiceSetNote p c pitch vel v).oqk = v.oqk := by unfold voiceSetNote; dsimp only
@[simp] theorem voiceSetNote_s0 (p : Params) (c : Ctrl) (pitch : Fin 128) (vel : Num64) (v : Voice) : (voiceSetNote p c pitch vel v).s0 = v.s0 := by unfold voiceSetNote; dsimp only
@[simp] theorem voiceSetNote_s1 (p : Params) (c : Ctrl) (pitch : Fin 128) (vel : Num64) (v : Voice) : (voiceSetNote p c pitch vel v).s1 = v.s1 := by unfold voiceSetNote; dsimp only
@[simp] theorem voiceSetNote_s2 (p : Params) (c : Ctrl) (pitch : Fin 128) (vel : Num64) (v : Voice) : (voiceSetNote p c pitch vel v).s2 = v.s2 := by unfold voiceSetNote; dsimp only
@[simp] theorem voiceSetNote_s3 (p : Params) (c : Ctrl) (pitch : Fin 128) (vel : Num64) (v : Voice) : (voiceSetNote p c pitch vel v).s3 = v.s3 := by unfold voiceSetNote; dsimp only
@[simp] theorem voiceSetNote_amp (p : Params) (c : Ctrl) (pitch : Fin 128) (vel : Num64) (v : Voice) : (voiceSetNote p c pitch vel v).amp = v.amp := by unfold voiceSetNote; dsimp only
@[simp] theorem voiceSetNote_flt (p : Params) (c : Ctrl) (pitch : Fin 128) (vel : Num64) (v : Voice) : (voiceSetNote p c pitch vel v).flt = v.flt := by unfold voiceSetNote; dsimp only
@[simp] theorem voiceSetNote_lfo (p : Params) (c : Ctrl) (pitch : Fin 128) (vel : Num64) (v : Voice) : (voiceSetNote p c pitch vel v).lfo = v.lfo := by unfold voiceSetNote; dsimp only

@[simp] theorem voiceRestart_pitch (p : Params) (vi : Nat) (v : Voice) : (voiceRestart p vi v).pitch = v.pitch := by unfold voiceRestart; dsimp only
@[simp] theorem voiceRestart_vel (p : Params) (vi : Nat) (v : Voice) : (voiceRestart p vi v).vel = v.vel := by unfold voiceRestart; dsimp only
@[simp] theorem voiceRestart_bend (p : Params) (vi : Nat) (v : Voice) : (voiceRestart p vi v).bend = v.bend := by unfold voiceRestart; dsimp only
@[simp] theorem voiceRestart_f0 (p : Params) (vi : Nat) (v : Voice) : (voiceRestart p vi v).f0 = v.f0 := by unfold voiceRestart; dsimp only
@[simp] theorem voiceRestart_velamp (p : Params) (vi : Nat) (v : Voice) : (voiceRestart p vi v).velamp = v.velamp := by unfold voiceRestart; dsimp only
@[simp] theorem voiceRestart_keyf (p : Params) (vi : Nat) (v : Voice) : (voiceRestart p vi v).keyf = v.keyf := by unfold voiceRestart; dsimp only
@[simp] theorem voiceRestart_osc0 (p : Params) (vi : Nat) (v : Voice) : (voiceRestart p vi v).osc0 = oscReset vi 0 p.randPhase v.osc0 := by unfold voiceRestart; dsimp only
@[simp] theorem voiceRestart_osc1 (p : Params) (vi : Nat) (v : Voice) : (voiceRestart p vi v).osc1 = oscReset vi 1 p.randPhase v.osc1 := by unfold voiceRestart; dsimp only
@[simp] theorem voiceRestart_k (p : Params) (vi : Nat) (v : Voice) : (voiceRestart p vi v).k = v.k := by unfold voiceRestart; dsimp only
@[simp] theorem voiceRestart_oqk (p : Params) (vi : Nat) (v : Voice) : (voiceRestart p vi v).oqk = v.oqk := by unfold voiceRestart; dsimp only
@[simp] theorem voiceRestart_s0 (p : Params) (vi : Nat) (v : Voice) : (voiceRestart p vi v).s0 = v.s0 := by unfold voiceRestart; dsimp only
@[simp] theorem voiceRestart_s1 (p : Params) (vi : Nat) (v : Voice) : (voiceRestart p vi v).s1 = v.s1 := by unfold voiceRestart; dsimp only
@[simp] theorem voiceRestart_s2 (p : Params) (vi : Nat) (v : Voice) : (voiceRestart p vi v).s2 = v.s2 := by unfold voiceRestart; dsimp only
@[simp] theorem voiceRestart_s3 (p : Params) (vi : Nat) (v : Voice) : (voiceRestart p vi v).s3 = v.s3 := by unfold voiceRestart; dsimp only
@[simp] theorem voiceRestart_amp (p : Params) (vi : Nat) (v : Voice) : (voiceRestart p vi v).amp = envNoteOn v.amp := by unfold voiceRestart; dsimp only
@[simp] theorem voiceRestart_flt (p : Params) (vi : Nat) (v : Voice) : (voiceRestart p vi v).flt = envNoteOn v.flt := by unfold voiceRestart; dsimp only
@[simp] theorem voiceRestart_lfo (p : Params) (vi : Nat) (v : Voice) : (voiceRestart p vi v).lfo = lfoNoteOn := by unfold voiceRestart; dsimp only

@[simp] theorem voiceNoteOff_pitch (v : Voice) : (voiceNoteOff v).pitch = v.pitch := by unfold voiceNoteOff; dsimp only
@[simp] theorem voiceNoteOff_vel (v : Voice) : (voiceNoteOff v).vel = v.vel := by unfold voiceNoteOff; dsimp only
@[simp] theorem voiceNoteOff_bend (v : Voice) : (voiceNoteOff v).bend = v.bend := by unfold voiceNoteOff; dsimp only
@[simp] theorem voiceNoteOff_f0 (v : Voice) : (voiceNoteOff v).f0 = v.f0 := by unfold voiceNoteOff; dsimp only
@[simp] theorem voiceNoteOff_velamp (v : Voice) : (voiceNoteOff v).velamp = v.velamp := by unfold voiceNoteOff; dsimp only
@[simp] theorem voiceNoteOff_keyf (v : Voice) : (voiceNoteOff v).keyf = v.keyf := by unfold voiceNoteOff; dsimp only
@[simp] theorem voiceNoteOff_osc0 (v : Voice) : (voiceNoteOff v).osc0 = v.osc0 := by unfold voiceNoteOff; dsimp only
@[simp] theorem voiceNoteOff_osc1 (v : Voice) : (voiceNoteOff v).osc1 = v.osc1 := by unfold voiceNoteOff; dsimp only
@[simp] theorem voiceNoteOff_k (v : Voice) : (voiceNoteOff v).k = v.k := by unfold voiceNoteOff; dsimp only
@[simp] theorem voiceNoteOff_oqk (v : Voice) : (voiceNoteOff v).oqk = v.oqk := by unfold voiceNoteOff; dsimp only
@[simp] theorem voiceNoteOff_s0 (v : Voice) : (voiceNoteOff v).s0 = v.s0 := by unfold voiceNoteOff; dsimp only
@[simp] theorem voiceNoteOff_s1 (v : Voice) : (voiceNoteOff v).s1 = v.s1 := by unfold voiceNoteOff; dsimp only
@[simp] theorem voiceNoteOff_s2 (v : Voice) : (voiceNoteOff v).s2 = v.s2 := by unfold voiceNoteOff; dsimp only
@[simp] theorem voiceNoteOff_s3 (v : Voice) : (voiceNoteOff v).s3 = v.s3 := by unfold voiceNoteOff; dsimp only
@[simp] theorem voiceNoteOff_amp (v : Voice) : (voiceNoteOff v).amp = envNoteOff v.amp := by unfold voiceNoteOff; dsimp only
@[simp] theorem voiceNoteOff_flt (v : Voice) : (voiceNoteOff v).flt = envNoteOff v.flt := by unfold voiceNoteOff; dsimp only
@[simp] theorem voiceNoteOff_lfo (v : Voice) : (voiceNoteOff v).lfo = v.lfo := by unfold voiceNoteOff; dsimp only

/-! ### Control registers -/

@[simp] theorem rateSetCoef_fs (p : Params) (c : Ctrl) : (rateSetCoef p c).fs = c.fs := by unfold rateSetCoef; dsimp only
@[simp] theorem rateSetCoef_gain (p : Params) (c : Ctrl) : (rateSetCoef p c).gain = c.gain := by unfold rateSetCoef; dsimp only
@[simp] theorem rateSetCoef_bendMul (p : Params) (c : Ctrl) : (rateSetCoef p c).bendMul = c.bendMul := by unfold rateSetCoef; dsimp only
@[simp] theorem rateSetCoef_amp (p : Params) (c : Ctrl) : (rateSetCoef p c).amp = envRates c.fs p.amp := by unfold rateSetCoef; dsimp only
@[simp] theorem rateSetCoef_flt (p : Params) (c : Ctrl) : (rateSetCoef p c).flt = envRates c.fs p.flt := by unfold rateSetCoef; dsimp only
@[simp] theorem rateSetCoef_lfoDStep (p : Params) (c : Ctrl) : (rateSetCoef p c).lfoDStep = envRate c.fs p.vibDelay := by unfold rateSetCoef; dsimp only
@[simp] theorem rateSetCoef_lfoFStep (p : Params) (c : Ctrl) : (rateSetCoef p c).lfoFStep = lfoFreqStep c.fs p.vibRate := by unfold rateSetCoef; dsimp only
@[simp] theorem rateSetCoef_eqB0 (p : Params) (c : Ctrl) : (rateSetCoef p c).eqB0 = c.eqB0 := by unfold rateSetCoef; dsimp only
@[simp] theorem rateSetCoef_eqB1 (p : Params) (c : Ctrl) : (rateSetCoef p c).eqB1 = c.eqB1 := by unfold rateSetCoef; dsimp only
@[simp] theorem rateSetCoef_eqB2 (p : Params) (c : Ctrl) : (rateSetCoef p c).eqB2 = c.eqB2 := by unfold rateSetCoef; dsimp only
@[simp] theorem rateSetCoef_eqA1 (p : Params) (c : Ctrl) : (rateSetCoef p c).eqA1 = c.eqA1 := by unfold rateSetCoef; dsimp only
@[simp] theorem rateSetCoef_eqA2 (p : Params) (c : Ctrl) : (rateSetCoef p c).eqA2 = c.eqA2 := by unfold rateSetCoef; dsimp only
@[simp] theorem rateSetCoef_chR1 (p : Params) (c : Ctrl) : (rateSetCoef p c).chR1 = c.chR1 := by unfold rateSetCoef; dsimp only
@[simp] theorem rateSetCoef_chR2 (p : Params) (c : Ctrl) : (rateSetCoef p c).chR2 = c.chR2 := by unfold rateSetCoef; dsimp only
@[simp] theorem rateSetCoef_chBase (p : Params) (c : Ctrl) : (rateSetCoef p c).chBase = c.chBase := by unfold rateSetCoef; dsimp only
@[simp] theorem rateSetCoef_chDepthS (p : Params) (c : Ctrl) : (rateSetCoef p c).chDepthS = c.chDepthS := by unfold rateSetCoef; dsimp only
@[simp] theorem rateSetCoef_chLen (p : Params) (c : Ctrl) : (rateSetCoef p c).chLen = c.chLen := by unfold rateSetCoef; dsimp only
@[simp] theorem rateSetCoef_rvG (p : Params) (c : Ctrl) : (rateSetCoef p c).rvG = c.rvG := by unfold rateSetCoef; dsimp only

@[simp] theorem eqSetCoef_fs (p : Params) (c : Ctrl) : (eqSetCoef p c).fs = c.fs := by unfold eqSetCoef; dsimp only
@[simp] theorem eqSetCoef_gain (p : Params) (c : Ctrl) : (eqSetCoef p c).gain = c.gain := by unfold eqSetCoef; dsimp only
@[simp] theorem eqSetCoef_bendMul (p : Params) (c : Ctrl) : (eqSetCoef p c).bendMul = c.bendMul := by unfold eqSetCoef; dsimp only
@[simp] theorem eqSetCoef_amp (p : Params) (c : Ctrl) : (eqSetCoef p c).amp = c.amp := by unfold eqSetCoef; dsimp only
@[simp] theorem eqSetCoef_flt (p : Params) (c : Ctrl) : (eqSetCoef p c).flt = c.flt := by unfold eqSetCoef; dsimp only
@[simp] theorem eqSetCoef_lfoDStep (p : Params) (c : Ctrl) : (eqSetCoef p c).lfoDStep = c.lfoDStep := by unfold eqSetCoef; dsimp only
@[simp] theorem eqSetCoef_lfoFStep (p : Params) (c : Ctrl) : (eqSetCoef p c).lfoFStep = c.lfoFStep := by unfold eqSetCoef; dsimp only
@[simp] theorem eqSetCoef_chR1 (p : Params) (c : Ctrl) : (eqSetCoef p c).chR1 = c.chR1 := by unfold eqSetCoef; dsimp only
@[simp] theorem eqSetCoef_chR2 (p : Params) (c : Ctrl) : (eqSetCoef p c).chR2 = c.chR2 := by unfold eqSetCoef; dsimp only
@[simp] theorem eqSetCoef_chBase (p : Params) (c : Ctrl) : (eqSetCoef p c).chBase = c.chBase := by unfold eqSetCoef; dsimp only
@[simp] theorem eqSetCoef_chDepthS (p : Params) (c : Ctrl) : (eqSetCoef p c).chDepthS = c.chDepthS := by unfold eqSetCoef; dsimp only
@[simp] theorem eqSetCoef_chLen (p : Params) (c : Ctrl) : (eqSetCoef p c).chLen = c.chLen := by unfold eqSetCoef; dsimp only
@[simp] theorem eqSetCoef_rvG (p : Params) (c : Ctrl) : (eqSetCoef p c).rvG = c.rvG := by unfold eqSetCoef; dsimp only

@[simp] theorem chSetCoef_fs (p : Params) (c : Ctrl) : (chSetCoef p c).fs = c.fs := by unfold chSetCoef; dsimp only
@[simp] theorem chSetCoef_gain (p : Params) (c : Ctrl) : (chSetCoef p c).gain = c.gain := by unfold chSetCoef; dsimp only
@[simp] theorem chSetCoef_bendMul (p : Params) (c : Ctrl) : (chSetCoef p c).bendMul = c.bendMul := by unfold chSetCoef; dsimp only
@[simp] theorem chSetCoef_amp (p : Params) (c : Ctrl) : (chSetCoef p c).amp = c.amp := by unfold chSetCoef; dsimp only
@[simp] theorem chSetCoef_flt (p : Params) (c : Ctrl) : (chSetCoef p c).flt = c.flt := by unfold chSetCoef; dsimp only
@[simp] theorem chSetCoef_lfoDStep (p : Params) (c : Ctrl) : (chSetCoef p c).lfoDStep = c.lfoDStep := by unfold chSetCoef; dsimp only
@[simp] theorem chSetCoef_lfoFStep (p : Params) (c : Ctrl) : (chSetCoef p c).lfoFStep = c.lfoFStep := by unfold chSetCoef; dsimp only
@[simp] theorem chSetCoef_eqB0 (p : Params) (c : Ctrl) : (chSetCoef p c).eqB0 = c.eqB0 := by unfold chSetCoef; dsimp only
@[simp] theorem chSetCoef_eqB1 (p : Params) (c : Ctrl) : (chSetCoef p c).eqB1 = c.eqB1 := by unfold chSetCoef; dsimp only
@[simp] theorem chSetCoef_eqB2 (p : Params) (c : Ctrl) : (chSetCoef p c).eqB2 = c.eqB2 := by unfold chSetCoef; dsimp only
@[simp] theorem chSetCoef_eqA1 (p : Params) (c : Ctrl) : (chSetCoef p c).eqA1 = c.eqA1 := by unfold chSetCoef; dsimp only
@[simp] theorem chSetCoef_eqA2 (p : Params) (c : Ctrl) : (chSetCoef p c).eqA2 = c.eqA2 := by unfold chSetCoef; dsimp only
@[simp] theorem chSetCoef_chR1 (p : Params) (c : Ctrl) : (chSetCoef p c).chR1 = fdiv p.chRate c.fs := by unfold chSetCoef; dsimp only
@[simp] theorem chSetCoef_chR2 (p : Params) (c : Ctrl) : (chSetCoef p c).chR2 = fdiv (fmul (fdiv p.chRate c.fs) n11) n12 := by unfold chSetCoef; dsimp only
@[simp] theorem chSetCoef_chBase (p : Params) (c : Ctrl) : (chSetCoef p c).chBase = fmul (fmul p.chDelay n1em3) c.fs := by unfold chSetCoef; dsimp only
@[simp] theorem chSetCoef_chDepthS (p : Params) (c : Ctrl) : (chSetCoef p c).chDepthS = fmul (fmul p.chDepth n1em3) c.fs := by unfold chSetCoef; dsimp only
@[simp] theorem chSetCoef_chLen (p : Params) (c : Ctrl) : (chSetCoef p c).chLen = (floorInt c.fs).toNat := by unfold chSetCoef; dsimp only
@[simp] theorem chSetCoef_rvG (p : Params) (c : Ctrl) : (chSetCoef p c).rvG = c.rvG := by unfold chSetCoef; dsimp only

@[simp] theorem rvSetCoef_fs (p : Params) (c : Ctrl) : (rvSetCoef p c).fs = c.fs := by unfold rvSetCoef; dsimp only
@[simp] theorem rvSetCoef_gain (p : Params) (c : Ctrl) : (rvSetCoef p c).gain = c.gain := by unfold rvSetCoef; dsimp only
@[simp] theorem rvSetCoef_bendMul (p : Params) (c : Ctrl) : (rvSetCoef p c).bendMul = c.bendMul := by unfold rvSetCoef; dsimp only
@[simp] theorem rvSetCoef_amp (p : Params) (c : Ctrl) : (rvSetCoef p c).amp = c.amp := by unfold rvSetCoef; dsimp only
@[simp] theorem rvSetCoef_flt (p : Params) (c : Ctrl) : (rvSetCoef p c).flt = c.flt := by unfold rvSetCoef; dsimp only
@[simp] theorem rvSetCoef_lfoDStep (p : Params) (c : Ctrl) : (rvSetCoef p c).lfoDStep = c.lfoDStep := by unfold rvSetCoef; dsimp only
@[simp] theorem rvSetCoef_lfoFStep (p : Params) (c : Ctrl) : (rvSetCoef p c).lfoFStep = c.lfoFStep := by unfold rvSetCoef; dsimp only
@[simp] theorem rvSetCoef_eqB0 (p : Params) (c : Ctrl) : (rvSetCoef p c).eqB0 = c.eqB0 := by unfold rvSetCoef; dsimp only
@[simp] theorem rvSetCoef_eqB1 (p : Params) (c : Ctrl) : (rvSetCoef p c).eqB1 = c.eqB1 := by unfold rvSetCoef; dsimp only
@[simp] theorem rvSetCoef_eqB2 (p : Params) (c : Ctrl) : (rvSetCoef p c).eqB2 = c.eqB2 := by unfold rvSetCoef; dsimp only
@[simp] theorem rvSetCoef_eqA1 (p : Params) (c : Ctrl) : (rvSetCoef p c).eqA1 = c.eqA1 := by unfold rvSetCoef; dsimp only
@[simp] theorem rvSetCoef_eqA2 (p : Params) (c : Ctrl) : (rvSetCoef p c).eqA2 = c.eqA2 := by unfold rvSetCoef; dsimp only
@[simp] theorem rvSetCoef_chR1 (p : Params) (c : Ctrl) : (rvSetCoef p c).chR1 = c.chR1 := by unfold rvSetCoef; dsimp only
@[simp] theorem rvSetCoef_chR2 (p : Params) (c : Ctrl) : (rvSetCoef p c).chR2 = c.chR2 := by unfold rvSetCoef; dsimp only
@[simp] theorem rvSetCoef_chBase (p : Params) (c : Ctrl) : (rvSetCoef p c).chBase = c.chBase := by unfold rvSetCoef; dsimp only
@[simp] theorem rvSetCoef_chDepthS (p : Params) (c : Ctrl) : (rvSetCoef p c).chDepthS = c.chDepthS := by unfold rvSetCoef; dsimp only
@[simp] theorem rvSetCoef_chLen (p : Params) (c : Ctrl) : (rvSetCoef p c).chLen = c.chLen := by unfold rvSetCoef; dsimp only
@[simp] theorem rvSetCoef_rvG (p : Params) (c : Ctrl) : (rvSetCoef p c).rvG = exp10N (fdiv (fmul nNeg3 rvPath) (fmul p.rvT60 c.fs)) := by unfold rvSetCoef; dsimp only

/-! ### The EQ coefficients depend on the parameters and C.FS alone (R24) -/

theorem eqSetCoef_eqB0_congr (p : Params) (c c' : Ctrl) (h : c.fs = c'.fs) : (eqSetCoef p c).eqB0 = (eqSetCoef p c').eqB0 := by
  simp only [eqSetCoef, h]

theorem eqSetCoef_eqB1_congr (p : Params) (c c' : Ctrl) (h : c.fs = c'.fs) : (eqSetCoef p c).eqB1 = (eqSetCoef p c').eqB1 := by
  simp only [eqSetCoef, h]

theorem eqSetCoef_eqB2_congr (p : Params) (c c' : Ctrl) (h : c.fs = c'.fs) : (eqSetCoef p c).eqB2 = (eqSetCoef p c').eqB2 := by
  simp only [eqSetCoef, h]

theorem eqSetCoef_eqA1_congr (p : Params) (c c' : Ctrl) (h : c.fs = c'.fs) : (eqSetCoef p c).eqA1 = (eqSetCoef p c').eqA1 := by
  simp only [eqSetCoef, h]

theorem eqSetCoef_eqA2_congr (p : Params) (c c' : Ctrl) (h : c.fs = c'.fs) : (eqSetCoef p c).eqA2 = (eqSetCoef p c').eqA2 := by
  simp only [eqSetCoef, h]

@[simp] theorem recomputeCtrl_fs (p : Params) (c : Ctrl) : (recomputeCtrl p c).fs = c.fs := by simp [recomputeCtrl]
@[simp] theorem recomputeCtrl_gain (p : Params) (c : Ctrl) : (recomputeCtrl p c).gain = c.gain := by simp [recomputeCtrl]
@[simp] theorem recomputeCtrl_bendMul (p : Params) (c : Ctrl) : (recomputeCtrl p c).bendMul = c.bendMul := by simp [recomputeCtrl]
@[simp] theorem recomputeCtrl_amp (p : Params) (c : Ctrl) : (recomputeCtrl p c).amp = envRates c.fs p.amp := by simp [recomputeCtrl]
@[simp] theorem recomputeCtrl_flt (p : Params) (c : Ctrl) : (recomputeCtrl p c).flt = envRates c.fs p.flt := by simp [recomputeCtrl]
@[simp] theorem recomputeCtrl_lfoDStep (p : Params) (c : Ctrl) : (recomputeCtrl p c).lfoDStep = envRate c.fs p.vibDelay := by simp [recomputeCtrl]
@[simp] theorem recomputeCtrl_lfoFStep (p : Params) (c : Ctrl) : (recomputeCtrl p c).lfoFStep = lfoFreqStep c.fs p.vibRate := by simp [recomputeCtrl]
@[simp] theorem recomputeCtrl_eqB0 (p : Params) (c : Ctrl) : (recomputeCtrl p c).eqB0 = (eqSetCoef p c).eqB0 := by
  simp only [recomputeCtrl, rvSetCoef_eqB0, chSetCoef_eqB0]
  exact eqSetCoef_eqB0_congr p _ _ (rateSetCoef_fs p c)
@[simp] theorem recomputeCtrl_eqB1 (p : Params) (c : Ctrl) : (recomputeCtrl p c).eqB1 = (eqSetCoef p c).eqB1 := by
  simp only [recomputeCtrl, rvSetCoef_eqB1, chSetCoef_eqB1]
  exact eqSetCoef_eqB1_congr p _ _ (rateSetCoef_fs p c)
@[simp] theorem recomputeCtrl_eqB2 (p : Params) (c : Ctrl) : (recomputeCtrl p c).eqB2 = (eqSetCoef p c).eqB2 := by
  simp only [recomputeCtrl, rvSetCoef_eqB2, chSetCoef_eqB2]
  exact eqSetCoef_eqB2_congr p _ _ (rateSetCoef_fs p c)
@[simp] theorem recomputeCtrl_eqA1 (p : Params) (c : Ctrl) : (recomputeCtrl p c).eqA1 = (eqSetCoef p c).eqA1 := by
  simp only [recomputeCtrl, rvSetCoef_eqA1, chSetCoef_eqA1]
  exact eqSetCoef_eqA1_congr p _ _ (rateSetCoef_fs p c)
@[simp] theorem recomputeCtrl_eqA2 (p : Params) (c : Ctrl) : (recomputeCtrl p c).eqA2 = (eqSetCoef p c).eqA2 := by
  simp only [recomputeCtrl, rvSetCoef_eqA2, chSetCoef_eqA2]
  exact eqSetCoef_eqA2_congr p _ _ (rateSetCoef_fs p c)
@[simp] theorem recomputeCtrl_chR1 (p : Params) (c : Ctrl) : (recomputeCtrl p c).chR1 = fdiv p.chRate c.fs := by simp [recomputeCtrl]
@[simp] theorem recomputeCtrl_chR2 (p : Params) (c : Ctrl) : (recomputeCtrl p c).chR2 = fdiv (fmul (fdiv p.chRate c.fs) n11) n12 := by simp [recomputeCtrl]
@[simp] theorem recomputeCtrl_chBase (p : Params) (c : Ctrl) : (recomputeCtrl p c).chBase = fmul (fmul p.chDelay n1em3) c.fs := by simp [recomputeCtrl]
@[simp] theorem recomputeCtrl_chDepthS (p : Params) (c : Ctrl) : (recomputeCtrl p c).chDepthS = fmul (fmul p.chDepth n1em3) c.fs := by simp [recomputeCtrl]
@[simp] theorem recomputeCtrl_chLen (p : Params) (c : Ctrl) : (recomputeCtrl p c).chLen = (floorInt c.fs).toNat := by simp [recomputeCtrl]
@[simp] theorem recomputeCtrl_rvG (p : Params) (c : Ctrl) : (recomputeCtrl p c).rvG = exp10N (fdiv (fmul nNeg3 rvPath) (fmul p.rvT60 c.fs)) := by simp [recomputeCtrl]

/-! ### Oscillator -/

@[simp] theorem oscReset_np (v oi : Nat) (random : Bool) (o : Osc) : (oscReset v oi random o).np = o.np := by unfold oscReset; dsimp only
@[simp] theorem oscReset_amp (v oi : Nat) (random : Bool) (o : Osc) : (oscReset v oi random o).amp = o.amp := by unfold oscReset; dsimp only
@[simp] theorem oscReset_step (v oi : Nat) (random : Bool) (o : Osc) : (oscReset v oi random o).step = o.step := by unfold oscReset; dsimp only

end Sys2Proof.Machine
end

