-- ==== Sys2Proof/Laws/Oscillator.lean ====
section
/-! SUPPORT. What the oscillator's internal operations can do (spec/40_oscillator.md): one lemma each for the scan of OscSetFreq, OscReset and OscProcess. -/

namespace Sys2Proof.Machine

/-! ### OscSetFreq (R105, R106) -/

/-- Everything the scan does from partial `i` on, with `fuel` partials left: it ends at some `n`, stores the step and the amplitude of every partial from `i` below `n`, each step at most QNYQ, leaves every other entry and every phase, and ends early only at a step that is not at most QNYQ. -/
theorem oscScan_spec (f0 b : Num64) : ∀ (fuel i : Nat) (o : Osc), o.np = i → o.step.wf → o.amp.wf →
    ∃ n, i ≤ n ∧ n ≤ i + fuel ∧ (oscScan f0 b fuel i o).np = n ∧ (oscScan f0 b fuel i o).ph = o.ph ∧
      (∀ j, i ≤ j → j < n →
        fle (fmul (partialRatio b j) f0) qNyq = true ∧
        memRead (oscScan f0 b fuel i o).step j = fmul (partialRatio b j) f0 ∧
        memRead (oscScan f0 b fuel i o).amp j = fdiv n1 (partialRatio b j)) ∧
      (∀ j, j < i ∨ n ≤ j →
        memRead (oscScan f0 b fuel i o).step j = memRead o.step j ∧
        memRead (oscScan f0 b fuel i o).amp j = memRead o.amp j) ∧
      (n < i + fuel → fle (fmul (partialRatio b n) f0) qNyq = false)
  | 0, i, o, hnp, _, _ => ⟨i, le_refl _, le_refl _, hnp, rfl, fun j h1 h2 => by omega,
      fun j _ => ⟨rfl, rfl⟩, fun h => by omega⟩
  | fuel + 1, i, o, hnp, hs, ha => by
    by_cases hq : fle (fmul (partialRatio b i) f0) qNyq = true
    · obtain ⟨n, h1, h2, h3, h4, h5, h6, h7⟩ := oscScan_spec f0 b fuel (i + 1)
        { o with
          step := memWrite o.step i (fmul (partialRatio b i) f0)
          amp := memWrite o.amp i (fdiv n1 (partialRatio b i))
          np := i + 1 } rfl (memWrite_wf hs) (memWrite_wf ha)
      have he : oscScan f0 b (fuel + 1) i o = oscScan f0 b fuel (i + 1)
        { o with
          step := memWrite o.step i (fmul (partialRatio b i) f0)
          amp := memWrite o.amp i (fdiv n1 (partialRatio b i))
          np := i + 1 } := by rw [oscScan, if_pos hq]
      rw [he]
      refine ⟨n, by omega, by omega, h3, h4, ?_, ?_, fun h => h7 (by omega)⟩
      · intro j hj1 hj2
        by_cases hj : j = i
        · subst hj
          obtain ⟨e1, e2⟩ := h6 j (by omega)
          rw [memRead_memWrite hs, if_pos rfl] at e1
          rw [memRead_memWrite ha, if_pos rfl] at e2
          exact ⟨hq, e1, e2⟩
        · exact h5 j (by omega) hj2
      · intro j hj
        obtain ⟨e1, e2⟩ := h6 j (by omega)
        rw [memRead_memWrite hs, if_neg (by omega)] at e1
        rw [memRead_memWrite ha, if_neg (by omega)] at e2
        exact ⟨e1, e2⟩
    · have he : oscScan f0 b (fuel + 1) i o = o := by rw [oscScan, if_neg hq]
      rw [he]
      exact ⟨i, le_refl _, by omega, hnp, rfl, fun j h1 h2 => by omega, fun j _ => ⟨rfl, rfl⟩,
        fun _ => by simpa using hq⟩

/-- The scan keeps the tables canonical and inside their size. -/
theorem oscScan_memOk (f0 b : Num64) (N : Nat) : ∀ (fuel i : Nat) (o : Osc), i + fuel ≤ N →
    memOk N o.step → memOk N o.amp →
    memOk N (oscScan f0 b fuel i o).step ∧ memOk N (oscScan f0 b fuel i o).amp
  | 0, _, _, _, hs, ha => ⟨hs, ha⟩
  | fuel + 1, i, o, h, hs, ha => by
    rw [oscScan]
    split
    · exact oscScan_memOk f0 b N fuel (i + 1) _ (by omega)
        (memWrite_memOk hs (by omega)) (memWrite_memOk ha (by omega))
    · exact ⟨hs, ha⟩

@[simp] theorem oscSetFreq_ph (f0 b : Num64) (o : Osc) : (oscSetFreq f0 b o).ph = o.ph := by
  have h : ∀ (fuel i : Nat) (o : Osc), (oscScan f0 b fuel i o).ph = o.ph := by
    intro fuel
    induction fuel with
    | zero => intro i o; rfl
    | succ fuel ih =>
      intro i o
      rw [oscScan]
      split
      · rw [ih]
      · rfl
  exact h _ _ _

/-! ### OscReset (R107) -/

/-- Everything a run of writes to the phases `l` does: each listed index holds its new phase, the others are kept. -/
theorem phaseWrites_spec (g : Nat → Num64) : ∀ (l : List Nat) (m : Memory), m.wf →
    (l.foldl (fun ph i => memWrite ph i (g i)) m).wf ∧
      ∀ j, memRead (l.foldl (fun ph i => memWrite ph i (g i)) m) j = if j ∈ l then g j else memRead m j
  | [], m, h => ⟨h, fun j => by simp⟩
  | i :: l, m, h => by
    obtain ⟨h1, h2⟩ := phaseWrites_spec g l (memWrite m i (g i)) (memWrite_wf h)
    refine ⟨h1, fun j => ?_⟩
    rw [List.foldl_cons, h2 j, memRead_memWrite h]
    by_cases hj : j ∈ l
    · simp [hj]
    · by_cases hi : j = i
      · subst hi; simp
      · simp [hj, hi]

/-- OscReset writes every phase of the 128 and keeps the tables (R107). -/
theorem oscReset_ph_read (v oi : Nat) (random : Bool) (o : Osc) (h : o.ph.wf) (j : Nat) :
    memRead (oscReset v oi random o).ph j =
      if j < Config.npMax then (if random then rndPh v oi j else n0) else memRead o.ph j := by
  unfold oscReset
  dsimp only
  generalize hl : List.range Config.npMax = l
  have hm : j ∈ l ↔ j < Config.npMax := by rw [← hl]; exact List.mem_range
  rw [(phaseWrites_spec (fun i => if random then rndPh v oi i else n0) l o.ph h).2 j]
  simp only [hm]

theorem phaseWrites_memOk (g : Nat → Num64) (N : Nat) : ∀ (l : List Nat) (m : Memory), (∀ i ∈ l, i < N) →
    memOk N m → memOk N (l.foldl (fun ph i => memWrite ph i (g i)) m)
  | [], _, _, h => h
  | i :: l, m, hl, h => by
    rw [List.foldl_cons]
    exact phaseWrites_memOk g N l _ (fun j hj => hl j (by simp [hj]))
      (memWrite_memOk h (hl i (by simp)))

theorem oscReset_memOk (v oi : Nat) (random : Bool) (o : Osc) (h : memOk Config.npMax o.ph) :
    memOk Config.npMax (oscReset v oi random o).ph := by
  unfold oscReset
  dsimp only
  generalize hl : List.range Config.npMax = l
  exact phaseWrites_memOk _ _ l _ (fun i hi => by rw [← hl] at hi; exact List.mem_range.1 hi) h

/-! ### OscProcess (R108) -/

@[simp] theorem oscPartial_np (m : Num64) (st : Osc × Num64) (i : Nat) :
    (oscPartial m st i).1.np = st.1.np := by unfold oscPartial; dsimp only
@[simp] theorem oscPartial_amp (m : Num64) (st : Osc × Num64) (i : Nat) :
    (oscPartial m st i).1.amp = st.1.amp := by unfold oscPartial; dsimp only
@[simp] theorem oscPartial_step (m : Num64) (st : Osc × Num64) (i : Nat) :
    (oscPartial m st i).1.step = st.1.step := by unfold oscPartial; dsimp only

/-- The phase of partial `i` after one call of OscProcess: advanced, then wrapped (R108). -/
def nextPhase (m : Num64) (o : Osc) (i : Nat) : Num64 :=
  frac (fadd (memRead o.ph i) (fmul (memRead o.step i) m))

theorem oscPartial_ph (m : Num64) (st : Osc × Num64) (i : Nat) :
    (oscPartial m st i).1.ph = memWrite st.1.ph i (nextPhase m st.1 i) := by
  unfold oscPartial nextPhase; dsimp only
theorem oscPartial_sum (m : Num64) (st : Osc × Num64) (i : Nat) :
    (oscPartial m st i).2 = fadd st.2 (fmul (memRead st.1.amp i) (cosLookup (nextPhase m st.1 i))) := by
  unfold oscPartial nextPhase; dsimp only

/-- Another partial's turn does not change what partial `j` will do. -/
theorem nextPhase_oscPartial {m : Num64} {st : Osc × Num64} {i j : Nat} (h : st.1.ph.wf) (hj : j ≠ i) :
    nextPhase m (oscPartial m st i).1 j = nextPhase m st.1 j := by
  unfold nextPhase
  rw [oscPartial_ph, oscPartial_step, memRead_memWrite h, if_neg hj]

/-- Everything the loop of OscProcess does over a list of distinct partials: only their phases are written, each advanced and wrapped once, and the sum is taken in the list's order. -/
theorem oscProcess_fold_spec (m : Num64) : ∀ (l : List Nat) (st : Osc × Num64), l.Nodup → st.1.ph.wf →
    (l.foldl (oscPartial m) st).1.np = st.1.np ∧
    (l.foldl (oscPartial m) st).1.amp = st.1.amp ∧
    (l.foldl (oscPartial m) st).1.step = st.1.step ∧
    (l.foldl (oscPartial m) st).1.ph.wf ∧
    (∀ j, memRead (l.foldl (oscPartial m) st).1.ph j =
      if j ∈ l then nextPhase m st.1 j else memRead st.1.ph j) ∧
    (l.foldl (oscPartial m) st).2 = l.foldl (fun a i =>
      fadd a (fmul (memRead st.1.amp i) (cosLookup (nextPhase m st.1 i)))) st.2 := by
  intro l
  induction l with
  | nil => intro st _ h; simpa using h
  | cons i l ih =>
    intro st hn h
    obtain ⟨hi, hl⟩ := List.nodup_cons.1 hn
    have hw : (oscPartial m st i).1.ph.wf := by rw [oscPartial_ph]; exact memWrite_wf h
    obtain ⟨h1, h2, h3, h4, h5, h6⟩ := ih (oscPartial m st i) hl hw
    simp only [List.foldl_cons]
    refine ⟨by rw [h1, oscPartial_np], by rw [h2, oscPartial_amp], by rw [h3, oscPartial_step], h4,
      fun j => ?_, ?_⟩
    · rw [h5 j]
      by_cases hj : j ∈ l
      · have hne : j ≠ i := fun e => hi (e ▸ hj)
        rw [if_pos hj, if_pos (List.mem_cons_of_mem _ hj), nextPhase_oscPartial h hne]
      · rw [if_neg hj, oscPartial_ph, memRead_memWrite h]
        by_cases hji : j = i
        · rw [if_pos hji, if_pos (by simp [hji]), hji]
        · rw [if_neg hji, if_neg (by simp [hji, hj])]
    · rw [h6, oscPartial_sum, oscPartial_amp]
      have key : ∀ (l' : List Nat) (a : Num64), (∀ x ∈ l', x ≠ i) →
          l'.foldl (fun a k => fadd a (fmul (memRead st.1.amp k)
            (cosLookup (nextPhase m (oscPartial m st i).1 k)))) a =
          l'.foldl (fun a k => fadd a (fmul (memRead st.1.amp k) (cosLookup (nextPhase m st.1 k)))) a := by
        intro l'
        induction l' with
        | nil => intro a _; simp only [List.foldl_nil]
        | cons x l' ih =>
          intro a hx
          simp only [List.foldl_cons]
          rw [nextPhase_oscPartial h (hx x (by simp)), ih _ (fun y hy => hx y (by simp [hy]))]
      exact key l _ (fun x hx e => hi (e ▸ hx))

theorem oscProcess_memOk (m : Num64) (N : Nat) : ∀ (l : List Nat) (st : Osc × Num64),
    (∀ i ∈ l, i < N) → memOk N st.1.ph → memOk N (l.foldl (oscPartial m) st).1.ph
  | [], _, _, h => h
  | i :: l, st, hl, h => by
    rw [List.foldl_cons]
    refine oscProcess_memOk m N l _ (fun j hj => hl j (by simp [hj])) ?_
    rw [oscPartial_ph]
    exact memWrite_memOk h (hl i (by simp))

/-- OscProcess keeps the partial count and the two tables (R108). -/
theorem oscProcess_keeps (m : Num64) (o : Osc) (h : o.ph.wf) :
    (oscProcess m o).1.np = o.np ∧ (oscProcess m o).1.amp = o.amp ∧ (oscProcess m o).1.step = o.step := by
  unfold oscProcess
  obtain ⟨h1, h2, h3, -⟩ := oscProcess_fold_spec m (List.range' 1 (o.np - 1)) (o, n0) List.nodup_range' h
  exact ⟨h1, h2, h3⟩

end Sys2Proof.Machine
end

