-- ==== Sys2Proof/Laws/PerInstr.lean ====
section
/-! SUPPORT. One lemma per constructor that says which fields its encoding carries (spec/30_encoding.md R83, R85, R90). -/

namespace Sys2Proof

namespace Laws.EncodeFields

/-- The word that `encode` gives has the opcode and the operand fields of the instruction's format, and zeros in the fields that the format does not read. -/
def Statement : Instr → Prop
  | .nop =>
    opField (encode (.nop)) = 0x00#8 ∧ chField (encode (.nop)) = 0 ∧
      immField (encode (.nop)) = 0 ∧ valField (encode (.nop)) = 0
  | .reset =>
    opField (encode (.reset)) = 0x01#8 ∧ chField (encode (.reset)) = 0 ∧
      immField (encode (.reset)) = 0 ∧ valField (encode (.reset)) = 0
  | .tick64 =>
    opField (encode (.tick64)) = 0x02#8 ∧ chField (encode (.tick64)) = 0 ∧
      immField (encode (.tick64)) = 0 ∧ valField (encode (.tick64)) = 0
  | .tick32 =>
    opField (encode (.tick32)) = 0x03#8 ∧ chField (encode (.tick32)) = 0 ∧
      immField (encode (.tick32)) = 0 ∧ valField (encode (.tick32)) = 0
  | .noteOn ch imm val =>
    opField (encode (.noteOn ch imm val)) = 0x08#8 ∧ chField (encode (.noteOn ch imm val)) = ch ∧
      immField (encode (.noteOn ch imm val)) = imm ∧ valField (encode (.noteOn ch imm val)) = val
  | .noteOff ch imm val =>
    opField (encode (.noteOff ch imm val)) = 0x09#8 ∧ chField (encode (.noteOff ch imm val)) = ch ∧
      immField (encode (.noteOff ch imm val)) = imm ∧ valField (encode (.noteOff ch imm val)) = val
  | .setFs val =>
    opField (encode (.setFs val)) = 0x10#8 ∧ chField (encode (.setFs val)) = 0 ∧
      immField (encode (.setFs val)) = 0 ∧ valField (encode (.setFs val)) = val
  | .setVolume val =>
    opField (encode (.setVolume val)) = 0x11#8 ∧ chField (encode (.setVolume val)) = 0 ∧
      immField (encode (.setVolume val)) = 0 ∧ valField (encode (.setVolume val)) = val
  | .setExpression val =>
    opField (encode (.setExpression val)) = 0x12#8 ∧ chField (encode (.setExpression val)) = 0 ∧
      immField (encode (.setExpression val)) = 0 ∧ valField (encode (.setExpression val)) = val
  | .setBendRange val =>
    opField (encode (.setBendRange val)) = 0x13#8 ∧ chField (encode (.setBendRange val)) = 0 ∧
      immField (encode (.setBendRange val)) = 0 ∧ valField (encode (.setBendRange val)) = val
  | .setBend val =>
    opField (encode (.setBend val)) = 0x14#8 ∧ chField (encode (.setBend val)) = 0 ∧
      immField (encode (.setBend val)) = 0 ∧ valField (encode (.setBend val)) = val
  | .setModwheel val =>
    opField (encode (.setModwheel val)) = 0x15#8 ∧ chField (encode (.setModwheel val)) = 0 ∧
      immField (encode (.setModwheel val)) = 0 ∧ valField (encode (.setModwheel val)) = val
  | .setPedal imm val =>
    opField (encode (.setPedal imm val)) = 0x16#8 ∧ chField (encode (.setPedal imm val)) = 0 ∧
      immField (encode (.setPedal imm val)) = imm ∧ valField (encode (.setPedal imm val)) = val
  | .setVelsens val =>
    opField (encode (.setVelsens val)) = 0x17#8 ∧ chField (encode (.setVelsens val)) = 0 ∧
      immField (encode (.setVelsens val)) = 0 ∧ valField (encode (.setVelsens val)) = val
  | .setInharm val =>
    opField (encode (.setInharm val)) = 0x20#8 ∧ chField (encode (.setInharm val)) = 0 ∧
      immField (encode (.setInharm val)) = 0 ∧ valField (encode (.setInharm val)) = val
  | .setOscmix val =>
    opField (encode (.setOscmix val)) = 0x21#8 ∧ chField (encode (.setOscmix val)) = 0 ∧
      immField (encode (.setOscmix val)) = 0 ∧ valField (encode (.setOscmix val)) = val
  | .setRandphase imm =>
    opField (encode (.setRandphase imm)) = 0x22#8 ∧ chField (encode (.setRandphase imm)) = 0 ∧
      immField (encode (.setRandphase imm)) = imm ∧ valField (encode (.setRandphase imm)) = 0
  | .setVibDepth val =>
    opField (encode (.setVibDepth val)) = 0x23#8 ∧ chField (encode (.setVibDepth val)) = 0 ∧
      immField (encode (.setVibDepth val)) = 0 ∧ valField (encode (.setVibDepth val)) = val
  | .setVibRate val =>
    opField (encode (.setVibRate val)) = 0x24#8 ∧ chField (encode (.setVibRate val)) = 0 ∧
      immField (encode (.setVibRate val)) = 0 ∧ valField (encode (.setVibRate val)) = val
  | .setVibDelay val =>
    opField (encode (.setVibDelay val)) = 0x25#8 ∧ chField (encode (.setVibDelay val)) = 0 ∧
      immField (encode (.setVibDelay val)) = 0 ∧ valField (encode (.setVibDelay val)) = val
  | .setCutoff val =>
    opField (encode (.setCutoff val)) = 0x28#8 ∧ chField (encode (.setCutoff val)) = 0 ∧
      immField (encode (.setCutoff val)) = 0 ∧ valField (encode (.setCutoff val)) = val
  | .setReso val =>
    opField (encode (.setReso val)) = 0x29#8 ∧ chField (encode (.setReso val)) = 0 ∧
      immField (encode (.setReso val)) = 0 ∧ valField (encode (.setReso val)) = val
  | .setFtype imm =>
    opField (encode (.setFtype imm)) = 0x2A#8 ∧ chField (encode (.setFtype imm)) = 0 ∧
      immField (encode (.setFtype imm)) = imm ∧ valField (encode (.setFtype imm)) = 0
  | .setFiter imm =>
    opField (encode (.setFiter imm)) = 0x2B#8 ∧ chField (encode (.setFiter imm)) = 0 ∧
      immField (encode (.setFiter imm)) = imm ∧ valField (encode (.setFiter imm)) = 0
  | .setFenvAmt val =>
    opField (encode (.setFenvAmt val)) = 0x2C#8 ∧ chField (encode (.setFenvAmt val)) = 0 ∧
      immField (encode (.setFenvAmt val)) = 0 ∧ valField (encode (.setFenvAmt val)) = val
  | .setKeyfollow val =>
    opField (encode (.setKeyfollow val)) = 0x2D#8 ∧ chField (encode (.setKeyfollow val)) = 0 ∧
      immField (encode (.setKeyfollow val)) = 0 ∧ valField (encode (.setKeyfollow val)) = val
  | .setAmpAttack val =>
    opField (encode (.setAmpAttack val)) = 0x30#8 ∧ chField (encode (.setAmpAttack val)) = 0 ∧
      immField (encode (.setAmpAttack val)) = 0 ∧ valField (encode (.setAmpAttack val)) = val
  | .setAmpDecay val =>
    opField (encode (.setAmpDecay val)) = 0x31#8 ∧ chField (encode (.setAmpDecay val)) = 0 ∧
      immField (encode (.setAmpDecay val)) = 0 ∧ valField (encode (.setAmpDecay val)) = val
  | .setAmpSustain val =>
    opField (encode (.setAmpSustain val)) = 0x32#8 ∧ chField (encode (.setAmpSustain val)) = 0 ∧
      immField (encode (.setAmpSustain val)) = 0 ∧ valField (encode (.setAmpSustain val)) = val
  | .setAmpRelease val =>
    opField (encode (.setAmpRelease val)) = 0x33#8 ∧ chField (encode (.setAmpRelease val)) = 0 ∧
      immField (encode (.setAmpRelease val)) = 0 ∧ valField (encode (.setAmpRelease val)) = val
  | .setFltAttack val =>
    opField (encode (.setFltAttack val)) = 0x34#8 ∧ chField (encode (.setFltAttack val)) = 0 ∧
      immField (encode (.setFltAttack val)) = 0 ∧ valField (encode (.setFltAttack val)) = val
  | .setFltDecay val =>
    opField (encode (.setFltDecay val)) = 0x35#8 ∧ chField (encode (.setFltDecay val)) = 0 ∧
      immField (encode (.setFltDecay val)) = 0 ∧ valField (encode (.setFltDecay val)) = val
  | .setFltSustain val =>
    opField (encode (.setFltSustain val)) = 0x36#8 ∧ chField (encode (.setFltSustain val)) = 0 ∧
      immField (encode (.setFltSustain val)) = 0 ∧ valField (encode (.setFltSustain val)) = val
  | .setFltRelease val =>
    opField (encode (.setFltRelease val)) = 0x37#8 ∧ chField (encode (.setFltRelease val)) = 0 ∧
      immField (encode (.setFltRelease val)) = 0 ∧ valField (encode (.setFltRelease val)) = val
  | .setDivN imm =>
    opField (encode (.setDivN imm)) = 0x40#8 ∧ chField (encode (.setDivN imm)) = 0 ∧
      immField (encode (.setDivN imm)) = imm ∧ valField (encode (.setDivN imm)) = 0
  | .setEqFreq val =>
    opField (encode (.setEqFreq val)) = 0x41#8 ∧ chField (encode (.setEqFreq val)) = 0 ∧
      immField (encode (.setEqFreq val)) = 0 ∧ valField (encode (.setEqFreq val)) = val
  | .setEqGain val =>
    opField (encode (.setEqGain val)) = 0x42#8 ∧ chField (encode (.setEqGain val)) = 0 ∧
      immField (encode (.setEqGain val)) = 0 ∧ valField (encode (.setEqGain val)) = val
  | .setEqQ val =>
    opField (encode (.setEqQ val)) = 0x43#8 ∧ chField (encode (.setEqQ val)) = 0 ∧
      immField (encode (.setEqQ val)) = 0 ∧ valField (encode (.setEqQ val)) = val
  | .setChRate val =>
    opField (encode (.setChRate val)) = 0x48#8 ∧ chField (encode (.setChRate val)) = 0 ∧
      immField (encode (.setChRate val)) = 0 ∧ valField (encode (.setChRate val)) = val
  | .setChDepth val =>
    opField (encode (.setChDepth val)) = 0x49#8 ∧ chField (encode (.setChDepth val)) = 0 ∧
      immField (encode (.setChDepth val)) = 0 ∧ valField (encode (.setChDepth val)) = val
  | .setChDelay val =>
    opField (encode (.setChDelay val)) = 0x4A#8 ∧ chField (encode (.setChDelay val)) = 0 ∧
      immField (encode (.setChDelay val)) = 0 ∧ valField (encode (.setChDelay val)) = val
  | .setChMix val =>
    opField (encode (.setChMix val)) = 0x4B#8 ∧ chField (encode (.setChMix val)) = 0 ∧
      immField (encode (.setChMix val)) = 0 ∧ valField (encode (.setChMix val)) = val
  | .setRvT60 val =>
    opField (encode (.setRvT60 val)) = 0x50#8 ∧ chField (encode (.setRvT60 val)) = 0 ∧
      immField (encode (.setRvT60 val)) = 0 ∧ valField (encode (.setRvT60 val)) = val
  | .setRvMix val =>
    opField (encode (.setRvMix val)) = 0x51#8 ∧ chField (encode (.setRvMix val)) = 0 ∧
      immField (encode (.setRvMix val)) = 0 ∧ valField (encode (.setRvMix val)) = val

theorem nop : Statement (.nop) :=
  ⟨opField_packWord .., chField_packWord .., immField_packWord .., valField_packWord ..⟩
theorem reset : Statement (.reset) :=
  ⟨opField_packWord .., chField_packWord .., immField_packWord .., valField_packWord ..⟩
theorem tick64 : Statement (.tick64) :=
  ⟨opField_packWord .., chField_packWord .., immField_packWord .., valField_packWord ..⟩
theorem tick32 : Statement (.tick32) :=
  ⟨opField_packWord .., chField_packWord .., immField_packWord .., valField_packWord ..⟩
theorem noteOn (ch : BitVec 8) (imm : BitVec 16) (val : Num64) : Statement (.noteOn ch imm val) :=
  ⟨opField_packWord .., chField_packWord .., immField_packWord .., valField_packWord ..⟩
theorem noteOff (ch : BitVec 8) (imm : BitVec 16) (val : Num64) : Statement (.noteOff ch imm val) :=
  ⟨opField_packWord .., chField_packWord .., immField_packWord .., valField_packWord ..⟩
theorem setFs (val : Num64) : Statement (.setFs val) :=
  ⟨opField_packWord .., chField_packWord .., immField_packWord .., valField_packWord ..⟩
theorem setVolume (val : Num64) : Statement (.setVolume val) :=
  ⟨opField_packWord .., chField_packWord .., immField_packWord .., valField_packWord ..⟩
theorem setExpression (val : Num64) : Statement (.setExpression val) :=
  ⟨opField_packWord .., chField_packWord .., immField_packWord .., valField_packWord ..⟩
theorem setBendRange (val : Num64) : Statement (.setBendRange val) :=
  ⟨opField_packWord .., chField_packWord .., immField_packWord .., valField_packWord ..⟩
theorem setBend (val : Num64) : Statement (.setBend val) :=
  ⟨opField_packWord .., chField_packWord .., immField_packWord .., valField_packWord ..⟩
theorem setModwheel (val : Num64) : Statement (.setModwheel val) :=
  ⟨opField_packWord .., chField_packWord .., immField_packWord .., valField_packWord ..⟩
theorem setPedal (imm : BitVec 16) (val : Num64) : Statement (.setPedal imm val) :=
  ⟨opField_packWord .., chField_packWord .., immField_packWord .., valField_packWord ..⟩
theorem setVelsens (val : Num64) : Statement (.setVelsens val) :=
  ⟨opField_packWord .., chField_packWord .., immField_packWord .., valField_packWord ..⟩
theorem setInharm (val : Num64) : Statement (.setInharm val) :=
  ⟨opField_packWord .., chField_packWord .., immField_packWord .., valField_packWord ..⟩
theorem setOscmix (val : Num64) : Statement (.setOscmix val) :=
  ⟨opField_packWord .., chField_packWord .., immField_packWord .., valField_packWord ..⟩
theorem setRandphase (imm : BitVec 16) : Statement (.setRandphase imm) :=
  ⟨opField_packWord .., chField_packWord .., immField_packWord .., valField_packWord ..⟩
theorem setVibDepth (val : Num64) : Statement (.setVibDepth val) :=
  ⟨opField_packWord .., chField_packWord .., immField_packWord .., valField_packWord ..⟩
theorem setVibRate (val : Num64) : Statement (.setVibRate val) :=
  ⟨opField_packWord .., chField_packWord .., immField_packWord .., valField_packWord ..⟩
theorem setVibDelay (val : Num64) : Statement (.setVibDelay val) :=
  ⟨opField_packWord .., chField_packWord .., immField_packWord .., valField_packWord ..⟩
theorem setCutoff (val : Num64) : Statement (.setCutoff val) :=
  ⟨opField_packWord .., chField_packWord .., immField_packWord .., valField_packWord ..⟩
theorem setReso (val : Num64) : Statement (.setReso val) :=
  ⟨opField_packWord .., chField_packWord .., immField_packWord .., valField_packWord ..⟩
theorem setFtype (imm : BitVec 16) : Statement (.setFtype imm) :=
  ⟨opField_packWord .., chField_packWord .., immField_packWord .., valField_packWord ..⟩
theorem setFiter (imm : BitVec 16) : Statement (.setFiter imm) :=
  ⟨opField_packWord .., chField_packWord .., immField_packWord .., valField_packWord ..⟩
theorem setFenvAmt (val : Num64) : Statement (.setFenvAmt val) :=
  ⟨opField_packWord .., chField_packWord .., immField_packWord .., valField_packWord ..⟩
theorem setKeyfollow (val : Num64) : Statement (.setKeyfollow val) :=
  ⟨opField_packWord .., chField_packWord .., immField_packWord .., valField_packWord ..⟩
theorem setAmpAttack (val : Num64) : Statement (.setAmpAttack val) :=
  ⟨opField_packWord .., chField_packWord .., immField_packWord .., valField_packWord ..⟩
theorem setAmpDecay (val : Num64) : Statement (.setAmpDecay val) :=
  ⟨opField_packWord .., chField_packWord .., immField_packWord .., valField_packWord ..⟩
theorem setAmpSustain (val : Num64) : Statement (.setAmpSustain val) :=
  ⟨opField_packWord .., chField_packWord .., immField_packWord .., valField_packWord ..⟩
theorem setAmpRelease (val : Num64) : Statement (.setAmpRelease val) :=
  ⟨opField_packWord .., chField_packWord .., immField_packWord .., valField_packWord ..⟩
theorem setFltAttack (val : Num64) : Statement (.setFltAttack val) :=
  ⟨opField_packWord .., chField_packWord .., immField_packWord .., valField_packWord ..⟩
theorem setFltDecay (val : Num64) : Statement (.setFltDecay val) :=
  ⟨opField_packWord .., chField_packWord .., immField_packWord .., valField_packWord ..⟩
theorem setFltSustain (val : Num64) : Statement (.setFltSustain val) :=
  ⟨opField_packWord .., chField_packWord .., immField_packWord .., valField_packWord ..⟩
theorem setFltRelease (val : Num64) : Statement (.setFltRelease val) :=
  ⟨opField_packWord .., chField_packWord .., immField_packWord .., valField_packWord ..⟩
theorem setDivN (imm : BitVec 16) : Statement (.setDivN imm) :=
  ⟨opField_packWord .., chField_packWord .., immField_packWord .., valField_packWord ..⟩
theorem setEqFreq (val : Num64) : Statement (.setEqFreq val) :=
  ⟨opField_packWord .., chField_packWord .., immField_packWord .., valField_packWord ..⟩
theorem setEqGain (val : Num64) : Statement (.setEqGain val) :=
  ⟨opField_packWord .., chField_packWord .., immField_packWord .., valField_packWord ..⟩
theorem setEqQ (val : Num64) : Statement (.setEqQ val) :=
  ⟨opField_packWord .., chField_packWord .., immField_packWord .., valField_packWord ..⟩
theorem setChRate (val : Num64) : Statement (.setChRate val) :=
  ⟨opField_packWord .., chField_packWord .., immField_packWord .., valField_packWord ..⟩
theorem setChDepth (val : Num64) : Statement (.setChDepth val) :=
  ⟨opField_packWord .., chField_packWord .., immField_packWord .., valField_packWord ..⟩
theorem setChDelay (val : Num64) : Statement (.setChDelay val) :=
  ⟨opField_packWord .., chField_packWord .., immField_packWord .., valField_packWord ..⟩
theorem setChMix (val : Num64) : Statement (.setChMix val) :=
  ⟨opField_packWord .., chField_packWord .., immField_packWord .., valField_packWord ..⟩
theorem setRvT60 (val : Num64) : Statement (.setRvT60 val) :=
  ⟨opField_packWord .., chField_packWord .., immField_packWord .., valField_packWord ..⟩
theorem setRvMix (val : Num64) : Statement (.setRvMix val) :=
  ⟨opField_packWord .., chField_packWord .., immField_packWord .., valField_packWord ..⟩

end Laws.EncodeFields

end Sys2Proof
end

