-- ==== Sys2Proof/Laws/Voice.lean ====
section
/-! SUPPORT. What the envelope, the LFO, the filter and the voice can do (spec/41_filter.md, spec/42_envelope.md, spec/43_lfo.md, spec/44_voice.md): one lemma per shared operation. -/

namespace Sys2Proof.Machine

/-! ### Envelope -/

/-- EnvNoteOff moves to Release from the stages before it, and does nothing in Release and Stop (R143). -/
theorem envNoteOff_cases (e : Env) :
    (releasing e ∧ envNoteOff e = e) ∨
    (¬ releasing e ∧ envNoteOff e = { e with start := e.lvl, stage := .release, rem := n1 }) := by
  unfold envNoteOff releasing
  cases h : e.stage <;> simp

/-- The stages that one call of EnvProcess can lead to, and what it leaves in Stop (R144). -/
theorem envProcess_stage (r : EnvRates) (sus : Num64) (e : Env) :
    let o := envProcess r sus e
    (e.stage = .stop → o.env = e ∧ o.out = n0 ∧ o.fin = false) ∧
    (e.stage = .sustain → o.env = e ∧ o.out = e.lvl ∧ o.fin = false) ∧
    (e.stage = .attack → o.fin = false ∧ (o.env.stage = .attack ∨ o.env.stage = .decay)) ∧
    (e.stage = .decay → o.fin = false ∧ (o.env.stage = .decay ∨ o.env.stage = .sustain)) ∧
    (e.stage = .release →
      (o.fin = false ∧ o.env.stage = .release) ∨
      (o.fin = true ∧ o.env = { e with stage := .stop, rem := n0, lvl := n0 } ∧ o.out = n0)) := by
  unfold envProcess
  cases h : e.stage <;> simp only [reduceCtorEq, false_implies, true_implies, and_true, true_and]
  all_goals split <;> simp

/-- EnvProcess leaves an envelope that is in Stop at rest (R35 (c), (d)). -/
theorem envProcess_rest (r : EnvRates) (sus : Num64) (e : Env) (h : envAtRest e) :
    envAtRest (envProcess r sus e).env := by
  obtain ⟨h1, h2, h3, h4, h5⟩ := envProcess_stage r sus e
  intro hs
  cases hst : e.stage with
  | attack => rcases (h3 hst).2 with h | h <;> simp [h] at hs
  | decay => rcases (h4 hst).2 with h | h <;> simp [h] at hs
  | sustain => rw [(h2 hst).1] at hs ⊢; exact h hs
  | stop => rw [(h1 hst).1] at hs ⊢; exact h hs
  | release =>
    rcases h5 hst with h | h
    · simp [h.2] at hs
    · rw [h.2.1]; exact ⟨rfl, rfl⟩

/-- EnvProcess neither enters nor leaves the pair Release, Stop (R140, R144). -/
theorem envProcess_releasing (r : EnvRates) (sus : Num64) (e : Env) :
    releasing (envProcess r sus e).env ↔ releasing e := by
  obtain ⟨h1, h2, h3, h4, h5⟩ := envProcess_stage r sus e
  unfold releasing
  cases hst : e.stage with
  | attack => rcases (h3 hst).2 with h | h <;> simp [h]
  | decay => rcases (h4 hst).2 with h | h <;> simp [h]
  | sustain => simp [(h2 hst).1, hst]
  | stop => simp [(h1 hst).1, hst]
  | release => rcases h5 hst with h | h <;> simp [h]

/-! ### Filter -/

/-- The registers of a voice outside the filter: R122 to R124 and R121 leave them. -/
structure SameButFilter (v w : Voice) : Prop where
  pitch  : w.pitch = v.pitch
  vel    : w.vel = v.vel
  bend   : w.bend = v.bend
  f0     : w.f0 = v.f0
  velamp : w.velamp = v.velamp
  keyf   : w.keyf = v.keyf
  osc0   : w.osc0 = v.osc0
  osc1   : w.osc1 = v.osc1
  amp    : w.amp = v.amp
  flt    : w.flt = v.flt
  lfo    : w.lfo = v.lfo

/-- SvfProcess writes the accumulators alone; with P.FITER clear, only those of the first stage (R123). -/
theorem svfProcess_frame (p : Params) (v : Voice) (x : Num64) :
    SameButFilter v (svfProcess p v x).1 ∧ (svfProcess p v x).1.k = v.k ∧
      (svfProcess p v x).1.oqk = v.oqk ∧
      (p.fiter = false → (svfProcess p v x).1.s2 = v.s2 ∧ (svfProcess p v x).1.s3 = v.s3) := by
  unfold svfProcess
  by_cases h : p.fiter = true
  · rw [if_pos h]
    exact ⟨⟨rfl, rfl, rfl, rfl, rfl, rfl, rfl, rfl, rfl, rfl, rfl⟩, rfl, rfl, by simp [h]⟩
  · rw [if_neg h]
    exact ⟨⟨rfl, rfl, rfl, rfl, rfl, rfl, rfl, rfl, rfl, rfl, rfl⟩, rfl, rfl, fun _ => ⟨rfl, rfl⟩⟩

/-- VoiceCutoffMod writes the two coefficients alone, and both together (R176). -/
theorem voiceCutoffMod_frame (p : Params) (c : Ctrl) (fe : Num64) (v : Voice) :
    SameButFilter v (voiceCutoffMod p c fe v) ∧
      (voiceCutoffMod p c fe v = v ∨
        ∃ k, (voiceCutoffMod p c fe v).k = k ∧ (voiceCutoffMod p c fe v).oqk = svfOqk p.reso k) ∧
      (voiceCutoffMod p c fe v).s0 = v.s0 ∧ (voiceCutoffMod p c fe v).s1 = v.s1 ∧
      (voiceCutoffMod p c fe v).s2 = v.s2 ∧ (voiceCutoffMod p c fe v).s3 = v.s3 := by
  unfold voiceCutoffMod
  split
  · refine ⟨⟨?_, ?_, ?_, ?_, ?_, ?_, ?_, ?_, ?_, ?_, ?_⟩, .inr ⟨_, svfSetFreq_k .., svfSetFreq_oqk ..⟩,
      ?_, ?_, ?_, ?_⟩ <;> simp
  · exact ⟨⟨rfl, rfl, rfl, rfl, rfl, rfl, rfl, rfl, rfl, rfl, rfl⟩, .inl rfl, rfl, rfl, rfl, rfl⟩

/-! ### Voice -/

/-- Everything VoiceProcess can do (R175): nothing to a free voice; the amplitude envelope alone on the tick that ends it; otherwise the whole chain. -/
theorem voiceProcess_cases (p : Params) (c : Ctrl) (v : Voice) :
    (v.amp.stage = .stop ∧ voiceProcess p c v = (v, n0)) ∨
    (v.amp.stage = .release ∧ (envProcess c.amp p.amp.sustain v.amp).fin = true ∧
      voiceProcess p c v =
        ({ v with amp := { v.amp with stage := .stop, rem := n0, lvl := n0 } }, n0)) ∨
    (v.amp.stage ≠ .stop ∧ (envProcess c.amp p.amp.sustain v.amp).fin = false ∧
      voiceProcess p c v =
        voiceSound p c (envProcess c.amp p.amp.sustain v.amp).out
          { v with amp := (envProcess c.amp p.amp.sustain v.amp).env }) := by
  obtain ⟨h1, h2, h3, h4, h5⟩ := envProcess_stage c.amp p.amp.sustain v.amp
  unfold voiceProcess
  by_cases hs : v.amp.stage = .stop
  · exact .inl ⟨hs, by rw [if_pos hs]⟩
  · rw [if_neg hs]
    dsimp only
    by_cases hf : (envProcess c.amp p.amp.sustain v.amp).fin = true
    · rw [if_pos hf]
      cases hst : v.amp.stage with
      | attack => rw [(h3 hst).1] at hf; simp at hf
      | decay => rw [(h4 hst).1] at hf; simp at hf
      | sustain => rw [(h2 hst).2.2] at hf; simp at hf
      | stop => exact absurd hst hs
      | release =>
        rcases h5 hst with h | h
        · rw [h.1] at hf; simp at hf
        · exact .inr (.inl ⟨rfl, hf, by rw [h.2.1]⟩)
    · rw [if_neg hf]
      exact .inr (.inr ⟨hs, by simpa using hf, rfl⟩)

/-- What the sounding part of VoiceProcess does to each register (R175). -/
theorem voiceSound_spec (p : Params) (c : Ctrl) (a : Num64) (v : Voice) :
    let m := vibratoMul p (lfoProcess c v.lfo).2
    let w := (voiceSound p c a v).1
    w.pitch = v.pitch ∧ w.vel = v.vel ∧ w.bend = v.bend ∧ w.f0 = v.f0 ∧ w.velamp = v.velamp ∧
    w.keyf = v.keyf ∧ w.amp = v.amp ∧ w.flt = (envProcess c.flt p.flt.sustain v.flt).env ∧
    w.lfo = (lfoProcess c v.lfo).1 ∧ w.osc0 = (oscProcess m v.osc0).1 ∧
    w.osc1 = (oscProcess m v.osc1).1 ∧
    ((w.k = v.k ∧ w.oqk = v.oqk) ∨ w.oqk = svfOqk p.reso w.k) ∧
    (p.fiter = false → w.s2 = v.s2 ∧ w.s3 = v.s3) := by
  dsimp only
  unfold voiceSound
  dsimp only
  generalize hv1 : ({ v with
      flt := (envProcess c.flt p.flt.sustain v.flt).env
      lfo := (lfoProcess c v.lfo).1
      osc0 := (oscProcess (vibratoMul p (lfoProcess c v.lfo).2) v.osc0).1
      osc1 := (oscProcess (vibratoMul p (lfoProcess c v.lfo).2) v.osc1).1 } : Voice) = v1
  generalize oscBlend p (oscProcess (vibratoMul p (lfoProcess c v.lfo).2) v.osc0).2
    (oscProcess (vibratoMul p (lfoProcess c v.lfo).2) v.osc1).2 = x
  generalize (envProcess c.flt p.flt.sustain v.flt).out = fe
  obtain ⟨a1, a2, -, -, b1, b2⟩ := voiceCutoffMod_frame p c fe v1
  obtain ⟨s1, s2, s3, s4⟩ := svfProcess_frame p (voiceCutoffMod p c fe v1) x
  have e1 : v1.pitch = v.pitch ∧ v1.vel = v.vel ∧ v1.bend = v.bend ∧ v1.f0 = v.f0 ∧
      v1.velamp = v.velamp ∧ v1.keyf = v.keyf ∧ v1.amp = v.amp ∧ v1.k = v.k ∧ v1.oqk = v.oqk ∧
      v1.s2 = v.s2 ∧ v1.s3 = v.s3 := by
    subst hv1; exact ⟨rfl, rfl, rfl, rfl, rfl, rfl, rfl, rfl, rfl, rfl, rfl⟩
  obtain ⟨c1, c2, c3, c4, c5, c6, c7, c8, c9, c10, c11⟩ := e1
  refine ⟨by rw [s1.pitch, a1.pitch, c1], by rw [s1.vel, a1.vel, c2], by rw [s1.bend, a1.bend, c3],
    by rw [s1.f0, a1.f0, c4], by rw [s1.velamp, a1.velamp, c5], by rw [s1.keyf, a1.keyf, c6],
    by rw [s1.amp, a1.amp, c7], by rw [s1.flt, a1.flt, ← hv1], by rw [s1.lfo, a1.lfo, ← hv1],
    by rw [s1.osc0, a1.osc0, ← hv1], by rw [s1.osc1, a1.osc1, ← hv1], ?_, ?_⟩
  · rw [s2, s3]
    rcases a2 with h | ⟨k, h1, h2⟩
    · rw [h]; exact .inl ⟨c8, c9⟩
    · right; rw [h2, h1]
  · intro hf
    obtain ⟨t1, t2⟩ := s4 hf
    exact ⟨by rw [t1, b1, c10], by rw [t2, b2, c11]⟩

end Sys2Proof.Machine
end

