-- ==== Sys2Proof/Laws/Synth.lean ====
section
/-! SUPPORT. What the voice pool, the effect chain and a step can do (spec/45_synth.md, spec/46_effects.md, spec/47_reverb.md, spec/30_encoding.md): one lemma per shared operation. -/

namespace Sys2Proof.Machine

/-! ### Refused operands (R86) -/

theorem acceptFinite_of_finite {val : Num64} (s : State) (f : State → State) (h : isFinite val = true) :
    acceptFinite val s f = .next (f s) := by
  unfold acceptFinite
  rw [if_pos h]

theorem acceptFinite_of_not {val : Num64} (s : State) (f : State → State) (h : isFinite val = false) :
    acceptFinite val s f = .next s := by
  unfold acceptFinite
  rw [if_neg (by simp [h])]

/-- A command that checks its operand completes: it has its effect or changes nothing. -/
theorem acceptFinite_cases (val : Num64) (s : State) (f : State → State) :
    (isFinite val = true ∧ acceptFinite val s f = .next (f s)) ∨
    (isFinite val = false ∧ acceptFinite val s f = .next s) := by
  cases h : isFinite val
  · exact .inr ⟨rfl, acceptFinite_of_not s f h⟩
  · exact .inl ⟨rfl, acceptFinite_of_finite s f h⟩

/-! ### The pool (R190, R191, R195) -/

theorem firstInStage_some {vs : Vector Voice Config.nVoice} {st : Stage} {v : Fin Config.nVoice}
    (h : firstInStage vs st = some v) :
    vs[v].amp.stage = st ∧ ∀ u, u < v → vs[u].amp.stage ≠ st := by
  unfold firstInStage at h
  rw [List.find?_eq_some_iff_getElem] at h
  obtain ⟨h1, i, hi, h2, h3⟩ := h
  refine ⟨by simpa using h1, fun u hu => ?_⟩
  have hv : (v : Nat) = i := by rw [← h2]; simp
  have := h3 u (by rw [← hv]; exact hu)
  simpa using this

theorem firstInStage_none {vs : Vector Voice Config.nVoice} {st : Stage} :
    firstInStage vs st = none ↔ ∀ v : Fin Config.nVoice, vs[v].amp.stage ≠ st := by
  unfold firstInStage
  simp [List.find?_eq_none]

/-- One voice after a tick: its own VoiceProcess, whatever the other voices hold (R195, R273 (d)). -/
theorem synthTick_voice (s : State) (v : Fin Config.nVoice) :
    (synthTick s).voices[v] = (voiceProcess s.params s.ctrl s.voices[v]).1 := by
  rw [synthTick_voices]
  simp

theorem mapVoices_voice (f : Voice → Voice) (s : State) (v : Fin Config.nVoice) :
    (mapVoices f s).voices[v] = f s.voices[v] := by
  rw [mapVoices_voices]
  simp

/-! ### The effect chain (R195) -/

/-- Everything DivProcess can do (R220). -/
theorem divProcess_cases (n : Int) (x : Stereo) (fx : Fx) :
    (n ≤ 1 ∧ divProcess n x fx = ({ fx with divCnt := 0 }, x)) ∨
    (1 < n ∧ ∃ h cnt, h = (if fx.divCnt = 0 then x else fx.divH) ∧
      ((n ≤ (fx.divCnt : Int) + 1 ∧ cnt = 0) ∨ ((fx.divCnt : Int) + 1 < n ∧ cnt = fx.divCnt + 1)) ∧
      divProcess n x fx = ({ fx with divH := h, divCnt := cnt }, h)) := by
  unfold divProcess
  by_cases h : n ≤ 1
  · exact .inl ⟨h, by rw [if_pos h]⟩
  · refine .inr ⟨by omega, _, if n ≤ ((fx.divCnt + 1 : Nat) : Int) then 0 else fx.divCnt + 1, rfl, ?_, ?_⟩
    · by_cases h2 : n ≤ (fx.divCnt : Int) + 1
      · exact .inl ⟨h2, by rw [if_pos (by push_cast; exact h2)]⟩
      · exact .inr ⟨by omega, by rw [if_neg (by push_cast; exact h2)]⟩
    · rw [if_neg h]

@[simp] theorem eqProcess_divCnt (c : Ctrl) (x : Stereo) (fx : Fx) :
    (eqProcess c x fx).1.divCnt = fx.divCnt := by unfold eqProcess; dsimp only
@[simp] theorem eqProcess_divH (c : Ctrl) (x : Stereo) (fx : Fx) :
    (eqProcess c x fx).1.divH = fx.divH := by unfold eqProcess; dsimp only
@[simp] theorem eqProcess_chBuf0 (c : Ctrl) (x : Stereo) (fx : Fx) :
    (eqProcess c x fx).1.chBuf0 = fx.chBuf0 := by unfold eqProcess; dsimp only
@[simp] theorem eqProcess_chBuf1 (c : Ctrl) (x : Stereo) (fx : Fx) :
    (eqProcess c x fx).1.chBuf1 = fx.chBuf1 := by unfold eqProcess; dsimp only
@[simp] theorem eqProcess_chHead (c : Ctrl) (x : Stereo) (fx : Fx) :
    (eqProcess c x fx).1.chHead = fx.chHead := by unfold eqProcess; dsimp only
@[simp] theorem eqProcess_chP1 (c : Ctrl) (x : Stereo) (fx : Fx) :
    (eqProcess c x fx).1.chP1 = fx.chP1 := by unfold eqProcess; dsimp only
@[simp] theorem eqProcess_chP2 (c : Ctrl) (x : Stereo) (fx : Fx) :
    (eqProcess c x fx).1.chP2 = fx.chP2 := by unfold eqProcess; dsimp only
@[simp] theorem eqProcess_rv (c : Ctrl) (x : Stereo) (fx : Fx) :
    (eqProcess c x fx).1.rv = fx.rv := by unfold eqProcess; dsimp only
@[simp] theorem eqProcess_ap (c : Ctrl) (x : Stereo) (fx : Fx) :
    (eqProcess c x fx).1.ap = fx.ap := by unfold eqProcess; dsimp only

@[simp] theorem chProcess_divCnt (p : Params) (c : Ctrl) (x : Stereo) (fx : Fx) :
    (chProcess p c x fx).1.divCnt = fx.divCnt := by unfold chProcess; dsimp only
@[simp] theorem chProcess_divH (p : Params) (c : Ctrl) (x : Stereo) (fx : Fx) :
    (chProcess p c x fx).1.divH = fx.divH := by unfold chProcess; dsimp only
@[simp] theorem chProcess_eqZ1 (p : Params) (c : Ctrl) (x : Stereo) (fx : Fx) :
    (chProcess p c x fx).1.eqZ1 = fx.eqZ1 := by unfold chProcess; dsimp only
@[simp] theorem chProcess_eqZ2 (p : Params) (c : Ctrl) (x : Stereo) (fx : Fx) :
    (chProcess p c x fx).1.eqZ2 = fx.eqZ2 := by unfold chProcess; dsimp only
@[simp] theorem chProcess_chBuf0 (p : Params) (c : Ctrl) (x : Stereo) (fx : Fx) :
    (chProcess p c x fx).1.chBuf0 = memWrite fx.chBuf0 fx.chHead x.left := by unfold chProcess; dsimp only
@[simp] theorem chProcess_chBuf1 (p : Params) (c : Ctrl) (x : Stereo) (fx : Fx) :
    (chProcess p c x fx).1.chBuf1 = memWrite fx.chBuf1 fx.chHead x.right := by unfold chProcess; dsimp only
@[simp] theorem chProcess_chHead (p : Params) (c : Ctrl) (x : Stereo) (fx : Fx) :
    (chProcess p c x fx).1.chHead = (fx.chHead + 1) % c.chLen := by unfold chProcess; dsimp only
@[simp] theorem chProcess_chP1 (p : Params) (c : Ctrl) (x : Stereo) (fx : Fx) :
    (chProcess p c x fx).1.chP1 = frac (fadd fx.chP1 c.chR1) := by unfold chProcess; dsimp only
@[simp] theorem chProcess_chP2 (p : Params) (c : Ctrl) (x : Stereo) (fx : Fx) :
    (chProcess p c x fx).1.chP2 = frac (fadd fx.chP2 c.chR2) := by unfold chProcess; dsimp only
@[simp] theorem chProcess_rv (p : Params) (c : Ctrl) (x : Stereo) (fx : Fx) :
    (chProcess p c x fx).1.rv = fx.rv := by unfold chProcess; dsimp only
@[simp] theorem chProcess_ap (p : Params) (c : Ctrl) (x : Stereo) (fx : Fx) :
    (chProcess p c x fx).1.ap = fx.ap := by unfold chProcess; dsimp only

/-- What RvProcess does to the twelve rings (R254): one push into each, a flushed word into each line. -/
theorem rvNetwork_spec (c : Ctrl) (x : Stereo) (fx : Fx) :
    (∀ i : Fin 4, ∃ u, (rvNetwork c x fx).rv[i] = ringPush Config.rvLen[i] fx.rv[i] (flush u)) ∧
    (∀ j : Fin 8, ∃ w, (rvNetwork c x fx).ap[j] = ringPush Config.apLen[j] fx.ap[j] w) := by
  unfold rvNetwork
  dsimp only
  constructor
  · intro i
    fin_cases i <;> exact ⟨_, rfl⟩
  · intro j
    fin_cases j <;> exact ⟨_, rfl⟩

@[simp] theorem rvNetwork_divCnt (c : Ctrl) (x : Stereo) (fx : Fx) :
    (rvNetwork c x fx).divCnt = fx.divCnt := by unfold rvNetwork; dsimp only
@[simp] theorem rvNetwork_divH (c : Ctrl) (x : Stereo) (fx : Fx) :
    (rvNetwork c x fx).divH = fx.divH := by unfold rvNetwork; dsimp only
@[simp] theorem rvNetwork_eqZ1 (c : Ctrl) (x : Stereo) (fx : Fx) :
    (rvNetwork c x fx).eqZ1 = fx.eqZ1 := by unfold rvNetwork; dsimp only
@[simp] theorem rvNetwork_eqZ2 (c : Ctrl) (x : Stereo) (fx : Fx) :
    (rvNetwork c x fx).eqZ2 = fx.eqZ2 := by unfold rvNetwork; dsimp only
@[simp] theorem rvNetwork_chBuf0 (c : Ctrl) (x : Stereo) (fx : Fx) :
    (rvNetwork c x fx).chBuf0 = fx.chBuf0 := by unfold rvNetwork; dsimp only
@[simp] theorem rvNetwork_chBuf1 (c : Ctrl) (x : Stereo) (fx : Fx) :
    (rvNetwork c x fx).chBuf1 = fx.chBuf1 := by unfold rvNetwork; dsimp only
@[simp] theorem rvNetwork_chHead (c : Ctrl) (x : Stereo) (fx : Fx) :
    (rvNetwork c x fx).chHead = fx.chHead := by unfold rvNetwork; dsimp only
@[simp] theorem rvNetwork_chP1 (c : Ctrl) (x : Stereo) (fx : Fx) :
    (rvNetwork c x fx).chP1 = fx.chP1 := by unfold rvNetwork; dsimp only
@[simp] theorem rvNetwork_chP2 (c : Ctrl) (x : Stereo) (fx : Fx) :
    (rvNetwork c x fx).chP2 = fx.chP2 := by unfold rvNetwork; dsimp only

/-- The mono sample of a tick before the effects: the voices' sum times C.GAIN (R195). -/
def tickMono (s : State) : Num64 :=
  fmul (voiceSum ((s.voices.map (voiceProcess s.params s.ctrl)).toList.map Prod.snd)) s.ctrl.gain

/-- The effects of a tick, in their fixed order (R195): what RvProcess leaves and gives after the three effects before it. -/
theorem synthTick_effects (s : State) : ∃ d e h : Fx × Stereo,
    d = divProcess s.params.divN ⟨tickMono s, tickMono s⟩ s.fx ∧ e = eqProcess s.ctrl d.2 d.1 ∧
    h = chProcess s.params s.ctrl e.2 e.1 ∧ (synthTick s).fx = rvNetwork s.ctrl h.2 h.1 ∧
    (synthTick s).outL = (rvProcess s.params s.ctrl h.2 h.1).2.left ∧
    (synthTick s).outR = (rvProcess s.params s.ctrl h.2 h.1).2.right := by
  let d := divProcess s.params.divN ⟨tickMono s, tickMono s⟩ s.fx
  let e := eqProcess s.ctrl d.2 d.1
  let h := chProcess s.params s.ctrl e.2 e.1
  refine ⟨d, e, h, rfl, rfl, rfl, ?_, ?_, ?_⟩ <;>
    unfold synthTick effectChain <;> dsimp only [rvProcess, tickMono, d, e, h]

/-! ### Ports and steps (R80, R82, R291) -/

/-- When each port event happens. -/
theorem portEvent_cases (s : State) :
    ((pins s).rst = true ∧ portEvent s = .reset) ∨
    ((pins s).rst = false ∧ s.outValid = true ∧ (pins s).outReady = true ∧ portEvent s = .take) ∨
    ((pins s).rst = false ∧ s.outValid = true ∧ (pins s).outReady = false ∧ portEvent s = .hold) ∨
    ((pins s).rst = false ∧ s.outValid = false ∧ (pins s).cmd = none ∧ portEvent s = .hold) ∨
    (∃ w, (pins s).rst = false ∧ s.outValid = false ∧ (pins s).cmd = some w ∧
      portEvent s = .command w) := by
  unfold portEvent
  cases h1 : (pins s).rst <;> cases h2 : s.outValid <;> cases h3 : (pins s).outReady <;>
    cases h4 : (pins s).cmd <;> simp

/-- Everything a step can do. -/
theorem step_cases (s : State) :
    (portEvent s = .reset ∧ step s = .next (applyReset (advanceHost s))) ∨
    (portEvent s = .take ∧ step s = .next (pairTaken (advanceHost s))) ∨
    (portEvent s = .hold ∧ step s = .next (advanceHost s)) ∨
    (∃ w, portEvent s = .command w ∧ step s = exec (decode w) (advanceHost s)) := by
  unfold step
  cases h : portEvent s with
  | reset => exact .inl ⟨rfl, rfl⟩
  | take => exact .inr (.inl ⟨rfl, rfl⟩)
  | hold => exact .inr (.inr (.inl ⟨rfl, rfl⟩))
  | command w => exact .inr (.inr (.inr ⟨w, rfl, rfl⟩))

theorem next_inj {a b : State}
    (h : (Host.Outcome.next a : Host.Outcome State Fault Refusal) = .next b) : a = b := by
  cases h
  rfl

end Sys2Proof.Machine
end

