-- ==== Sys2Proof/Tests/Slice0.lean ====
section
/-! SUPPORT. Our own tests: the checks of WellFormed, one written-out word for every command, the rules' worked values, one step on a small state for every command, and for every statement that has hypotheses a witness that meets them. The expected values are the spec's (spec/95_test_vectors.md and the examples in the rules) or worked by hand from its formulas. -/

namespace Sys2Proof.Tests

set_option Elab.async false

open Sys2Proof.Machine

/-! ### WellFormed -/

/-- The commands whose real operand R86 checks. -/
def checked : List (Num64 → Instr) :=
  [.noteOn 0 69, .setFs, .setVolume, .setExpression, .setBendRange, .setBend, .setModwheel,
    .setPedal 2, .setVelsens, .setInharm, .setOscmix, .setVibDepth, .setVibRate, .setVibDelay,
    .setCutoff, .setReso, .setFenvAmt, .setKeyfollow, .setAmpAttack, .setAmpDecay, .setAmpSustain,
    .setAmpRelease, .setFltAttack, .setFltDecay, .setFltSustain, .setFltRelease, .setEqFreq,
    .setEqGain, .setEqQ, .setChRate, .setChDepth, .setChDelay, .setChMix, .setRvT60, .setRvMix]

/-- Each of them is well formed exactly when its real operand is finite. -/
theorem test_wf_checks_val (x : Num64) :
    (checked.map fun f => (f x).wf) = List.replicate 35 (isFinite x) := by
  have h : pedalIndexOk 2#16 = true := by decide
  simp [checked, Instr.wf, h]

/-- Infinities and NaNs are not finite (R12). -/
theorem test_not_finite : isFinite 0x7FF0000000000000#64 = false ∧ isFinite 0xFFF0000000000000#64 = false ∧
    isFinite 0x7FF8000000000001#64 = false ∧ isFinite 0x7FEFFFFFFFFFFFFF#64 = true := by decide +kernel

/-- A pedal index outside 0..2 (R87). -/
theorem test_wf_refuses_pedal : (Instr.setPedal 3 n1).wf = false ∧ (Instr.setPedal (-1) n1).wf = false ∧
    (Instr.setPedal 2 n1).wf = true ∧ (Instr.setPedal 0 n1).wf = true := by decide +kernel

/-- A release velocity is not checked (R86). -/
theorem test_wf_noteOff_any_val : (Instr.noteOff 0 69 0x7FF8000000000000#64).wf = true := by decide +kernel

/-! ### Decoding: every command, from words written out by R81 and R85 (spec/95_test_vectors.md 2.1) -/

/-- The system words. -/
theorem test_decode_system : ∀ p ∈ ([
    (0x000000000000000000000000#96, .nop),
    (0x010000000000000000000000#96, .reset),
    (0x020000000000000000000000#96, .tick64),
    (0x030000000000000000000000#96, .tick32),
    (0x02AB1234DEADBEEF00000001#96, .tick64),
    (0x1000000040E5888000000000#96, .setFs 0x40E5888000000000#64),
    (0x1000000040BF400000000000#96, .setFs 0x40BF400000000000#64)] : List (CmdWord × Instr)),
    decode p.1 = p.2 := by decide +kernel

/-- The notes words. -/
theorem test_decode_notes : ∀ p ∈ ([
    (0x080000453FF0000000000000#96, .noteOn 0 69 0x3FF0000000000000#64),
    (0x0800FFFB3FF0000000000000#96, .noteOn 0 (-5) 0x3FF0000000000000#64),
    (0x08F300513FF0000000000000#96, .noteOn 0xF3 81 0x3FF0000000000000#64),
    (0x080000457FF0000000000000#96, .nop),
    (0x090000450000000000000000#96, .noteOff 0 69 0),
    (0x090000457FF0000000000000#96, .noteOff 0 69 0x7FF0000000000000#64)] : List (CmdWord × Instr)),
    decode p.1 = p.2 := by decide +kernel

/-- The globals words. -/
theorem test_decode_globals : ∀ p ∈ ([
    (0x110000003FE0000000000000#96, .setVolume 0x3FE0000000000000#64),
    (0x120000003FE0000000000000#96, .setExpression 0x3FE0000000000000#64),
    (0x130000004028000000000000#96, .setBendRange 0x4028000000000000#64),
    (0x140000003FF0000000000000#96, .setBend 0x3FF0000000000000#64),
    (0x150000003FF0000000000000#96, .setModwheel 0x3FF0000000000000#64),
    (0x160000003FF0000000000000#96, .setPedal 0 0x3FF0000000000000#64),
    (0x160000023FF0000000000000#96, .setPedal 2 0x3FF0000000000000#64),
    (0x160000033FF0000000000000#96, .nop),
    (0x1600FFFF3FF0000000000000#96, .nop),
    (0x170000003FF0000000000000#96, .setVelsens 0x3FF0000000000000#64)] : List (CmdWord × Instr)),
    decode p.1 = p.2 := by decide +kernel

/-- The oscillator words. -/
theorem test_decode_oscillator : ∀ p ∈ ([
    (0x200000004008000000000000#96, .setInharm 0x4008000000000000#64),
    (0x210000003FD0000000000000#96, .setOscmix 0x3FD0000000000000#64),
    (0x2200FFFB0000000000000000#96, .setRandphase (-5)),
    (0x230000004092C00000000000#96, .setVibDepth 0x4092C00000000000#64),
    (0x24000000409F400000000000#96, .setVibRate 0x409F400000000000#64),
    (0x25000000408F400000000000#96, .setVibDelay 0x408F400000000000#64)] : List (CmdWord × Instr)),
    decode p.1 = p.2 := by decide +kernel

/-- The filter words. -/
theorem test_decode_filter : ∀ p ∈ ([
    (0x28000000408F400000000000#96, .setCutoff 0x408F400000000000#64),
    (0x280000007FF8000000000000#96, .nop),
    (0x290000000000000000000000#96, .setReso 0),
    (0x2A0000010000000000000000#96, .setFtype 1),
    (0x2B0000050000000000000000#96, .setFiter 5),
    (0x2C0000004000000000000000#96, .setFenvAmt 0x4000000000000000#64),
    (0x2D0000003FF0000000000000#96, .setKeyfollow 0x3FF0000000000000#64)] : List (CmdWord × Instr)),
    decode p.1 = p.2 := by decide +kernel

/-- The envelope words. -/
theorem test_decode_envelope : ∀ p ∈ ([
    (0x300000003FE0000000000000#96, .setAmpAttack 0x3FE0000000000000#64),
    (0x310000003FD0000000000000#96, .setAmpDecay 0x3FD0000000000000#64),
    (0x320000003FE0000000000000#96, .setAmpSustain 0x3FE0000000000000#64),
    (0x33000000408F400000000000#96, .setAmpRelease 0x408F400000000000#64),
    (0x34000000C008000000000000#96, .setFltAttack 0xC008000000000000#64),
    (0x35000000408F400000000000#96, .setFltDecay 0x408F400000000000#64),
    (0x36000000BFC999999999999A#96, .setFltSustain 0xBFC999999999999A#64),
    (0x370000000000000000000000#96, .setFltRelease 0)] : List (CmdWord × Instr)),
    decode p.1 = p.2 := by decide +kernel

/-- The effects words. -/
theorem test_decode_effects : ∀ p ∈ ([
    (0x400000030000000000000000#96, .setDivN 3),
    (0x4000FFFF0000000000000000#96, .setDivN (-1)),
    (0x4100000040DD4C0000000000#96, .setEqFreq 0x40DD4C0000000000#64),
    (0x420000004018000000000000#96, .setEqGain 0x4018000000000000#64),
    (0x430000000000000000000000#96, .setEqQ 0),
    (0x480000003FE3333333333333#96, .setChRate 0x3FE3333333333333#64),
    (0x490000003FE0000000000000#96, .setChDepth 0x3FE0000000000000#64),
    (0x4A0000003FF0000000000000#96, .setChDelay 0x3FF0000000000000#64),
    (0x4B0000003FE0000000000000#96, .setChMix 0x3FE0000000000000#64),
    (0x500000004000000000000000#96, .setRvT60 0x4000000000000000#64),
    (0x510000003FF0000000000000#96, .setRvMix 0x3FF0000000000000#64),
    (0xFF123456789ABCDEF0123456#96, .nop)] : List (CmdWord × Instr)),
    decode p.1 = p.2 := by decide +kernel

/-! ### Arithmetic and tables -/

/-- The decimal literals of R10 are the quotients that define them, correctly rounded. -/
theorem test_literals : fdiv n1 n1000 = n1em3 ∧ fdiv 0x4022000000000000#64 0x4024000000000000#64 = n0p9 ∧
    fdiv 0x4008000000000000#64 0x4024000000000000#64 = n0p3 := by decide +kernel

/-- R82, R196: 0.1 as binary64 and as binary32. -/
theorem test_present : presentChannel false 0x3FB999999999999A#64 = 0x3FB999999999999A#64 ∧
    presentChannel true 0x3FB999999999999A#64 = 0x000000003DCCCCCD#64 := by decide +kernel

/-- R67, R100: the four exact entries, CosLookup(0.25) and CosLookup(0.9999). -/
theorem test_cosLookup : cosRom 0 = n1 ∧ cosRom 4096 = nNeg1 ∧ cosLookup nQuarter = n0 ∧
    cosLookup 0x3FEFFF2E48E8A71E#64 = cosRom 8191 := by decide +kernel

/-- R101: the two worked values. -/
theorem test_rndPh : rndPh 0 0 1 = 0x3FCE442CB6000000#64 ∧ rndPh 0 0 2 = 0x3FD7A22176C00000#64 ∧
    rndPh 0 0 0 = n0 := by decide +kernel

/-- R105: the partial counts of spec/95_test_vectors.md 2.2, and the table at f0 = 0.125. -/
theorem test_oscSetFreq :
    let count := fun f0 b => (oscSetFreq f0 b oscBlank).np
    count 0x3FD0000000000000#64 n0 = 2 ∧ count 0x3FD0000000000001#64 n0 = 1 ∧
    count 0x3F80000000000000#64 n0 = 33 ∧
    count 0x3FB0000000000000#64 0x4008000000000000#64 = 2 ∧
    oscSetFreq 0x3FC0000000000000#64 n0 oscBlank =
      ⟨3, [(1, n1), (2, nHalf)], [(1, 0x3FC0000000000000#64), (2, nQuarter)], []⟩ := by decide +kernel

/-- R107: all 128 phases; entry 0 and a zero phase are unlisted. -/
theorem test_oscReset : (oscReset 0 0 true oscBlank).ph.length = 127 ∧
    memRead (oscReset 0 0 true oscBlank).ph 1 = 0x3FCE442CB6000000#64 ∧
    (oscReset 0 0 false (oscReset 0 0 true oscBlank)).ph = [] := by decide +kernel

/-- R108: np = 2, step 0.25, amplitude 1, from phase 0: 0, -1, 0, 1. -/
theorem test_oscProcess :
    let o : Osc := ⟨2, [(1, n1)], [(1, nQuarter)], []⟩
    let a := oscProcess n1 o
    let b := oscProcess n1 a.1
    let c := oscProcess n1 b.1
    let d := oscProcess n1 c.1
    a.2 = n0 ∧ b.2 = nNeg1 ∧ c.2 = n0 ∧ d.2 = n1 ∧ b.1.ph = [(1, nHalf)] ∧ d.1.ph = [] := by decide +kernel

/-- R122, R123: K = 1, OQK = 2, zero state, input 1, then 0: the outputs of the three types. -/
theorem test_svf :
    let v := { voiceBlank with k := n1, oqk := n2 }
    let two := fun t =>
      let p := { paramsReset with ftype := t }
      let a := svfProcess p v n1
      (a.2, (svfProcess p a.1 n0).2)
    two 0 = (n0, n1) ∧ two 1 = (n1, nNeg2) ∧ two 2 = (n1, nNeg1) := by decide +kernel

/-- R123: two stages, high-pass: 1, then -4. -/
theorem test_svf_two_stages :
    let v := { voiceBlank with k := n1, oqk := n2 }
    let p := { paramsReset with ftype := 1, fiter := true }
    let a := svfProcess p v n1
    a.2 = n1 ∧ (svfProcess p a.1 n0).2 = 0xC010000000000000#64 := by decide +kernel

/-- R141: 1000 ms at 44100 Hz; a negative time; a time whose product overflows. -/
theorem test_envRate : envRate fsReset n1000 = 0x3EF7C6F8C751F177#64 ∧ envRate fsReset nNeg3 = n1 ∧
    envRate fsMax 0x7FE1CCF385EBC8A0#64 = n0 := by decide +kernel

/-- R144: call 3 to call 4 of the example (Attack to Decay), and the call that ends the note. -/
theorem test_envProcess :
    let r : EnvRates := ⟨nQuarter, nHalf, nHalf⟩
    envProcess r nHalf ⟨.attack, nHalf, nHalf, n0⟩ =
      ⟨⟨.attack, nQuarter, 0x3FE8000000000000#64, n0⟩, 0x3FE8000000000000#64, false⟩ ∧
    envProcess r nHalf ⟨.attack, nQuarter, 0x3FE8000000000000#64, n0⟩ = ⟨⟨.decay, n1, n1, n1⟩, n1, false⟩ ∧
    envProcess r nHalf ⟨.release, nHalf, nQuarter, nHalf⟩ = ⟨⟨.stop, n0, n0, nHalf⟩, n0, true⟩ := by
  decide +kernel

/-- R163: delay step 0.5, rate 0.25, after note-on: 0, 0, 0, -1. -/
theorem test_lfo :
    let c := { ctrlSeed with lfoDStep := nHalf, lfoFStep := nQuarter }
    let a := lfoProcess c lfoNoteOn
    let b := lfoProcess c a.1
    let d := lfoProcess c b.1
    a = (⟨nHalf, nQuarter⟩, n0) ∧ b = (⟨n0, nQuarter⟩, n0) ∧ d = (⟨n0, nHalf⟩, n0) ∧
      (lfoProcess c d.1).2 = nNeg1 := by decide +kernel

/-- R171: pitch 117 at 28160 Hz is 0.25; pitch 69 at 44100 Hz. -/
theorem test_voiceF0 : voiceF0 0x40DB800000000000#64 117 n1 = nQuarter ∧
    voiceF0 fsReset 69 n1 = 0x3F846EFDCB4A6B82#64 := by decide +kernel

/-- R220: N = 3, inputs 1 to 7. -/
theorem test_divider :
    (divRun 3 ([1, 2, 3, 4, 5, 6, 7].map fun i => ⟨ofInt i, ofInt i⟩) fxFlushed).map Stereo.left =
      [1, 1, 1, 4, 4, 4, 7].map ofInt := by decide +kernel

/-- R232: base 8, depth 4: the first left offset 12 and the first right offset 4 read those ages. -/
theorem test_chorus :
    let c := { ctrlSeed with chLen := 16, chBase := ofInt 8, chDepthS := ofInt 4, chR1 := nQuarter }
    let p := { paramsReset with chMix := n1 }
    let buf : Memory := (List.range 16).map fun i => (i, ofInt ((i : Int) + 1))
    let r := chProcess p c ⟨ofInt 16, ofInt 16⟩ { fxFlushed with chBuf0 := buf, chBuf1 := buf, chHead := 15 }
    r.1.chHead = 0 ∧ r.1.chP1 = nQuarter ∧ r.2 = ⟨ofInt 4, ofInt 12⟩ := by decide +kernel

/-- R254: the impulse example: 0.125 into every line, 0.5 and -0.25 into the all-passes, nothing out. -/
theorem test_reverb_impulse :
    let r := rvProcess { paramsReset with rvMix := n1 } ctrlSeed ⟨n1, n1⟩ fxFlushed
    (∀ i : Fin 4, r.1.rv[i] = ⟨[(0, 0x3FC0000000000000#64)], 1⟩) ∧
    r.1.ap[(0 : Fin 8)] = ⟨[(0, nHalf)], 1⟩ ∧ r.1.ap[(1 : Fin 8)] = ⟨[(0, nNegQuarter)], 1⟩ ∧
    r.2 = ⟨n0, n0⟩ := by decide +kernel

/-- R254, R256: the near tap of line 1 reaches the right channel alone, 409 ticks after its push. -/
theorem test_reverb_near :
    let rv := fxFlushed.rv.set 0 ⟨[(1, 0x3FC0000000000000#64)], 410⟩
    (rvProcess { paramsReset with rvMix := n1 } ctrlSeed ⟨n0, n0⟩ { fxFlushed with rv := rv }).2 =
      ⟨n0, 0x3FA0000000000000#64⟩ := by decide +kernel

/-! ### One step of each command, from a small state -/

/-- All voices free and blank, 8000 Hz, a flat EQ and fixed coefficients, so that no value is free. -/
def bench : State :=
  { State.reset with
    ctrl := { ctrlSeed with
      fs := fsMin, gain := n1, bendMul := n1, amp := ⟨n1, n1, n1⟩, flt := ⟨n1, n1, n1⟩, lfoDStep := n1
      eqB0 := n1, chLen := 8000, rvG := nHalf }
    voices := Vector.replicate 16 voiceBlank }

/-- The state that a command leaves. -/
def after (i : Instr) (s : State) : State :=
  match exec i s with
  | .next t => t
  | .fault _ => s
  | .refused _ => s

/-- A voice whose one partial is at phase 0.25, as P1 has it before its second tick (filter K 0.25). -/
def sounding : Voice :=
  { voiceBlank with
    osc0 := ⟨2, [(1, n1)], [(1, nQuarter)], [(1, nQuarter)]⟩
    osc1 := ⟨2, [(1, n1)], [(1, nQuarter)], [(1, nQuarter)]⟩
    k := nQuarter, oqk := n1, amp := ⟨.decay, n1, n1, n1⟩, flt := ⟨.decay, n1, n1, n1⟩
    lfo := ⟨n0, nQuarter⟩ }

theorem test_nop : exec .nop bench = .next bench := rfl

/-- R193: RESET restores FS_RESET and the volume. -/
theorem test_reset : (after .reset (after (.setVolume n0) bench)).ctrl.fs = fsReset ∧
    (after .reset (after (.setVolume n0) bench)).params = paramsReset := by decide +kernel

/-- R195 on an idle CORE (program P5): silence; the heads move, every memory stays zero. -/
theorem test_tick64_idle :
    let t := after .tick64 bench
    t.outL = n0 ∧ t.outR = n0 ∧ t.outValid = true ∧ t.outW32 = false ∧ t.fx.chHead = 1 ∧
    (∀ i : Fin 4, t.fx.rv[i] = ⟨[], 1⟩) ∧ (∀ j : Fin 8, t.fx.ap[j] = ⟨[], 1⟩) := by decide +kernel

/-- Tick 2 of program P1: the high-pass output is -1, the envelope reaches Sustain, and the partial is at phase 0.5. -/
theorem test_tick32_sounding :
    let t := after .tick32 { bench with
      params := { paramsReset with ftype := 1 }, voices := bench.voices.set 0 sounding }
    t.outL = nNeg1 ∧ t.outR = nNeg1 ∧ t.outW32 = true ∧ t.voices[(0 : Fin 16)].amp.stage = .sustain ∧
    t.voices[(0 : Fin 16)].osc0.ph = [(1, nHalf)] ∧ t.voices[(0 : Fin 16)].s1 = nNegQuarter ∧
    t.voices[(1 : Fin 16)] = voiceBlank := by decide +kernel

/-- R173 at pitch 81 with velocity 0.5, velocity sensitivity and key follow 1: velamp 0.5, keyf 1, three partials at 0.11. -/
theorem test_noteOn :
    let t := after (.noteOn 7 81 nHalf)
      { bench with params := { paramsReset with velSens := n1, keyFollow := n1 } }
    let v := t.voices[(0 : Fin 16)]
    v.pitch = 81 ∧ v.vel = nHalf ∧ v.velamp = nHalf ∧ v.keyf = n1 ∧ v.osc0.np = 3 ∧
    v.amp = ⟨.attack, n1, n0, n0⟩ ∧ v.lfo = ⟨n1, nQuarter⟩ ∧ t.voices[(1 : Fin 16)] = voiceBlank := by
  decide +kernel

/-- R191, R197: voice 0 sounds and is skipped, pitch and velocity are clamped. -/
theorem test_noteOn_second :
    let t := after (.noteOn 0 200 0x4008000000000000#64)
      { bench with voices := bench.voices.set 0 sounding }
    t.voices[(0 : Fin 16)] = sounding ∧ t.voices[(1 : Fin 16)].pitch = 127 ∧
    t.voices[(1 : Fin 16)].vel = n1 := by decide +kernel

/-- R198: every sounding voice of the pitch is released from its level; a free one is not. -/
theorem test_noteOff :
    let v := { voiceBlank with amp := ⟨.sustain, n1, nHalf, n1⟩, flt := ⟨.attack, nHalf, nQuarter, n0⟩ }
    let t := after (.noteOff 3 69 0x7FF0000000000000#64)
      { bench with voices := (bench.voices.set 4 v).set 9 v }
    t.voices[(4 : Fin 16)].amp = ⟨.release, n1, nHalf, nHalf⟩ ∧
    t.voices[(4 : Fin 16)].flt = ⟨.release, n1, nQuarter, nQuarter⟩ ∧
    t.voices[(9 : Fin 16)].amp.stage = .release ∧ t.voices[(0 : Fin 16)].amp.stage = .stop := by
  decide +kernel

/-- R198: another pitch is left alone; -3 is pitch 0. -/
theorem test_noteOff_other :
    let v := { voiceBlank with pitch := 0, amp := ⟨.sustain, n1, nHalf, n1⟩ }
    let s := { bench with voices := bench.voices.set 4 v }
    (after (.noteOff 0 69 n0) s).voices = s.voices ∧
    (after (.noteOff 0 (-3) n0) s).voices[(4 : Fin 16)].amp.stage = .release := by decide +kernel

/-- R194: 100 Hz is stored as 8000 and 44100.5 gives a ring of 44100 words; f0 and the partial count follow; delay memories are flushed. -/
theorem test_setFs :
    let s := { bench with fx := { fxFlushed with chBuf0 := [(5, n1)], chHead := 9, divCnt := 2 } }
    let t := after (.setFs 0x4059000000000000#64) s
    t.ctrl.fs = fsMin ∧ t.ctrl.chLen = 8000 ∧ t.voices[(3 : Fin 16)].f0 = 0x3FAC28F5C28F5C29#64 ∧
    t.voices[(3 : Fin 16)].osc1.np = 5 ∧ t.fx.chBuf0 = [] ∧ t.fx.chHead = 0 ∧ t.fx.divCnt = 0 ∧
    (after (.setFs 0x40E5889000000000#64) s).ctrl.chLen = 44100 ∧
    (after (.setFs 0x41CDCD6500000000#64) s).ctrl.chLen = 192000 := by decide +kernel

/-- R199, R200, R201, R203, R204, R183. -/
theorem test_globals :
    (after (.setVolume nHalf) bench).ctrl.gain = nHalf ∧
    (after (.setVolume nNeg1) bench).params.volume = n0 ∧
    (after (.setExpression nHalf) (after (.setVolume nHalf) bench)).ctrl.gain = nQuarter ∧
    (after (.setBendRange n64) bench).params.bendRange = n48 ∧
    (after (.setBendRange n12) bench).ctrl = bench.ctrl ∧
    (after (.setModwheel n2) bench).params.modWheel = n1 ∧
    (after (.setPedal 2 nHalf) bench).params.pedal = #v[n0, n0, nHalf] ∧
    (after (.setPedal 3 nHalf) bench).params = paramsReset ∧
    (after (.setVelsens nHalf) bench).params.velSens = nHalf := by decide +kernel

/-- R202: range 12, bend 1: the multiplier is 2 and every voice's f0 doubles. -/
theorem test_setBend :
    let t := after (.setBend n1) (after (.setBendRange n12) bench)
    t.ctrl.bendMul = n2 ∧ t.voices[(8 : Fin 16)].bend = n2 ∧
    t.voices[(8 : Fin 16)].f0 = 0x3FBC28F5C28F5C29#64 ∧ t.voices[(8 : Fin 16)].osc0.np = 3 := by decide +kernel

/-- R110: B = 3 rebuilds oscillator 1 alone; with f0 = 0.0625 it has one partial of step 0.125. -/
theorem test_setInharm :
    let v := { voiceBlank with f0 := 0x3FB0000000000000#64, osc0 := ⟨7, [], [], []⟩ }
    let t := after (.setInharm 0x4008000000000000#64) { bench with voices := bench.voices.set 2 v }
    t.voices[(2 : Fin 16)].osc0 = ⟨7, [], [], []⟩ ∧
    t.voices[(2 : Fin 16)].osc1 = ⟨2, [(1, nHalf)], [(1, 0x3FC0000000000000#64)], []⟩ ∧
    (after (.setInharm nNeg1) bench).params.inharm = n0 := by decide +kernel

/-- R111, R165 to R167, R180. -/
theorem test_oscillator_params :
    (after (.setOscmix nQuarter) bench).params.oscMix = nQuarter ∧
    (after (.setRandphase (-5)) bench).params.randPhase = true ∧
    (after (.setRandphase 0) (after (.setRandphase 1) bench)).params.randPhase = false ∧
    (after (.setVibDepth 0x40C3880000000000#64) bench).params.vibDepth = n1200 ∧
    (after (.setVibRate 0x409F400000000000#64) bench).ctrl.lfoFStep = nQuarter ∧
    (after (.setVibDelay nHalf) bench).ctrl.lfoDStep = nQuarter := by decide +kernel

/-- R125 to R128, R181, R182: the cutoff is stored raw, Q is floored, the type is clamped. -/
theorem test_filter_params :
    (after (.setCutoff nNeg3) bench).params.cutoff = nNeg3 ∧
    (after (.setReso n0) bench).params.reso = n1em3 ∧
    (after (.setReso nHalf) { bench with voices := bench.voices.set 1 { voiceBlank with k := n1 } }).voices[(1 : Fin 16)].oqk =
      0x4008000000000000#64 ∧
    (after (.setFtype 7) bench).params.ftype = 2 ∧ (after (.setFtype (-1)) bench).params.ftype = 0 ∧
    (after (.setFiter 5) bench).params.fiter = true ∧
    (after (.setFenvAmt n120) bench).params.fenvAmt = n64 ∧
    (after (.setKeyfollow nNeg120) bench).params.keyFollow = nNeg64 := by decide +kernel

/-- R147 to R154: 0.5 ms and 0.25 ms at 8000 Hz are the rates 0.25 and 0.5; levels are clamped. -/
theorem test_envelope_params :
    (after (.setAmpAttack nHalf) bench).ctrl.amp = ⟨nQuarter, n1, n1⟩ ∧
    (after (.setAmpDecay nQuarter) bench).ctrl.amp = ⟨n1, nHalf, n1⟩ ∧
    (after (.setAmpSustain n2) bench).params.amp.sustain = n1 ∧
    (after (.setAmpRelease nHalf) bench).ctrl.amp = ⟨n1, n1, nQuarter⟩ ∧
    (after (.setFltAttack nQuarter) bench).ctrl.flt = ⟨nHalf, n1, n1⟩ ∧
    (after (.setFltDecay nHalf) bench).ctrl.flt = ⟨n1, nQuarter, n1⟩ ∧
    (after (.setFltSustain nNeg1) bench).params.flt.sustain = n0 ∧
    (after (.setFltRelease nHalf) bench).ctrl.flt = ⟨n1, n1, nQuarter⟩ ∧
    (after (.setFltRelease nNeg3) bench).params.flt.release = nNeg3 := by decide +kernel

/-- R221, R226 to R228: raw and clamped values. -/
theorem test_eq_params :
    (after (.setDivN (-1)) bench).params.divN = -1 ∧
    (after (.setEqFreq nNeg3) bench).params.eqFreq = nNeg3 ∧
    (after (.setEqGain n1000) bench).params.eqGain = n120 ∧
    (after (.setEqQ nNeg3) bench).params.eqQ = nNeg3 ∧
    clampFreq fsReset 0x40DD4C0000000000#64 = 0x40D3614000000000#64 := by decide +kernel

/-- R234 to R237, R258, R259 at 8000 Hz: 1 ms is 8 samples. -/
theorem test_chorus_reverb_params :
    (after (.setChRate 0x409F400000000000#64) bench).ctrl.chR1 = nQuarter ∧
    (after (.setChRate 0x409F400000000000#64) bench).ctrl.chR2 = fdiv (fmul nQuarter n11) n12 ∧
    (after (.setChDepth nHalf) bench).ctrl.chDepthS = 0x4010000000000000#64 ∧
    (after (.setChDelay n1) bench).ctrl.chBase = 0x4020000000000000#64 ∧
    (after (.setChMix n2) bench).params.chMix = n1 ∧
    (after (.setRvT60 n0) bench).params.rvT60 = n1em3 ∧
    (after (.setRvMix nHalf) bench).params.rvMix = nHalf := by decide +kernel

/-- R80, R82, R291: the four port events. -/
theorem test_port :
    let s := { bench with outValid := true }
    portEvent (offerCommand 0 bench) = .command 0 ∧
    portEvent { s with host := [⟨false, some 0, false⟩] } = .hold ∧
    portEvent { s with host := [⟨false, some 0, true⟩] } = .take ∧
    portEvent { s with host := [⟨true, some 0, true⟩] } = .reset ∧ portEvent bench = .hold := by decide +kernel

/-- R66: a NaN offset reads at 0, a long one at the end of the ring, 2.5 is the mean of ages 2 and 3. -/
theorem test_readFrac :
    let m : Memory := (List.range 8).map fun i => (i, ofInt ((i : Int) + 1))
    readFrac m 0 8 0x7FF8000000000000#64 = ofInt 8 ∧ readFrac m 0 8 n1000 = ofInt 2 ∧
    readFrac m 0 8 0x4004000000000000#64 = 0x4016000000000000#64 := by decide +kernel

/-! ### A state that every invariant holds in -/

/-- A free voice with empty tables, its f0 and OQK current for the reset registers. -/
def lawfulVoice : Voice :=
  { voiceBlank with f0 := voiceF0 ctrlReset.fs 69 n1, oqk := fadd (fdiv n1 n1) n0 }

/-- The reset parameters and control registers over sixteen such voices; the host offers TICK64. -/
def lawful : State :=
  { params := paramsReset, ctrl := ctrlReset, voices := Vector.replicate 16 lawfulVoice, fx := fxFlushed
    outL := n0, outR := n0, outW32 := false, outValid := false
    host := [⟨false, some 0x020000000000000000000000#96, false⟩] }

theorem lawful_voice (v : Fin Config.nVoice) : lawful.voices[v] = lawfulVoice := by simp [lawful]

theorem lawful_envParams : EnvParamsLegal ⟨n0, n0, n1, n0⟩ := by constructor <;> decide +kernel

theorem lawful_params : ParamsLegal paramsReset := by
  constructor <;> first | exact lawful_envParams | decide +kernel

theorem lawful_paramInv : ParamInv lawful := ⟨lawful_params, by decide +kernel⟩

theorem lawful_derivedInv : DerivedInv lawful := by
  constructor <;> first | exact lawful_params.bendRange | rfl | exact ⟨_, lawful_params.bendRange, rfl⟩ |
    (intro v; rw [lawful_voice]; rfl)

theorem blank_oscInv : OscInv oscBlank where
  np_pos := by decide
  np_le := by decide
  amp := by decide
  step := by decide
  ph := by decide
  stepLe := fun i h1 h2 => absurd h2 (by show ¬ i < 1; omega)

theorem lawful_voiceInv : VoiceInv lawfulVoice :=
  ⟨blank_oscInv, blank_oscInv, fun _ => ⟨rfl, rfl⟩, fun _ => ⟨rfl, rfl⟩, fun _ => .inr rfl⟩

theorem empty_ring (len : Nat) (h : 0 < len) : RingInv len ⟨[], 0⟩ :=
  ⟨⟨⟨.nil, fun _ h => nomatch h⟩, fun _ h => nomatch h⟩, h⟩

theorem lawful_fxInv : FxInv 44100 fxFlushed where
  divCnt := by decide
  chBuf0 := (empty_ring 44100 (by decide)).mem
  chBuf1 := (empty_ring 44100 (by decide)).mem
  chHead := by decide
  rv := fun i => by fin_cases i <;> exact empty_ring _ (by decide)
  rvNorm := fun i c h => by fin_cases i <;> exact nomatch h
  ap := fun j => by fin_cases j <;> exact empty_ring _ (by decide)

theorem lawful_structInv : StructInv lawful := by
  have h : lawful.ctrl.chLen = 44100 := by decide +kernel
  constructor
  · exact lawful_paramInv.fs
  · decide
  · rfl
  · rw [h]; decide
  · rw [h]; decide
  · intro v; rw [lawful_voice]; exact lawful_voiceInv
  · rw [h]; exact lawful_fxInv

theorem blank_oscPhaseInv : OscPhaseInv oscBlank where
  phMem := by decide
  stepMem := by decide
  ampMem := by decide
  ph := fun i => by show inPhase n0; decide
  step := fun i h1 h2 => absurd h2 (by show ¬ i < 1; omega)

theorem lawful_phaseInv : PhaseInv lawful where
  params := lawful_paramInv
  derived := lawful_derivedInv
  bendMul := by decide +kernel
  bend := fun v => by rw [lawful_voice]; decide
  osc0 := fun v => by rw [lawful_voice]; exact blank_oscPhaseInv
  osc1 := fun v => by rw [lawful_voice]; exact blank_oscPhaseInv
  lfo := fun v => by rw [lawful_voice]; decide
  chP1 := by decide
  chP2 := by decide

theorem lawful_counterInv : CounterInv lawful where
  params := lawful_paramInv
  derived := lawful_derivedInv
  amp := fun v => by rw [lawful_voice]; constructor <;> decide
  flt := fun v => by rw [lawful_voice]; constructor <;> decide
  dly := fun v => by rw [lawful_voice]; decide
  vel := fun v => by rw [lawful_voice]; decide
  velamp := fun v => by rw [lawful_voice]; decide

/-- Its step runs the TICK64 that the host offers. -/
theorem lawful_step : step lawful = exec .tick64 { lawful with host := [] } := by
  have h1 : portEvent lawful = .command 0x020000000000000000000000#96 := rfl
  have h2 : decode 0x020000000000000000000000#96 = .tick64 := by decide +kernel
  simp only [step, h1, h2]
  rfl

/-! ### Witnesses: for every statement with hypotheses, operands and states that meet them -/

theorem witness_DecodeEncode : (Instr.noteOn 255 0x8000#16 0x7FEFFFFFFFFFFFFF#64).wf = true ∧
    (Instr.setPedal 0 n0).wf = true ∧ (Instr.setPedal 2 n0).wf = true := by decide

theorem witness_DecodeFaithful : ∀ row ∈ opcodeTable,
    row.op = opField (packWord row.op 9 2 n1) ∧
    operandsOk row (immField (packWord row.op 9 2 n1)) (valField (packWord row.op 9 2 n1)) = true := by
  decide +kernel

/-- Both ends of every reserved range, both sides of the pedal range, and a word of each format that differs from another in unread fields only. -/
theorem witness_ReservedAndUnread :
    (∀ op ∈ ([0x04, 0x07, 0x0A, 0x0F, 0x18, 0x1F, 0x26, 0x27, 0x2E, 0x2F, 0x38, 0x3F, 0x44, 0x47, 0x4C,
        0x4F, 0x52, 0xFF] : List (BitVec 8)),
      let n := (opField (packWord op 1 2 n1)).toNat
      (0x04 ≤ n ∧ n ≤ 0x07) ∨ (0x0A ≤ n ∧ n ≤ 0x0F) ∨ (0x18 ≤ n ∧ n ≤ 0x1F) ∨ n = 0x26 ∨ n = 0x27 ∨
      n = 0x2E ∨ n = 0x2F ∨ (0x38 ≤ n ∧ n ≤ 0x3F) ∨ (0x44 ≤ n ∧ n ≤ 0x47) ∨ (0x4C ≤ n ∧ n ≤ 0x4F) ∨
      (0x52 ≤ n ∧ n ≤ 0xFF)) ∧
    (opField (packWord 0x16 0 (-1) n1) = 0x16#8 ∧ (immField (packWord 0x16 0 (-1) n1)).toInt < 0) ∧
    (opField (packWord 0x16 0 3 n1) = 0x16#8 ∧ 3 ≤ (immField (packWord 0x16 0 3 n1)).toInt) ∧
    (∀ row ∈ opcodeTable,
      let w := packWord row.op 1 2 n1
      let w' := packWord row.op (if row.fmt = .n then 1 else 7)
        (if row.fmt = .z ∨ row.fmt = .p then 9 else 2) (if row.fmt = .z ∨ row.fmt = .i then n5 else n1)
      row.op = opField w ∧ opField w' = opField w ∧
      (row.fmt = .n → chField w' = chField w ∧ immField w' = immField w ∧ valField w' = valField w) ∧
      (row.fmt = .p → valField w' = valField w) ∧ (row.fmt = .i → immField w' = immField w) ∧
      (row.fmt = .x → immField w' = immField w ∧ valField w' = valField w) ∧
      (row.fmt = .n ∨ w' ≠ w)) := by decide +kernel

theorem witness_OperandCheck :
    (∃ row ∈ opcodeTable, row.fmt = .p) ∧ (∃ row ∈ opcodeTable, row.fmt = .x) ∧
    (∃ row ∈ opcodeTable, row.op = 0x08#8) ∧ (∃ row ∈ opcodeTable, row.fmt = .z) ∧
    (∃ row ∈ opcodeTable, row.fmt = .i) ∧ isFinite pinf = false ∧ isFinite n1 = true ∧
    (0 ≤ (0#16).toInt ∧ (0#16).toInt ≤ 2) ∧ (0 ≤ (2#16).toInt ∧ (2#16).toInt ≤ 2) := by decide +kernel

theorem witness_StepRunsDecoded : (pins lawful).rst = false ∧
    (pins lawful).cmd = some 0x020000000000000000000000#96 ∧ lawful.outValid = false := ⟨rfl, rfl, rfl⟩

theorem witness_ResetPinAndCommand : (pins { lawful with host := [⟨true, some 0, true⟩] }).rst = true := rfl

theorem witness_OutputPort :
    let s := fun ready => { lawful with outValid := true, host := [⟨false, some 0, ready⟩] }
    (∀ b, (pins (s b)).rst = false ∧ (s b).outValid = true ∧ (pins (s b)).outReady = b) ∧
    lawful.outW32 = false ∧ ({ lawful with outW32 := true } : State).outW32 = true :=
  ⟨fun _ => ⟨rfl, rfl, rfl⟩, rfl, rfl⟩

/-- Two idle cycles, then a reset that lies beyond them. -/
theorem witness_IdleHolds :
    let s := { lawful with host := [hostIdle, ⟨false, none, true⟩, ⟨true, none, false⟩] }
    s.outValid = false ∧ ∀ h ∈ s.host.take 2, h.rst = false ∧ h.cmd = none := ⟨rfl, by decide⟩

/-- A host that keeps offering a word while a pair waits and takes the pair late. -/
theorem witness_PairsAreTickResults :
    let s := { lawful with host := [⟨false, some 0x020000000000000000000000#96, true⟩, ⟨false, some 0, false⟩,
      ⟨false, some 0, false⟩, ⟨false, some 0, true⟩, ⟨false, some 0, true⟩] }
    (∀ h ∈ s.host.take 5, h.rst = false) ∧ acceptedWord s = some 0x020000000000000000000000#96 ∧
    acceptedWord { s with outValid := true, host := s.host.tail } = none ∧ lawful.outValid = false :=
  ⟨by decide, rfl, rfl, rfl⟩

theorem witness_FirstTickSilent : (∃ t, exec .tick64 { State.reset with host := [] } = .next t) ∧
    ∃ t, exec .tick32 { State.reset with host := [] } = .next t := ⟨⟨_, rfl⟩, ⟨_, rfl⟩⟩

theorem witness_NopAndIgnored :
    (∀ row ∈ opcodeTable, row.op ≠ opField 0xFF123456789ABCDEF0123456#96) ∧
    (Instr.setFs 0x7FF8000000000000#64).wf = false ∧
    ∃ t u, exec .tick64 lawful = .next t ∧ exec .nop t = .next u :=
  ⟨by decide +kernel, by decide, _, _, rfl, rfl⟩

/-- Below, inside and above the legal rates. -/
theorem witness_SetFs : isFinite nNeg1 = true ∧ isFinite fsReset = true ∧
    isFinite 0x7FEFFFFFFFFFFFFF#64 = true := by decide

/-- All sixteen amplitude envelopes in one stage. -/
def inStage (st : Stage) : Vector Voice Config.nVoice :=
  Vector.replicate 16 { lawfulVoice with amp := ⟨st, n1, nHalf, n1⟩ }

theorem inStage_stage (st : Stage) (v : Fin Config.nVoice) : (inStage st)[v].amp.stage = st := by
  simp [inStage]

/-- No voice to take; the first free one behind a sounding one; the first releasing one behind a sounding one; pitches below, inside and above 0..127. -/
theorem witness_NoteOn : isFinite nHalf = true ∧
    (∀ v : Fin Config.nVoice, (inStage .sustain)[v].amp.stage ≠ .stop ∧ (inStage .sustain)[v].amp.stage ≠ .release) ∧
    (let vs := (inStage .stop).set 0 sounding
     vs[(1 : Fin 16)].amp.stage = .stop ∧ ∀ u : Fin 16, u < 1 → vs[u].amp.stage ≠ .stop) ∧
    (let vs := (inStage .release).set 0 sounding
     (∀ u : Fin Config.nVoice, vs[u].amp.stage ≠ .stop) ∧ vs[(1 : Fin 16)].amp.stage = .release ∧
       ∀ u : Fin 16, u < 1 → vs[u].amp.stage ≠ .release) ∧
    (((0 : Fin 128).val : Int) = iclamp (-1#16).toInt 0 127 ∧
     ((127 : Fin 128).val : Int) = iclamp (127#16).toInt 0 127 ∧
     ((127 : Fin 128).val : Int) = iclamp (200#16).toInt 0 127) := by decide +kernel

theorem witness_NoteOff : ((0 : Fin 128).val : Int) = iclamp (-1#16).toInt 0 127 ∧
    ((69 : Fin 128).val : Int) = iclamp (69#16).toInt 0 127 ∧
    ((127 : Fin 128).val : Int) = iclamp (0x7FFF#16).toInt 0 127 := by decide

theorem witness_VolumeAndExpression : isFinite nNeg1 = true := by decide
theorem witness_PitchBend : isFinite nNeg1 = true := by decide

theorem witness_StoredControls : isFinite nHalf = true ∧ ((0 : Fin 3).val : Int) = (0#16).toInt ∧
    ((2 : Fin 3).val : Int) = (2#16).toInt ∧ (-1#16).toInt < 0 ∧ 3 ≤ (3#16).toInt := by decide

theorem witness_OscillatorParams : isFinite n1200 = true := by decide

theorem witness_FilterParams : isFinite n1000 = true ∧ ((0 : Fin 3).val : Int) = iclamp (-1#16).toInt 0 2 ∧
    ((2 : Fin 3).val : Int) = iclamp (2#16).toInt 0 2 ∧ ((2 : Fin 3).val : Int) = iclamp (7#16).toInt 0 2 := by
  decide

theorem witness_FilterModulation : isFinite nNeg120 = true := by decide
theorem witness_EnvelopeParams : isFinite nNeg3 = true := by decide
theorem witness_DividerAndEqParams : isFinite n120 = true := by decide
theorem witness_ChorusParams : isFinite nHalf = true := by decide
theorem witness_ReverbParams : isFinite n0 = true := by decide

/-- f0 = 0.125, B = 0: partials 1 and 2 are below the count 3, which is below 128. -/
theorem witness_OscSetFreqTable : oscBlank.step.wf ∧ oscBlank.amp.wf ∧
    (oscSetFreq 0x3FC0000000000000#64 n0 oscBlank).np = 3 := by decide +kernel

theorem witness_OscResetPhases : sounding.osc0.ph.wf ∧ 127 < 128 ∧ 128 ≤ 128 := by decide

theorem witness_OscProcessSum : sounding.osc0.ph.wf ∧ 1 ≤ 1 ∧ 1 < sounding.osc0.np ∧
    sounding.osc0.np ≤ 2 := by decide

/-- The least and the greatest operand of `frac`; a NaN, two zeros, an infinity; every branch of the helpers at its boundary. -/
theorem witness_FracWraps : (isFinite n0 = true ∧ fle n0 n0 = true) ∧
    (isFinite 0x7FEFFFFFFFFFFFFF#64 = true ∧ fle n0 0x7FEFFFFFFFFFFFFF#64 = true) ∧
    isNaN 0x7FF8000000000000#64 = true ∧ isNaN n0 = false ∧ isNaN 0x8000000000000000#64 = false ∧
    isInf pinf = true ∧ fle n0 n1 = true ∧ fle n1 n0 = false ∧
    (fle n1 n0 = false ∧ fle n0 n2 = true ∧ flt n1 n2 = true ∧ flt n1 n1 = false) ∧
    ((-1 : Int) < 0 ∧ (127 : Int) < 128 ∧ (0 : Int) ≤ 127 ∧ (127 : Int) ≤ 127) ∧
    (9007199254740991 : Int).natAbs < 2 ^ 53 := by decide

/-- The least and the greatest phase. -/
theorem witness_CosLookupTable : inPhase n0 ∧ inPhase 0x3FEFFFFFFFFFFFFF#64 ∧ 8191 < 8192 := by decide

theorem witness_RandomPhases : 15 < 16 ∧ 1 < 2 ∧ 127 < 128 ∧ 1 ≤ 1 := by decide

/-- Both ends of the rate range; a cutoff inside, above and below the clamp (a NaN among the last); a zero time. -/
theorem witness_ClampedCoefficients : inRange fsMin fsMax fsMin ∧ inRange fsMin fsMax fsMax ∧
    inRange n20 (fmul n0p9 (fdiv fsMin n2)) n1000 ∧ flt (fmul n0p9 (fdiv fsMin n2)) pinf = true ∧
    fle n20 n0 = false ∧ fle n20 0x7FF8000000000000#64 = false ∧ isFinite n0 = true ∧ fle n0 n0 = true := by
  decide +kernel

theorem witness_EnvNoteOnOff : (envIdle.stage = .stop ∧ envIdle.lvl = n0) ∧
    (⟨.attack, n1, n0, n0⟩ : Env).stage = .attack ∧ (⟨.decay, n1, n0, n0⟩ : Env).stage = .decay ∧
    (⟨.sustain, n1, n0, n0⟩ : Env).stage = .sustain ∧ (⟨.release, n1, n0, n0⟩ : Env).stage = .release :=
  ⟨⟨rfl, rfl⟩, rfl, rfl, rfl, rfl⟩

/-- With rate 0.25 a counter of 0.25 ends its stage and one of 0.5 does not. -/
theorem witness_EnvProcessStages : fle (fsub nQuarter nQuarter) n0 = true ∧
    fle (fsub nHalf nQuarter) n0 = false := by decide +kernel

/-- A free voice, one whose release ends, one that sounds; a delay running and one exhausted. -/
theorem witness_VoiceProcessChain :
    let ends : Voice := { sounding with amp := ⟨.release, nHalf, nHalf, n1⟩ }
    voiceBlank.amp.stage = .stop ∧
    (ends.amp.stage ≠ .stop ∧ (envProcess bench.ctrl.amp n1 ends.amp).fin = true) ∧
    (sounding.amp.stage ≠ .stop ∧ (envProcess bench.ctrl.amp n1 sounding.amp).fin = false) ∧
    flt n0 lfoNoteOn.dly = true ∧ flt n0 sounding.lfo.dly = false := by decide +kernel

theorem witness_AllocVoice :
    ((inStage .stop)[(0 : Fin 16)].amp.stage = .stop ∧ ∀ u : Fin 16, u < 0 → (inStage .stop)[u].amp.stage ≠ .stop) ∧
    (∀ u : Fin Config.nVoice, (inStage .sustain)[u].amp.stage ≠ .stop ∧ (inStage .sustain)[u].amp.stage ≠ .release) ∧
    (∀ u : Fin Config.nVoice, (inStage .stop)[u].amp.stage = (Vector.replicate 16 voiceBlank)[u].amp.stage) := by
  decide +kernel

/-- A note-on that changes voice 0, and sixteen note-on words. -/
theorem witness_PoolProperties :
    (exec (.noteOn 0 81 n1) lawful = .next (after (.noteOn 0 81 n1) lawful) ∧
      (after (.noteOn 0 81 n1) lawful).voices[(0 : Fin 16)] ≠ lawful.voices[(0 : Fin 16)]) ∧
    (let ws := List.replicate 16 0x080000453FF0000000000000#96
     (∀ w ∈ ws, decode w ≠ .reset ∧ ∀ ch imm val, decode w ≠ .noteOff ch imm val) ∧
     16 ≤ (ws.filter fun w => isNoteOn (decode w)).length) ∧
    (isFinite n1 = true ∧ lawful.voices[(0 : Fin 16)].amp.stage = .stop ∧
      ∀ u : Fin 16, u < 0 → lawful.voices[u].amp.stage ≠ .stop) := by
  have h : decode 0x080000453FF0000000000000#96 = .noteOn 0 69 n1 := by decide +kernel
  refine ⟨⟨rfl, fun e => ?_⟩, ⟨fun w hw => ?_, by decide +kernel⟩, by decide, by rw [lawful_voice]; rfl,
    fun u hu => absurd hu (Nat.not_lt_zero _)⟩
  · exact absurd (congrArg Voice.pitch e) (by decide +kernel)
  · rw [List.eq_of_mem_replicate hw, h]
    exact ⟨nofun, fun _ _ _ => nofun⟩

/-- Ring of three words, head at its end: ages 0 and 1 stay in it after a push. -/
theorem witness_RingPushRead : RingInv 3 ⟨[(0, n1), (2, n2)], 2⟩ ∧ (0 : Int) ≤ 0 ∧ (1 : Int) + 1 < (3 : Nat) :=
  ⟨⟨by decide, by decide⟩, by decide, by decide⟩

/-- The shortest and the longest ring; a NaN offset; an integer offset between finite words. -/
theorem witness_ReadFracBounds : (2 ≤ 2 ∧ 2 ≤ Config.chCap) ∧ (2 ≤ 192000 ∧ 192000 ≤ Config.chCap) ∧
    isNaN 0x7FF8000000000000#64 = true ∧
    (let oc := clamp n2 n0 (ofInt ((8 : Int) - 2))
     let i := floorInt oc
     isZero (fsub oc (ofInt i)) = true ∧ isFinite (readInt [(5, n1)] 0 8 i) = true ∧
     isFinite (readInt [(5, n1)] 0 8 (i + 1)) = true) := by decide +kernel

theorem witness_DividerWindow : (2 : Int) ≤ 2 ∧ (2 : Int) ≤ 32767 ∧ fxFlushed.divCnt = 0 ∧
    6 < (List.replicate 7 (⟨n1, n1⟩ : Stereo)).length ∧ (1 : Int) ≤ 1 ∧ (-32768 : Int) ≤ 1 ∧ (1 : Int) < 2 := by decide

/-- N is lowered to 2 while the counter stands at 4: the held sample is given and the window ends (R220). -/
theorem test_divProcess_smaller_n : divProcess 2 ⟨n1, n1⟩ { fxFlushed with divCnt := 4, divH := ⟨n2, n5⟩ } =
    ({ fxFlushed with divCnt := 0, divH := ⟨n2, n5⟩ }, ⟨n2, n5⟩) := by decide

/-- A Q so large that alpha is a zero whatever SIN is; and a finite input to the 0 dB EQ from a zero state. -/
theorem witness_EqZeroDb :
    (∃ p : Params, inRange fsMin fsMax fsReset ∧ isFinite p.eqQ = true ∧ isZero p.eqGain = true ∧
      isZero (fadd n1 (eqAlpha (fdiv (fmul (fmul n2 nPi) (clampFreq fsReset p.eqFreq)) fsReset) p.eqQ)) = false) ∧
    (bench.ctrl.eqB0 = n1 ∧ bench.ctrl.eqB1 = bench.ctrl.eqA1 ∧ bench.ctrl.eqB2 = bench.ctrl.eqA2 ∧
     isZero n0 = true ∧ isFinite nHalf = true ∧ isFinite (fmul bench.ctrl.eqB1 nHalf) = true ∧
     isFinite (fmul bench.ctrl.eqB2 nHalf) = true) := by
  refine ⟨⟨{ paramsReset with eqQ := 0x7FEFFFFFFFFFFFFF#64 }, by decide, by decide, by decide, ?_⟩, by decide +kernel⟩
  have hd : fmul n2 (fmax 0x7FEFFFFFFFFFFFFF#64 eqQMin) = pinf := by decide +kernel
  have key : ∀ y : Num64, isFinite y = true → isZero (fadd n1 (fdiv y pinf)) = false := by
    intro y hy
    have h1 : isNaN y = false := by simp only [isFinite, isNaN, decide_eq_true_eq, decide_eq_false_iff_not] at *; omega
    have h2 : isInf y = false := by simp only [isFinite, isInf, decide_eq_true_eq, decide_eq_false_iff_not] at *; omega
    have h3 : fdiv y pinf = mkNum (isNeg y != isNeg pinf) 0 := by
      unfold fdiv
      rw [h1, h2]
      rfl
    rw [h3]
    cases isNeg y != isNeg pinf <;> decide +kernel
  show isZero (fadd n1 (fdiv (sinN _) (fmul n2 (fmax _ eqQMin)))) = false
  rw [hd]
  apply key
  have hf : isFinite (fdiv (fmul (fmul n2 nPi) (clampFreq fsReset paramsReset.eqFreq)) fsReset) = true := by
    decide +kernel
  simp only [sinN, hf, if_true]
  split
  · decide
  · unfold within
    split
    · next h =>
      simp only [inUnit, Bool.and_eq_true] at h
      exact isFinite_of_between (by decide) (by decide) h.1 h.2
    · decide

theorem witness_ChorusDepthZero : bench.ctrl.chDepthS = n0 ∧ isFinite bench.ctrl.chBase = true ∧
    isNeg bench.ctrl.chBase = false ∧ inPhase fxFlushed.chP1 ∧ inPhase fxFlushed.chP2 ∧
    isFinite (readFrac (memWrite fxFlushed.chBuf0 fxFlushed.chHead n1) 1 8000 bench.ctrl.chBase) = true := by
  decide +kernel

theorem witness_ReverbStep : (∀ i : Fin 4, RingInv Config.rvLen[i] fxFlushed.rv[i]) ∧
    (∀ j : Fin 8, RingInv Config.apLen[j] fxFlushed.ap[j]) ∧
    (6 : Fin 8).val = 2 * (3 : Fin 4).val ∧ (7 : Fin 8).val = 2 * (3 : Fin 4).val + 1 ∧
    isSubnormal 0x800FFFFFFFFFFFFF#64 ∧ ¬ isSubnormal minNormal ∧ ¬ isSubnormal n0 :=
  ⟨lawful_fxInv.rv, lawful_fxInv.ap, rfl, rfl, by decide, by decide, by decide⟩

/-- Both zeros; both ends of the pinned exponents; finite operands on both sides of 1024 and below -1022. -/
theorem witness_PinnedFunctions : isZero n0 = true ∧ isZero 0x8000000000000000#64 = true ∧
    ((-64 : Int) ≤ -64 ∧ (64 : Int) ≤ 64) ∧ isFinite exp2Top = true ∧ isFinite n1000 = true ∧
    isFinite 0xC08FF40000000000#64 = true ∧ valueOf n1000 < 1024 ∧ 1024 ≤ valueOf exp2Top ∧
    valueOf 0xC08FF40000000000#64 < -1022 := by decide +kernel

/-- EXP10's two thresholds and their neighbours: the last finite result, the first infinity, the first underflow. -/
theorem witness_PinnedFunctions_exp10 : isFinite exp10TopPred = true ∧ isFinite exp10Top = true ∧
    isFinite exp10Bottom = true ∧
    (10 : ℝ) ^ (valueOf exp10TopPred : ℝ) < (largestFinite : ℝ) ∧
    (largestFinite : ℝ) < (10 : ℝ) ^ (valueOf exp10Top : ℝ) ∧
    (10 : ℝ) ^ (valueOf exp10Bottom : ℝ) < (2 : ℝ) ^ (-1022 : ℤ) :=
  ⟨by decide, by decide, by decide, (exp10Top_le_iff (by decide)).2.1 (by decide),
    (exp10Top_le_iff (by decide)).1.1 (by decide), (le_exp10Bottom_iff (by decide)).1 (by decide)⟩

/-- The greatest finite numbers (their sum overflows) and the least subnormal ones; opposite numbers and equal ones; a NaN, infinities of either sign, zeros. -/
theorem witness_RoundingAddMul : isFinite 0x7FEFFFFFFFFFFFFF#64 = true ∧ isFinite 0x8000000000000001#64 = true ∧
    valueOf n1 + valueOf nNeg1 = 0 ∧ valueOf 0x8000000000000000#64 = valueOf n0 ∧ isNaN 0x7FF8000000000000#64 = true ∧
    isInf pinf = true ∧ isInf 0xFFF0000000000000#64 = true ∧ isNeg pinf ≠ isNeg 0xFFF0000000000000#64 ∧
    isZero n0 = true ∧ isNaN nNeg1 = false ∧ isZero nNeg1 = false ∧ isNaN pinf = false ∧ isZero pinf = false := by
  decide +kernel

theorem witness_RoundingDivSqrt : isFinite n1 = true ∧ isZero 0x0000000000000001#64 = false ∧
    isFinite 0x0000000000000001#64 = true ∧ fle n0 n0 = true ∧ fle n0 n2 = true ∧ isZero n0 = true ∧ isInf pinf = true ∧
    isNaN 0x7FF8000000000000#64 = true ∧ isFinite 0x8000000000000000#64 = true ∧ fle n0 0x8000000000000000#64 = true ∧
    isZero 0x8000000000000000#64 = true ∧ isNeg nNeg1 = true ∧ isZero nNeg1 = false ∧
    isNeg 0xFFF0000000000000#64 = true ∧ isZero 0xFFF0000000000000#64 = false := by decide

theorem witness_ParamInvStep : ParamInv lawful ∧ ∃ t, step lawful = .next t :=
  ⟨lawful_paramInv, _, lawful_step⟩

theorem witness_DerivedInvStep : DerivedInv lawful ∧ ∃ t, step lawful = .next t :=
  ⟨lawful_derivedInv, _, lawful_step⟩

theorem witness_StructInvStep : StructInv lawful ∧ ∃ t, step lawful = .next t :=
  ⟨lawful_structInv, _, lawful_step⟩

theorem witness_PhaseInvStep : PhaseInv lawful ∧ ∃ t, step lawful = .next t :=
  ⟨lawful_phaseInv, _, lawful_step⟩

theorem witness_CounterInvStep : CounterInv lawful ∧ ∃ t, step lawful = .next t :=
  ⟨lawful_counterInv, _, lawful_step⟩

/-- A finite value below and one at the overflow bound, an infinity and a NaN. -/
theorem witness_Binary32Rounding : isFinite n1 = true ∧ |valueOf n1| < overflowBound32 ∧
    isFinite 0x47EFFFFFF0000000#64 = true ∧ overflowBound32 ≤ |valueOf 0x47EFFFFFF0000000#64| ∧
    isInf pinf = true ∧ isNaN n1 = false ∧ isNaN 0x7FF8000000000000#64 = true := by decide +kernel

/-- 1 + 2^-24 is a tie that goes to the even 1; 1 + 3 * 2^-24 goes up; the least value of the last half place below 2^128 goes to the infinity and its predecessor does not (by hand from R12). -/
theorem test_rn32_ties : rn32 0x3FF0000010000000#64 = 0x3F800000#32 ∧ rn32 0x3FF0000030000000#64 = 0x3F800002#32 ∧
    rn32 0x47EFFFFFF0000000#64 = 0x7F800000#32 ∧ rn32 0xC7EFFFFFEFFFFFFF#64 = 0xFF7FFFFF#32 := by decide +kernel

/-- Every command completes with what `after` gives. -/
theorem exec_after (i : Instr) (s : State) : exec i s = .next (after i s) := by cases i <;> rfl

/-- Out of Stop by a note-on, into Release by a note-off, into Stop by a tick. -/
theorem witness_StageChanges :
    (bench.voices[(0 : Fin 16)].amp.stage = .stop ∧
      (after (.noteOn 0 69 n1) bench).voices[(0 : Fin 16)].amp.stage ≠ .stop) ∧
    (let s := { bench with voices := inStage .sustain }
     s.voices[(3 : Fin 16)].amp.stage ≠ .release ∧
      (after (.noteOff 0 69 n1) s).voices[(3 : Fin 16)].amp.stage = .release) ∧
    (let s := { bench with voices := bench.voices.set 3 { voiceBlank with amp := ⟨.release, n1, nHalf, n1⟩ } }
     s.voices[(3 : Fin 16)].amp.stage ≠ .stop ∧
      (after .tick64 s).voices[(3 : Fin 16)].amp.stage = .stop) := by decide +kernel

/-- For every parameter register a command that changes it. -/
theorem witness_ParamsOwnCommand :
    let q := fun i => (after i bench).params
    (q (.setVolume n0)).volume ≠ n1 ∧ (q (.setExpression n0)).expression ≠ n1 ∧
    (q (.setBendRange n1)).bendRange ≠ n2 ∧ (q (.setBend n1)).bend ≠ n0 ∧
    (q (.setModwheel n1)).modWheel ≠ n0 ∧ (∀ k : Fin 3, (q (.setPedal (BitVec.ofNat 16 k.val) n1)).pedal[k] ≠ n0) ∧
    (q (.setVelsens n1)).velSens ≠ n0 ∧ (q (.setInharm n1)).inharm ≠ n0 ∧ (q (.setOscmix n1)).oscMix ≠ n0 ∧
    (q (.setRandphase 1)).randPhase ≠ false ∧ (q (.setVibDepth n1)).vibDepth ≠ n0 ∧
    (q (.setVibRate n1)).vibRate ≠ n5 ∧ (q (.setVibDelay n1)).vibDelay ≠ n0 ∧
    (q (.setCutoff n1)).cutoff ≠ n1000 ∧ (q (.setReso n2)).reso ≠ n1 ∧ (q (.setFtype 1)).ftype ≠ 0 ∧
    (q (.setFiter 1)).fiter ≠ false ∧ (q (.setFenvAmt n1)).fenvAmt ≠ n0 ∧ (q (.setKeyfollow n1)).keyFollow ≠ n0 ∧
    (q (.setAmpAttack n1)).amp.attack ≠ n0 ∧ (q (.setAmpDecay n1)).amp.decay ≠ n0 ∧
    (q (.setAmpSustain n0)).amp.sustain ≠ n1 ∧ (q (.setAmpRelease n1)).amp.release ≠ n0 ∧
    (q (.setFltAttack n1)).flt.attack ≠ n0 ∧ (q (.setFltDecay n1)).flt.decay ≠ n0 ∧
    (q (.setFltSustain n0)).flt.sustain ≠ n1 ∧ (q (.setFltRelease n1)).flt.release ≠ n0 ∧
    (q (.setDivN 3)).divN ≠ 1 ∧ (q (.setEqFreq n1)).eqFreq ≠ n1000 ∧ (q (.setEqGain n1)).eqGain ≠ n0 ∧
    (q (.setEqQ n2)).eqQ ≠ n1 ∧ (q (.setChRate n1)).chRate ≠ nHalf ∧ (q (.setChDepth n1)).chDepth ≠ n0 ∧
    (q (.setChDelay n1)).chDelay ≠ n0 ∧ (q (.setChMix n1)).chMix ≠ n0 ∧ (q (.setRvT60 n2)).rvT60 ≠ n1 ∧
    (q (.setRvMix n1)).rvMix ≠ n0 := by decide +kernel

/-- A sounding and a free voice, the second filter stage off, chorus words beside the one at the head. -/
theorem witness_TickFrame :
    let s := { bench with voices := bench.voices.set 0 sounding }
    (∃ t, exec .tick64 s = .next t) ∧ (∃ t, exec .tick32 s = .next t) ∧
    s.voices[(0 : Fin 16)].osc0.ph.wf ∧ s.voices[(0 : Fin 16)].osc1.ph.wf ∧ s.params.fiter = false ∧
    s.voices[(1 : Fin 16)].amp.stage = .stop ∧ s.fx.chBuf0.wf ∧ s.fx.chBuf1.wf ∧ 1 ≠ s.fx.chHead ∧
    (∀ i : Fin 4, RingInv Config.rvLen[i] s.fx.rv[i] ∧ 1 ≠ s.fx.rv[i].head) ∧
    (∀ j : Fin 8, RingInv Config.apLen[j] s.fx.ap[j] ∧ 1 ≠ s.fx.ap[j].head) :=
  ⟨⟨_, rfl⟩, ⟨_, rfl⟩, by decide +kernel, by decide +kernel, rfl, rfl, by decide, by decide, by decide,
    fun i => ⟨lawful_fxInv.rv i, by fin_cases i <;> decide⟩, fun j => ⟨lawful_fxInv.ap j, by fin_cases j <;> decide⟩⟩

/-- Two different states that agree but for the wheel and a pedal. -/
theorem witness_InertControls :
    let p := { paramsReset with modWheel := n1, pedal := #v[n1, n0, nHalf] }
    eraseInert { lawful with params := p } = eraseInert lawful ∧ p ≠ lawful.params := ⟨rfl, by decide +kernel⟩

end Sys2Proof.Tests
end

section
/-! PROOFS. The ports (spec/30_encoding.md R80, R82; spec/00_scope.md R14): what the pins do to a step, and that no command reads them. `exec_withPorts` says it once for all commands; `afterCommand_withPorts` and `exec_eq_afterCommand` turn it into facts about the words of a run. -/

namespace Sys2Proof.Machine

/-! ### One step at the ports -/

theorem portEvent_of_offered {s : State} {w : CmdWord} (hr : (pins s).rst = false)
    (hc : (pins s).cmd = some w) (hv : s.outValid = false) : portEvent s = .command w := by
  simp [portEvent, hr, hc, hv]

theorem cmdReady_iff {s : State} : cmdReady s = true ↔ (pins s).rst = false ∧ s.outValid = false := by
  simp [cmdReady]

theorem step_of_command {s : State} {w : CmdWord} (h : portEvent s = .command w) :
    step s = exec (decode w) (advanceHost s) := by
  unfold step
  rw [h]

/-- Settles O6: an offered word that finds no pair waiting is the event of the step, and `withFetchWord` offers one. -/
theorem stepRunsDecoded : Obligations.StepRunsDecoded := by
  constructor
  · intro s w hr hc hv
    exact ⟨cmdReady_iff.2 ⟨hr, hv⟩, step_of_command (portEvent_of_offered hr hc hv)⟩
  · intro s nbits w
    exact step_of_command (s := s.withFetchWord nbits w) (portEvent_of_offered rfl rfl rfl)

/-! ### No command reads the pins or the waiting flag -/

/-- The state with another waiting flag and other coming host cycles. -/
def withPorts (b : Bool) (h : List HostCycle) (s : State) : State := { s with outValid := b, host := h }

@[simp] theorem withPorts_outValid (b : Bool) (h : List HostCycle) (s : State) : (withPorts b h s).outValid = b := rfl
@[simp] theorem withPorts_host (b : Bool) (h : List HostCycle) (s : State) : (withPorts b h s).host = h := rfl
@[simp] theorem withPorts_withPorts (b b' : Bool) (h h' : List HostCycle) (s : State) :
    withPorts b h (withPorts b' h' s) = withPorts b h s := rfl
@[simp] theorem outLPin_withPorts (b : Bool) (h : List HostCycle) (s : State) : outLPin (withPorts b h s) = outLPin s := rfl
@[simp] theorem outRPin_withPorts (b : Bool) (h : List HostCycle) (s : State) : outRPin (withPorts b h s) = outRPin s := rfl
@[simp] theorem outW32_withPorts (b : Bool) (h : List HostCycle) (s : State) : (withPorts b h s).outW32 = s.outW32 := rfl

theorem withPorts_self (s : State) : withPorts s.outValid s.host s = s := rfl

theorem pairTaken_eq_withPorts (s : State) : pairTaken s = withPorts false s.host s := rfl

theorem advanceHost_eq_withPorts (s : State) : advanceHost s = withPorts s.outValid s.host.tail s := rfl

/-- Whether a pair waits after a command: a tick leaves one, RESET none, any other command what there was. -/
def waitsAfter (i : Instr) (b : Bool) : Bool := if isTick i then true else if i = .reset then false else b

/-- The command completes, and it does the same whatever the ports hold, which it leaves as `waitsAfter` says. -/
def IgnoresPorts (i : Instr) (s : State) : Prop :=
  ∃ t, exec i s = .next t ∧
    ∀ b h, exec i (withPorts b h s) = .next (withPorts (waitsAfter i b) h t)

theorem ignoresPorts_of_acceptFinite {i : Instr} {val : Num64} {f : State → State} {s : State}
    (he : ∀ s, exec i s = acceptFinite val s f) (hw : ∀ b, waitsAfter i b = b)
    (hf : ∀ b h, f (withPorts b h s) = withPorts b h (f s)) : IgnoresPorts i s := by
  unfold IgnoresPorts
  simp only [he, hw]
  rcases acceptFinite_cases val s f with ⟨hv, h1⟩ | ⟨hv, h1⟩
  · exact ⟨_, h1, fun b h => by rw [acceptFinite_of_finite _ _ hv, hf]⟩
  · exact ⟨_, h1, fun b h => acceptFinite_of_not _ _ hv⟩

theorem noteOn_withPorts (imm : BitVec 16) (val : Num64) (s : State) (b : Bool) (h : List HostCycle) :
    noteOn imm val (withPorts b h s) = withPorts b h (noteOn imm val s) := by
  unfold noteOn
  change (match allocVoice s.voices with | none => _ | some v => _) = _
  cases allocVoice s.voices <;> rfl

theorem execSetPedal_withPorts (imm : BitVec 16) (val : Num64) (s : State) : IgnoresPorts (.setPedal imm val) s := by
  refine ignoresPorts_of_acceptFinite (fun _ => rfl) (fun _ => rfl) fun b h => ?_
  dsimp only
  split <;> rfl

theorem exec_withPorts (i : Instr) (s : State) : IgnoresPorts i s := by
  cases i with
  | nop | reset | tick64 | tick32 => exact ⟨_, rfl, fun _ _ => rfl⟩
  | noteOff | setRandphase | setFtype | setFiter | setDivN => exact ⟨_, rfl, fun _ _ => rfl⟩
  | noteOn ch imm val =>
    exact ignoresPorts_of_acceptFinite (fun _ => rfl) (fun _ => rfl) (noteOn_withPorts imm val s)
  | setPedal imm val => exact execSetPedal_withPorts imm val s
  | _ => exact ignoresPorts_of_acceptFinite (fun _ => rfl) (fun _ => rfl) fun _ _ => rfl

/-! ### Words, their states and their pairs -/

theorem waitsAfter_false (i : Instr) : waitsAfter i false = isTick i := by
  unfold waitsAfter
  cases isTick i <;> simp

/-- What executing an accepted word leaves, in terms of the state after the word (R80, R82). -/
theorem exec_eq_afterCommand (w : CmdWord) (s : State) :
    exec (decode w) s = .next (withPorts (waitsAfter (decode w) s.outValid) s.host (afterCommand w s)) := by
  obtain ⟨t, hs, hp⟩ := exec_withPorts (decode w) s
  have ht : afterCommand w s = pairTaken t := by unfold afterCommand; rw [hs]
  rw [ht, pairTaken_eq_withPorts, withPorts_withPorts, ← hp, withPorts_self]

theorem afterCommand_withPorts (w : CmdWord) (b : Bool) (h : List HostCycle) (s : State) :
    afterCommand w (withPorts b h s) = withPorts false h (afterCommand w s) := by
  obtain ⟨t, hs, hp⟩ := exec_withPorts (decode w) s
  unfold afterCommand
  rw [hs, hp]
  rfl

theorem afterCommands_cons (w : CmdWord) (ws : List CmdWord) (s : State) :
    afterCommands (w :: ws) s = afterCommands ws (afterCommand w s) := rfl

theorem afterCommands_append (us ws : List CmdWord) (s : State) :
    afterCommands (us ++ ws) s = afterCommands ws (afterCommands us s) := List.foldl_append

theorem tickResults_cons (w : CmdWord) (ws : List CmdWord) (s : State) :
    tickResults (w :: ws) s = tickResults [w] s ++ tickResults ws (afterCommand w s) := by
  simp [tickResults]

theorem tickResults_append (us ws : List CmdWord) (s : State) :
    tickResults (us ++ ws) s = tickResults us s ++ tickResults ws (afterCommands us s) := by
  induction us generalizing s with
  | nil => rfl
  | cons u us ih =>
    rw [List.cons_append, tickResults_cons, tickResults_cons u us, ih, List.append_assoc, afterCommands_cons]

theorem afterCommands_withPorts (ws : List CmdWord) (b b' : Bool) (h h' : List HostCycle) (s : State) :
    withPorts b' h' (afterCommands ws (withPorts b h s)) = withPorts b' h' (afterCommands ws s) := by
  induction ws generalizing b h s with
  | nil => rfl
  | cons w ws ih => rw [afterCommands_cons, afterCommand_withPorts, ih, afterCommands_cons]

theorem tickResults_withPorts (ws : List CmdWord) (b : Bool) (h : List HostCycle) (s : State) :
    tickResults ws (withPorts b h s) = tickResults ws s := by
  induction ws generalizing b h s with
  | nil => rfl
  | cons w ws ih =>
    rw [tickResults, tickResults, afterCommand_withPorts, ih, outLPin_withPorts, outRPin_withPorts, outW32_withPorts]

theorem waitingPair_of_not {s : State} (h : s.outValid = false) : waitingPair s = [] := by
  simp [waitingPair, h]

theorem waitingPair_withPorts (b : Bool) (h : List HostCycle) (s : State) :
    waitingPair (withPorts b h s) = if b then [(outLPin s, outRPin s, s.outW32)] else [] := rfl

theorem waitingPair_withPorts_self (h : List HostCycle) (s : State) :
    waitingPair (withPorts s.outValid h s) = waitingPair s := rfl

/-- The pair that waits after an accepted word is the word's tick result. -/
theorem waitingPair_afterCommand (w : CmdWord) (h : List HostCycle) (s : State) :
    waitingPair (withPorts (isTick (decode w)) h (afterCommand w s)) = tickResults [w] s := by
  simp [waitingPair_withPorts, tickResults]

/-! ### One step, and runs of steps -/

theorem run_succ_of_step {M : Host.Core} {n : Nat} {s t : M.State} (h : M.step s = .next t) :
    M.run (n + 1) s = M.run n t := by
  rw [Host.Core.run, h]

theorem core_run_succ {n : Nat} {s t : State} (h : step s = .next t) :
    Sys2Proof.core.run (n + 1) s = Sys2Proof.core.run n t := run_succ_of_step (M := Sys2Proof.core) h

theorem acceptedWords_succ {n : Nat} {s t : State} (h : step s = .next t) :
    acceptedWords (n + 1) s = (acceptedWord s).toList ++ acceptedWords n t := by
  rw [acceptedWords, h]

theorem takenPairs_succ {n : Nat} {s t : State} (h : step s = .next t) :
    takenPairs (n + 1) s = (takenPair s).toList ++ takenPairs n t := by
  rw [takenPairs, h]

theorem acceptedWord_of_command {s : State} {w : CmdWord} (hr : (pins s).rst = false)
    (hv : s.outValid = false) (hc : (pins s).cmd = some w) : acceptedWord s = some w := by
  rw [acceptedWord, if_pos (cmdReady_iff.2 ⟨hr, hv⟩), hc]

theorem acceptedWord_of_waiting {s : State} (hv : s.outValid = true) : acceptedWord s = none := by
  simp [acceptedWord, cmdReady, hv]

theorem acceptedWord_of_silent {s : State} (hc : (pins s).cmd = none) : acceptedWord s = none := by
  simp [acceptedWord, hc]

theorem takenPair_of_take {s : State} (h : portEvent s = .take) :
    takenPair s = some (outLPin s, outRPin s, s.outW32) := by
  rw [takenPair, h]

theorem takenPair_of_hold {s : State} (h : portEvent s = .hold) : takenPair s = none := by
  rw [takenPair, h]

theorem takenPair_of_command {s : State} {w : CmdWord} (h : portEvent s = .command w) : takenPair s = none := by
  rw [takenPair, h]

theorem step_of_take {s : State} (h : portEvent s = .take) :
    step s = .next (withPorts false s.host.tail s) := by
  rw [step, h]
  rfl

theorem step_of_hold {s : State} (h : portEvent s = .hold) :
    step s = .next (withPorts s.outValid s.host.tail s) := by
  rw [step, h]
  rfl

/-- An accepted word is executed on the state whose host has moved on, with no pair waiting before it. -/
theorem step_of_accepted {s : State} {w : CmdWord} (h : portEvent s = .command w) (hv : s.outValid = false) :
    step s = .next (withPorts (isTick (decode w)) s.host.tail (afterCommand w s)) := by
  rw [step_of_command h, exec_eq_afterCommand, advanceHost_eq_withPorts, afterCommand_withPorts, withPorts_outValid,
    withPorts_host, withPorts_withPorts, hv, waitsAfter_false]

/-- One step short of a reset: the accepted word, if any, is executed, and the pair taken with the pair left waiting are the pair that waited and the word's result. -/
theorem step_without_reset {s : State} (hr : (pins s).rst = false) :
    ∃ t b, step s = .next t ∧ t = withPorts b s.host.tail (afterCommands (acceptedWord s).toList s) ∧
      (takenPair s).toList ++ waitingPair t = waitingPair s ++ tickResults (acceptedWord s).toList s := by
  rcases portEvent_cases s with ⟨h, -⟩ | ⟨-, hv, -, h⟩ | ⟨-, hv, -, h⟩ | ⟨-, -, hc, h⟩ | ⟨w, -, hv, hc, h⟩
  · simp [h] at hr
  · refine ⟨_, _, step_of_take h, by rw [acceptedWord_of_waiting hv]; rfl, ?_⟩
    rw [acceptedWord_of_waiting hv, takenPair_of_take h]
    simp [waitingPair, hv, tickResults]
  · refine ⟨_, _, step_of_hold h, by rw [acceptedWord_of_waiting hv]; rfl, ?_⟩
    rw [acceptedWord_of_waiting hv, takenPair_of_hold h, waitingPair_withPorts_self]
    simp [tickResults]
  · refine ⟨_, _, step_of_hold h, by rw [acceptedWord_of_silent hc]; rfl, ?_⟩
    rw [acceptedWord_of_silent hc, takenPair_of_hold h, waitingPair_withPorts_self]
    simp [tickResults]
  · refine ⟨_, _, step_of_accepted h hv, by rw [acceptedWord_of_command hr hv hc]; rfl, ?_⟩
    rw [acceptedWord_of_command hr hv hc, takenPair_of_command h, waitingPair_of_not hv, waitingPair_afterCommand]
    rfl

theorem pins_rst_of_take {n : Nat} {s : State} (h : ∀ c ∈ s.host.take (n + 1), c.rst = false) :
    (pins s).rst = false ∧ ∀ c ∈ s.host.tail.take n, c.rst = false := by
  unfold pins
  cases hs : s.host with
  | nil => simp [hostIdle]
  | cons c cs =>
    rw [hs] at h
    rw [List.take_succ_cons] at h
    exact ⟨h c List.mem_cons_self, fun d hd => h d (List.mem_cons_of_mem c hd)⟩

/-- The first clause of O11, by induction on the number of steps. -/
theorem run_without_reset (n : Nat) (s : State) (h : ∀ c ∈ s.host.take n, c.rst = false) :
    ∃ t, Sys2Proof.core.run n s = .next t ∧
      pairTaken t = withPorts false (s.host.drop n) (afterCommands (acceptedWords n s) s) ∧
      takenPairs n s ++ waitingPair t = waitingPair s ++ tickResults (acceptedWords n s) s := by
  induction n generalizing s with
  | zero => exact ⟨s, rfl, rfl, by simp [takenPairs, acceptedWords, tickResults]⟩
  | succ n ih =>
    obtain ⟨hr, htail⟩ := pins_rst_of_take h
    obtain ⟨s', b, hstep, hs', hpair⟩ := step_without_reset hr
    obtain ⟨t, hrun, hstate, hpairs⟩ := ih s' (by rw [hs']; exact htail)
    refine ⟨t, by rw [core_run_succ hstep, hrun], ?_, ?_⟩
    · rw [hstate, acceptedWords_succ hstep, afterCommands_append, hs', withPorts_host, List.drop_tail,
        afterCommands_withPorts]
    · calc takenPairs (n + 1) s ++ waitingPair t
          = (takenPair s).toList ++ (takenPairs n s' ++ waitingPair t) := by
            rw [takenPairs_succ hstep, List.append_assoc]
        _ = ((takenPair s).toList ++ waitingPair s') ++ tickResults (acceptedWords n s') s' := by
            rw [hpairs, List.append_assoc]
        _ = waitingPair s ++ (tickResults (acceptedWord s).toList s ++ tickResults (acceptedWords n s') s') := by
            rw [hpair, List.append_assoc]
        _ = waitingPair s ++ tickResults (acceptedWords (n + 1) s) s := by
            rw [acceptedWords_succ hstep, tickResults_append]
            conv_lhs => rw [hs', tickResults_withPorts, ← hs']

/-! ### A host that offers, then takes -/

/-- One word of `hostProgram`: the word is executed in the first step, and after the second no pair waits. -/
theorem hostProgram_word (w : CmdWord) (later : List HostCycle) (s : State) :
    ∃ s0 s1, s0 = withPorts false (hostProgram [w] ++ later) s ∧ step s0 = .next s1 ∧
      step s1 = .next (withPorts false later (afterCommand w s)) ∧ acceptedWord s0 = some w ∧ acceptedWord s1 = none := by
  have hexec := step_of_accepted (s := withPorts false (hostProgram [w] ++ later) s) (w := w) (portEvent_of_offered rfl rfl rfl) rfl
  rw [afterCommand_withPorts, withPorts_withPorts] at hexec
  refine ⟨_, _, rfl, hexec, ?_, acceptedWord_of_command rfl rfl rfl, acceptedWord_of_silent rfl⟩
  cases hb : isTick (decode w)
  · exact step_of_hold rfl
  · exact step_of_take rfl

theorem hostProgram_run (ws : List CmdWord) (s : State) (later : List HostCycle) (hv : s.outValid = false) :
    acceptedWords (2 * ws.length) (withPorts false (hostProgram ws ++ later) s) = ws ∧
    Sys2Proof.core.run (2 * ws.length) (withPorts false (hostProgram ws ++ later) s) =
      .next (withPorts false later (afterCommands ws s)) := by
  induction ws generalizing s with
  | nil => exact ⟨rfl, rfl⟩
  | cons w ws ih =>
    obtain ⟨s0, s1, hs0, h0, h1, a0, a1⟩ := hostProgram_word w (hostProgram ws ++ later) s
    obtain ⟨hacc, hrun⟩ := ih (pairTaken (afterCommand w s)) rfl
    rw [pairTaken_eq_withPorts, withPorts_withPorts] at hacc hrun
    have hstart : withPorts false (hostProgram (w :: ws) ++ later) s = s0 := by rw [hs0]; rfl
    rw [hstart, List.length_cons, Nat.mul_succ, acceptedWords_succ h0, acceptedWords_succ h1, a0, a1, hacc,
      core_run_succ h0, core_run_succ h1, hrun, afterCommands_withPorts]
    exact ⟨rfl, rfl⟩

theorem afterCommands_outValid {s : State} (hv : s.outValid = false) (ws : List CmdWord) :
    (afterCommands ws s).outValid = false := by
  induction ws generalizing s with
  | nil => exact hv
  | cons w ws ih =>
    have hw := afterCommand_withPorts w s.outValid s.host s
    rw [withPorts_self] at hw
    exact ih (congrArg State.outValid hw)

theorem withPorts_of_not {s : State} (hv : s.outValid = false) (h : List HostCycle) :
    withPorts false h s = { s with host := h } := by
  rw [← hv]
  rfl

theorem hostProgram_rst (ws : List CmdWord) : ∀ c ∈ hostProgram ws, c.rst = false := by
  intro c hc
  obtain ⟨w, -, hw⟩ := List.mem_flatMap.1 hc
  rcases List.mem_pair.1 hw with rfl | rfl <;> rfl

theorem hostProgram_length (ws : List CmdWord) : (hostProgram ws).length = 2 * ws.length := by
  induction ws with
  | nil => rfl
  | cons w ws ih =>
    have : hostProgram (w :: ws) = hostProgram [w] ++ hostProgram ws := rfl
    rw [this, List.length_append, ih, List.length_cons, Nat.mul_succ]
    exact Nat.add_comm _ _

/-- Settles O11: `run_without_reset` for any host, and `hostProgram_run` for the host that offers, then takes, whose pairs are those of the first clause. -/
theorem pairsAreTickResults : Obligations.PairsAreTickResults := by
  refine ⟨run_without_reset, fun ws s later hv => ?_⟩
  obtain ⟨hacc, hrun⟩ := hostProgram_run ws s later hv
  dsimp only
  rw [← withPorts_of_not hv, ← withPorts_of_not (afterCommands_outValid hv ws)]
  refine ⟨hacc, hrun, ?_⟩
  obtain ⟨t, ht, -, hpairs⟩ := run_without_reset (2 * ws.length) (withPorts false (hostProgram ws ++ later) s) (by
    rw [withPorts_host, ← hostProgram_length, List.take_left]
    exact hostProgram_rst ws)
  obtain rfl := next_inj (ht.symm.trans hrun)
  rw [hacc, waitingPair_of_not rfl, waitingPair_of_not rfl, tickResults_withPorts] at hpairs
  simpa using hpairs

end Sys2Proof.Machine
end

section
/-! PROOFS. The arithmetic of binary64 (spec/00_scope.md R10, R270): for each operation of `Machine/Arith.lean` one equation per kind of operand (NaN, infinity, zero, finite), then that its finite results are correctly rounded, from `roundNum_roundsTo`. -/

namespace Sys2Proof.Machine

/-! ### Kinds of operands -/

theorem isNaN_of_isInf {x : Num64} (h : isInf x = true) : isNaN x = false :=
  isNaN_eq_false_iff.2 (isInf_iff.1 h).le

theorem isZero_iff {x : Num64} : isZero x = true ↔ magBits x = 0 := by simp [isZero]

theorem isFinite_of_isZero {x : Num64} (h : isZero x = true) : isFinite x = true := by
  rw [isFinite_iff, isZero_iff.1 h]
  decide

theorem isZero_of_isInf {x : Num64} (h : isInf x = true) : isZero x = false := by
  simp [isZero, isInf_iff.1 h, infMag]

@[simp] theorem isInf_negate (b : Num64) : isInf (negate b) = isInf b := by simp [isInf]

theorem isNeg_mkNum_inf (neg : Bool) : isNeg (mkNum neg infMag) = neg := isNeg_mkNum (by decide)
theorem isNeg_mkNum_zero (neg : Bool) : isNeg (mkNum neg 0) = neg := isNeg_mkNum (by decide)

theorem mkNum_zero (neg : Bool) : mkNum neg 0 = if neg then 0x8000000000000000#64 else n0 := by
  cases neg <;> rfl

theorem or_isNaN_eq_false {a b : Num64} (ha : isNaN a = false) (hb : isNaN b = false) :
    ¬ (isNaN a || isNaN b) = true := by simp [ha, hb]

/-- A value is zero exactly when its significand is. -/
theorem signif_eq_zero_iff {x : Num64} : signif x = 0 ↔ isZero x = true := by
  rw [isZero_iff]
  unfold signif
  split <;> omega

theorem signif_ne_zero {x : Num64} (h : isZero x = false) : signif x ≠ 0 :=
  fun h0 => by simp [signif_eq_zero_iff.1 h0] at h

theorem valueOf_of_isZero {x : Num64} (h : isZero x = true) : valueOf x = 0 := by
  rw [valueOf, signedSignif, signif_eq_zero_iff.2 h]
  simp

/-! ### Signed magnitudes -/

/-- A magnitude with its sign. -/
def withSign (neg : Bool) (x : ℝ) : ℝ := if neg then -x else x

theorem withSign_zero (neg : Bool) : withSign neg 0 = 0 := by cases neg <;> simp [withSign]

theorem withSign_mul (m n : Bool) (x y : ℝ) : withSign m x * withSign n y = withSign (m != n) (x * y) := by
  cases m <;> cases n <;> simp [withSign]

theorem withSign_div (m n : Bool) (x y : ℝ) : withSign m x / withSign n y = withSign (m != n) (x / y) := by
  cases m <;> cases n <;> simp [withSign, neg_div, div_neg]

theorem valueOf_eq_withSign (x : Num64) : (valueOf x : ℝ) = withSign (isNeg x) ((signif x : ℝ) * 2 ^ expo x) :=
  valueOf_real x

theorem ne_zero_of_approx {m : Nat} {e : Int} {x : ℝ} (h : Approx m e x) (hx : x ≠ 0) : m ≠ 0 := by
  rintro rfl
  rcases h with h | ⟨hodd, -⟩
  · exact hx (by simp [h])
  · omega

/-- Correct rounding of a magnitude, zero or not. -/
theorem roundNum_withSign {m : Nat} {e : Int} {x : ℝ} (neg : Bool) (h0 : x = 0 → m = 0)
    (h : x ≠ 0 → Approx m e x) : roundsTo (withSign neg x) (roundNum neg m e) := by
  by_cases hx : x = 0
  · rw [h0 hx, roundNum_zero, hx, withSign_zero]
    exact roundsTo_zero neg
  · exact roundNum_roundsTo (ne_zero_of_approx (h hx) hx) (h hx) neg

/-- A magnitude is zero exactly when its significand is. -/
theorem natCast_mul_zpow_eq_zero {m : Nat} {e : Int} : (m : ℝ) * 2 ^ e = 0 ↔ m = 0 := by
  simp [zpow_ne_zero]

/-! ### Addition and subtraction -/

theorem fadd_eq {a b : Num64} (ha : isNaN a = false) (hb : isNaN b = false) :
    fadd a b = addNonNaN (nanOf .add a b) a b := by
  unfold fadd
  rw [if_neg (or_isNaN_eq_false ha hb)]

theorem fsub_eq {a b : Num64} (ha : isNaN a = false) (hb : isNaN b = false) :
    fsub a b = addNonNaN (nanOf .sub a b) a (negate b) := by
  unfold fsub
  rw [if_neg (or_isNaN_eq_false ha hb)]

theorem isNaN_fadd {a b : Num64} (h : isNaN a = true ∨ isNaN b = true) : isNaN (fadd a b) = true := by
  unfold fadd
  rw [if_pos (by simpa using h)]
  exact isNaN_nanOf _ _ _

theorem isNaN_fsub {a b : Num64} (h : isNaN a = true ∨ isNaN b = true) : isNaN (fsub a b) = true := by
  unfold fsub
  rw [if_pos (by simpa using h)]
  exact isNaN_nanOf _ _ _

theorem addNonNaN_inf_left {nan a b : Num64} (ha : isInf a = true) (h : isInf b = false ∨ isNeg a = isNeg b) :
    addNonNaN nan a b = a := by
  unfold addNonNaN
  rw [if_pos ha, if_neg]
  rcases h with h | h <;> simp [h]

theorem addNonNaN_inf_opposite {nan a b : Num64} (ha : isInf a = true) (hb : isInf b = true)
    (h : isNeg a ≠ isNeg b) : addNonNaN nan a b = nan := by
  unfold addNonNaN
  rw [if_pos ha, if_pos (by simpa [hb] using h)]

theorem addNonNaN_inf_right {nan a b : Num64} (ha : isInf a = false) (hb : isInf b = true) :
    addNonNaN nan a b = b := by
  unfold addNonNaN
  simp [ha, hb]

/-- A value in units of an exponent not above its own. -/
theorem valueOf_aligned {x : Num64} {e : Int} (h : e ≤ expo x) :
    valueOf x = ((signedSignif x * 2 ^ (expo x - e).toNat : ℤ) : ℚ) * 2 ^ e := by
  obtain ⟨k, hk⟩ := Int.eq_ofNat_of_zero_le (sub_nonneg.2 h)
  have he : expo x = k + e := by omega
  unfold valueOf
  rw [hk, Int.toNat_natCast, he, zpow_add₀ (by norm_num), zpow_natCast]
  push_cast
  ring

/-- The exponent at which `addNonNaN` adds: the smaller of the two. -/
def sumExpo (a b : Num64) : Int := min (expo a) (expo b)

/-- The exact sum of two finite numbers, in units of `2 ^ sumExpo a b`. -/
def sumSignif (a b : Num64) : Int :=
  signedSignif a * 2 ^ (expo a - sumExpo a b).toNat + signedSignif b * 2 ^ (expo b - sumExpo a b).toNat

theorem valueOf_add_valueOf (a b : Num64) : valueOf a + valueOf b = (sumSignif a b : ℚ) * 2 ^ sumExpo a b := by
  rw [valueOf_aligned (min_le_left (expo a) (expo b)), valueOf_aligned (min_le_right (expo a) (expo b)), ← add_mul,
    ← Int.cast_add]
  rfl

theorem addNonNaN_of_finite (nan : Num64) {a b : Num64} (ha : isFinite a = true) (hb : isFinite b = true) :
    addNonNaN nan a b =
      if sumSignif a b = 0 then mkNum (isNeg a && isNeg b) 0 else roundInt (sumSignif a b) (sumExpo a b) := by
  unfold addNonNaN
  rw [if_neg (by simp [isInf_of_isFinite ha]), if_neg (by simp [isInf_of_isFinite hb])]
  rfl

/-- The sum of two finite numbers is correctly rounded, and an exact zero has the sign of both operands or +. -/
theorem addNonNaN_finite (nan : Num64) {a b : Num64} (ha : isFinite a = true) (hb : isFinite b = true) :
    roundsTo ((valueOf a : ℝ) + valueOf b) (addNonNaN nan a b) ∧
    (valueOf a + valueOf b = 0 → addNonNaN nan a b = mkNum (isNeg a && isNeg b) 0) := by
  have hsum := valueOf_add_valueOf a b
  have hsumR : (valueOf a : ℝ) + valueOf b = (sumSignif a b : ℝ) * 2 ^ sumExpo a b := by
    rw [← Rat.cast_add, hsum, Rat.cast_mul, Rat.cast_intCast, Rat.cast_zpow, Rat.cast_ofNat]
  rw [addNonNaN_of_finite nan ha hb, hsumR, hsum]
  by_cases ht : sumSignif a b = 0
  · rw [if_pos ht, ht, Int.cast_zero, zero_mul]
    exact ⟨roundsTo_zero _, fun _ => rfl⟩
  · rw [if_neg ht]
    refine ⟨roundInt_roundsTo _ _ ht, fun h0 => absurd h0 ?_⟩
    exact mul_ne_zero (by exact_mod_cast ht) (by positivity)

theorem fadd_roundsTo {a b : Num64} (ha : isFinite a = true) (hb : isFinite b = true) :
    roundsTo ((valueOf a : ℝ) + valueOf b) (fadd a b) := by
  rw [fadd_eq (isNaN_of_isFinite ha) (isNaN_of_isFinite hb)]
  exact (addNonNaN_finite _ ha hb).1

theorem fsub_roundsTo {a b : Num64} (ha : isFinite a = true) (hb : isFinite b = true) :
    roundsTo ((valueOf a : ℝ) - valueOf b) (fsub a b) := by
  obtain ⟨hb', hv⟩ := negate_spec b hb
  have h := (addNonNaN_finite (nanOf .sub a b) ha hb').1
  rw [hv, Rat.cast_neg, ← sub_eq_add_neg] at h
  rwa [fsub_eq (isNaN_of_isFinite ha) (isNaN_of_isFinite hb)]

theorem fadd_zero_sum {a b : Num64} (ha : isFinite a = true) (hb : isFinite b = true)
    (h : valueOf a + valueOf b = 0) : fadd a b = mkNum (isNeg a && isNeg b) 0 := by
  rw [fadd_eq (isNaN_of_isFinite ha) (isNaN_of_isFinite hb)]
  exact (addNonNaN_finite _ ha hb).2 h

theorem fsub_zero_difference {a b : Num64} (ha : isFinite a = true) (hb : isFinite b = true)
    (h : valueOf a = valueOf b) : fsub a b = mkNum (isNeg a && !isNeg b) 0 := by
  obtain ⟨hb', hv⟩ := negate_spec b hb
  rw [fsub_eq (isNaN_of_isFinite ha) (isNaN_of_isFinite hb), ← isNeg_negate]
  exact (addNonNaN_finite _ ha hb').2 (by rw [hv, h, add_neg_cancel])

/-! ### Multiplication -/

theorem isNaN_fmul {a b : Num64} (h : isNaN a = true ∨ isNaN b = true) : isNaN (fmul a b) = true := by
  unfold fmul
  rw [if_pos (by simpa using h)]
  exact isNaN_nanOf _ _ _

theorem fmul_finite {a b : Num64} (ha : isFinite a = true) (hb : isFinite b = true) :
    fmul a b = roundNum (isNeg a != isNeg b) (signif a * signif b) (expo a + expo b) := by
  unfold fmul
  rw [if_neg (or_isNaN_eq_false (isNaN_of_isFinite ha) (isNaN_of_isFinite hb)),
    if_neg (by simp [isInf_of_isFinite ha, isInf_of_isFinite hb])]

theorem isNaN_fmul_inf_zero {a b : Num64} (h : isInf a = true ∧ isZero b = true ∨ isZero a = true ∧ isInf b = true) :
    isNaN (fmul a b) = true := by
  unfold fmul
  split
  · exact isNaN_nanOf _ _ _
  · rw [if_pos (by rcases h with ⟨h, -⟩ | ⟨-, h⟩ <;> simp [h]), if_pos (by rcases h with ⟨-, h⟩ | ⟨h, -⟩ <;> simp [h])]
    exact isNaN_nanOf _ _ _

theorem fmul_inf {a b : Num64} (h : isInf a = true ∨ isInf b = true) (ha : isNaN a = false) (hb : isNaN b = false)
    (za : isZero a = false) (zb : isZero b = false) : fmul a b = mkNum (isNeg a != isNeg b) infMag := by
  unfold fmul
  rw [if_neg (or_isNaN_eq_false ha hb), if_pos (by simpa using h), if_neg (by simp [za, zb])]

theorem fmul_roundsTo {a b : Num64} (ha : isFinite a = true) (hb : isFinite b = true) :
    roundsTo ((valueOf a : ℝ) * valueOf b) (fmul a b) := by
  have hprod : ((signif a : ℝ) * 2 ^ expo a) * (signif b * 2 ^ expo b) =
      ((signif a * signif b : ℕ) : ℝ) * 2 ^ (expo a + expo b) := by
    rw [zpow_add₀ (by norm_num)]
    push_cast
    ring
  rw [fmul_finite ha hb, valueOf_eq_withSign, valueOf_eq_withSign, withSign_mul, hprod]
  exact roundNum_withSign _ natCast_mul_zpow_eq_zero.1 fun _ => .inl rfl

/-- Settles O49: `addNonNaN_finite` and `fmul_roundsTo` for finite operands, the equations above for the others. -/
theorem roundingAddMul : Obligations.RoundingAddMul := by
  refine ⟨fun a b ha hb => ⟨fadd_roundsTo ha hb, fsub_roundsTo ha hb, fmul_roundsTo ha hb, ?_, ?_, ?_⟩,
    fun a b h => ⟨isNaN_fadd h, isNaN_fsub h, isNaN_fmul h⟩, fun a b ha hb => ?_, fun a b ha hb => ?_,
    fun a b ha hb => ⟨isNaN_fmul_inf_zero (.inl ⟨ha, hb⟩), isNaN_fmul_inf_zero (.inr ⟨hb, ha⟩)⟩, fun a b ha hb zb => ?_⟩
  · exact fun h => by rw [fadd_zero_sum ha hb h, mkNum_zero]
  · exact fun h => by rw [fsub_zero_difference ha hb h, mkNum_zero]
  · rw [fmul_finite ha hb, isNeg_roundNum]
  · have na := isNaN_of_isInf ha
    have nb := isNaN_of_isInf hb
    have hb' : isInf (negate b) = true := by rw [isInf_negate, hb]
    rw [fadd_eq na nb, fsub_eq na nb]
    constructor
    · intro hs
      rw [addNonNaN_inf_left ha (.inr hs), addNonNaN_inf_opposite ha hb' (by simp [hs])]
      exact ⟨rfl, isNaN_nanOf _ _ _⟩
    · intro hs
      rw [addNonNaN_inf_opposite ha hb hs, addNonNaN_inf_left ha (.inr (by rw [isNeg_negate]; exact Bool.eq_not_iff.2 hs))]
      exact ⟨isNaN_nanOf _ _ _, rfl⟩
  · have na := isNaN_of_isInf ha
    have nb := isNaN_of_isFinite hb
    have ib := isInf_of_isFinite hb
    have ha' : isInf (negate a) = true := by rw [isInf_negate, ha]
    rw [fadd_eq na nb, fadd_eq nb na, fsub_eq na nb, fsub_eq nb na, addNonNaN_inf_left ha (.inl ib),
      addNonNaN_inf_right ib ha, addNonNaN_inf_left ha (.inl (by rw [isInf_negate, ib])), addNonNaN_inf_right ib ha']
    exact ⟨rfl, rfl, rfl, ha', isNeg_negate a⟩
  · have na := isNaN_of_isInf ha
    have za := isZero_of_isInf ha
    rw [fmul_inf (.inl ha) na hb za zb, fmul_inf (.inr ha) hb na zb za, isNeg_mkNum_inf, isNeg_mkNum_inf]
    exact ⟨isInf_mkNum _, rfl, isInf_mkNum _, bne_comm⟩

/-! ### Division -/

theorem isNaN_fdiv {a b : Num64} (h : isNaN a = true ∨ isNaN b = true) : isNaN (fdiv a b) = true := by
  unfold fdiv
  rw [if_pos (by simpa using h)]
  exact isNaN_nanOf _ _ _

theorem isNaN_fdiv_inf_inf {a b : Num64} (ha : isInf a = true) (hb : isInf b = true) : isNaN (fdiv a b) = true := by
  unfold fdiv
  rw [if_neg (or_isNaN_eq_false (isNaN_of_isInf ha) (isNaN_of_isInf hb)), if_pos ha, if_pos hb]
  exact isNaN_nanOf _ _ _

theorem fdiv_inf_finite {a b : Num64} (ha : isInf a = true) (hb : isFinite b = true) :
    fdiv a b = mkNum (isNeg a != isNeg b) infMag := by
  unfold fdiv
  rw [if_neg (or_isNaN_eq_false (isNaN_of_isInf ha) (isNaN_of_isFinite hb)), if_pos ha,
    if_neg (by simp [isInf_of_isFinite hb])]

theorem fdiv_finite_inf {a b : Num64} (ha : isFinite a = true) (hb : isInf b = true) :
    fdiv a b = mkNum (isNeg a != isNeg b) 0 := by
  unfold fdiv
  rw [if_neg (or_isNaN_eq_false (isNaN_of_isFinite ha) (isNaN_of_isInf hb)), if_neg (by simp [isInf_of_isFinite ha]),
    if_pos hb]

/-- The quotient of finite operands, by the kind of the divisor. -/
theorem fdiv_finite {a b : Num64} (ha : isFinite a = true) (hb : isFinite b = true) :
    fdiv a b =
      if isZero b then (if isZero a then nanOf .div a b else mkNum (isNeg a != isNeg b) infMag)
      else roundNum (isNeg a != isNeg b) (stickyDiv (signif a * 2 ^ 110) (signif b)) (expo a - expo b - 111) := by
  unfold fdiv
  rw [if_neg (or_isNaN_eq_false (isNaN_of_isFinite ha) (isNaN_of_isFinite hb)), if_neg (by simp [isInf_of_isFinite ha]),
    if_neg (by simp [isInf_of_isFinite hb])]

theorem fdiv_of_not_zero {a b : Num64} (ha : isFinite a = true) (hb : isFinite b = true) (zb : isZero b = false) :
    fdiv a b =
      roundNum (isNeg a != isNeg b) (stickyDiv (signif a * 2 ^ 110) (signif b)) (expo a - expo b - 111) := by
  rw [fdiv_finite ha hb, if_neg (by simp [zb])]

theorem isNaN_fdiv_zero_zero {a b : Num64} (ha : isZero a = true) (hb : isZero b = true) : isNaN (fdiv a b) = true := by
  rw [fdiv_finite (isFinite_of_isZero ha) (isFinite_of_isZero hb), if_pos hb, if_pos ha]
  exact isNaN_nanOf _ _ _

theorem fdiv_by_zero {a b : Num64} (ha : isFinite a = true) (za : isZero a = false) (hb : isZero b = true) :
    fdiv a b = mkNum (isNeg a != isNeg b) infMag := by
  rw [fdiv_finite ha (isFinite_of_isZero hb), if_pos hb, if_neg (by simp [za])]

/-- The quotient of the significands, scaled by 2^110, has at least 56 bits: enough for a sticky bit. -/
theorem stickyDiv_signif_approx {a b : Num64} (ha : signif a ≠ 0) (hb : signif b ≠ 0) :
    Approx (stickyDiv (signif a * 2 ^ 110) (signif b)) (expo a - expo b - 111)
      (((signif a : ℝ) * 2 ^ expo a) / (signif b * 2 ^ expo b)) := by
  have hbig : 2 ^ 55 ≤ signif a * 2 ^ 110 / signif b := by
    rw [Nat.le_div_iff_mul_le (Nat.pos_of_ne_zero hb)]
    have := signif_lt b
    omega
  have h := sticky_approx (signif a * 2 ^ 110) (signif b) (expo a - expo b - 110) (Nat.pos_of_ne_zero hb) hbig
  have hquot : ((signif a * 2 ^ 110 : ℕ) : ℝ) / signif b * 2 ^ (expo a - expo b - 110) =
      ((signif a : ℝ) * 2 ^ expo a) / (signif b * 2 ^ expo b) := by
    rw [zpow_sub₀ (by norm_num), zpow_sub₀ (by norm_num), zpow_ofNat, Nat.cast_mul, Nat.cast_pow,
      Nat.cast_ofNat]
    field_simp
  rwa [hquot, sub_sub] at h

theorem fdiv_roundsTo {a b : Num64} (ha : isFinite a = true) (hb : isFinite b = true) (zb : isZero b = false) :
    roundsTo ((valueOf a : ℝ) / valueOf b) (fdiv a b) := by
  have hb0 : signif b ≠ 0 := signif_ne_zero zb
  rw [fdiv_of_not_zero ha hb zb, valueOf_eq_withSign, valueOf_eq_withSign, withSign_div]
  by_cases ha0 : signif a = 0
  · have hzero : stickyDiv (signif a * 2 ^ 110) (signif b) = 0 := by simp [stickyDiv, ha0]
    exact roundNum_withSign _ (fun _ => hzero) fun h => absurd (by simp [ha0]) h
  · have hx : ((signif a : ℝ) * 2 ^ expo a) / (signif b * 2 ^ expo b) ≠ 0 :=
      div_ne_zero (mt natCast_mul_zpow_eq_zero.1 ha0) (mt natCast_mul_zpow_eq_zero.1 hb0)
    exact roundNum_withSign _ (fun h => absurd h hx) fun _ => stickyDiv_signif_approx ha0 hb0

/-! ### Square root -/

theorem isNaN_fsqrt {a : Num64} (h : isNaN a = true ∨ isNeg a = true ∧ isZero a = false) : isNaN (fsqrt a) = true := by
  unfold fsqrt
  split
  · exact isNaN_nanOf _ _ _
  · next hn =>
    obtain ⟨hs, hz⟩ := h.resolve_left hn
    rw [if_neg (by simp [hz]), if_pos hs]
    exact isNaN_nanOf _ _ _

theorem fsqrt_zero {a : Num64} (h : isZero a = true) : fsqrt a = a := by
  unfold fsqrt
  rw [if_neg (by simp [isNaN_of_isFinite (isFinite_of_isZero h)]), if_pos h]

theorem fsqrt_pinf : fsqrt pinf = pinf := by
  unfold fsqrt
  decide

/-- The scaling of `fsqrt`: it makes the exponent even. -/
def sqrtShift (x : Num64) : Nat := if expo x % 2 = 0 then 110 else 111

/-- The integer whose root `fsqrt` takes. -/
def sqrtArg (x : Num64) : Nat := signif x * 2 ^ sqrtShift x

/-- `2 * r`, with its lowest bit set when `r` is not the exact root of `n` (the sticky bit). -/
def stickySqrt (n : Nat) : Nat := 2 * isqrt 84 n + if isqrt 84 n * isqrt 84 n = n then 0 else 1

theorem fsqrt_pos {a : Num64} (ha : isFinite a = true) (hz : isZero a = false) (hs : isNeg a = false) :
    fsqrt a = roundNum false (stickySqrt (sqrtArg a)) ((expo a - sqrtShift a) / 2 - 1) := by
  unfold fsqrt
  rw [if_neg (by simp [isNaN_of_isFinite ha]), if_neg (by simp [hz]), if_neg (by simp [hs]),
    if_neg (by simp [isInf_of_isFinite ha])]
  rfl

/-- The integer root with its sticky bit approximates the real root. -/
theorem stickySqrt_approx {n : Nat} (E : Int) (hlo : 2 ^ 110 ≤ n) (hhi : n < 4 ^ 84) :
    Approx (stickySqrt n) (E - 1) (Real.sqrt n * 2 ^ E) := by
  obtain ⟨hle, hlt⟩ := isqrt_spec 84 n hhi
  unfold stickySqrt
  generalize isqrt 84 n = r at hle hlt ⊢
  have h55 : 2 ^ 55 ≤ r := by
    by_contra hc
    have : (r + 1) * (r + 1) ≤ 2 ^ 55 * 2 ^ 55 := Nat.mul_le_mul (by omega) (by omega)
    omega
  have hp : (0 : ℝ) < 2 ^ (E - 1) := by positivity
  have hE : Real.sqrt n * 2 ^ E = 2 * Real.sqrt n * 2 ^ (E - 1) := by
    rw [zpow_sub_one₀ (by norm_num)]
    field_simp
  have hr0 : (0 : ℝ) ≤ r := Nat.cast_nonneg r
  rw [hE]
  by_cases hsq : r * r = n
  · left
    rw [if_pos hsq, ← hsq, Nat.cast_mul, Real.sqrt_mul_self hr0]
    push_cast
    ring
  · right
    have h1 : (r : ℝ) < Real.sqrt n := by
      apply Real.lt_sqrt_of_sq_lt
      rw [sq]
      exact_mod_cast lt_of_le_of_ne hle hsq
    have h2 : Real.sqrt n < r + 1 := by
      rw [Real.sqrt_lt' (by positivity), sq]
      exact_mod_cast hlt
    rw [if_neg hsq]
    refine ⟨by omega, by omega, mul_lt_mul_of_pos_right ?_ hp, mul_lt_mul_of_pos_right ?_ hp⟩
    · push_cast
      linarith
    · push_cast
      linarith

theorem sqrtArg_bounds {a : Num64} (h : signif a ≠ 0) : 2 ^ 110 ≤ sqrtArg a ∧ sqrtArg a < 4 ^ 84 := by
  have h1 := signif_lt a
  have h2 := Nat.pos_of_ne_zero h
  unfold sqrtArg sqrtShift
  split <;> omega

/-- The value in terms of the scaled integer: the exponent that is left is even. -/
theorem sqrt_magnitude (a : Num64) :
    Real.sqrt ((signif a : ℝ) * 2 ^ expo a) = Real.sqrt (sqrtArg a) * 2 ^ ((expo a - sqrtShift a) / 2) := by
  have heven : expo a = sqrtShift a + ((expo a - sqrtShift a) / 2 + (expo a - sqrtShift a) / 2) := by
    unfold sqrtShift
    split <;> omega
  generalize (expo a - sqrtShift a) / 2 = k at heven ⊢
  have hw : (0 : ℝ) ≤ 2 ^ k := by positivity
  rw [heven, zpow_add₀ (by norm_num), zpow_add₀ (by norm_num), zpow_natCast, ← mul_assoc, Real.sqrt_mul (by positivity),
    Real.sqrt_mul_self hw, sqrtArg]
  push_cast
  rfl

theorem isNeg_eq_false_of_nonneg {a : Num64} (h : fle n0 a = true) (hz : isZero a = false) : isNeg a = false := by
  obtain ⟨-, -, hk⟩ := fle_iff.1 h
  have hm : magBits a ≠ 0 := fun h0 => by simp [isZero_iff.2 h0] at hz
  have h0 : orderKey n0 = 0 := by decide
  rw [h0] at hk
  unfold orderKey at hk
  by_contra hc
  rw [if_pos (by simpa using hc)] at hk
  omega

theorem fsqrt_roundsTo {a : Num64} (ha : isFinite a = true) (hz : isZero a = false) (hs : isNeg a = false) :
    roundsTo (Real.sqrt (valueOf a)) (fsqrt a) := by
  have h0 : signif a ≠ 0 := signif_ne_zero hz
  obtain ⟨hlo, hhi⟩ := sqrtArg_bounds h0
  have h := stickySqrt_approx ((expo a - sqrtShift a) / 2) hlo hhi
  rw [fsqrt_pos ha hz hs, valueOf_eq_withSign, hs, withSign, if_neg (by simp), sqrt_magnitude]
  have hpos : (0 : ℝ) < sqrtArg a := by
    have : 0 < sqrtArg a := by omega
    exact_mod_cast this
  exact roundNum_roundsTo (ne_zero_of_approx h (by positivity)) h false

/-- A pattern is its sign and its magnitude. -/
theorem eq_mkNum (x : Num64) : x = mkNum (isNeg x) (magBits x) := by
  apply BitVec.eq_of_toNat_eq
  have hx := x.isLt
  unfold mkNum isNeg magBits
  rw [BitVec.toNat_ofNat]
  split <;> simp only [decide_eq_true_eq] at * <;> omega

/-- Either zero is its own root, correctly rounded. -/
theorem fsqrt_of_zero {a : Num64} (h : isZero a = true) :
    roundsTo (Real.sqrt (valueOf a)) (fsqrt a) ∧ isNeg (fsqrt a) = isNeg a := by
  have ha : a = mkNum (isNeg a) 0 := by
    rw [← isZero_iff.1 h]
    exact eq_mkNum a
  rw [fsqrt_zero h, valueOf_of_isZero h, Rat.cast_zero, Real.sqrt_zero]
  exact ⟨ha ▸ roundsTo_zero (isNeg a), rfl⟩

/-- Settles O50: `fdiv_roundsTo` and `fsqrt_roundsTo` for finite operands, the equations above for the others. -/
theorem roundingDivSqrt : Obligations.RoundingDivSqrt := by
  refine ⟨fun a b ha hb zb => ⟨fdiv_roundsTo ha hb zb, by rw [fdiv_of_not_zero ha hb zb, isNeg_roundNum]⟩,
    fun a b h => isNaN_fdiv h, fun a b h => ?_, fun a b ha hb => ?_, fun a b ha za hb => ?_, fun a ha h0 => ?_,
    fun a h => isNaN_fsqrt h, fsqrt_pinf⟩
  · rcases h with ⟨ha, hb⟩ | ⟨ha, hb⟩
    · exact isNaN_fdiv_inf_inf ha hb
    · exact isNaN_fdiv_zero_zero ha hb
  · rw [fdiv_inf_finite ha hb, fdiv_finite_inf hb ha, isNeg_mkNum_inf, isNeg_mkNum_zero]
    exact ⟨isInf_mkNum _, rfl, isZero_mkNum _, bne_comm⟩
  · rw [fdiv_by_zero ha za hb, isNeg_mkNum_inf]
    exact ⟨isInf_mkNum _, rfl⟩
  · cases hz : isZero a
    · have hs := isNeg_eq_false_of_nonneg h0 hz
      exact ⟨fsqrt_roundsTo ha hz hs, by rw [fsqrt_pos ha hz hs, isNeg_roundNum, hs], by simp⟩
    · obtain ⟨hr, hn⟩ := fsqrt_of_zero hz
      exact ⟨hr, hn, fun _ => fsqrt_zero hz⟩

end Sys2Proof.Machine
end

section
/-! PROOFS. RN32 (spec/00_scope.md R12, spec/30_encoding.md R82): a binary32 pattern is its sign and its magnitude in units of 2^-149, so that the rounding lemmas for 23 fraction bits apply. -/

namespace Sys2Proof.Machine

/-- The binary32 pattern with this sign and magnitude. -/
def mkNum32 (neg : Bool) (mag : Nat) : Num32 := BitVec.ofNat 32 (mag + if neg then 2 ^ 31 else 0)

theorem isNeg32_mkNum32 {neg : Bool} {k : Nat} (h : k < 2 ^ 31) : isNeg32 (mkNum32 neg k) = neg := by
  unfold isNeg32 mkNum32
  rw [BitVec.toNat_ofNat]
  cases neg
  · simp only [Bool.false_eq_true, if_false, decide_eq_false_iff_not]; omega
  · simp only [if_true, decide_eq_true_eq]; omega

theorem magBits32_mkNum32 {neg : Bool} {k : Nat} (h : k < 2 ^ 31) : magBits32 (mkNum32 neg k) = k := by
  unfold magBits32 mkNum32
  rw [BitVec.toNat_ofNat]
  cases neg
  · simp only [Bool.false_eq_true, if_false]; omega
  · simp only [if_true]; omega

theorem toNat_mkNum32_mod (neg : Bool) {k : Nat} : (mkNum32 neg k).toNat % 2 = k % 2 := by
  unfold mkNum32
  rw [BitVec.toNat_ofNat]
  cases neg
  · simp only [Bool.false_eq_true, if_false]; omega
  · simp only [if_true]; omega

theorem isFinite32_iff {y : Num32} : isFinite32 y = true ↔ magBits32 y < infMag32 := by simp [isFinite32]
theorem isInf32_iff {y : Num32} : isInf32 y = true ↔ magBits32 y = infMag32 := by simp [isInf32]
theorem isNaN32_iff {y : Num32} : isNaN32 y = true ↔ infMag32 < magBits32 y := by simp [isNaN32]

/-- A binary32 pattern's magnitude in units of 2^-149, with its sign. -/
theorem valueOf32_eq_units (y : Num32) :
    valueOf32 y = (if isNeg32 y then -(fmtUnits 23 (magBits32 y) : ℚ) else fmtUnits 23 (magBits32 y)) * (2 : ℚ) ^ (-149 : ℤ) := by
  have hmag : (if magBits32 y < 2 ^ 23 then (magBits32 y : ℚ) * (2 : ℚ) ^ (-149 : ℤ)
      else ((magBits32 y % 2 ^ 23 + 2 ^ 23 : ℕ) : ℚ) * (2 : ℚ) ^ (((magBits32 y / 2 ^ 23 : ℕ) : ℤ) - 150)) =
      (fmtUnits 23 (magBits32 y) : ℚ) * (2 : ℚ) ^ (-149 : ℤ) := by
    unfold fmtUnits
    split
    · rfl
    · have he : ((magBits32 y / 2 ^ 23 : ℕ) : ℤ) - 150 = ((magBits32 y / 2 ^ 23 - 1 : ℕ) : ℤ) + (-149) := by omega
      rw [he, zpow_add₀ (by norm_num), zpow_natCast, Nat.cast_mul _ (2 ^ _), Nat.cast_pow, Nat.cast_ofNat, mul_assoc]
  unfold valueOf32
  dsimp only
  rw [hmag]
  split
  · rw [neg_mul]
  · rfl

theorem valueOf32_eq_signedUnits (y : Num32) :
    (valueOf32 y : ℝ) = signedUnits 23 (-149) (isNeg32 y) (magBits32 y) := by
  rw [valueOf32_eq_units, signedUnits]
  split
  · push_cast
    ring
  · push_cast
    ring

/-- The middle of the largest finite binary32 magnitude and the next one is `overflowBound32`. -/
theorem overflowBound32_eq :
    ((fmtUnits 23 (infMag32 - 1) : ℝ) + fmtUnits 23 infMag32) * 2 ^ (-149 : ℤ) = 2 * (overflowBound32 : ℝ) := by
  have h1 : fmtUnits 23 (infMag32 - 1) = 16777215 * 2 ^ 253 := fmtUnits_raw 23 253 16777215 (by norm_num) (by norm_num)
  have h2 : fmtUnits 23 infMag32 = 16777216 * 2 ^ 253 := fmtUnits_raw 23 253 16777216 (by norm_num) (by norm_num)
  rw [h1, h2, overflowBound32]
  norm_num

/-! ### RN32 -/

/-- The binary32 magnitude that RN32 gives a value that is not a NaN. -/
def rn32Mag (x : Num64) : Nat := if isInf x then infMag32 else roundMag 23 (-149) infMag32 (signif x) (expo x)

theorem rn32_eq {x : Num64} (h : isNaN x = false) : rn32 x = mkNum32 (isNeg x) (rn32Mag x) := by
  unfold rn32
  rw [if_neg (by simp [h])]
  rfl

theorem isNaN32_rn32 {x : Num64} (h : isNaN x = true) : isNaN32 (rn32 x) = true := by
  unfold rn32
  rw [if_pos h]
  split
  · next hf => exact isNaN32_iff.2 hf
  · decide

theorem rn32Mag_lt (x : Num64) : rn32Mag x < 2 ^ 31 := by
  have htop : infMag32 < 2 ^ 31 := by decide
  unfold rn32Mag roundMag
  split
  · exact htop
  · split
    · norm_num
    · exact lt_of_le_of_lt (min_le_left _ _) htop

theorem isNeg32_rn32 {x : Num64} (h : isNaN x = false) : isNeg32 (rn32 x) = isNeg x := by
  rw [rn32_eq h, isNeg32_mkNum32 (rn32Mag_lt x)]

theorem magBits32_rn32 {x : Num64} (h : isNaN x = false) : magBits32 (rn32 x) = rn32Mag x := by
  rw [rn32_eq h, magBits32_mkNum32 (rn32Mag_lt x)]

theorem isInf32_rn32 {x : Num64} (h : isInf x = true) : isInf32 (rn32 x) = true := by
  rw [isInf32_iff, magBits32_rn32 (isNaN_of_isInf h), rn32Mag, if_pos h]

/-- A zero rounds to a zero. -/
theorem rn32_zero_roundsTo {x : Num64} (h : isZero x = true) : roundsTo32 (valueOf x) (rn32 x) := by
  have hn := isNaN_of_isFinite (isFinite_of_isZero h)
  have hmag : magBits32 (rn32 x) = 0 := by
    rw [magBits32_rn32 hn, rn32Mag, if_neg (by simp [isInf_of_isFinite (isFinite_of_isZero h)]),
      signif_eq_zero_iff.2 h]
    rfl
  have hv : valueOf32 (rn32 x) = 0 := by
    rw [valueOf32_eq_units, hmag, fmtUnits_zero]
    simp
  rw [valueOf_of_isZero h]
  constructor
  · intro _
    refine ⟨isFinite32_iff.2 (by rw [hmag]; decide), fun z _ => ?_⟩
    rw [hv, sub_zero, sub_zero, abs_zero]
    exact ⟨abs_nonneg _, fun h0 => .inl (abs_eq_zero.1 h0.symm)⟩
  · intro hb
    have : (0 : ℚ) < overflowBound32 := by unfold overflowBound32; norm_num
    rw [abs_zero] at hb
    exact absurd hb (not_le.2 this)

theorem abs_valueOf_eq_signif (x : Num64) : |(valueOf x : ℝ)| = (signif x : ℝ) * 2 ^ expo x := by
  have h0 : (0 : ℝ) ≤ (signif x : ℝ) * 2 ^ expo x := by positivity
  rw [valueOf_real]
  split
  · rw [abs_neg, abs_of_nonneg h0]
  · exact abs_of_nonneg h0

theorem valueOf_neg_iff {x : Num64} (hz : isZero x = false) : valueOf x < 0 ↔ isNeg x = true := by
  have hm : signif x ≠ 0 := signif_ne_zero hz
  have hpos : (0 : ℝ) < (signif x : ℝ) * 2 ^ expo x := by
    have := Nat.pos_of_ne_zero hm
    positivity
  rw [← Rat.cast_lt (K := ℝ), Rat.cast_zero, valueOf_real]
  cases isNeg x
  · simpa using hpos.le
  · simpa using hpos

/-- A finite number that is not zero rounds to a nearest binary32 number, or to the infinity of its sign. -/
theorem rn32_nonzero_roundsTo {x : Num64} (hf : isFinite x = true) (hz : isZero x = false) :
    roundsTo32 (valueOf x) (rn32 x) := by
  have hm : signif x ≠ 0 := signif_ne_zero hz
  have hn := isNaN_of_isFinite hf
  have happrox : Approx (signif x) (expo x) ((signif x : ℝ) * 2 ^ expo x) := .inl rfl
  have hval := valueOf_real x
  have hfin := rawMag_lt_iff (fb := 23) (by norm_num) (by norm_num) (-149) hm happrox (top := infMag32) (by decide) (by decide)
  rw [overflowBound32_eq, ← abs_valueOf_eq_signif] at hfin
  have hmag : rn32Mag x = min infMag32 (rawMag 23 (-149) (signif x) (expo x)) := by
    rw [rn32Mag, if_neg (by simp [isInf_of_isFinite hf]), roundMag_eq _ _ _ hm]
  have hbound : ∀ q : ℚ, |valueOf x| < q ↔ |(valueOf x : ℝ)| < q := fun q => by
    rw [← Rat.cast_abs, Rat.cast_lt]
  constructor
  · intro hlt
    rw [hbound] at hlt
    have hk := hfin.2 (by linarith)
    rw [min_eq_right hk.le] at hmag
    refine ⟨isFinite32_iff.2 (by rw [magBits32_rn32 hn, hmag]; exact hk), fun z _ => ?_⟩
    have near := signed_nearest (fb := 23) (by norm_num) (by norm_num) (-149) hm happrox (isNeg x) (isNeg32 z) (magBits32 z)
    rw [← hval, ← valueOf32_eq_signedUnits, ← hmag, ← magBits32_rn32 hn, ← isNeg32_rn32 hn, ← valueOf32_eq_signedUnits,
      magBits32_rn32 hn] at near
    rw [rn32_eq hn, toNat_mkNum32_mod, ← rn32_eq hn]
    exact_mod_cast near
  · intro hge
    rw [← not_lt, hbound, not_lt] at hge
    have hk : infMag32 ≤ rawMag 23 (-149) (signif x) (expo x) := by
      by_contra hc
      have := hfin.1 (by omega)
      linarith
    rw [min_eq_left hk] at hmag
    rw [isInf32_iff, magBits32_rn32 hn, isNeg32_rn32 hn, valueOf_neg_iff hz]
    exact ⟨hmag, Iff.rfl⟩

/-- Settles O59: zeros apart, the rounding lemmas for a format of 23 fraction bits. -/
theorem binary32Rounding : Obligations.Binary32Rounding := by
  refine fun x => ⟨fun hf => ?_, isInf32_rn32, isNeg32_rn32, isNaN32_rn32⟩
  cases hz : isZero x
  · exact rn32_nonzero_roundsTo hf hz
  · exact rn32_zero_roundsTo hz

end Sys2Proof.Machine
end

section
/-! PROOFS. The vocabulary of numbers (spec/00_scope.md R7, R8, R10, R12): that an integer part and what is left of it are binary64 numbers, so that `frac` is exact, and the values of the literals. -/

namespace Sys2Proof.Machine

/-! ### floor and frac -/

theorem valueOf_n0 : valueOf n0 = 0 := by decide +kernel
theorem valueOf_n1 : valueOf n1 = 1 := by decide +kernel

/-- `floor` of a finite number is its integer part (R12). -/
theorem floorInt_le_lt {p : Num64} (h : isFinite p = true) :
    (floorInt p : ℚ) ≤ valueOf p ∧ valueOf p < floorInt p + 1 := by
  rw [floorInt_eq_floor h]
  exact ⟨Int.floor_le _, Int.lt_floor_add_one _⟩

theorem isNeg_eq_false_or_zero {p : Num64} (h : fle n0 p = true) : isNeg p = false ∨ isZero p = true := by
  cases hz : isZero p
  · exact .inl (isNeg_eq_false_of_nonneg h hz)
  · exact .inr rfl

/-- The value of a number at least 0 by its significand. -/
theorem valueOf_of_nonneg {p : Num64} (h : fle n0 p = true) : valueOf p = (signif p : ℚ) * 2 ^ expo p := by
  unfold valueOf signedSignif
  rcases isNeg_eq_false_or_zero h with hs | hz
  · rw [if_neg (by simp [hs]), Int.cast_natCast]
  · simp [signif_eq_zero_iff.2 hz]

/-- The integer part of a finite number at least 0 is itself a binary64 number: the number, or an integer of less than 54 bits. -/
theorem floor_representable {p : Num64} (hf : isFinite p = true) (h : fle n0 p = true) :
    (valueOf p = floorInt p) ∨ ((floorInt p).natAbs < 2 ^ 53 ∧ expo p < 0) := by
  rw [floorInt_eq_floor hf, valueOf_of_nonneg h]
  rcases le_or_gt 0 (expo p) with he | he
  · left
    obtain ⟨k, hk⟩ := Int.eq_ofNat_of_zero_le he
    rw [hk, zpow_natCast]
    have : (signif p : ℚ) * 2 ^ k = ((signif p * 2 ^ k : ℤ) : ℚ) := by push_cast; rfl
    rw [this, Int.floor_intCast]
  · right
    have hle : (signif p : ℚ) * 2 ^ expo p ≤ signif p :=
      mul_le_of_le_one_right (Nat.cast_nonneg _) (zpow_le_one_of_nonpos₀ (by norm_num) he.le)
    have h0 : 0 ≤ ⌊(signif p : ℚ) * 2 ^ expo p⌋ := Int.floor_nonneg.2 (by positivity)
    have h1 : ⌊(signif p : ℚ) * 2 ^ expo p⌋ ≤ signif p := by
      have := Int.floor_le_floor hle
      rwa [Int.floor_natCast] at this
    have := signif_lt p
    exact ⟨by omega, he⟩

theorem ofInt_floorInt {p : Num64} (hf : isFinite p = true) (h : fle n0 p = true) :
    isFinite (ofInt (floorInt p)) = true ∧ valueOf (ofInt (floorInt p)) = floorInt p := by
  rcases floor_representable hf h with he | ⟨hlt, -⟩
  · by_cases h0 : floorInt p = 0
    · rw [h0]
      exact valueOf_ofInt (by norm_num)
    · have hr := roundInt_roundsTo (floorInt p) 0 h0
      rw [zpow_zero, mul_one] at hr
      obtain ⟨f, v⟩ := roundsTo_exact hr hf (by rw [he]; simp)
      exact ⟨f, v.trans he⟩
  · exact valueOf_ofInt hlt

/-- What is left of a number after its integer part has a significand of less than 54 bits at the same exponent. -/
theorem fraction_representable {p : Num64} (hf : isFinite p = true) (h : fle n0 p = true) :
    ∃ z, isFinite z = true ∧ valueOf z = valueOf p - floorInt p := by
  rcases floor_representable hf h with he | ⟨-, hneg⟩
  · exact ⟨n0, by decide, by rw [he, sub_self, valueOf_n0]⟩
  · obtain ⟨k, hk⟩ : ∃ k : ℕ, expo p = -(k : ℤ) := ⟨(-(expo p)).toNat, by omega⟩
    have hmod : signif p % 2 ^ k < 2 ^ 53 := lt_of_le_of_lt (Nat.mod_le _ _) (signif_lt p)
    have hlow : -1074 ≤ expo p := by unfold expo; split <;> omega
    obtain ⟨f, v⟩ := roundNum_exact hmod hlow (by omega) false
    refine ⟨_, f, ?_⟩
    have hfract := Int.fract_div_natCast_eq_div_natCast_mod (k := ℚ) (m := signif p) (n := 2 ^ k)
    rw [v, if_neg (by simp), floorInt_eq_floor hf, valueOf_of_nonneg h, hk, zpow_neg, zpow_natCast, ← div_eq_mul_inv,
      ← div_eq_mul_inv, Int.self_sub_floor, ← Nat.cast_ofNat (R := ℚ), ← Nat.cast_pow, hfract]

theorem valueOf_frac {p : Num64} (hf : isFinite p = true) (h : fle n0 p = true) :
    isFinite (frac p) = true ∧ valueOf (frac p) = valueOf p - floorInt p := by
  obtain ⟨fi, vi⟩ := ofInt_floorInt hf h
  obtain ⟨z, fz, vz⟩ := fraction_representable hf h
  obtain ⟨f, v⟩ := roundsTo_exact (fsub_roundsTo hf fi) fz (by rw [vi, vz]; push_cast; rfl)
  exact ⟨f, v.trans vz⟩

theorem frac_inPhase {p : Num64} (hf : isFinite p = true) (h : fle n0 p = true) : inPhase (frac p) := by
  obtain ⟨f, v⟩ := valueOf_frac hf h
  obtain ⟨h0, h1⟩ := floorInt_le_lt hf
  have hn := isNaN_of_isFinite f
  constructor
  · rw [fle_iff_valueOf (by decide) hn, v, valueOf_n0]
    linarith
  · rw [flt_iff_valueOf hn (by decide), v, valueOf_n1]
    linarith

/-! ### Comparison and selection -/

theorem compare_nan {a b : Num64} (h : isNaN a = true ∨ isNaN b = true) :
    fle a b = false ∧ flt a b = false ∧ feq a b = false := by
  unfold fle flt feq
  rcases h with h | h <;> simp [h]

theorem abs_valueOf_lt_pow {a : Num64} (h : isFinite a = true) : |valueOf a| < 2 ^ 1024 := by
  have h1 := abs_valueOf_lt h
  rw [← Rat.cast_abs, Rat.cast_lt] at h1
  exact h1.trans (sub_lt_self _ (by positivity))

/-- The value that orders an infinity beyond every finite number. -/
theorem valueOf_inf {a : Num64} (h : isInf a = true) : valueOf a = if isNeg a then -2 ^ 1024 else 2 ^ 1024 := by
  have hu : magUnits infMag = 9007199254740992 * 2 ^ 2045 :=
    fmtUnits_raw 52 2045 9007199254740992 (by norm_num) (by norm_num)
  have hp : ((9007199254740992 * 2 ^ 2045 : ℕ) : ℚ) * 2 ^ (-1074 : ℤ) = 2 ^ 1024 := by
    rw [Nat.cast_mul, Nat.cast_pow, Nat.cast_ofNat, Nat.cast_ofNat, show (9007199254740992 : ℚ) = 2 ^ (53 : ℤ) by norm_num,
      ← zpow_natCast, ← zpow_natCast, ← zpow_add₀ (by norm_num), ← zpow_add₀ (by norm_num)]
    rfl
  rw [valueOf_eq_units, isInf_iff.1 h, hu]
  split
  · rw [neg_mul, hp]
  · exact hp

theorem fmax_fmin_spec (a b : Num64) : (fle b a = true → fmax a b = a) ∧ (fle b a = false → fmax a b = b) ∧
    (fle a b = true → fmin a b = a) ∧ (fle a b = false → fmin a b = b) := by
  unfold fmax fmin
  exact ⟨fun h => if_pos h, fun h => if_neg (by simp [h]), fun h => if_pos h, fun h => if_neg (by simp [h])⟩

theorem clamp_of_not_le {x lo hi : Num64} (h : fle lo x = false) : clamp x lo hi = lo := by
  unfold clamp
  rw [if_pos (by simp [h])]

theorem clamp_of_le {x lo hi : Num64} (h : fle lo x = true) : clamp x lo hi = if flt hi x then hi else x := by
  unfold clamp
  rw [if_neg (by simp [h])]

theorem clamp_spec (x lo hi : Num64) : (fle lo x = false → clamp x lo hi = lo) ∧
    (fle lo x = true → flt hi x = true → clamp x lo hi = hi) ∧
    (fle lo x = true → flt hi x = false → clamp x lo hi = x) ∧
    (isNaN x = true → clamp x lo hi = lo) ∧ (fle lo hi = true → inRange lo hi (clamp x lo hi)) :=
  ⟨clamp_of_not_le, fun h1 h2 => by rw [clamp_of_le h1, if_pos h2], fun h1 h2 => by rw [clamp_of_le h1, if_neg (by simp [h2])],
    fun h => clamp_of_not_le (compare_nan (.inr h)).1, clamp_inRange⟩

theorem iclamp_spec (n lo hi : Int) : (n < lo → iclamp n lo hi = lo) ∧ (lo ≤ n → hi < n → iclamp n lo hi = hi) ∧
    (lo ≤ n → n ≤ hi → iclamp n lo hi = n) := by
  unfold iclamp
  exact ⟨fun h => if_pos h, fun h1 h2 => by rw [if_neg (by omega), if_pos h2],
    fun h1 h2 => by rw [if_neg (by omega), if_neg (by omega)]⟩

/-! ### Literals and parameters -/

/-- A literal that the division of two finite numbers gives is the number nearest to their quotient. -/
theorem roundsTo_of_fdiv {a b y : Num64} {m n : ℚ} (ha : isFinite a = true) (hb : isFinite b = true)
    (hz : isZero b = false) (hm : valueOf a = m) (hn : valueOf b = n) (hy : fdiv a b = y) :
    roundsTo ((m : ℝ) / n) y := by
  rw [← hm, ← hn, ← hy]
  exact fdiv_roundsTo ha hb hz

theorem literals_nearest : roundsTo (9 / 10) n0p9 ∧ roundsTo (3 / 10) n0p3 ∧ roundsTo (1 / 1000) n1em3 := by
  have h9 := roundsTo_of_fdiv (a := 0x4022000000000000#64) (b := 0x4024000000000000#64) (y := n0p9) (m := 9) (n := 10)
    (by decide) (by decide) (by decide) (by decide +kernel) (by decide +kernel) (by decide +kernel)
  have h3 := roundsTo_of_fdiv (a := 0x4008000000000000#64) (b := 0x4024000000000000#64) (y := n0p3) (m := 3) (n := 10)
    (by decide) (by decide) (by decide) (by decide +kernel) (by decide +kernel) (by decide +kernel)
  have h1 := roundsTo_of_fdiv (a := n1) (b := n1000) (y := n1em3) (m := 1) (n := 1000)
    (by decide) (by decide) (by decide) (by decide +kernel) (by decide +kernel) (by decide +kernel)
  norm_num at h9 h3 h1
  norm_num
  exact ⟨h9, h3, h1⟩

/-- Settles O33: the facts above, and the written-out values by evaluation. -/
theorem fracWraps : Obligations.FracWraps := by
  refine ⟨fun p hf h => ?_, fun a b => compare_nan, fun a b ha hb => ?_, fun a => ⟨abs_valueOf_lt_pow, valueOf_inf⟩,
    fmax_fmin_spec, clamp_spec, iclamp_spec, fun n => valueOf_ofInt, literals_nearest, ?_, ?_, ?_⟩
  · obtain ⟨h0, h1⟩ := floorInt_le_lt hf
    exact ⟨h0, h1, (valueOf_frac hf h).2, frac_inPhase hf h⟩
  · exact ⟨fle_iff_valueOf ha hb, flt_iff_valueOf ha hb, feq_iff_valueOf ha hb⟩
  · decide +kernel
  · exact ⟨rfl, rfl, rfl, rfl, rfl, rfl, rfl, rfl⟩
  · exact ⟨rfl, rfl, rfl, rfl, rfl, rfl, rfl, rfl⟩

end Sys2Proof.Machine
end

section
/-! PROOFS. SIN, COS, EXP2 and EXP10 (spec/00_scope.md R11): one lemma says what a free value kept in its range can be, and one case lemma each says what EXP2 and EXP10 give; every clause follows from these without a word about the free values. -/

namespace Sys2Proof.Machine

/-! ### Values kept in a range -/

theorem within_spec {ok : Num64 → Bool} {fallback : Num64} (h : ok fallback = true) (free : Num64) :
    ok (within ok fallback free) = true := by
  unfold within
  split
  · assumption
  · exact h

theorem inRange_of_inUnit {y : Num64} (h : inUnit y = true) : inRange nNeg1 n1 y := by
  simpa [inUnit] using h

theorem inRange_of_inUnderflow {y : Num64} (h : inUnderflow y = true) : inRange n0 minNormal y := by
  simpa [inUnderflow] using h

theorem finiteFrom_of_inFiniteNonneg {y : Num64} (h : inFiniteNonneg y = true) : finiteFrom n0 y := by
  simpa [inFiniteNonneg] using h

theorem finiteFrom_of_underflow {y : Num64} (h : inRange n0 minNormal y) : finiteFrom n0 y :=
  ⟨isFinite_of_inRange (by decide) (by decide) h, h.1⟩

/-! ### SIN and COS -/

theorem sinN_inRange {x : Num64} (h : isFinite x = true) : inRange nNeg1 n1 (sinN x) := by
  unfold sinN
  rw [if_pos h]
  split
  · decide
  · exact inRange_of_inUnit (within_spec (by decide) _)

theorem cosN_inRange {x : Num64} (h : isFinite x = true) : inRange nNeg1 n1 (cosN x) := by
  unfold cosN
  rw [if_pos h]
  split
  · decide
  · exact inRange_of_inUnit (within_spec (by decide) _)

theorem sinN_zero {x : Num64} (h : isZero x = true) : sinN x = n0 := by
  unfold sinN
  rw [if_pos (isFinite_of_isZero h), if_pos h]

theorem cosN_zero {x : Num64} (h : isZero x = true) : cosN x = n1 := by
  unfold cosN
  rw [if_pos (isFinite_of_isZero h), if_pos h]

/-! ### EXP2 -/

/-- The operands at which EXP2 is pinned are the integers from -64 to 64. -/
theorem isPinnedExp2_iff {x : Num64} (h : isFinite x = true) :
    isPinnedExp2 x = true ↔ ∃ n : Int, -64 ≤ n ∧ n ≤ 64 ∧ valueOf x = n := by
  have hn := isNaN_of_isFinite h
  unfold isPinnedExp2
  rw [Bool.and_eq_true, decide_eq_true_eq]
  constructor
  · rintro ⟨he, hlo, hhi⟩
    obtain ⟨fi, vi⟩ := valueOf_ofInt (n := floorInt x) (by omega)
    rw [feq_iff_valueOf (isNaN_of_isFinite fi) hn, vi] at he
    exact ⟨_, hlo, hhi, he.symm⟩
  · rintro ⟨n, hlo, hhi, hv⟩
    have hfl : floorInt x = n := by rw [floorInt_eq_floor h, hv, Int.floor_intCast]
    obtain ⟨fi, vi⟩ := valueOf_ofInt (n := n) (by omega)
    rw [hfl, feq_iff_valueOf (isNaN_of_isFinite fi) hn, vi, hv]
    exact ⟨rfl, hlo, hhi⟩

theorem exp2N_pinned {x : Num64} {n : Int} (h : isFinite x = true) (hlo : -64 ≤ n) (hhi : n ≤ 64)
    (hv : valueOf x = n) : exp2N x = roundNum false 1 n := by
  have hfl : floorInt x = n := by rw [floorInt_eq_floor h, hv, Int.floor_intCast]
  unfold exp2N
  rw [if_pos h, if_pos ((isPinnedExp2_iff h).2 ⟨n, hlo, hhi, hv⟩), hfl]

theorem pow_two_exact {n : Int} (hlo : -64 ≤ n) (hhi : n ≤ 64) :
    isFinite (roundNum false 1 n) = true ∧ valueOf (roundNum false 1 n) = (2 : ℚ) ^ n := by
  obtain ⟨f, v⟩ := roundNum_exact (m := 1) (e := n) (by norm_num) (by omega) (by omega) false
  exact ⟨f, by rw [v]; simp⟩

theorem valueOf_exp2Top : valueOf exp2Top = 1024 := by decide +kernel
theorem valueOf_exp2Bottom : valueOf exp2Bottom = -1022 := by decide +kernel

/-- Everything EXP2 can give for a finite operand, with where it gives it. -/
theorem exp2N_cases {x : Num64} (h : isFinite x = true) :
    (-1022 ≤ valueOf x ∧ valueOf x < 1024 ∧ finiteFrom n0 (exp2N x)) ∨ (1024 ≤ valueOf x ∧ exp2N x = pinf) ∨
      (valueOf x < -1022 ∧ inRange n0 minNormal (exp2N x)) := by
  have hn := isNaN_of_isFinite h
  by_cases hp : isPinnedExp2 x = true
  · obtain ⟨n, hlo, hhi, hv⟩ := (isPinnedExp2_iff h).1 hp
    obtain ⟨f, v⟩ := pow_two_exact hlo hhi
    have hloQ : (-64 : ℚ) ≤ n := by exact_mod_cast hlo
    have hhiQ : (n : ℚ) ≤ 64 := by exact_mod_cast hhi
    refine .inl ⟨by linarith, by linarith, ?_⟩
    rw [exp2N_pinned h hlo hhi hv]
    refine ⟨f, ?_⟩
    rw [fle_iff_valueOf (by decide) (isNaN_of_isFinite f), v, valueOf_n0]
    positivity
  · unfold exp2N
    rw [if_pos h, if_neg hp]
    by_cases ht : fle exp2Top x = true
    · rw [if_pos ht]
      rw [fle_iff_valueOf (by decide) hn, valueOf_exp2Top] at ht
      exact .inr (.inl ⟨ht, rfl⟩)
    · rw [if_neg ht]
      rw [fle_iff_valueOf (by decide) hn, valueOf_exp2Top, not_le] at ht
      by_cases hb : flt x exp2Bottom = true
      · rw [if_pos hb]
        rw [flt_iff_valueOf hn (by decide), valueOf_exp2Bottom] at hb
        exact .inr (.inr ⟨hb, inRange_of_inUnderflow (within_spec (by decide) _)⟩)
      · rw [if_neg hb]
        rw [flt_iff_valueOf hn (by decide), valueOf_exp2Bottom, not_lt] at hb
        exact .inl ⟨hb, ht, finiteFrom_of_inFiniteNonneg (within_spec (by decide) _)⟩

theorem exp2N_zero {x : Num64} (h : isZero x = true) : exp2N x = n1 := by
  rw [exp2N_pinned (n := 0) (isFinite_of_isZero h) (by norm_num) (by norm_num) (by rw [valueOf_of_isZero h, Int.cast_zero])]
  decide +kernel

theorem exp2N_ofInt {n : Int} (hlo : -64 ≤ n) (hhi : n ≤ 64) :
    isFinite (exp2N (ofInt n)) = true ∧ valueOf (exp2N (ofInt n)) = (2 : ℚ) ^ n := by
  obtain ⟨f, v⟩ := valueOf_ofInt (n := n) (by omega)
  rw [exp2N_pinned f hlo hhi v]
  exact pow_two_exact hlo hhi

/-! ### EXP10 -/

theorem exp10N_zero {x : Num64} (h : isZero x = true) : exp10N x = n1 := by
  unfold exp10N
  rw [if_pos (isFinite_of_isZero h), if_pos h]

theorem tiny_lt_one : (2 : ℝ) ^ (-1022 : ℤ) < 1 := zpow_lt_one_of_neg₀ (by norm_num) (by norm_num)

theorem one_lt_largestFinite : (1 : ℝ) < (largestFinite : ℝ) := by
  have : (1 : ℚ) < largestFinite := by unfold largestFinite; decide +kernel
  exact_mod_cast this

/-- Everything EXP10 can give for a finite operand, with where it gives it (`10^x` is never the largest finite value). -/
theorem exp10N_cases {x : Num64} (h : isFinite x = true) :
    ((2 : ℝ) ^ (-1022 : ℤ) ≤ (10 : ℝ) ^ (valueOf x : ℝ) ∧ (10 : ℝ) ^ (valueOf x : ℝ) < (largestFinite : ℝ) ∧
        finiteFrom n0 (exp10N x)) ∨
      ((largestFinite : ℝ) < (10 : ℝ) ^ (valueOf x : ℝ) ∧ exp10N x = pinf) ∨
      ((10 : ℝ) ^ (valueOf x : ℝ) < (2 : ℝ) ^ (-1022 : ℤ) ∧ inRange n0 minNormal (exp10N x)) := by
  by_cases hz : isZero x = true
  · refine .inl ⟨?_, ?_, by rw [exp10N_zero hz]; decide⟩
    · simpa [valueOf_of_isZero hz] using tiny_lt_one.le
    · simpa [valueOf_of_isZero hz] using one_lt_largestFinite
  · unfold exp10N
    rw [if_pos h, if_neg hz]
    by_cases ht : fle exp10Top x = true
    · rw [if_pos ht]
      exact .inr (.inl ⟨(exp10Top_le_iff h).1.1 ht, rfl⟩)
    · rw [if_neg ht]
      have hlt := (exp10Top_le_iff h).2.1 (by simpa using ht)
      by_cases hb : fle x exp10Bottom = true
      · rw [if_pos hb]
        exact .inr (.inr ⟨(le_exp10Bottom_iff h).1 hb, inRange_of_inUnderflow (within_spec (by decide) _)⟩)
      · rw [if_neg hb]
        rw [le_exp10Bottom_iff h, not_lt] at hb
        exact .inl ⟨hb, hlt, finiteFrom_of_inFiniteNonneg (within_spec (by decide) _)⟩

theorem tiny_lt_largestFinite : (2 : ℝ) ^ (-1022 : ℤ) < (largestFinite : ℝ) := tiny_lt_one.trans one_lt_largestFinite

/-- The clauses for EXP2 of a finite operand. -/
theorem exp2N_ranges {x : Num64} (h : isFinite x = true) : fle n0 (exp2N x) = true ∧
    (valueOf x < 1024 → isFinite (exp2N x) = true) ∧ (1024 ≤ valueOf x → exp2N x = pinf) ∧
    (valueOf x < -1022 → inRange n0 minNormal (exp2N x)) := by
  rcases exp2N_cases h with ⟨hlo, hhi, hf, h0⟩ | ⟨ht, he⟩ | ⟨hb, hr⟩
  · exact ⟨h0, fun _ => hf, fun hc => absurd hhi (not_lt.2 hc), fun hc => absurd hlo (not_le.2 hc)⟩
  · rw [he]
    exact ⟨by decide, fun hc => absurd ht (not_le.2 hc), fun _ => rfl, fun hc => by linarith⟩
  · exact ⟨hr.1, fun _ => (finiteFrom_of_underflow hr).1, fun hc => by linarith, fun _ => hr⟩

/-- The clauses for EXP10 of a finite operand. -/
theorem exp10N_ranges {x : Num64} (h : isFinite x = true) : fle n0 (exp10N x) = true ∧
    ((10 : ℝ) ^ (valueOf x : ℝ) < largestFinite → isFinite (exp10N x) = true) ∧
    ((largestFinite : ℝ) < (10 : ℝ) ^ (valueOf x : ℝ) → exp10N x = pinf) ∧
    ((10 : ℝ) ^ (valueOf x : ℝ) < (2 : ℝ) ^ (-1022 : ℤ) → inRange n0 minNormal (exp10N x)) := by
  rcases exp10N_cases h with ⟨hlo, hhi, hf, h0⟩ | ⟨ht, he⟩ | ⟨hb, hr⟩
  · exact ⟨h0, fun _ => hf, fun hc => absurd hhi hc.not_gt, fun hc => absurd hlo (not_le.2 hc)⟩
  · rw [he]
    exact ⟨by decide, fun hc => absurd ht hc.not_gt, fun _ => rfl,
      fun hc => absurd ht (hc.trans tiny_lt_largestFinite).not_gt⟩
  · exact ⟨hr.1, fun _ => (finiteFrom_of_underflow hr).1, fun hc => absurd hc (hb.trans tiny_lt_largestFinite).not_gt,
      fun _ => hr⟩

/-- Settles O48: the pinned points and the ranges of the four functions. -/
theorem pinnedFunctions : Obligations.PinnedFunctions := by
  refine ⟨fun x hz => ⟨sinN_zero hz, cosN_zero hz, exp2N_zero hz, exp10N_zero hz⟩, fun n => exp2N_ofInt, fun x hf => ?_⟩
  obtain ⟨p2, f2, t2, b2⟩ := exp2N_ranges hf
  obtain ⟨p10, f10, t10, b10⟩ := exp10N_ranges hf
  exact ⟨sinN_inRange hf, cosN_inRange hf, p2, p10, f2, t2, b2, f10, t10, b10⟩

end Sys2Proof.Machine
end

section
/-! PROOFS. The reverb (spec/47_reverb.md R252 to R256): what one line's turn writes into its three rings, and the same for the network, so that every clause is a read after one push. -/

namespace Sys2Proof.Machine

/-! ### One push -/

theorem memRead_ringPush_head {len : Nat} {r : Ring} (h : RingInv len r) (x : Num64) :
    memRead (ringPush len r x).mem r.head = x := by
  rw [ringPush_mem, memRead_memWrite h.mem.1, if_pos rfl]

theorem memRead_ringPush_other {len k : Nat} {r : Ring} (h : RingInv len r) (x : Num64) (hk : k ≠ r.head) :
    memRead (ringPush len r x).mem k = memRead r.mem k := by
  rw [ringPush_mem, memRead_memWrite h.mem.1, if_neg hk]

/-! ### flush -/

theorem flush_spec (y : Num64) : (isSubnormal y → flush y = pzero) ∧ (¬ isSubnormal y → flush y = y) :=
  ⟨fun h => if_pos h, fun h => if_neg h⟩

/-- The magnitudes between 0 and the first normal one are the values between 0 and 2^-1022. -/
theorem isSubnormal_iff_valueOf (y : Num64) :
    isSubnormal y ↔ 0 < |valueOf y| ∧ |valueOf y| < (2 : ℚ) ^ (-1022 : ℤ) := by
  have hu : (2 : ℚ) ^ (-1022 : ℤ) = (magUnits (2 ^ 52) : ℚ) * 2 ^ (-1074 : ℤ) := by
    have h52 : magUnits (2 ^ 52) = 2 ^ 52 := by decide
    rw [h52, Nat.cast_pow, Nat.cast_ofNat, ← zpow_natCast, ← zpow_add₀ (by norm_num)]
    rfl
  have hz : (0 : ℚ) = (magUnits 0 : ℚ) * 2 ^ (-1074 : ℤ) := by rw [magUnits_zero, Nat.cast_zero, zero_mul]
  have hw : (0 : ℚ) < 2 ^ (-1074 : ℤ) := by positivity
  rw [(valueOf_eq_abs y).1, hu]
  conv_rhs => rw [hz]
  rw [mul_lt_mul_iff_left₀ hw, mul_lt_mul_iff_left₀ hw, Nat.cast_lt, Nat.cast_lt, magUnits_strictMono.lt_iff_lt,
    magUnits_strictMono.lt_iff_lt]

/-! ### The network -/

/-- `m[i]` of R254: the row of line `i` of the cross-feed matrix on the four feeds. -/
def rvCross (c : Ctrl) (x : Stereo) (fx : Fx) (i : Fin 4) : Num64 :=
  rvMixRow rvX[i] (rvFeed c fx (rvInput x) 0) (rvFeed c fx (rvInput x) 1) (rvFeed c fx (rvInput x) 2)
    (rvFeed c fx (rvInput x) 3)

/-- Line `i`'s turn, on its own pair of all-passes. -/
theorem rvNetwork_line (c : Ctrl) (x : Stereo) (fx : Fx) {i : Fin 4} {a b : Fin 8} (ha : a.val = 2 * i.val)
    (hb : b.val = 2 * i.val + 1) :
    let l := rvLineStep Config.apLen[a] Config.apLen[b] Config.rvLen[i] fx.ap[a] fx.ap[b] fx.rv[i] (rvCross c x fx i)
    (rvNetwork c x fx).ap[a] = l.apA ∧ (rvNetwork c x fx).ap[b] = l.apB ∧ (rvNetwork c x fx).rv[i] = l.line := by
  obtain ⟨a, ha8⟩ := a
  obtain ⟨b, hb8⟩ := b
  dsimp only at ha hb
  subst ha hb
  fin_cases i <;> exact ⟨rfl, rfl, rfl⟩

/-- What each ring of the network holds after its one push. -/
theorem rvNetwork_rings (c : Ctrl) (x : Stereo) (fx : Fx) (hrv : ∀ i : Fin 4, RingInv Config.rvLen[i] fx.rv[i])
    (hap : ∀ j : Fin 8, RingInv Config.apLen[j] fx.ap[j]) :
    (∀ i : Fin 4, (rvNetwork c x fx).rv[i].head = (fx.rv[i].head + 1) % Config.rvLen[i] ∧
      ∀ k, k ≠ fx.rv[i].head → memRead (rvNetwork c x fx).rv[i].mem k = memRead fx.rv[i].mem k) ∧
    (∀ j : Fin 8, (rvNetwork c x fx).ap[j].head = (fx.ap[j].head + 1) % Config.apLen[j] ∧
      ∀ k, k ≠ fx.ap[j].head → memRead (rvNetwork c x fx).ap[j].mem k = memRead fx.ap[j].mem k) := by
  obtain ⟨hline, hpass⟩ := rvNetwork_spec c x fx
  constructor
  · intro i
    obtain ⟨u, hu⟩ := hline i
    rw [hu]
    exact ⟨rfl, fun k hk => memRead_ringPush_other (hrv i) _ hk⟩
  · intro j
    obtain ⟨w, hw⟩ := hpass j
    rw [hw]
    exact ⟨rfl, fun k hk => memRead_ringPush_other (hap j) _ hk⟩

/-- Settles O47: `rvNetwork_line` for the words pushed, `rvNetwork_rings` for what is kept; the rest of the effect chain and the outputs are the definition's. -/
theorem reverbStep : Obligations.ReverbStep := by
  refine ⟨fun p c x fx hrv hap => ?_, flush_spec, isSubnormal_iff_valueOf⟩
  obtain ⟨hlines, hpasses⟩ := rvNetwork_rings c x fx hrv hap
  refine ⟨fun i a b ha hb => ?_, hlines, hpasses, rfl, rfl⟩
  obtain ⟨hA, hB, hline⟩ := rvNetwork_line c x fx ha hb
  change memRead (rvNetwork c x fx).ap[a].mem _ = _ ∧ memRead (rvNetwork c x fx).ap[b].mem _ = _ ∧
    memRead (rvNetwork c x fx).rv[i].mem _ = _
  rw [hA, hB, hline]
  exact ⟨memRead_ringPush_head (hap a) _, memRead_ringPush_head (hap b) _, memRead_ringPush_head (hrv i) _⟩

end Sys2Proof.Machine
end

section
/-! PROOFS. What a command and a step can do to the whole state (spec/70_reset_and_hazards.md R290, R304, spec/45_synth.md): `exec_effect` splits the commands once, into what they do to the parameter file, the control registers, one voice and the effect chain. Every invariant is then a fact about these four parts, and `step_keeps` carries it over a step. -/

namespace Sys2Proof.Machine

/-! ### The parts of the state -/

/-- The parameter file after an accepted command other than RESET (R22, R23). -/
def paramsAfter (p : Params) : Instr → Params
  | .setVolume val => { p with volume := fmax val n0 }
  | .setExpression val => { p with expression := clamp val n0 n1 }
  | .setBendRange val => { p with bendRange := clamp val n0 n48 }
  | .setBend val => { p with bend := clamp val nNeg1 n1 }
  | .setModwheel val => { p with modWheel := clamp val n0 n1 }
  | .setPedal imm val => { p with pedal := p.pedal.set (pedalIndex imm) (clamp val n0 n1) }
  | .setVelsens val => { p with velSens := clamp val n0 n1 }
  | .setInharm val => { p with inharm := fmax val n0 }
  | .setOscmix val => { p with oscMix := clamp val n0 n1 }
  | .setRandphase imm => { p with randPhase := flagOf imm }
  | .setVibDepth val => { p with vibDepth := clamp val n0 n1200 }
  | .setVibRate val => { p with vibRate := fmax val n0 }
  | .setVibDelay val => { p with vibDelay := val }
  | .setCutoff val => { p with cutoff := val }
  | .setReso val => { p with reso := fmax val svfQMin }
  | .setFtype imm => { p with ftype := ftypeOf imm }
  | .setFiter imm => { p with fiter := flagOf imm }
  | .setFenvAmt val => { p with fenvAmt := clamp val nNeg64 n64 }
  | .setKeyfollow val => { p with keyFollow := clamp val nNeg64 n64 }
  | .setAmpAttack val => { p with amp := { p.amp with attack := val } }
  | .setAmpDecay val => { p with amp := { p.amp with decay := val } }
  | .setAmpSustain val => { p with amp := { p.amp with sustain := clamp val n0 n1 } }
  | .setAmpRelease val => { p with amp := { p.amp with release := val } }
  | .setFltAttack val => { p with flt := { p.flt with attack := val } }
  | .setFltDecay val => { p with flt := { p.flt with decay := val } }
  | .setFltSustain val => { p with flt := { p.flt with sustain := clamp val n0 n1 } }
  | .setFltRelease val => { p with flt := { p.flt with release := val } }
  | .setDivN imm => { p with divN := immVal imm }
  | .setEqFreq val => { p with eqFreq := val }
  | .setEqGain val => { p with eqGain := clamp val nNeg120 n120 }
  | .setEqQ val => { p with eqQ := val }
  | .setChRate val => { p with chRate := fmax val n0 }
  | .setChDepth val => { p with chDepth := fmax val n0 }
  | .setChDelay val => { p with chDelay := fmax val n0 }
  | .setChMix val => { p with chMix := clamp val n0 n1 }
  | .setRvT60 val => { p with rvT60 := fmax val t60Min }
  | .setRvMix val => { p with rvMix := clamp val n0 n1 }
  | _ => p

/-- The control registers after an accepted command other than RESET, from the parameters `q` that it leaves (R24). -/
def ctrlAfter (q : Params) (c : Ctrl) : Instr → Ctrl
  | .setFs val => recomputeCtrl q { c with fs := clamp val fsMin fsMax }
  | .setVolume _ | .setExpression _ => { c with gain := outputGain q }
  | .setBend _ => { c with bendMul := bendMultiplier q }
  | .setVibRate _ => { c with lfoFStep := lfoFreqStep c.fs q.vibRate }
  | .setVibDelay _ => { c with lfoDStep := envRate c.fs q.vibDelay }
  | .setAmpAttack _ => { c with amp := { c.amp with ra := envRate c.fs q.amp.attack } }
  | .setAmpDecay _ => { c with amp := { c.amp with rd := envRate c.fs q.amp.decay } }
  | .setAmpRelease _ => { c with amp := { c.amp with rr := envRate c.fs q.amp.release } }
  | .setFltAttack _ => { c with flt := { c.flt with ra := envRate c.fs q.flt.attack } }
  | .setFltDecay _ => { c with flt := { c.flt with rd := envRate c.fs q.flt.decay } }
  | .setFltRelease _ => { c with flt := { c.flt with rr := envRate c.fs q.flt.release } }
  | .setEqFreq _ | .setEqGain _ | .setEqQ _ => eqSetCoef q c
  | .setChRate _ | .setChDepth _ | .setChDelay _ => chSetCoef q c
  | .setRvT60 _ => rvSetCoef q c
  | _ => c

/-- What VoiceProcess leaves in a voice whose note goes on (R175). -/
structure VoiceSounded (p : Params) (c : Ctrl) (v w : Voice) : Prop where
  pitch  : w.pitch = v.pitch
  vel    : w.vel = v.vel
  bend   : w.bend = v.bend
  f0     : w.f0 = v.f0
  velamp : w.velamp = v.velamp
  keyf   : w.keyf = v.keyf
  amp    : w.amp = (envProcess c.amp p.amp.sustain v.amp).env
  flt    : w.flt = (envProcess c.flt p.flt.sustain v.flt).env
  lfo    : w.lfo = (lfoProcess c v.lfo).1
  osc0   : w.osc0 = (oscProcess (vibratoMul p (lfoProcess c v.lfo).2) v.osc0).1
  osc1   : w.osc1 = (oscProcess (vibratoMul p (lfoProcess c v.lfo).2) v.osc1).1
  filter : (w.k = v.k ∧ w.oqk = v.oqk) ∨ w.oqk = svfOqk p.reso w.k
  second : p.fiter = false → w.s2 = v.s2 ∧ w.s3 = v.s3

/-- The three things a tick can do to a voice: nothing to a free one, the end of a released note, or one sample (R175). -/
theorem voiceProcess_next (p : Params) (c : Ctrl) (v : Voice) :
    (v.amp.stage = .stop ∧ (voiceProcess p c v).1 = v) ∨
    (v.amp.stage = .release ∧ (voiceProcess p c v).1 = { v with amp := { v.amp with stage := .stop, rem := n0, lvl := n0 } }) ∨
    (v.amp.stage ≠ .stop ∧ VoiceSounded p c v (voiceProcess p c v).1) := by
  rcases voiceProcess_cases p c v with ⟨hs, he⟩ | ⟨hr, -, he⟩ | ⟨hs, -, he⟩ <;> rw [he]
  · exact .inl ⟨hs, rfl⟩
  · exact .inr (.inl ⟨hr, rfl⟩)
  · obtain ⟨h1, h2, h3, h4, h5, h6, h7, h8, h9, h10, h11, h12, h13⟩ := voiceSound_spec p c
      (envProcess c.amp p.amp.sustain v.amp).out { v with amp := (envProcess c.amp p.amp.sustain v.amp).env }
    exact .inr (.inr ⟨hs, h1, h2, h3, h4, h5, h6, h7, h8, h9, h10, h11, h12, h13⟩)

/-- What a command other than RESET can do to voice `vi`: `p` and `c` are the parameters and control registers before it, `q` and `d` those after it. Where the command leaves f0 or OQK alone, so it does C.FS or P.RESO. -/
inductive VoiceNext (p q : Params) (c d : Ctrl) (vi : Nat) (v : Voice) : Voice → Prop where
  | kept (hfs : d.fs = c.fs) (hreso : q.reso = p.reso) : VoiceNext p q c d vi v v
  | ticked (hfs : d.fs = c.fs) (hreso : q.reso = p.reso) : VoiceNext p q c d vi v (voiceProcess q d v).1
  | released (hfs : d.fs = c.fs) (hreso : q.reso = p.reso) : VoiceNext p q c d vi v (voiceNoteOff v)
  | started (pitch : Fin 128) (vel : Num64) : VoiceNext p q c d vi v (voiceNoteOn q d vi pitch vel v)
  | recomputed : VoiceNext p q c d vi v (svfReset (recomputeVoice q d v))
  | bent (hreso : q.reso = p.reso) : VoiceNext p q c d vi v (voiceSetF0 q d { v with bend := d.bendMul })
  | stretched (hfs : d.fs = c.fs) (hreso : q.reso = p.reso) :
      VoiceNext p q c d vi v { v with osc1 := oscSetFreq v.f0 q.inharm v.osc1 }
  | filtered (hfs : d.fs = c.fs) : VoiceNext p q c d vi v (svfSetFreq q d q.cutoff v)
  | resonated (hfs : d.fs = c.fs) : VoiceNext p q c d vi v { v with oqk := svfOqk q.reso v.k }

/-- What a command other than RESET can do to the effect chain. -/
inductive FxNext (q : Params) (c d : Ctrl) (fx : Fx) : Fx → Prop where
  | kept (hfs : d.fs = c.fs) : FxNext q c d fx fx
  | ticked (hfs : d.fs = c.fs) (x : Stereo) : FxNext q c d fx (effectChain q d x fx).1
  | flushed : FxNext q c d fx fxFlushed

/-- Everything that an accepted command other than RESET does to the four parts of the CORE. -/
structure Effect (i : Instr) (s t : State) : Prop where
  wf     : i.wf = true
  params : t.params = paramsAfter s.params i
  ctrl   : t.ctrl = ctrlAfter t.params s.ctrl i
  voice  : ∀ v : Fin Config.nVoice, VoiceNext s.params t.params s.ctrl t.ctrl v.val s.voices[v] t.voices[v]
  fx     : FxNext t.params s.ctrl t.ctrl s.fx t.fx

/-! ### Commands -/

/-- What a command that checks its operand leaves when the operand is finite, and when it is not. -/
theorem eq_of_accepted {i : Instr} {val : Num64} {s t : State} {f : State → State} (he : ∀ s, exec i s = acceptFinite val s f)
    (hv : isFinite val = true) (h : exec i s = .next t) : t = f s :=
  (next_inj (((he s).trans (acceptFinite_of_finite s f hv)).symm.trans h)).symm

theorem exec_of_refused {i : Instr} {val : Num64} {s : State} {f : State → State} (he : ∀ s, exec i s = acceptFinite val s f)
    (hv : isFinite val = false) : exec i s = .next s :=
  (he s).trans (acceptFinite_of_not s f hv)

/-- A command with a refused operand leaves the state (R86, R87). -/
theorem exec_of_not_wf {i : Instr} (h : i.wf = false) (s : State) : exec i s = .next s := by
  cases i with
  | nop | reset | tick64 | tick32 | noteOff | setRandphase | setFtype | setFiter | setDivN => cases h
  | setPedal imm val =>
    cases hv : isFinite val
    · exact exec_of_refused (fun _ => rfl) hv
    · have hk : ¬ pedalIndexOk imm = true := by simpa [Instr.wf, hv] using h
      exact (acceptFinite_of_finite s _ hv).trans (congrArg _ (if_neg hk))
  | _ => exact exec_of_refused (fun _ => rfl) h

/-- A command that writes parameters and control registers alone, C.FS and P.RESO not among them. -/
theorem Effect.of_registers {i : Instr} {s t : State} (hw : i.wf = true) (hp : t.params = paramsAfter s.params i)
    (hc : t.ctrl = ctrlAfter t.params s.ctrl i) (hfs : t.ctrl.fs = s.ctrl.fs)
    (hreso : t.params.reso = s.params.reso) (hv : t.voices = s.voices) (hx : t.fx = s.fx) : Effect i s t where
  wf := hw
  params := hp
  ctrl := hc
  voice v := by rw [hv]; exact .kept hfs hreso
  fx := by rw [hx]; exact .kept hfs

/-- A command that also writes every voice, each in the same way. -/
theorem Effect.of_map {i : Instr} {s t : State} {f : Voice → Voice} (hw : i.wf = true)
    (hp : t.params = paramsAfter s.params i) (hc : t.ctrl = ctrlAfter t.params s.ctrl i)
    (hv : ∀ v : Fin Config.nVoice, t.voices[v] = f s.voices[v])
    (hn : ∀ (vi : Nat) (v : Voice), VoiceNext s.params t.params s.ctrl t.ctrl vi v (f v))
    (hx : FxNext t.params s.ctrl t.ctrl s.fx t.fx) : Effect i s t where
  wf := hw
  params := hp
  ctrl := hc
  voice v := by rw [hv]; exact hn _ _
  fx := hx

/-- SET_PEDAL writes one register (R204). -/
theorem Effect.of_setPedal {imm : BitVec 16} {val : Num64} {s t : State} (hw : (Instr.setPedal imm val).wf = true)
    (h : exec (.setPedal imm val) s = .next t) : Effect (.setPedal imm val) s t := by
  obtain ⟨hv, hk⟩ := Bool.and_eq_true_iff.1 hw
  have ht := eq_of_accepted (fun _ => rfl) hv h
  rw [if_pos hk] at ht
  subst ht
  exact .of_registers hw rfl rfl rfl rfl rfl rfl

/-- NOTE_ON starts the allocated voice, if there is one, and leaves the others (R197). -/
theorem Effect.of_noteOn {ch : BitVec 8} {imm : BitVec 16} {val : Num64} {s t : State} (hv : isFinite val = true)
    (h : exec (.noteOn ch imm val) s = .next t) : Effect (.noteOn ch imm val) s t := by
  obtain rfl := eq_of_accepted (fun _ => rfl) hv h
  unfold noteOn
  cases ha : allocVoice s.voices with
  | none => exact .of_registers hv rfl rfl rfl rfl rfl rfl
  | some u =>
    refine ⟨hv, rfl, rfl, fun v => ?_, .kept rfl⟩
    by_cases he : u = v
    · subst he
      simpa using VoiceNext.started (pitchOf imm) val
    · have hne : (s.voices.set u (voiceNoteOn s.params s.ctrl u.val (pitchOf imm) val s.voices[u]))[v] = s.voices[v] :=
        Vector.getElem_set_ne _ _ (fun e => he (Fin.ext e))
      dsimp only
      rw [hne]
      exact .kept rfl rfl

/-- Everything that a command other than RESET can do; where it refuses its operand it acts as NOP. -/
theorem exec_effect {i : Instr} {s t : State} (hr : i ≠ .reset) (h : exec i s = .next t) :
    Effect i s t ∨ Effect .nop s t := by
  cases hw : i.wf
  · cases (exec_of_not_wf hw s).symm.trans h
    exact .inr (.of_registers rfl rfl rfl rfl rfl rfl rfl)
  left
  cases i with
  | reset => exact absurd rfl hr
  | nop | setRandphase | setFtype | setFiter | setDivN =>
    cases h
    exact .of_registers hw rfl rfl rfl rfl rfl rfl
  | tick64 | tick32 =>
    cases h
    exact .of_map hw rfl rfl (synthTick_voice s) (fun _ _ => .ticked rfl rfl) (.ticked rfl _)
  | noteOn ch imm val => exact .of_noteOn hw h
  | noteOff ch imm val =>
    cases h
    refine .of_map (f := fun v => if noteOffMatches (pitchOf imm) v then voiceNoteOff v else v) hw rfl rfl
      (mapVoices_voice _ s) (fun vi v => ?_) (.kept rfl)
    split
    · exact .released rfl rfl
    · exact .kept rfl rfl
  | setFs val =>
    obtain rfl := eq_of_accepted (fun _ => rfl) hw h
    exact .of_map hw rfl rfl (fun v => by simp) (fun _ _ => .recomputed) .flushed
  | setBend val =>
    obtain rfl := eq_of_accepted (fun _ => rfl) hw h
    exact .of_map hw rfl rfl (mapVoices_voice _ _) (fun _ _ => .bent rfl) (.kept rfl)
  | setInharm val =>
    obtain rfl := eq_of_accepted (fun _ => rfl) hw h
    exact .of_map hw rfl rfl (mapVoices_voice _ _) (fun _ _ => .stretched rfl rfl) (.kept rfl)
  | setCutoff | setFenvAmt =>
    obtain rfl := eq_of_accepted (fun _ => rfl) hw h
    exact .of_map hw rfl rfl (mapVoices_voice _ _) (fun _ _ => .filtered rfl) (.kept rfl)
  | setReso val =>
    obtain rfl := eq_of_accepted (fun _ => rfl) hw h
    exact .of_map hw rfl rfl (mapVoices_voice _ _) (fun _ _ => .resonated rfl) (.kept rfl)
  | setPedal imm val => exact .of_setPedal hw h
  | _ =>
    obtain rfl := eq_of_accepted (fun _ => rfl) hw h
    exact .of_registers hw rfl rfl rfl rfl rfl rfl

/-! ### Steps -/

theorem Effect.of_advanceHost {i : Instr} {s t : State} (e : Effect i (advanceHost s) t) : Effect i s t :=
  ⟨e.wf, e.params, e.ctrl, e.voice, e.fx⟩

/-- A step resets the CORE, or does what one command does (an idle step what NOP does). -/
theorem step_effect {s t : State} (h : step s = .next t) :
    (∃ hs, t = withPorts false hs State.reset) ∨ ∃ i, Effect i s t := by
  rcases step_cases s with ⟨-, he⟩ | ⟨-, he⟩ | ⟨-, he⟩ | ⟨w, -, he⟩
  · cases he.symm.trans h
    exact .inl ⟨_, rfl⟩
  · cases he.symm.trans h
    exact .inr ⟨.nop, .of_registers rfl rfl rfl rfl rfl rfl rfl⟩
  · cases he.symm.trans h
    exact .inr ⟨.nop, .of_registers rfl rfl rfl rfl rfl rfl rfl⟩
  · rw [he] at h
    by_cases hr : decode w = .reset
    · rw [hr] at h
      cases h
      exact .inl ⟨_, rfl⟩
    · rcases exec_effect hr h with e | e
      · exact .inr ⟨_, e.of_advanceHost⟩
      · exact .inr ⟨_, e.of_advanceHost⟩

/-- A property of states that holds after reset, whatever the host does next, and that every command keeps, is kept by every step. -/
theorem step_keeps {I : State → Prop} (hreset : ∀ hs, I (withPorts false hs State.reset))
    (heff : ∀ i s t, Effect i s t → I s → I t) : ∀ s t, I s → step s = .next t → I t := by
  intro s t hs h
  rcases step_effect h with ⟨hst, rfl⟩ | ⟨i, e⟩
  · exact hreset hst
  · exact heff i s t e hs

end Sys2Proof.Machine
end

section
/-! PROOFS. The parameter file (spec/10_state.md R22, R23): each command writes its own register, with a value of that register's range. -/

namespace Sys2Proof.Machine

/-! ### Whose command writes a register (R23) -/

/-- A pedal register that a write changes is the one that the index names. -/
theorem pedalIndex_of_changed {imm : BitVec 16} {p : Vector Num64 Config.nPedal} {x : Num64} {k : Fin Config.nPedal}
    (hk : pedalIndexOk imm = true) (h : (p.set (pedalIndex imm) x)[k] ≠ p[k]) : imm.toInt = k.val := by
  have he : pedalIndex imm = k := by
    by_contra hne
    exact h (Vector.getElem_set_ne _ _ fun e => hne (Fin.ext e))
  rw [← he]
  exact (pedalIndex_val hk).symm

/-- Settles O56: `paramsAfter` writes at most one register, the command's own. -/
theorem paramsOwnCommand : Obligations.ParamsOwnCommand := by
  intro i s t h hr
  dsimp only
  rcases exec_effect hr h with e | e
  · rw [e.params]
    have hw := e.wf
    cases i with
    | setPedal imm val =>
      obtain ⟨-, hk⟩ := Bool.and_eq_true_iff.1 hw
      simpa [paramsAfter] using fun k hne => pedalIndex_of_changed hk hne
    | _ => simp [paramsAfter]
  · rw [e.params]
    simp [paramsAfter]

/-! ### Ranges (R22, R24) -/

theorem pedal_set_inRange {p : Vector Num64 Config.nPedal} (h : ∀ k : Fin Config.nPedal, inRange n0 n1 p[k])
    (j : Fin Config.nPedal) {x : Num64} (hx : inRange n0 n1 x) (k : Fin Config.nPedal) : inRange n0 n1 (p.set j x)[k] := by
  rcases eq_or_ne j.val k.val with he | he
  · have : (p.set j x)[k] = x := by simp [he]
    rwa [this]
  · have : (p.set j x)[k] = p[k] := Vector.getElem_set_ne _ _ he
    rw [this]
    exact h k

/-- Every command stores a legal value (R22). -/
theorem paramsAfter_legal {p : Params} (h : ParamsLegal p) {i : Instr} (hw : i.wf = true) : ParamsLegal (paramsAfter p i) := by
  have unit (x : Num64) : inRange n0 n1 (clamp x n0 n1) := clamp_inRange (by decide)
  have nonneg {x : Num64} (hx : isFinite x = true) : finiteFrom n0 (fmax x n0) := fmax_finiteFrom hx (by decide)
  cases i with
  | setVolume val => exact { h with volume := nonneg hw }
  | setExpression val => exact { h with expression := unit val }
  | setBendRange val => exact { h with bendRange := clamp_inRange (by decide) }
  | setBend val => exact { h with bend := clamp_inRange (by decide) }
  | setModwheel val => exact { h with modWheel := unit val }
  | setPedal imm val =>
    exact { h with pedal := pedal_set_inRange h.pedal _ (unit val) }
  | setVelsens val => exact { h with velSens := unit val }
  | setInharm val => exact { h with inharm := nonneg hw }
  | setOscmix val => exact { h with oscMix := unit val }
  | setVibDepth val => exact { h with vibDepth := clamp_inRange (by decide) }
  | setVibRate val => exact { h with vibRate := nonneg hw }
  | setVibDelay val => exact { h with vibDelay := hw }
  | setCutoff val => exact { h with cutoff := hw }
  | setReso val => exact { h with reso := fmax_finiteFrom hw (by decide) }
  | setFenvAmt val => exact { h with fenvAmt := clamp_inRange (by decide) }
  | setKeyfollow val => exact { h with keyFollow := clamp_inRange (by decide) }
  | setAmpAttack val => exact { h with amp := { h.amp with attack := hw } }
  | setAmpDecay val => exact { h with amp := { h.amp with decay := hw } }
  | setAmpSustain val => exact { h with amp := { h.amp with sustain := unit val } }
  | setAmpRelease val => exact { h with amp := { h.amp with release := hw } }
  | setFltAttack val => exact { h with flt := { h.flt with attack := hw } }
  | setFltDecay val => exact { h with flt := { h.flt with decay := hw } }
  | setFltSustain val => exact { h with flt := { h.flt with sustain := unit val } }
  | setFltRelease val => exact { h with flt := { h.flt with release := hw } }
  | setDivN imm => exact { h with divN := immVal_range imm }
  | setEqFreq val => exact { h with eqFreq := hw }
  | setEqGain val => exact { h with eqGain := clamp_inRange (by decide) }
  | setEqQ val => exact { h with eqQ := hw }
  | setChRate val => exact { h with chRate := nonneg hw }
  | setChDepth val => exact { h with chDepth := nonneg hw }
  | setChDelay val => exact { h with chDelay := nonneg hw }
  | setChMix val => exact { h with chMix := unit val }
  | setRvT60 val => exact { h with rvT60 := fmax_finiteFrom hw (by decide) }
  | setRvMix val => exact { h with rvMix := unit val }
  | _ => exact { h with }

/-- C.FS changes only by SET_FS, which clamps it (R24, R194). -/
theorem ctrlAfter_fs (q : Params) (c : Ctrl) (i : Instr) :
    (ctrlAfter q c i).fs = c.fs ∨ ∃ val, (ctrlAfter q c i).fs = clamp val fsMin fsMax := by
  cases i with
  | setFs val => exact .inr ⟨val, rfl⟩
  | _ => exact .inl rfl

theorem ctrlAfter_fs_inRange {q : Params} {c : Ctrl} (h : inRange fsMin fsMax c.fs) (i : Instr) :
    inRange fsMin fsMax (ctrlAfter q c i).fs := by
  rcases ctrlAfter_fs q c i with he | ⟨val, he⟩
  · rwa [he]
  · rw [he]
    exact clamp_inRange (by decide)

theorem paramInv_of_effect {i : Instr} {s t : State} (e : Effect i s t) (h : ParamInv s) : ParamInv t where
  params := by rw [e.params]; exact paramsAfter_legal h.params e.wf
  fs := by rw [e.ctrl]; exact ctrlAfter_fs_inRange h.fs i

theorem envParamsLegal_reset : EnvParamsLegal ⟨n0, n0, n1, n0⟩ := by constructor <;> decide

theorem paramsLegal_reset : ParamsLegal paramsReset := by
  constructor
  case amp | flt => exact envParamsLegal_reset
  all_goals decide

theorem ctrlReset_fs : ctrlReset.fs = fsReset := by simp [ctrlReset, ctrlSeed]

theorem paramInv_reset (hs : List HostCycle) : ParamInv (withPorts false hs State.reset) where
  params := paramsLegal_reset
  fs := by show inRange fsMin fsMax ctrlReset.fs; rw [ctrlReset_fs]; decide

/-- Settles O51: every command stores values of the registers' ranges, and SET_FS a clamped rate. -/
theorem paramInvStep : Obligations.ParamInvStep :=
  step_keeps paramInv_reset fun _ _ _ => paramInv_of_effect

end Sys2Proof.Machine
end

section
/-! PROOFS. The derived registers (spec/10_state.md R24, R304): each command recomputes the registers whose inputs it writes, and leaves the inputs of the others. -/

namespace Sys2Proof.Machine

/-! ### The registers of the voices -/

/-- A voice's f0 and OQK equal their formulas (R121, R126, R171). -/
structure VoiceCurrent (p : Params) (c : Ctrl) (v : Voice) : Prop where
  f0  : v.f0 = voiceF0 c.fs v.pitch v.bend
  oqk : v.oqk = svfOqk p.reso v.k

/-- f0 and OQK depend on C.FS and P.RESO alone beside the voice's own registers. -/
theorem VoiceCurrent.congr {p q : Params} {c d : Ctrl} {v : Voice} (h : VoiceCurrent p c v) (hfs : d.fs = c.fs)
    (hreso : q.reso = p.reso) : VoiceCurrent q d v where
  f0 := by rw [hfs]; exact h.f0
  oqk := by rw [hreso]; exact h.oqk

/-- A tick leaves f0 and its inputs, and writes OQK only together with K (R175, R176). -/
theorem VoiceCurrent.voiceProcess {p : Params} {c : Ctrl} {v : Voice} (h : VoiceCurrent p c v) :
    VoiceCurrent p c (voiceProcess p c v).1 := by
  rcases voiceProcess_next p c v with ⟨-, he⟩ | ⟨-, he⟩ | ⟨-, ht⟩
  · rwa [he]
  · rw [he]; exact { h with }
  · refine ⟨by rw [ht.f0, ht.pitch, ht.bend]; exact h.f0, ?_⟩
    rcases ht.filter with ⟨hk, hoqk⟩ | hoqk
    · rw [hoqk, hk]; exact h.oqk
    · exact hoqk

theorem voiceCurrent_recomputeVoice (p : Params) (c : Ctrl) (v : Voice) :
    VoiceCurrent p c (svfReset (recomputeVoice p c v)) := ⟨by simp [recomputeVoice], by simp [recomputeVoice]⟩

theorem VoiceNext.current {p q : Params} {c d : Ctrl} {vi : Nat} {v w : Voice} (hn : VoiceNext p q c d vi v w)
    (h : VoiceCurrent p c v) : VoiceCurrent q d w := by
  cases hn with
  | kept hfs hreso => exact h.congr hfs hreso
  | ticked hfs hreso => exact (h.congr hfs hreso).voiceProcess
  | released hfs hreso => exact { h.congr hfs hreso with }
  | started pitch vel => exact ⟨by simp [voiceNoteOn], by simp [voiceNoteOn]⟩
  | recomputed => exact voiceCurrent_recomputeVoice q d v
  | bent hreso => exact ⟨by simp, by simpa [hreso] using h.oqk⟩
  | stretched hfs hreso => exact { h.congr hfs hreso with }
  | filtered hfs => exact ⟨by simpa [hfs] using h.f0, by simp⟩
  | resonated hfs => exact ⟨by rw [hfs]; exact h.f0, rfl⟩

/-! ### The control registers -/

/-- f0 and OQK of every voice equal their formulas. -/
structure VoicesCurrent (p : Params) (c : Ctrl) (vs : Vector Voice Config.nVoice) : Prop where
  f0  : ∀ v : Fin Config.nVoice, vs[v].f0 = voiceF0 c.fs vs[v].pitch vs[v].bend
  oqk : ∀ v : Fin Config.nVoice, vs[v].oqk = fadd (fdiv n1 p.reso) vs[v].k

theorem VoicesCurrent.of_effect {i : Instr} {s t : State} (e : Effect i s t) (h : DerivedInv s) :
    VoicesCurrent t.params t.ctrl t.voices where
  f0 v := ((e.voice v).current ⟨h.f0 v, h.oqk v⟩).f0
  oqk v := ((e.voice v).current ⟨h.f0 v, h.oqk v⟩).oqk

/-- RecomputeDerived makes every register current but C.GAIN and C.BENDMUL, which it leaves (R194). -/
theorem derivedInv_recomputeCtrl {s : State} {c : Ctrl} (hc : s.ctrl = recomputeCtrl s.params c)
    (hgain : c.gain = outputGain s.params) (hrange : inRange n0 n48 s.params.bendRange)
    (hbend : ∃ range, inRange n0 n48 range ∧ c.bendMul = exp2N (fdiv (fmul s.params.bend range) n12))
    (hv : VoicesCurrent s.params s.ctrl s.voices) : DerivedInv s := by
  obtain ⟨params, ctrl, voices, fx, outL, outR, outW32, outValid, host⟩ := s
  dsimp only at hc
  subst hc
  exact { hv with
    gain := hgain, bendRange := hrange, bendMul := hbend
    ampRa := rfl, ampRd := rfl, ampRr := rfl, fltRa := rfl, fltRd := rfl, fltRr := rfl, lfoDStep := rfl, lfoFStep := rfl
    eqB0 := rfl, eqB1 := rfl, eqB2 := rfl, eqA1 := rfl, eqA2 := rfl
    chR1 := rfl, chR2 := rfl, chBase := rfl, chDepthS := rfl, chLen := rfl, rvG := rfl }

/-- A command writes an input of a derived register only where it recomputes that register too (R24, R304). -/
theorem derivedInv_of_effect {i : Instr} {s t : State} (e : Effect i s t) (h : DerivedInv s) : DerivedInv t := by
  have hv := VoicesCurrent.of_effect e h
  have hp := e.params
  have hc := e.ctrl
  clear e
  obtain ⟨params, ctrl, voices, fx, outL, outR, outW32, outValid, host⟩ := t
  dsimp only at hp
  subst hp
  dsimp only at hc
  subst hc
  cases i with
  | setFs val => exact derivedInv_recomputeCtrl rfl h.gain h.bendRange h.bendMul hv
  | setVolume | setExpression => exact { hv, h with gain := rfl }
  | setBendRange val => exact { hv, h with bendRange := clamp_inRange (by decide) }
  | setBend val => exact { hv, h with bendMul := ⟨_, h.bendRange, rfl⟩ }
  | setVibRate val => exact { hv, h with lfoFStep := rfl }
  | setVibDelay val => exact { hv, h with lfoDStep := rfl }
  | setAmpAttack val => exact { hv, h with ampRa := rfl }
  | setAmpDecay val => exact { hv, h with ampRd := rfl }
  | setAmpRelease val => exact { hv, h with ampRr := rfl }
  | setFltAttack val => exact { hv, h with fltRa := rfl }
  | setFltDecay val => exact { hv, h with fltRd := rfl }
  | setFltRelease val => exact { hv, h with fltRr := rfl }
  | setEqFreq | setEqGain | setEqQ =>
    exact { hv, h with eqB0 := rfl, eqB1 := rfl, eqB2 := rfl, eqA1 := rfl, eqA2 := rfl }
  | setChRate | setChDepth | setChDelay =>
    exact { hv, h with chR1 := rfl, chR2 := rfl, chBase := rfl, chDepthS := rfl, chLen := rfl }
  | setRvT60 val => exact { hv, h with rvG := rfl }
  | _ => exact { hv, h with }

/-! ### Reset -/

theorem voicesReset_getElem (v : Fin Config.nVoice) : voicesReset[v] = voiceReset := by simp [voicesReset]

theorem derivedInv_reset (hs : List HostCycle) : DerivedInv (withPorts false hs State.reset) := by
  have hv (v : Fin Config.nVoice) : VoiceCurrent paramsReset ctrlReset voicesReset[v] := by
    rw [voicesReset_getElem]
    exact voiceCurrent_recomputeVoice _ _ _
  exact derivedInv_recomputeCtrl (c := ctrlSeed) rfl rfl paramsLegal_reset.bendRange ⟨_, paramsLegal_reset.bendRange, rfl⟩
    ⟨fun v => (hv v).f0, fun v => (hv v).oqk⟩

/-- Settles O52: a command that writes an input recomputes the registers that depend on it. -/
theorem derivedInvStep : Obligations.DerivedInvStep :=
  step_keeps derivedInv_reset fun _ _ _ => derivedInv_of_effect

end Sys2Proof.Machine
end

section
/-! PROOFS. Ranges of computed numbers (spec/00_scope.md R10, R12): rounding keeps a result between representable bounds, so that each operation's range follows from the exact numbers; and what is not below 0, a NaN included, stays so. -/

namespace Sys2Proof.Machine

/-! ### Ranges as facts about values -/

theorem inRange_iff_valueOf {lo hi x : Num64} (hl : isFinite lo = true) (hh : isFinite hi = true) :
    inRange lo hi x ↔ isFinite x = true ∧ valueOf lo ≤ valueOf x ∧ valueOf x ≤ valueOf hi := by
  have hln := isNaN_of_isFinite hl
  have hhn := isNaN_of_isFinite hh
  constructor
  · intro h
    have hf := isFinite_of_inRange hl hh h
    have hn := isNaN_of_isFinite hf
    exact ⟨hf, (fle_iff_valueOf hln hn).1 h.1, (fle_iff_valueOf hn hhn).1 h.2⟩
  · rintro ⟨hf, h1, h2⟩
    have hn := isNaN_of_isFinite hf
    exact ⟨(fle_iff_valueOf hln hn).2 h1, (fle_iff_valueOf hn hhn).2 h2⟩

theorem inRange_of_roundsTo {r : ℚ} {lo hi y : Num64} (h : roundsTo (r : ℝ) y) (hl : isFinite lo = true)
    (hh : isFinite hi = true) (h1 : valueOf lo ≤ r) (h2 : r ≤ valueOf hi) : inRange lo hi y :=
  ⟨roundsTo_ge h hl (by exact_mod_cast h1), roundsTo_le h hh (by exact_mod_cast h2)⟩

section Operations
variable {a b lo hi : Num64} (ha : isFinite a = true) (hb : isFinite b = true) (hl : isFinite lo = true)
  (hh : isFinite hi = true)
include ha hb hl hh

theorem fadd_inRange (h1 : valueOf lo ≤ valueOf a + valueOf b) (h2 : valueOf a + valueOf b ≤ valueOf hi) :
    inRange lo hi (fadd a b) :=
  inRange_of_roundsTo (by exact_mod_cast fadd_roundsTo ha hb) hl hh h1 h2

theorem fsub_inRange (h1 : valueOf lo ≤ valueOf a - valueOf b) (h2 : valueOf a - valueOf b ≤ valueOf hi) :
    inRange lo hi (fsub a b) :=
  inRange_of_roundsTo (by exact_mod_cast fsub_roundsTo ha hb) hl hh h1 h2

theorem fmul_inRange (h1 : valueOf lo ≤ valueOf a * valueOf b) (h2 : valueOf a * valueOf b ≤ valueOf hi) :
    inRange lo hi (fmul a b) :=
  inRange_of_roundsTo (by exact_mod_cast fmul_roundsTo ha hb) hl hh h1 h2

theorem fdiv_inRange (h0 : valueOf b ≠ 0) (h1 : valueOf lo ≤ valueOf a / valueOf b)
    (h2 : valueOf a / valueOf b ≤ valueOf hi) : inRange lo hi (fdiv a b) := by
  have hz : isZero b = false := by
    by_contra hz
    exact h0 (valueOf_of_isZero (by simpa using hz))
  exact inRange_of_roundsTo (by exact_mod_cast fdiv_roundsTo ha hb hz) hl hh h1 h2

end Operations

theorem finiteFrom_n0_iff {x : Num64} : finiteFrom n0 x ↔ isFinite x = true ∧ 0 ≤ valueOf x := by
  constructor <;> rintro ⟨hf, h⟩
  · exact ⟨hf, by rwa [fle_iff_valueOf (by decide) (isNaN_of_isFinite hf), valueOf_n0] at h⟩
  · exact ⟨hf, by rwa [fle_iff_valueOf (by decide) (isNaN_of_isFinite hf), valueOf_n0]⟩

theorem valueOf_lt_pow {x : Num64} (h : isFinite x = true) : valueOf x < 2 ^ 1024 :=
  (le_abs_self _).trans_lt (abs_valueOf_lt_pow h)

/-- A sample rate in range, as a number. -/
theorem fs_bounds {fs : Num64} (h : inRange fsMin fsMax fs) :
    isFinite fs = true ∧ 8000 ≤ valueOf fs ∧ valueOf fs ≤ 192000 := by
  have vmin : valueOf fsMin = 8000 := by decide +kernel
  have vmax : valueOf fsMax = 192000 := by decide +kernel
  rw [← vmin, ← vmax]
  exact (inRange_iff_valueOf (by decide) (by decide)).1 h

theorem unit_iff {x : Num64} : inRange n0 n1 x ↔ isFinite x = true ∧ 0 ≤ valueOf x ∧ valueOf x ≤ 1 := by
  rw [inRange_iff_valueOf (by decide) (by decide), valueOf_n0, valueOf_n1]

theorem inRange_mono {lo lo' hi hi' x : Num64} (h : inRange lo hi x) (hl : fle lo' lo = true) (hh : fle hi hi' = true) :
    inRange lo' hi' x := ⟨fle_trans hl h.1, fle_trans h.2 hh⟩

/-! ### Not below 0 (a NaN included) -/

theorem not_flt_n0_of_isNaN {x : Num64} (h : isNaN x = true) : flt x n0 = false := (compare_nan (.inl h)).2.1

theorem not_flt_n0_of_fle {x : Num64} (h : fle n0 x = true) : flt x n0 = false := by
  obtain ⟨-, -, hk⟩ := fle_iff.1 h
  by_contra hc
  obtain ⟨-, -, hlt⟩ := flt_iff.1 (by simpa using hc)
  omega

theorem fle_of_not_flt_n0 {x : Num64} (h : flt x n0 = false) (hn : isNaN x = false) : fle n0 x = true := by
  rw [fle_iff_valueOf (by decide) hn]
  by_contra hc
  rw [(flt_iff_valueOf hn (by decide)).2 (not_le.1 hc)] at h
  cases h

theorem not_flt_n0_of_isNeg {x : Num64} (h : isNeg x = false) : flt x n0 = false := by
  by_contra hc
  obtain ⟨-, -, hlt⟩ := flt_iff.1 (by simpa using hc)
  have h0 : orderKey n0 = 0 := by decide
  rw [h0, orderKey, if_neg (by simp [h])] at hlt
  omega

/-- An operand that is not below 0, by its kind. -/
theorem not_flt_n0_cases {x : Num64} (h : flt x n0 = false) :
    isNaN x = true ∨ (isInf x = true ∧ isNaN x = false ∧ isNeg x = false) ∨ (isFinite x = true ∧ fle n0 x = true) := by
  cases hn : isNaN x
  · have h0 := fle_of_not_flt_n0 h hn
    cases hi : isInf x
    · rw [isNaN_eq_false_iff] at hn
      have hne : magBits x ≠ infMag := fun he => by rw [isInf_iff.2 he] at hi; cases hi
      exact .inr (.inr ⟨isFinite_iff.2 (by omega), h0⟩)
    · exact .inr (.inl ⟨rfl, rfl, isNeg_eq_false_of_nonneg h0 (isZero_of_isInf hi)⟩)
  · exact .inl rfl

theorem not_flt_n0_of_roundsTo {r : ℝ} {y : Num64} (h : roundsTo r y) (h0 : 0 ≤ r) : flt y n0 = false :=
  not_flt_n0_of_fle (roundsTo_ge h (by decide) (by rwa [valueOf_n0, Rat.cast_zero]))

theorem valueOf_nonneg {x : Num64} (hf : isFinite x = true) (h : fle n0 x = true) : (0 : ℝ) ≤ valueOf x := by
  exact_mod_cast (finiteFrom_n0_iff.1 ⟨hf, h⟩).2

/-- An infinity times a number not below 0: a NaN or the infinity. -/
theorem not_flt_n0_fmul_inf {a b : Num64} (h : isInf a = true ∨ isInf b = true) (na : isNaN a = false) (nb : isNaN b = false)
    (pa : fle n0 a = true) (pb : fle n0 b = true) : flt (fmul a b) n0 = false := by
  cases za : isZero a <;> cases zb : isZero b
  · rw [fmul_inf h na nb za zb]
    apply not_flt_n0_of_isNeg
    rw [isNeg_mkNum_inf, isNeg_eq_false_of_nonneg pa za, isNeg_eq_false_of_nonneg pb zb]
    rfl
  · have ia : isInf a = true := h.resolve_right fun ib => by rw [isZero_of_isInf ib] at zb; cases zb
    exact not_flt_n0_of_isNaN (isNaN_fmul_inf_zero (.inl ⟨ia, zb⟩))
  all_goals
    have ib : isInf b = true := h.resolve_left fun ia => by rw [isZero_of_isInf ia] at za; cases za
    exact not_flt_n0_of_isNaN (isNaN_fmul_inf_zero (.inr ⟨za, ib⟩))

theorem not_flt_n0_fmul {a b : Num64} (ha : flt a n0 = false) (hb : flt b n0 = false) : flt (fmul a b) n0 = false := by
  cases na : isNaN a
  · cases nb : isNaN b
    · have pa := fle_of_not_flt_n0 ha na
      have pb := fle_of_not_flt_n0 hb nb
      rcases not_flt_n0_cases ha with h | ⟨ia, -, -⟩ | ⟨fa, -⟩
      · rw [na] at h; cases h
      · exact not_flt_n0_fmul_inf (.inl ia) na nb pa pb
      rcases not_flt_n0_cases hb with h | ⟨ib, -, -⟩ | ⟨fb, -⟩
      · rw [nb] at h; cases h
      · exact not_flt_n0_fmul_inf (.inr ib) na nb pa pb
      · exact not_flt_n0_of_roundsTo (fmul_roundsTo fa fb) (mul_nonneg (valueOf_nonneg fa pa) (valueOf_nonneg fb pb))
    · exact not_flt_n0_of_isNaN (isNaN_fmul (.inr nb))
  · exact not_flt_n0_of_isNaN (isNaN_fmul (.inl na))

theorem isZero_eq_false_of_pos {x : Num64} (h : 0 < valueOf x) : isZero x = false := by
  by_contra hz
  rw [valueOf_of_isZero (by simpa using hz)] at h
  exact lt_irrefl _ h

theorem not_flt_n0_fdiv {a b : Num64} (ha : flt a n0 = false) (fb : isFinite b = true) (pb : 0 < valueOf b) :
    flt (fdiv a b) n0 = false := by
  have zb := isZero_eq_false_of_pos pb
  rcases not_flt_n0_cases ha with na | ⟨ia, -, sa⟩ | ⟨fa, pa⟩
  · exact not_flt_n0_of_isNaN (isNaN_fdiv (.inl na))
  · rw [fdiv_inf_finite ia fb]
    apply not_flt_n0_of_isNeg
    rw [isNeg_mkNum_inf, sa, isNeg_eq_false_of_nonneg (finiteFrom_n0_iff.2 ⟨fb, pb.le⟩).2 zb]
    rfl
  · exact not_flt_n0_of_roundsTo (fdiv_roundsTo fa fb zb)
      (div_nonneg (valueOf_nonneg fa pa) (by exact_mod_cast pb.le))

/-- A square root is a NaN, a zero or positive, whatever the operand. -/
theorem not_flt_n0_fsqrt (x : Num64) : flt (fsqrt x) n0 = false := by
  unfold fsqrt
  split
  · exact not_flt_n0_of_isNaN (isNaN_nanOf _ _ _)
  split
  · next hz => exact not_flt_n0_of_fle (finiteFrom_n0_iff.2 ⟨isFinite_of_isZero hz, (valueOf_of_isZero hz).ge⟩).2
  split
  · exact not_flt_n0_of_isNaN (isNaN_nanOf _ _ _)
  next hs =>
  split
  · exact not_flt_n0_of_isNeg (by simpa using hs)
  · exact not_flt_n0_of_isNeg (isNeg_roundNum _ _ _)

end Sys2Proof.Machine
end

section
/-! PROOFS. The structure of the state (spec/10_state.md R35 (b), (d) to (f), spec/40_oscillator.md R106, spec/47_reverb.md R255): each internal operation keeps the structure of the part that it works on. -/

namespace Sys2Proof.Machine

/-! ### Oscillators -/

theorem OscInv.oscSetFreq {o : Osc} (h : OscInv o) (f0 b : Num64) : OscInv (oscSetFreq f0 b o) := by
  obtain ⟨hstep, hamp⟩ := oscScan_memOk f0 b Config.npMax (Config.npMax - 1) 1 { o with np := 1 } (by decide) h.step h.amp
  obtain ⟨n, h1, hn, hnp, -, hle, -⟩ :=
    oscScan_spec f0 b (Config.npMax - 1) 1 { o with np := 1 } rfl h.step.1 h.amp.1
  refine ⟨h1.trans_eq hnp.symm, hnp.trans_le hn, hamp, hstep, by rw [oscSetFreq_ph]; exact h.ph, fun i hi hin => ?_⟩
  obtain ⟨hq, hread, -⟩ := hle i hi (hin.trans_eq hnp)
  exact (congrArg (fle · qNyq) hread).trans hq

/-- An oscillator whose phases alone have changed. -/
theorem OscInv.of_phases {o o' : Osc} (h : OscInv o) (hnp : o'.np = o.np) (hamp : o'.amp = o.amp)
    (hstep : o'.step = o.step) (hph : memOk Config.npMax o'.ph) : OscInv o' where
  np_pos := by rw [hnp]; exact h.np_pos
  np_le := by rw [hnp]; exact h.np_le
  amp := by rw [hamp]; exact h.amp
  step := by rw [hstep]; exact h.step
  ph := hph
  stepLe := by rw [hnp, hstep]; exact h.stepLe

theorem OscInv.oscReset {o : Osc} (h : OscInv o) (v oi : Nat) (random : Bool) : OscInv (oscReset v oi random o) :=
  h.of_phases (oscReset_np ..) (oscReset_amp ..) (oscReset_step ..) (oscReset_memOk v oi random o h.ph)

theorem OscInv.oscProcess {o : Osc} (h : OscInv o) (m : Num64) : OscInv (oscProcess m o).1 := by
  obtain ⟨hnp, hamp, hstep⟩ := oscProcess_keeps m o h.ph.1
  refine h.of_phases hnp hamp hstep (oscProcess_memOk m Config.npMax _ (o, n0) (fun i hi => ?_) h.ph)
  have hlt := (List.mem_range'_1.1 hi).2
  have hpos := h.np_pos
  have hle := h.np_le
  omega

/-! ### Voices -/

theorem envAtRest_of_stage {e : Env} (h : e.stage ≠ .stop) : envAtRest e := fun hs => absurd hs h

theorem envNoteOff_releasing (e : Env) : releasing (envNoteOff e) := by
  rcases envNoteOff_cases e with ⟨hr, he⟩ | ⟨-, he⟩
  · rwa [he]
  · rw [he]; exact .inl rfl

theorem envAtRest_envNoteOff {e : Env} (h : envAtRest e) : envAtRest (envNoteOff e) := by
  rcases envNoteOff_cases e with ⟨-, he⟩ | ⟨-, he⟩
  · rwa [he]
  · rw [he]; exact envAtRest_of_stage (by simp)

theorem VoiceInv.voiceSetF0 {v : Voice} (h : VoiceInv v) (p : Params) (c : Ctrl) : VoiceInv (voiceSetF0 p c v) :=
  { h with osc0 := h.osc0.oscSetFreq _ _, osc1 := h.osc1.oscSetFreq _ _ }

/-- VoiceProcess runs each part's own operation: it ends a released note, or runs both envelopes and both oscillators (R175). -/
theorem VoiceInv.voiceProcess {v : Voice} (h : VoiceInv v) (p : Params) (c : Ctrl) : VoiceInv (voiceProcess p c v).1 := by
  rcases voiceProcess_next p c v with ⟨-, he⟩ | ⟨hrel, he⟩ | ⟨-, ht⟩
  · rwa [he]
  · rw [he]
    exact { h with amp := fun _ => ⟨rfl, rfl⟩, both := fun _ => h.both (.inl hrel) }
  · refine ⟨?_, ?_, ?_, ?_, ?_⟩
    · rw [ht.osc0]; exact h.osc0.oscProcess _
    · rw [ht.osc1]; exact h.osc1.oscProcess _
    · rw [ht.amp]; exact envProcess_rest _ _ _ h.amp
    · rw [ht.flt]; exact envProcess_rest _ _ _ h.flt
    · rw [ht.amp, ht.flt]
      exact fun hr => (envProcess_releasing _ _ _).2 (h.both ((envProcess_releasing _ _ _).1 hr))

theorem VoiceInv.voiceNoteOn {v : Voice} (h : VoiceInv v) (p : Params) (c : Ctrl) (vi : Nat) (pitch : Fin 128)
    (vel : Num64) : VoiceInv (voiceNoteOn p c vi pitch vel v) where
  osc0 := (h.osc0.oscSetFreq _ _).oscReset _ _ _
  osc1 := (h.osc1.oscSetFreq _ _).oscReset _ _ _
  amp := envAtRest_of_stage Stage.noConfusion
  flt := envAtRest_of_stage Stage.noConfusion
  both hr := by rcases hr with hr | hr <;> cases hr

theorem VoiceNext.voiceInv {p q : Params} {c d : Ctrl} {vi : Nat} {v w : Voice} (hn : VoiceNext p q c d vi v w)
    (h : VoiceInv v) : VoiceInv w := by
  cases hn with
  | kept => exact h
  | ticked => exact h.voiceProcess q d
  | released =>
    exact { h with
      amp := envAtRest_envNoteOff h.amp, flt := envAtRest_envNoteOff h.flt, both := fun _ => envNoteOff_releasing v.flt }
  | started pitch vel => exact h.voiceNoteOn q d vi pitch vel
  | recomputed => exact { h.voiceSetF0 q d with }
  | bent =>
    have hb : VoiceInv { v with bend := d.bendMul } := { h with }
    exact hb.voiceSetF0 q d
  | stretched => exact { h with osc1 := h.osc1.oscSetFreq _ _ }
  | filtered | resonated => exact { h with }

/-! ### The effect chain -/

/-- The divider counts up to at most P.DIV_N - 1 (R220). -/
theorem FxInv.divProcess {len : Nat} {fx : Fx} (h : FxInv len fx) {n : Int} (hn : n ≤ 32767) (x : Stereo) :
    FxInv len (divProcess n x fx).1 := by
  rcases divProcess_cases n x fx with ⟨-, he⟩ | ⟨-, hold, cnt, -, hcnt, he⟩ <;> rw [he]
  · exact { h with divCnt := by simp }
  · exact { h with divCnt := by rcases hcnt with ⟨-, rfl⟩ | ⟨hlt, rfl⟩ <;> dsimp only <;> omega }

theorem FxInv.chProcess {fx : Fx} {c : Ctrl} (h : FxInv c.chLen fx) (p : Params) (x : Stereo) :
    FxInv c.chLen (chProcess p c x fx).1 :=
  { h with
    chBuf0 := memWrite_memOk h.chBuf0 h.chHead
    chBuf1 := memWrite_memOk h.chBuf1 h.chHead
    chHead := Nat.mod_lt _ (Nat.zero_lt_of_lt h.chHead) }

/-- A flushed word pushed into a line leaves no subnormal there (R255). -/
theorem rvNorm_ringPush {len : Nat} {r : Ring} (h : ∀ c ∈ r.mem, ¬ isSubnormal c.2) (u : Num64) :
    ∀ c ∈ (ringPush len r (flush u)).mem, ¬ isSubnormal c.2 := by
  intro c hc
  rcases mem_memWrite hc with hc | ⟨rfl, -⟩
  · exact h c hc
  · exact flush_not_subnormal u

theorem FxInv.rvNetwork {len : Nat} {fx : Fx} (h : FxInv len fx) (c : Ctrl) (x : Stereo) : FxInv len (rvNetwork c x fx) := by
  obtain ⟨hline, hpass⟩ := rvNetwork_spec c x fx
  exact { h with
    rv := fun i => by
      obtain ⟨u, hu⟩ := hline i
      rw [hu]; exact ringPush_inv (h.rv i)
    rvNorm := fun i => by
      obtain ⟨u, hu⟩ := hline i
      rw [hu]; exact rvNorm_ringPush (h.rvNorm i) u
    ap := fun j => by
      obtain ⟨w, hw⟩ := hpass j
      rw [hw]; exact ringPush_inv (h.ap j) }

theorem FxInv.effectChain {p : Params} {c : Ctrl} {fx : Fx} (h : FxInv c.chLen fx) (hn : p.divN ≤ 32767) (x : Stereo) :
    FxInv c.chLen (effectChain p c x fx).1 := by
  have hd := h.divProcess hn x
  have he : FxInv c.chLen (eqProcess c (Machine.divProcess p.divN x fx).2 (Machine.divProcess p.divN x fx).1).1 :=
    { hd with }
  exact (he.chProcess p _).rvNetwork c _

theorem fxFlushed_rv (i : Fin 4) : fxFlushed.rv[i] = ringZero := by simp [fxFlushed]
theorem fxFlushed_ap (j : Fin 8) : fxFlushed.ap[j] = ringZero := by simp [fxFlushed]

theorem rvLen_pos : ∀ i : Fin 4, 0 < Config.rvLen[i] := by decide
theorem apLen_pos : ∀ j : Fin 8, 0 < Config.apLen[j] := by decide

theorem ringInv_zero {len : Nat} (h : 0 < len) : RingInv len ringZero := ⟨memOk_nil len, h⟩

theorem fxInv_flushed {len : Nat} (h : 0 < len) : FxInv len fxFlushed where
  divCnt := Nat.zero_le _
  chBuf0 := memOk_nil len
  chBuf1 := memOk_nil len
  chHead := h
  rv i := by rw [fxFlushed_rv]; exact ringInv_zero (rvLen_pos i)
  rvNorm i := by rw [fxFlushed_rv]; exact fun c hc => nomatch hc
  ap j := by rw [fxFlushed_ap]; exact ringInv_zero (apLen_pos j)

theorem FxNext.fxInv {q : Params} {c d : Ctrl} {fx fx' : Fx} (hn : FxNext q c d fx fx') (h : FxInv c.chLen fx)
    (hlen : d.fs = c.fs → d.chLen = c.chLen) (hpos : 0 < d.chLen) (hdiv : q.divN ≤ 32767) : FxInv d.chLen fx' := by
  cases hn with
  | kept hfs => rw [hlen hfs]; exact h
  | ticked hfs x => exact FxInv.effectChain (by rw [hlen hfs]; exact h) hdiv x
  | flushed => exact fxInv_flushed hpos

/-! ### The chorus length (R24) -/

theorem ctrlAfter_chLen {q : Params} {c : Ctrl} (h : c.chLen = (floorInt c.fs).toNat) (i : Instr) :
    (ctrlAfter q c i).chLen = (floorInt (ctrlAfter q c i).fs).toNat := by
  cases i with
  | setFs | setChRate | setChDepth | setChDelay => rfl
  | _ => exact h

theorem paramsAfter_divN {p : Params} (h : p.divN ≤ 32767) (i : Instr) : (paramsAfter p i).divN ≤ 32767 := by
  cases i with
  | setDivN imm => exact (immVal_range imm).2
  | _ => exact h

/-- A sample rate in range gives a chorus ring of 8000 to 192000 words. -/
theorem chLen_bounds {fs : Num64} (h : inRange fsMin fsMax fs) :
    8000 ≤ (floorInt fs).toNat ∧ (floorInt fs).toNat ≤ Config.chCap := by
  obtain ⟨hf, hlo, hhi⟩ := fs_bounds h
  rw [floorInt_eq_floor hf]
  have h1 : (8000 : ℤ) ≤ ⌊valueOf fs⌋ := Int.le_floor.2 (by exact_mod_cast hlo)
  have h2 : ⌊valueOf fs⌋ ≤ 192000 := Int.floor_le_iff.2 (by push_cast; linarith)
  unfold Config.chCap
  omega

/-! ### The whole state -/

theorem structInv_of_effect {i : Instr} {s t : State} (e : Effect i s t) (h : StructInv s) : StructInv t := by
  have hfs : inRange fsMin fsMax t.ctrl.fs := by rw [e.ctrl]; exact ctrlAfter_fs_inRange h.fs i
  have hlen : t.ctrl.chLen = (floorInt t.ctrl.fs).toNat := by rw [e.ctrl]; exact ctrlAfter_chLen h.chLen i
  have hdiv : t.params.divN ≤ 32767 := by rw [e.params]; exact paramsAfter_divN h.divN i
  obtain ⟨hmin, hmax⟩ := chLen_bounds hfs
  rw [← hlen] at hmin hmax
  exact ⟨hfs, hdiv, hlen, hmin, hmax, fun v => (e.voice v).voiceInv (h.voices v),
    e.fx.fxInv h.fx (fun he => by rw [hlen, h.chLen, he]) (by omega) hdiv⟩

theorem oscInv_blank : OscInv oscBlank where
  np_pos := le_refl 1
  np_le := by decide
  amp := memOk_nil _
  step := memOk_nil _
  ph := memOk_nil _
  stepLe i h1 h2 := absurd h2 (Nat.not_lt.2 h1)

theorem voiceInv_blank : VoiceInv voiceBlank :=
  ⟨oscInv_blank, oscInv_blank, fun _ => ⟨rfl, rfl⟩, fun _ => ⟨rfl, rfl⟩, fun _ => .inr rfl⟩

theorem voiceInv_reset (v : Fin Config.nVoice) : VoiceInv voicesReset[v] := by
  rw [voicesReset_getElem]
  exact { voiceInv_blank.voiceSetF0 paramsReset ctrlReset with }

theorem structInv_reset (hs : List HostCycle) : StructInv (withPorts false hs State.reset) := by
  have hfs : inRange fsMin fsMax ctrlReset.fs := (paramInv_reset hs).fs
  obtain ⟨hmin, hmax⟩ := chLen_bounds hfs
  have hlen : ctrlReset.chLen = (floorInt ctrlReset.fs).toNat := by simp [ctrlReset]
  rw [← hlen] at hmin hmax
  have hdiv : paramsReset.divN ≤ 32767 := by decide
  exact ⟨hfs, hdiv, hlen, hmin, hmax, voiceInv_reset, fxInv_flushed (Nat.lt_of_lt_of_le (by decide) hmin)⟩

/-- Settles O53: each operation keeps the structure of its part, and C.CH_LEN follows C.FS. -/
theorem structInvStep : Obligations.StructInvStep :=
  step_keeps structInv_reset fun _ _ _ => structInv_of_effect

end Sys2Proof.Machine
end

section
/-! PROOFS. The two tables (spec/10_state.md R32, spec/40_oscillator.md R100, R101): every entry that a phase selects is in [-1, 1], and every random phase is in [0, 1). -/

namespace Sys2Proof.Machine

/-! ### The cosine table (R67, R100) -/

theorem cosSeries_le {x2 : Nat} : ∀ {n acc : Nat}, acc ≤ 2 ^ 128 → cosSeries x2 n acc ≤ 2 ^ 128
  | 0, _, h => h
  | _ + 1, _, _ => by rw [cosSeries]; exact cosSeries_le (Nat.sub_le _ _)

theorem sinSeries_le {x2 : Nat} : ∀ {n acc : Nat}, acc ≤ 2 ^ 128 → sinSeries x2 n acc ≤ 2 ^ 128
  | 0, _, h => h
  | _ + 1, _, _ => by rw [sinSeries]; exact sinSeries_le (Nat.sub_le _ _)

theorem cosFixed_le (j : Nat) : cosFixed j ≤ 2 ^ 128 := cosSeries_le le_rfl

/-- `sin x <= x`, and `x` is below 1 up to pi/4. -/
theorem sinFixed_le {j : Nat} (h : j ≤ 1024) : sinFixed j ≤ 2 ^ 128 := by
  have hx : piFixed * j / 4096 ≤ 2 ^ 128 := by
    have : piFixed * j ≤ piFixed * 1024 := Nat.mul_le_mul_left _ h
    unfold piFixed at *
    omega
  unfold sinFixed
  dsimp only
  refine le_trans (Nat.div_le_of_le_mul ?_) hx
  rw [mul_comm (2 ^ 128)]
  exact Nat.mul_le_mul_left _ (sinSeries_le le_rfl)

theorem valueOf_nNeg1 : valueOf nNeg1 = -1 := by decide +kernel

/-- The pattern with the other sign has the value with the other sign. -/
theorem roundNum_true (m : Nat) (e : Int) : roundNum true m e = negate (roundNum false m e) := by
  have hlt : roundMag 52 (-1074) infMag m e < 2 ^ 63 := by
    unfold roundMag
    split
    · norm_num
    · exact lt_of_le_of_lt (min_le_left _ _) (by decide)
  unfold roundNum negate
  rw [isNeg_mkNum hlt, magBits_mkNum hlt]
  rfl

/-- A fixed-point number of at most 1, with the sticky bit of the table, rounds into [-1, 1]. -/
theorem tableEntry_inRange (neg : Bool) {n : Nat} (h : n ≤ 2 ^ 128) : inRange nNeg1 n1 (roundNum neg (2 * n + 1) (-129)) := by
  have hr := roundNum_roundsTo (m := 2 * n + 1) (e := -129) (by omega) (.inl rfl) false
  rw [if_neg (by simp)] at hr
  have h0 : (0 : ℝ) ≤ ((2 * n + 1 : ℕ) : ℝ) * 2 ^ (-129 : ℤ) := by positivity
  have h1 : ((2 * n + 1 : ℕ) : ℝ) * 2 ^ (-129 : ℤ) ≤ 1 + 1 / 2 ^ 54 := by
    have hn : ((2 * n + 1 : ℕ) : ℝ) ≤ 2 ^ 129 + 1 := by exact_mod_cast (by omega : 2 * n + 1 ≤ 2 ^ 129 + 1)
    rw [zpow_neg, ← div_eq_mul_inv, div_le_iff₀ (by positivity)]
    refine hn.trans ?_
    norm_num
  have hu : inRange n0 n1 (roundNum false (2 * n + 1) (-129)) :=
    ⟨roundsTo_ge hr (by decide) (by rwa [valueOf_n0, Rat.cast_zero]), roundsTo_le_one hr h0 h1⟩
  obtain ⟨hf, hlo, hhi⟩ := unit_iff.1 hu
  rw [inRange_iff_valueOf (by decide) (by decide), valueOf_n1, valueOf_nNeg1]
  cases neg
  · exact ⟨hf, by linarith, hhi⟩
  · obtain ⟨hf', hv⟩ := negate_spec _ hf
    rw [roundNum_true, hv]
    exact ⟨hf', by linarith, by linarith⟩

theorem cosQuadrant_inRange (neg : Bool) {j : Nat} (h : j ≤ 2048) : inRange nNeg1 n1 (cosQuadrant neg j) := by
  unfold cosQuadrant
  split
  · cases neg <;> decide
  split
  · decide
  split
  · exact tableEntry_inRange neg (cosFixed_le j)
  · exact tableEntry_inRange neg (sinFixed_le (by omega))

theorem cosRom_inRange {k : Nat} (h : k < 8192) : inRange nNeg1 n1 (cosRom k) := by
  unfold cosRom
  split
  · exact cosQuadrant_inRange _ ‹_›
  split
  · exact cosQuadrant_inRange _ (by omega)
  split
  · exact cosQuadrant_inRange _ (by omega)
  · exact cosQuadrant_inRange _ (by omega)

/-- The largest binary64 number below 1. -/
def onePred : Num64 := 0x3FEFFFFFFFFFFFFF#64

/-- A phase as a number: finite, at least 0, and at most the largest number below 1. -/
theorem inPhase_bounds {p : Num64} (h : inPhase p) : isFinite p = true ∧ 0 ≤ valueOf p ∧ valueOf p ≤ valueOf onePred := by
  have hp : inRange n0 onePred p := by
    refine ⟨h.1, ?_⟩
    obtain ⟨hn, -, hk⟩ := flt_iff.1 h.2
    have e1 : orderKey n1 = 4607182418800017408 := by decide
    have e2 : orderKey onePred = 4607182418800017407 := by decide
    exact fle_iff.2 ⟨hn, by decide, by omega⟩
  rw [← valueOf_n0]
  exact (inRange_iff_valueOf (by decide) (by decide)).1 hp

theorem inPhase_of_inRange {x hi : Num64} (h : inRange n0 hi x) (hhi : flt hi n1 = true) : inPhase x := by
  refine ⟨h.1, ?_⟩
  obtain ⟨hn, -, hk⟩ := fle_iff.1 h.2
  obtain ⟨-, hn1, hlt⟩ := flt_iff.1 hhi
  exact flt_iff.2 ⟨hn, hn1, by omega⟩

/-- A phase selects an entry of the table, and every entry is in [-1, 1]. -/
theorem cosLookup_inRange {p : Num64} (h : inPhase p) : inRange nNeg1 n1 (cosLookup p) := by
  obtain ⟨hf, h0, h1⟩ := inPhase_bounds h
  have v8192 : valueOf n8192 = 8192 := by decide +kernel
  have vtop : valueOf onePred * 8192 = valueOf 0x40BFFFFFFFFFFFFF#64 := by decide +kernel
  have hlt : valueOf 0x40BFFFFFFFFFFFFF#64 < 8192 := by decide +kernel
  have hr : inRange n0 0x40BFFFFFFFFFFFFF#64 (fmul p n8192) :=
    fmul_inRange hf (by decide) (by decide) (by decide) (by rw [valueOf_n0, v8192]; positivity)
      (by rw [v8192, ← vtop]; linarith)
  obtain ⟨hfm, hlo, hhi⟩ := (inRange_iff_valueOf (by decide) (by decide)).1 hr
  rw [valueOf_n0] at hlo
  have k0 : 0 ≤ floorInt (fmul p n8192) := by rw [floorInt_eq_floor hfm]; exact Int.floor_nonneg.2 hlo
  have k1 : floorInt (fmul p n8192) < 8192 := by
    rw [floorInt_eq_floor hfm]
    exact Int.floor_lt.2 (by push_cast; linarith)
  unfold cosLookup Config.cosN
  dsimp only
  rw [if_pos ⟨k0, k1⟩]
  exact cosRom_inRange (by omega)

/-! ### Random phases (R101) -/

theorem lcg_lt {i x : Nat} (h : i ≠ 0) : lcg i x < 2 ^ 32 := by
  obtain ⟨k, rfl⟩ := Nat.exists_eq_succ_of_ne_zero h
  exact Nat.mod_lt _ (by norm_num)

theorem inPhase_n0 : inPhase n0 := by decide
theorem inPhase_lfoPh0 : inPhase lfoPh0 := by decide

theorem rndPh_inPhase (v o i : Nat) : inPhase (rndPh v o i) := by
  unfold rndPh
  split
  · exact inPhase_n0
  next hi =>
  have hlt := lcg_lt (x := 2 * v + o + 1) hi
  generalize lcg i (2 * v + o + 1) = k at hlt
  obtain ⟨hf, hv⟩ := valueOf_ofInt (n := (k : ℤ)) (by omega)
  have v32 : valueOf nTwo32 = 2 ^ 32 := by decide +kernel
  have vtop : valueOf 0x3FEFFFFFFFE00000#64 = (2 ^ 32 - 1) / 2 ^ 32 := by decide +kernel
  have hk : (k : ℚ) ≤ 2 ^ 32 - 1 := by
    have : (k : ℚ) + 1 ≤ 2 ^ 32 := by exact_mod_cast hlt
    linarith
  refine inPhase_of_inRange (hi := 0x3FEFFFFFFFE00000#64) (fdiv_inRange hf (by decide) (by decide) (by decide) ?_ ?_ ?_) (by decide)
  · rw [v32]; norm_num
  · rw [hv, v32, valueOf_n0]; positivity
  · rw [hv, v32, vtop]; exact div_le_div_of_nonneg_right (by exact_mod_cast hk) (by norm_num)

end Sys2Proof.Machine
end

section
/-! PROOFS. The phases (spec/10_state.md R26, R29, R30, R35 (a), spec/40_oscillator.md R105 to R108): a phase in [0, 1) that advances by a finite step of at least 0 stays there, because `frac` is exact; and every step that is added is finite and at least 0. -/

namespace Sys2Proof.Machine

/-! ### Advancing a phase (R108, R163, R232) -/

/-- 2^1022: every step that a phase advances by is at most this. -/
def advanceTop : Num64 := 0x7FD0000000000000#64
/-- 2^1018: every rate divided by C.FS is at most this. -/
def rateTop : Num64 := 0x7F90000000000000#64

theorem valueOf_advanceTop : valueOf advanceTop = 2 ^ 1022 := by decide +kernel
theorem valueOf_rateTop : valueOf rateTop = 2 ^ 1018 := by decide +kernel

theorem frac_advance {p x : Num64} (hp : inPhase p) (hx : inRange n0 advanceTop x) : inPhase (frac (fadd p x)) := by
  obtain ⟨fp, p0, p1⟩ := inPhase_bounds hp
  obtain ⟨fx, x0, x1⟩ := (inRange_iff_valueOf (by decide) (by decide)).1 hx
  have vtop : valueOf 0x7FE0000000000000#64 = 2 ^ 1023 := by decide +kernel
  have htop : valueOf onePred + 2 ^ 1022 ≤ 2 ^ 1023 := by decide +kernel
  rw [valueOf_n0] at x0
  rw [valueOf_advanceTop] at x1
  have hs : inRange n0 0x7FE0000000000000#64 (fadd p x) :=
    fadd_inRange fp fx (by decide) (by decide) (by rw [valueOf_n0]; exact add_nonneg p0 x0)
      (by rw [vtop]; exact (add_le_add p1 x1).trans htop)
  exact frac_inPhase (isFinite_of_inRange (by decide) (by decide) hs) hs.1

/-- A finite rate divided by C.FS (R161, R231). -/
theorem rate_inRange {x fs : Num64} (hx : finiteFrom n0 x) (hfs : inRange fsMin fsMax fs) : inRange n0 rateTop (fdiv x fs) := by
  obtain ⟨fx, x0⟩ := finiteFrom_n0_iff.1 hx
  obtain ⟨ffs, hlo, -⟩ := fs_bounds hfs
  have hpos : 0 < valueOf fs := lt_of_lt_of_le (by norm_num) hlo
  refine fdiv_inRange fx ffs (by decide) (by decide) hpos.ne' ?_ ?_
  · rw [valueOf_n0]; exact div_nonneg x0 hpos.le
  · rw [valueOf_rateTop, div_le_iff₀ hpos]
    have h64 : (2 : ℚ) ^ 1024 = 2 ^ 1018 * 64 := by decide +kernel
    calc valueOf x ≤ 2 ^ 1018 * 64 := (valueOf_lt_pow fx).le.trans_eq h64
      _ ≤ 2 ^ 1018 * valueOf fs := mul_le_mul_of_nonneg_left (by linarith) (by positivity)

/-- The second chorus rate, 11/12 of the first (R231). -/
theorem secondRate_inRange {r : Num64} (h : inRange n0 rateTop r) : inRange n0 advanceTop (fdiv (fmul r n11) n12) := by
  obtain ⟨fr, r0, r1⟩ := (inRange_iff_valueOf (by decide) (by decide)).1 h
  have v11 : valueOf n11 = 11 := by decide +kernel
  have v12 : valueOf n12 = 12 := by decide +kernel
  have htop : (2 : ℚ) ^ 1018 * 11 ≤ 2 ^ 1022 := by decide +kernel
  rw [valueOf_n0] at r0
  rw [valueOf_rateTop] at r1
  have hm : inRange n0 advanceTop (fmul r n11) := by
    refine fmul_inRange fr (by decide) (by decide) (by decide) ?_ ?_
    · rw [valueOf_n0, v11]; positivity
    · rw [valueOf_advanceTop, v11]; exact (mul_le_mul_of_nonneg_right r1 (by norm_num)).trans htop
  obtain ⟨fm, m0, m1⟩ := (inRange_iff_valueOf (by decide) (by decide)).1 hm
  rw [valueOf_n0] at m0
  refine fdiv_inRange fm (by decide) (by decide) (by decide) (by rw [v12]; norm_num) ?_ ?_
  · rw [valueOf_n0, v12]; positivity
  · rw [v12]; exact (div_le_self m0 (by norm_num)).trans m1

/-- A step in [0, QNYQ] times a finite multiplier (R108). -/
theorem step_mul_inRange {st m : Num64} (hs : inRange n0 qNyq st) (hm : finiteFrom n0 m) :
    inRange n0 advanceTop (fmul st m) := by
  obtain ⟨fs, s0, s1⟩ := (inRange_iff_valueOf (by decide) (by decide)).1 hs
  obtain ⟨fm, m0⟩ := finiteFrom_n0_iff.1 hm
  have vq : valueOf qNyq = 1 / 4 := by decide +kernel
  have htop : (1 / 4 : ℚ) * 2 ^ 1024 = 2 ^ 1022 := by decide +kernel
  rw [valueOf_n0] at s0
  rw [vq] at s1
  refine fmul_inRange fs fm (by decide) (by decide) (by rw [valueOf_n0]; positivity) ?_
  rw [valueOf_advanceTop, ← htop]
  exact mul_le_mul s1 (valueOf_lt_pow fm).le m0 (by norm_num)

/-! ### Oscillators -/

theorem oscScan_wf (f0 b : Num64) : ∀ (fuel i : Nat) (o : Osc), o.step.wf → o.amp.wf →
    (oscScan f0 b fuel i o).step.wf ∧ (oscScan f0 b fuel i o).amp.wf
  | 0, _, _, hs, ha => ⟨hs, ha⟩
  | fuel + 1, i, o, hs, ha => by
    rw [oscScan]
    split
    · exact oscScan_wf f0 b fuel (i + 1) _ (memWrite_wf hs) (memWrite_wf ha)
    · exact ⟨hs, ha⟩

/-- No partial's frequency ratio is below 0 (R103). -/
theorem not_flt_n0_partialRatio (b : Num64) {i : Nat} (hi : i < 2 ^ 53) : flt (partialRatio b i) n0 = false := by
  obtain ⟨hf, hv⟩ := valueOf_ofInt (n := (i : ℤ)) (by omega)
  have hi : flt (ofInt i) n0 = false := not_flt_n0_of_fle (finiteFrom_n0_iff.2 ⟨hf, by rw [hv]; positivity⟩).2
  exact not_flt_n0_fmul hi (not_flt_n0_fsqrt _)

theorem OscPhaseInv.oscSetFreq {o : Osc} (h : OscPhaseInv o) {f0 : Num64} (hf0 : flt f0 n0 = false) (b : Num64) :
    OscPhaseInv (oscSetFreq f0 b o) := by
  obtain ⟨hs, ha⟩ := oscScan_wf f0 b (Config.npMax - 1) 1 { o with np := 1 } h.stepMem h.ampMem
  obtain ⟨n, -, hn, hnp, -, hle, -⟩ :=
    oscScan_spec f0 b (Config.npMax - 1) 1 { o with np := 1 } rfl h.stepMem h.ampMem
  refine ⟨by rw [oscSetFreq_ph]; exact h.phMem, hs, ha, fun i => by rw [oscSetFreq_ph]; exact h.ph i, fun i hi hin => ?_⟩
  obtain ⟨hq, hread, -⟩ := hle i hi (hin.trans_eq hnp)
  refine (congrArg (inRange n0 qNyq) hread).mpr ⟨?_, hq⟩
  have hi53 : i < 2 ^ 53 := by
    have : i < 1 + (Config.npMax - 1) := lt_of_lt_of_le (hin.trans_eq hnp) hn
    unfold Config.npMax at this
    omega
  exact fle_of_not_flt_n0 (not_flt_n0_fmul (not_flt_n0_partialRatio b hi53) hf0) (fle_iff.1 hq).1

/-- An oscillator whose phases alone have changed, to phases in [0, 1). -/
theorem OscPhaseInv.of_phases {o o' : Osc} (h : OscPhaseInv o) (hnp : o'.np = o.np) (hamp : o'.amp = o.amp)
    (hstep : o'.step = o.step) (hwf : o'.ph.wf) (hph : ∀ i, inPhase (memRead o'.ph i)) : OscPhaseInv o' where
  phMem := hwf
  stepMem := by rw [hstep]; exact h.stepMem
  ampMem := by rw [hamp]; exact h.ampMem
  ph := hph
  step := by rw [hnp, hstep]; exact h.step

theorem oscReset_ph_wf (v oi : Nat) (random : Bool) (o : Osc) (h : o.ph.wf) : (oscReset v oi random o).ph.wf := by
  unfold oscReset
  dsimp only
  generalize List.range Config.npMax = l
  exact (phaseWrites_spec _ l o.ph h).1

theorem OscPhaseInv.oscReset {o : Osc} (h : OscPhaseInv o) (v oi : Nat) (random : Bool) :
    OscPhaseInv (oscReset v oi random o) := by
  refine h.of_phases (oscReset_np ..) (oscReset_amp ..) (oscReset_step ..) (oscReset_ph_wf v oi random o h.phMem) fun i => ?_
  rw [oscReset_ph_read v oi random o h.phMem]
  split
  · cases random
    · exact inPhase_n0
    · exact rndPh_inPhase v oi i
  · exact h.ph i

/-- OscProcess advances the phases of the sounding partials, whose steps are in [0, QNYQ] (R108). -/
theorem OscPhaseInv.oscProcess {o : Osc} (h : OscPhaseInv o) {m : Num64} (hm : finiteFrom n0 m) :
    OscPhaseInv (oscProcess m o).1 := by
  obtain ⟨hnp, hamp, hstep, hwf, hread, -⟩ :=
    oscProcess_fold_spec m (List.range' 1 (o.np - 1)) (o, n0) List.nodup_range' h.phMem
  refine h.of_phases hnp hamp hstep hwf fun j => ?_
  refine (congrArg inPhase (hread j)).mpr ?_
  split
  · next hj =>
    obtain ⟨h1, h2⟩ := List.mem_range'_1.1 hj
    exact frac_advance (h.ph j) (step_mul_inRange (h.step j h1 (by omega)) hm)
  · exact h.ph j

/-! ### Pitch and vibrato (R163, R171, R175) -/

theorem not_flt_n0_exp2N {x : Num64} (h : isFinite x = true) : flt (exp2N x) n0 = false :=
  not_flt_n0_of_fle (exp2N_ranges h).1

/-- A quotient by a positive number, from the range of the dividend. -/
theorem quotient_inRange {m d lo hi lo' hi' : Num64} (hm : inRange lo' hi' m) (hd : isFinite d = true)
    (hl' : isFinite lo' = true) (hh' : isFinite hi' = true) (hl : isFinite lo = true) (hh : isFinite hi = true)
    (hpos : 0 < valueOf d) (h1 : valueOf lo * valueOf d ≤ valueOf lo') (h2 : valueOf hi' ≤ valueOf hi * valueOf d) :
    inRange lo hi (fdiv m d) := by
  obtain ⟨fm, m0, m1⟩ := (inRange_iff_valueOf hl' hh').1 hm
  refine fdiv_inRange fm hd hl hh hpos.ne' ?_ ?_
  · rw [le_div_iff₀ hpos]; exact h1.trans m0
  · rw [div_le_iff₀ hpos]; exact m1.trans h2

theorem valueOf_n12 : valueOf n12 = 12 := by decide +kernel
theorem valueOf_n48 : valueOf n48 = 48 := by decide +kernel
theorem valueOf_n64 : valueOf n64 = 64 := by decide +kernel
theorem valueOf_nNeg64 : valueOf nNeg64 = -64 := by decide +kernel
theorem valueOf_n120 : valueOf n120 = 120 := by decide +kernel
theorem valueOf_nNeg120 : valueOf nNeg120 = -120 := by decide +kernel
theorem valueOf_n1200 : valueOf n1200 = 1200 := by decide +kernel

theorem twelfth_finite {m : Num64} (h : inRange nNeg120 n120 m) : isFinite (fdiv m n12) = true :=
  isFinite_of_inRange (lo := nNeg64) (hi := n64) (by decide) (by decide)
    (quotient_inRange h (by decide) (by decide) (by decide) (by decide) (by decide) (by rw [valueOf_n12]; norm_num)
      (by rw [valueOf_nNeg64, valueOf_n12, valueOf_nNeg120]; norm_num)
      (by rw [valueOf_n64, valueOf_n12, valueOf_n120]; norm_num))

theorem octavesFrom69_finite (pitch : Fin 128) : isFinite (octavesFrom69 pitch) = true := by
  obtain ⟨hf, hv⟩ := valueOf_ofInt (n := (pitch.val : ℤ) - 69) (by omega)
  have hp : (pitch.val : ℚ) ≤ 127 := by exact_mod_cast Nat.le_of_lt_succ pitch.isLt
  push_cast at hv
  refine twelfth_finite ((inRange_iff_valueOf (by decide) (by decide)).2 ⟨hf, ?_, ?_⟩)
  · rw [hv, valueOf_nNeg120]; have : (0 : ℚ) ≤ pitch.val := by positivity
    linarith
  · rw [hv, valueOf_n120]; linarith

theorem not_flt_n0_voiceF0 {fs : Num64} (hfs : inRange fsMin fsMax fs) (pitch : Fin 128) {bend : Num64}
    (hb : fle n0 bend = true) : flt (voiceF0 fs pitch bend) n0 = false := by
  obtain ⟨ffs, hlo, -⟩ := fs_bounds hfs
  have h440 : flt n440 n0 = false := by decide
  exact not_flt_n0_fmul (not_flt_n0_fdiv (not_flt_n0_fmul h440 (not_flt_n0_exp2N (octavesFrom69_finite pitch))) ffs
    (lt_of_lt_of_le (by norm_num) hlo)) (not_flt_n0_of_fle hb)

/-- A bend multiplier is not below 0 (R202). -/
theorem fle_n0_bendMul {bend range : Num64} (hb : inRange nNeg1 n1 bend) (hr : inRange n0 n48 range) :
    fle n0 (exp2N (fdiv (fmul bend range) n12)) = true := by
  obtain ⟨fb, b0, b1⟩ := (inRange_iff_valueOf (by decide) (by decide)).1 hb
  obtain ⟨fr, r0, r1⟩ := (inRange_iff_valueOf (by decide) (by decide)).1 hr
  rw [valueOf_nNeg1] at b0
  rw [valueOf_n1] at b1
  rw [valueOf_n0] at r0
  rw [valueOf_n48] at r1
  have hm : inRange nNeg120 n120 (fmul bend range) :=
    fmul_inRange fb fr (by decide) (by decide) (by rw [valueOf_nNeg120]; nlinarith) (by rw [valueOf_n120]; nlinarith)
  exact (exp2N_ranges (twelfth_finite hm)).1

/-- The vibrato multiplier is finite: its exponent is in [-1, 1] (R175). -/
theorem vibratoMul_finiteFrom {p : Params} (hd : inRange n0 n1200 p.vibDepth) {l : Num64} (hl : inRange nNeg1 n1 l) :
    finiteFrom n0 (vibratoMul p l) := by
  obtain ⟨fd, d0, d1⟩ := (inRange_iff_valueOf (by decide) (by decide)).1 hd
  obtain ⟨fl, l0, l1⟩ := (inRange_iff_valueOf (by decide) (by decide)).1 hl
  have vneg : valueOf 0xC092C00000000000#64 = -1200 := by decide +kernel
  rw [valueOf_n0] at d0
  rw [valueOf_n1200] at d1
  rw [valueOf_nNeg1] at l0
  rw [valueOf_n1] at l1
  have hm : inRange 0xC092C00000000000#64 n1200 (fmul p.vibDepth l) :=
    fmul_inRange fd fl (by decide) (by decide) (by rw [vneg]; nlinarith) (by rw [valueOf_n1200]; nlinarith)
  have he : inRange nNeg1 n1 (fdiv (fmul p.vibDepth l) n1200) :=
    quotient_inRange hm (by decide) (by decide) (by decide) (by decide) (by decide) (by rw [valueOf_n1200]; norm_num)
      (by rw [valueOf_nNeg1, valueOf_n1200, vneg]; norm_num) (by rw [valueOf_n1, valueOf_n1200]; norm_num)
  obtain ⟨fe, -, he1⟩ := (inRange_iff_valueOf (by decide) (by decide)).1 he
  rw [valueOf_n1] at he1
  obtain ⟨h0, hf, -⟩ := exp2N_ranges fe
  exact ⟨hf (by linarith), h0⟩

theorem lfoProcess_out {c : Ctrl} {l : Lfo} (h : inPhase l.ph) : inRange nNeg1 n1 (lfoProcess c l).2 := by
  unfold lfoProcess
  split
  · exact (by decide : inRange nNeg1 n1 n0)
  · exact cosLookup_inRange h

theorem lfoProcess_ph {c : Ctrl} {l : Lfo} (h : inPhase l.ph) (hs : inRange n0 advanceTop c.lfoFStep) :
    inPhase (lfoProcess c l).1.ph := by
  unfold lfoProcess
  split
  · exact h
  · exact frac_advance h hs

/-! ### Voices -/

/-- The phases of one voice are in [0, 1), and its bend multiplier is not below 0. -/
structure VoicePhaseInv (v : Voice) : Prop where
  bend : fle n0 v.bend = true
  osc0 : OscPhaseInv v.osc0
  osc1 : OscPhaseInv v.osc1
  lfo  : inPhase v.lfo.ph

theorem VoicePhaseInv.voiceSetF0 {v : Voice} (h : VoicePhaseInv v) (p : Params) {c : Ctrl} (hfs : inRange fsMin fsMax c.fs) :
    VoicePhaseInv (voiceSetF0 p c v) :=
  have hf0 := not_flt_n0_voiceF0 hfs v.pitch h.bend
  { h with osc0 := h.osc0.oscSetFreq hf0 _, osc1 := h.osc1.oscSetFreq hf0 _ }

theorem VoicePhaseInv.voiceProcess {v : Voice} (h : VoicePhaseInv v) {p : Params} {c : Ctrl}
    (hd : inRange n0 n1200 p.vibDepth) (hs : inRange n0 advanceTop c.lfoFStep) : VoicePhaseInv (voiceProcess p c v).1 := by
  rcases voiceProcess_next p c v with ⟨-, he⟩ | ⟨-, he⟩ | ⟨-, ht⟩
  · rwa [he]
  · rw [he]; exact { h with }
  · have hm := vibratoMul_finiteFrom hd (lfoProcess_out (c := c) h.lfo)
    refine ⟨?_, ?_, ?_, ?_⟩
    · rw [ht.bend]; exact h.bend
    · rw [ht.osc0]; exact h.osc0.oscProcess hm
    · rw [ht.osc1]; exact h.osc1.oscProcess hm
    · rw [ht.lfo]; exact lfoProcess_ph h.lfo hs

theorem VoicePhaseInv.voiceNoteOn {v : Voice} (h : VoicePhaseInv v) (p : Params) {c : Ctrl} (hfs : inRange fsMin fsMax c.fs)
    (hb : fle n0 c.bendMul = true) (vi : Nat) (pitch : Fin 128) (vel : Num64) :
    VoicePhaseInv (voiceNoteOn p c vi pitch vel v) := by
  have hf0 := not_flt_n0_voiceF0 hfs pitch hb
  exact ⟨hb, (h.osc0.oscSetFreq hf0 _).oscReset _ _ _, (h.osc1.oscSetFreq hf0 _).oscReset _ _ _, inPhase_lfoPh0⟩

theorem VoiceNext.voicePhaseInv {p q : Params} {c d : Ctrl} {vi : Nat} {v w : Voice} (hn : VoiceNext p q c d vi v w)
    (hfs : inRange fsMin fsMax d.fs) (hb : fle n0 d.bendMul = true) (hd : inRange n0 n1200 q.vibDepth)
    (hs : inRange n0 advanceTop d.lfoFStep) (hf0 : flt v.f0 n0 = false) (h : VoicePhaseInv v) : VoicePhaseInv w := by
  cases hn with
  | kept => exact h
  | ticked => exact h.voiceProcess hd hs
  | released | filtered | resonated => exact { h with }
  | started pitch vel => exact h.voiceNoteOn q hfs hb vi pitch vel
  | recomputed => exact { h.voiceSetF0 q hfs with }
  | bent =>
    have hbent : VoicePhaseInv { v with bend := d.bendMul } := { h with bend := hb }
    exact hbent.voiceSetF0 q hfs
  | stretched => exact { h with osc1 := h.osc1.oscSetFreq hf0 _ }

/-! ### The chorus (R232) -/

/-- The divider and the EQ touch no memory, no head and no phase, so that the chorus and the reverb work on those of `fx`. -/
theorem effectChain_eq (p : Params) (c : Ctrl) (x : Stereo) (fx : Fx) :
    ∃ (y z : Stereo) (fx' : Fx), (effectChain p c x fx).1 = rvNetwork c z (chProcess p c y fx').1 ∧
      fx'.chBuf0 = fx.chBuf0 ∧ fx'.chBuf1 = fx.chBuf1 ∧ fx'.chHead = fx.chHead ∧ fx'.chP1 = fx.chP1 ∧
      fx'.chP2 = fx.chP2 ∧ fx'.rv = fx.rv ∧ fx'.ap = fx.ap := by
  refine ⟨_, _, _, rfl, ?_⟩
  rcases divProcess_cases p.divN x fx with ⟨-, he⟩ | ⟨-, hold, cnt, -, -, he⟩ <;> rw [he] <;>
    exact ⟨rfl, rfl, rfl, rfl, rfl, rfl, rfl⟩

theorem effectChain_phases (p : Params) (c : Ctrl) (x : Stereo) (fx : Fx) :
    (effectChain p c x fx).1.chP1 = frac (fadd fx.chP1 c.chR1) ∧ (effectChain p c x fx).1.chP2 = frac (fadd fx.chP2 c.chR2) := by
  obtain ⟨y, z, fx', he, -, -, -, h1, h2, -, -⟩ := effectChain_eq p c x fx
  rw [he, ← h1, ← h2]
  exact ⟨by simp, by simp⟩

theorem FxNext.inPhase {q : Params} {c d : Ctrl} {fx fx' : Fx} (hn : FxNext q c d fx fx')
    (h1 : inRange n0 advanceTop d.chR1) (h2 : inRange n0 advanceTop d.chR2)
    (h : inPhase fx.chP1 ∧ inPhase fx.chP2) : inPhase fx'.chP1 ∧ inPhase fx'.chP2 := by
  cases hn with
  | kept => exact h
  | flushed => exact ⟨inPhase_n0, inPhase_n0⟩
  | ticked hfs x =>
    obtain ⟨e1, e2⟩ := effectChain_phases q d x fx
    rw [e1, e2]
    exact ⟨frac_advance h.1 h1, frac_advance h.2 h2⟩

/-! ### The whole state -/

/-- The bend multiplier and the steps of the LFO and the chorus phases, in a state with legal parameters and current derived registers. -/
theorem steps_of_derivedInv {s : State} (hp : ParamInv s) (hd : DerivedInv s) :
    fle n0 s.ctrl.bendMul = true ∧ inRange n0 advanceTop s.ctrl.lfoFStep ∧ inRange n0 advanceTop s.ctrl.chR1 ∧
      inRange n0 advanceTop s.ctrl.chR2 := by
  have hr := rate_inRange hp.params.chRate hp.fs
  obtain ⟨range, hrange, hmul⟩ := hd.bendMul
  rw [hd.lfoFStep, hd.chR2, hd.chR1, hmul]
  exact ⟨fle_n0_bendMul hp.params.bend hrange, inRange_mono (rate_inRange hp.params.vibRate hp.fs) (by decide) (by decide),
    inRange_mono hr (by decide) (by decide), secondRate_inRange hr⟩

theorem phaseInv_of_effect {i : Instr} {s t : State} (e : Effect i s t) (h : PhaseInv s) : PhaseInv t := by
  have hp := paramInv_of_effect e h.params
  have hd := derivedInv_of_effect e h.derived
  obtain ⟨hbend, hlfo, hr1, hr2⟩ := steps_of_derivedInv hp hd
  have hv (v : Fin Config.nVoice) : VoicePhaseInv t.voices[v] := by
    refine (e.voice v).voicePhaseInv hp.fs hbend hp.params.vibDepth hlfo ?_ ⟨h.bend v, h.osc0 v, h.osc1 v, h.lfo v⟩
    rw [h.derived.f0 v]
    exact not_flt_n0_voiceF0 h.params.fs _ (h.bend v)
  obtain ⟨hc1, hc2⟩ := e.fx.inPhase hr1 hr2 ⟨h.chP1, h.chP2⟩
  exact ⟨hp, hd, hbend, fun v => (hv v).bend, fun v => (hv v).osc0, fun v => (hv v).osc1, fun v => (hv v).lfo, hc1, hc2⟩

theorem oscPhaseInv_blank : OscPhaseInv oscBlank where
  phMem := memWf_nil
  stepMem := memWf_nil
  ampMem := memWf_nil
  ph _ := inPhase_n0
  step _ h1 h2 := absurd h2 (Nat.not_lt.2 h1)

theorem voicePhaseInv_reset (v : Fin Config.nVoice) : VoicePhaseInv voicesReset[v] := by
  have hblank : VoicePhaseInv voiceBlank := ⟨by decide, oscPhaseInv_blank, oscPhaseInv_blank, inPhase_n0⟩
  have hfs : inRange fsMin fsMax ctrlReset.fs := (paramInv_reset []).fs
  rw [voicesReset_getElem]
  exact { hblank.voiceSetF0 paramsReset hfs with }

theorem phaseInv_reset (hs : List HostCycle) : PhaseInv (withPorts false hs State.reset) :=
  have hp := paramInv_reset hs
  have hd := derivedInv_reset hs
  ⟨hp, hd, (steps_of_derivedInv hp hd).1, fun v => (voicePhaseInv_reset v).bend, fun v => (voicePhaseInv_reset v).osc0,
    fun v => (voicePhaseInv_reset v).osc1, fun v => (voicePhaseInv_reset v).lfo, inPhase_n0, inPhase_n0⟩

/-- Settles O54: every phase advances by a finite step of at least 0, and `frac` is exact. -/
theorem phaseInvStep : Obligations.PhaseInvStep :=
  step_keeps phaseInv_reset fun _ _ _ => phaseInv_of_effect

end Sys2Proof.Machine
end

section
/-! PROOFS. Counters, levels and note factors (spec/10_state.md R25, R28, R29, R35 (c), spec/42_envelope.md R140 to R144): every rate, sustain level and sensitivity is in [0, 1], and so is what is counted down by, ramped to or scaled with them. -/

namespace Sys2Proof.Machine

/-! ### Arithmetic in [0, 1] -/

theorem unit_n0 : inRange n0 n1 n0 := by decide
theorem unit_n1 : inRange n0 n1 n1 := by decide

theorem fmul_unit {a b : Num64} (ha : inRange n0 n1 a) (hb : inRange n0 n1 b) : inRange n0 n1 (fmul a b) := by
  obtain ⟨fa, a0, a1⟩ := unit_iff.1 ha
  obtain ⟨fb, b0, b1⟩ := unit_iff.1 hb
  exact fmul_inRange fa fb (by decide) (by decide) (by rw [valueOf_n0]; positivity)
    (by rw [valueOf_n1]; exact mul_le_one₀ a1 b0 b1)

theorem one_sub_unit {a : Num64} (ha : inRange n0 n1 a) : inRange n0 n1 (fsub n1 a) := by
  obtain ⟨fa, a0, a1⟩ := unit_iff.1 ha
  exact fsub_inRange (by decide) fa (by decide) (by decide) (by rw [valueOf_n0, valueOf_n1]; linarith)
    (by rw [valueOf_n1]; linarith)

/-- A counter less a rate is in [-1, 1]. -/
theorem counter_sub_inRange {a r : Num64} (ha : inRange n0 n1 a) (hr : inRange n0 n1 r) : inRange nNeg1 n1 (fsub a r) := by
  obtain ⟨fa, a0, a1⟩ := unit_iff.1 ha
  obtain ⟨fr, r0, r1⟩ := unit_iff.1 hr
  exact fsub_inRange fa fr (by decide) (by decide) (by rw [valueOf_nNeg1]; linarith) (by rw [valueOf_n1]; linarith)

/-- A counter that has not reached 0 is still in [0, 1]. -/
theorem counter_unit {a r : Num64} (ha : inRange n0 n1 a) (hr : inRange n0 n1 r) (h : flt (fsub a r) n0 = false) :
    inRange n0 n1 (fsub a r) := by
  have hs := counter_sub_inRange ha hr
  exact ⟨fle_of_not_flt_n0 h (fle_iff.1 hs.1).2.1, hs.2⟩

theorem not_flt_of_not_fle {x : Num64} (h : ¬ fle x n0 = true) : flt x n0 = false := by
  by_contra hc
  obtain ⟨hn, h0, hlt⟩ := flt_iff.1 (by simpa using hc)
  exact h (fle_iff.2 ⟨hn, h0, hlt.le⟩)

/-- The ramp of R144 stays in [0, 1]. -/
theorem envRamp_unit {start target rem : Num64} (hs : inRange n0 n1 start) (ht : inRange n0 n1 target)
    (hr : inRange n0 n1 rem) : inRange n0 n1 (envRamp start target rem) := by
  obtain ⟨fs, s0, s1⟩ := unit_iff.1 hs
  obtain ⟨ft, t0, t1⟩ := unit_iff.1 ht
  have hu := one_sub_unit hr
  have hd : inRange nNeg1 n1 (fsub target start) := counter_sub_inRange ht hs
  obtain ⟨fd, d0, d1⟩ := (inRange_iff_valueOf (by decide) (by decide)).1 hd
  obtain ⟨fu, u0, u1⟩ := unit_iff.1 hu
  rw [valueOf_nNeg1] at d0
  rw [valueOf_n1] at d1
  have hm : inRange nNeg1 n1 (fmul (fsub target start) (fsub n1 rem)) :=
    fmul_inRange fd fu (by decide) (by decide) (by rw [valueOf_nNeg1]; nlinarith) (by rw [valueOf_n1]; nlinarith)
  exact ramp_inUnit hs ht hu (fsub_roundsTo ft fs) (fmul_roundsTo fd fu)
    (fadd_roundsTo fs (isFinite_of_inRange (by decide) (by decide) hm))

/-! ### Rates (R141) -/

theorem isFinite_or_isInf {x : Num64} (h : isNaN x = false) : isFinite x = true ∨ isInf x = true := by
  rw [isNaN_eq_false_iff] at h
  rw [isFinite_iff, isInf_iff]
  omega

/-- A product by a finite number other than 0 is a NaN only for a NaN. -/
theorem isNaN_fmul_eq_false {a b : Num64} (ha : isNaN a = false) (fb : isFinite b = true) (zb : isZero b = false) :
    isNaN (fmul a b) = false := by
  rcases isFinite_or_isInf ha with fa | ia
  · exact roundsTo_not_nan (fmul_roundsTo fa fb)
  · rw [fmul_inf (.inl ia) ha (isNaN_of_isFinite fb) (isZero_of_isInf ia) zb]
    exact isNaN_of_isInf (isInf_mkNum _)

/-- 1 over a number of at least 1, an infinity included. -/
theorem one_div_fmax_unit {x : Num64} (hn : isNaN x = false) : inRange n0 n1 (fdiv n1 (fmax n1 x)) := by
  unfold fmax
  split
  · decide +kernel
  next hle =>
  rw [fle_iff_valueOf hn (by decide), valueOf_n1, not_le] at hle
  rcases isFinite_or_isInf hn with fx | ix
  · refine fdiv_inRange (by decide) fx (by decide) (by decide) (by linarith) ?_ ?_ <;> rw [valueOf_n1]
    · rw [valueOf_n0]; exact div_nonneg zero_le_one (by linarith)
    · rw [div_le_one (by linarith)]; exact hle.le
  · have hz := isZero_mkNum (isNeg n1 != isNeg x)
    rw [fdiv_finite_inf (by decide) ix, unit_iff, valueOf_mkNum_zero]
    exact ⟨isFinite_of_isZero hz, le_rfl, zero_le_one⟩

/-- Every envelope rate is in [0, 1], whatever the time (R141). -/
theorem envRate_unit {fs t : Num64} (hfs : inRange fsMin fsMax fs) (ht : isFinite t = true) : inRange n0 n1 (envRate fs t) := by
  obtain ⟨ffs, hlo, -⟩ := fs_bounds hfs
  exact one_div_fmax_unit (isNaN_fmul_eq_false (isNaN_fmul_eq_false (isNaN_of_isFinite ht) (by decide) (by decide)) ffs
    (isZero_eq_false_of_pos (by linarith)))

/-! ### Envelopes (R142 to R144) -/

/-- The rates of one envelope kind are in [0, 1]. -/
structure RatesInUnit (r : EnvRates) : Prop where
  ra : inRange n0 n1 r.ra
  rd : inRange n0 n1 r.rd
  rr : inRange n0 n1 r.rr

/-- EnvProcess keeps the counter and the levels in [0, 1], and its output is there (R140, R144). -/
theorem EnvInUnit.envProcess {e : Env} (h : EnvInUnit e) {r : EnvRates} (hr : RatesInUnit r) {sus : Num64}
    (hs : inRange n0 n1 sus) : EnvInUnit (envProcess r sus e).env ∧ inRange n0 n1 (envProcess r sus e).out := by
  have ramp {target rate : Num64} (ht : inRange n0 n1 target) (hrate : inRange n0 n1 rate)
      (hc : ¬ fle (fsub e.rem rate) n0 = true) :
      inRange n0 n1 (fsub e.rem rate) ∧ inRange n0 n1 (envRamp e.start target (fsub e.rem rate)) :=
    have hrem := counter_unit h.rem hrate (not_flt_of_not_fle hc)
    ⟨hrem, envRamp_unit h.start ht hrem⟩
  unfold Machine.envProcess
  cases e.stage with
  | attack =>
    dsimp only
    split
    · exact ⟨⟨unit_n1, unit_n1, unit_n1⟩, unit_n1⟩
    · obtain ⟨hrem, hlvl⟩ := ramp unit_n1 hr.ra ‹_›
      exact ⟨⟨hrem, hlvl, h.start⟩, hlvl⟩
  | decay =>
    dsimp only
    split
    · exact ⟨⟨unit_n1, hs, h.start⟩, hs⟩
    · obtain ⟨hrem, hlvl⟩ := ramp hs hr.rd ‹_›
      exact ⟨⟨hrem, hlvl, h.start⟩, hlvl⟩
  | sustain => exact ⟨h, h.lvl⟩
  | release =>
    dsimp only
    split
    · exact ⟨⟨unit_n0, unit_n0, h.start⟩, unit_n0⟩
    · obtain ⟨hrem, hlvl⟩ := ramp unit_n0 hr.rr ‹_›
      exact ⟨⟨hrem, hlvl, h.start⟩, hlvl⟩
  | stop => exact ⟨h, unit_n0⟩

theorem EnvInUnit.envNoteOn {e : Env} (h : EnvInUnit e) : EnvInUnit (envNoteOn e) := ⟨unit_n1, h.lvl, h.lvl⟩

theorem EnvInUnit.envNoteOff {e : Env} (h : EnvInUnit e) : EnvInUnit (envNoteOff e) := by
  rcases envNoteOff_cases e with ⟨-, he⟩ | ⟨-, he⟩ <;> rw [he]
  · exact h
  · exact ⟨unit_n1, h.lvl, h.lvl⟩

/-- The delay counter falls to 0 and no further (R163). -/
theorem lfoProcess_dly {c : Ctrl} {l : Lfo} (h : inRange n0 n1 l.dly) (hs : inRange n0 n1 c.lfoDStep) :
    inRange n0 n1 (lfoProcess c l).1.dly := by
  unfold lfoProcess
  split
  · dsimp only
    split
    · exact unit_n0
    next hd => exact counter_unit h hs (by simpa using hd)
  · exact h

/-! ### Voices -/

/-- The counters, levels and note factors of one voice are in [0, 1]. -/
structure VoiceInUnit (v : Voice) : Prop where
  amp    : EnvInUnit v.amp
  flt    : EnvInUnit v.flt
  dly    : inRange n0 n1 v.lfo.dly
  vel    : inRange n0 n1 v.vel
  velamp : inRange n0 n1 v.velamp

/-- The rates, sustain levels and P.VELSENS, with which a voice's counters and factors are computed, are in [0, 1]. -/
structure FactorsInUnit (p : Params) (c : Ctrl) : Prop where
  amp      : RatesInUnit c.amp
  flt      : RatesInUnit c.flt
  ampSus   : inRange n0 n1 p.amp.sustain
  fltSus   : inRange n0 n1 p.flt.sustain
  lfoDStep : inRange n0 n1 c.lfoDStep
  velSens  : inRange n0 n1 p.velSens

theorem VoiceInUnit.voiceProcess {v : Voice} (h : VoiceInUnit v) {p : Params} {c : Ctrl} (hf : FactorsInUnit p c) :
    VoiceInUnit (voiceProcess p c v).1 := by
  rcases voiceProcess_next p c v with ⟨-, he⟩ | ⟨-, he⟩ | ⟨-, ht⟩
  · rwa [he]
  · rw [he]; exact { h with amp := ⟨unit_n0, unit_n0, h.amp.start⟩ }
  · refine ⟨?_, ?_, ?_, ?_, ?_⟩
    · rw [ht.amp]; exact (h.amp.envProcess hf.amp hf.ampSus).1
    · rw [ht.flt]; exact (h.flt.envProcess hf.flt hf.fltSus).1
    · rw [ht.lfo]; exact lfoProcess_dly h.dly hf.lfoDStep
    · rw [ht.vel]; exact h.vel
    · rw [ht.velamp]; exact h.velamp

theorem VoiceInUnit.voiceNoteOn {v : Voice} (h : VoiceInUnit v) {p : Params} (hs : inRange n0 n1 p.velSens) (c : Ctrl)
    (vi : Nat) (pitch : Fin 128) (vel : Num64) : VoiceInUnit (voiceNoteOn p c vi pitch vel v) := by
  have hvel : inRange n0 n1 (clamp vel n0 n1) := clamp_inRange (by decide)
  exact ⟨h.amp.envNoteOn, h.flt.envNoteOn, unit_n1, hvel, one_sub_unit (fmul_unit hs (one_sub_unit hvel))⟩

theorem VoiceNext.voiceInUnit {p q : Params} {c d : Ctrl} {vi : Nat} {v w : Voice} (hn : VoiceNext p q c d vi v w)
    (hf : FactorsInUnit q d) (h : VoiceInUnit v) : VoiceInUnit w := by
  cases hn with
  | kept => exact h
  | ticked => exact h.voiceProcess hf
  | released => exact { h with amp := h.amp.envNoteOff, flt := h.flt.envNoteOff }
  | started pitch vel => exact h.voiceNoteOn hf.velSens d vi pitch vel
  | recomputed | bent | stretched | filtered | resonated => exact { h with }

/-! ### The whole state -/

theorem factorsInUnit {s : State} (hp : ParamInv s) (hd : DerivedInv s) : FactorsInUnit s.params s.ctrl := by
  have rate {t : Num64} (ht : isFinite t = true) : inRange n0 n1 (envRate s.ctrl.fs t) := envRate_unit hp.fs ht
  have hl := hp.params
  refine ⟨⟨?_, ?_, ?_⟩, ⟨?_, ?_, ?_⟩, hl.amp.sustain, hl.flt.sustain, ?_, hl.velSens⟩
  · rw [hd.ampRa]; exact rate hl.amp.attack
  · rw [hd.ampRd]; exact rate hl.amp.decay
  · rw [hd.ampRr]; exact rate hl.amp.release
  · rw [hd.fltRa]; exact rate hl.flt.attack
  · rw [hd.fltRd]; exact rate hl.flt.decay
  · rw [hd.fltRr]; exact rate hl.flt.release
  · rw [hd.lfoDStep]; exact rate hl.vibDelay

theorem counterInv_of_voices {s : State} (hp : ParamInv s) (hd : DerivedInv s)
    (hv : ∀ v : Fin Config.nVoice, VoiceInUnit s.voices[v]) : CounterInv s :=
  ⟨hp, hd, fun v => (hv v).amp, fun v => (hv v).flt, fun v => (hv v).dly, fun v => (hv v).vel, fun v => (hv v).velamp⟩

theorem counterInv_of_effect {i : Instr} {s t : State} (e : Effect i s t) (h : CounterInv s) : CounterInv t :=
  have hp := paramInv_of_effect e h.params
  have hd := derivedInv_of_effect e h.derived
  counterInv_of_voices hp hd fun v =>
    (e.voice v).voiceInUnit (factorsInUnit hp hd) ⟨h.amp v, h.flt v, h.dly v, h.vel v, h.velamp v⟩

theorem voiceInUnit_reset (v : Fin Config.nVoice) : VoiceInUnit voicesReset[v] := by
  have hidle : EnvInUnit envIdle := ⟨unit_n0, unit_n0, unit_n0⟩
  rw [voicesReset_getElem]
  exact ⟨hidle, hidle, unit_n0, unit_n0, unit_n1⟩

theorem counterInv_reset (hs : List HostCycle) : CounterInv (withPorts false hs State.reset) :=
  counterInv_of_voices (paramInv_reset hs) (derivedInv_reset hs) voiceInUnit_reset

/-- Settles O60: counters fall by rates in [0, 1] and stop at 0, levels ramp between levels in [0, 1], and the outputs are levels. -/
theorem counterInvStep : Obligations.CounterInvStep := by
  refine ⟨step_keeps counterInv_reset fun _ _ _ => counterInv_of_effect, fun s v h => ?_⟩
  have hf := factorsInUnit h.params h.derived
  exact ⟨((h.amp v).envProcess hf.amp hf.ampSus).2, ((h.flt v).envProcess hf.flt hf.fltSus).2⟩

end Sys2Proof.Machine
end

section
/-! PROOFS. What a tick leaves (spec/10_state.md R30, R31, spec/44_voice.md R175, spec/45_synth.md R195): the frame of VoiceProcess for a voice, and of the effect chain for the chorus and reverb memories. -/

namespace Sys2Proof.Machine

/-- The registers of a voice that a tick leaves: the note registers, the partial counts and the tables (R108, R175). -/
structure VoiceFrame (v w : Voice) : Prop where
  pitch  : w.pitch = v.pitch
  vel    : w.vel = v.vel
  bend   : w.bend = v.bend
  f0     : w.f0 = v.f0
  velamp : w.velamp = v.velamp
  keyf   : w.keyf = v.keyf
  osc0   : w.osc0.np = v.osc0.np ∧ w.osc0.amp = v.osc0.amp ∧ w.osc0.step = v.osc0.step
  osc1   : w.osc1.np = v.osc1.np ∧ w.osc1.amp = v.osc1.amp ∧ w.osc1.step = v.osc1.step

theorem VoiceFrame.of_amp (v : Voice) (e : Env) : VoiceFrame v { v with amp := e } :=
  ⟨rfl, rfl, rfl, rfl, rfl, rfl, ⟨rfl, rfl, rfl⟩, ⟨rfl, rfl, rfl⟩⟩

/-- VoiceProcess leaves these registers, with P.FITER clear also the second stage's accumulators, and a free voice whole (R123, R175). -/
theorem voiceProcess_frame (p : Params) (c : Ctrl) {v : Voice} (h0 : v.osc0.ph.wf) (h1 : v.osc1.ph.wf) :
    VoiceFrame v (voiceProcess p c v).1 ∧
      (p.fiter = false → (voiceProcess p c v).1.s2 = v.s2 ∧ (voiceProcess p c v).1.s3 = v.s3) ∧
      (v.amp.stage = .stop → (voiceProcess p c v).1 = v) := by
  rcases voiceProcess_next p c v with ⟨-, he⟩ | ⟨hrel, he⟩ | ⟨hstop, ht⟩
  · rw [he]
    exact ⟨.of_amp v v.amp, fun _ => ⟨rfl, rfl⟩, fun _ => rfl⟩
  · rw [he]
    exact ⟨.of_amp v _, fun _ => ⟨rfl, rfl⟩, fun hs => by rw [hs] at hrel; cases hrel⟩
  · refine ⟨⟨ht.pitch, ht.vel, ht.bend, ht.f0, ht.velamp, ht.keyf, ?_, ?_⟩, ht.second, fun hs => absurd hs hstop⟩
    · rw [ht.osc0]; exact oscProcess_keeps _ _ h0
    · rw [ht.osc1]; exact oscProcess_keeps _ _ h1

/-- The effect chain writes one word of each memory, at its head, and moves the head on by one (R64, R232, R252, R254). -/
theorem effectChain_frame (p : Params) (c : Ctrl) (x : Stereo) (fx : Fx) :
    (fx.chBuf0.wf → fx.chBuf1.wf → ∀ k, k ≠ fx.chHead →
      memRead (effectChain p c x fx).1.chBuf0 k = memRead fx.chBuf0 k ∧
      memRead (effectChain p c x fx).1.chBuf1 k = memRead fx.chBuf1 k) ∧
    (effectChain p c x fx).1.chHead = (fx.chHead + 1) % c.chLen ∧
    (∀ i : Fin 4, ∃ u, (effectChain p c x fx).1.rv[i] = ringPush Config.rvLen[i] fx.rv[i] u) ∧
    (∀ j : Fin 8, ∃ w, (effectChain p c x fx).1.ap[j] = ringPush Config.apLen[j] fx.ap[j] w) := by
  obtain ⟨y, z, fx', he, hb0, hb1, hhead, -, -, hrv, hap⟩ := effectChain_eq p c x fx
  obtain ⟨hline, hpass⟩ := rvNetwork_spec c z (chProcess p c y fx').1
  rw [he, ← hb0, ← hb1, ← hhead, ← hrv, ← hap]
  refine ⟨fun hw0 hw1 k hk => ?_, by simp, fun i => ?_, fun j => ?_⟩
  · rw [rvNetwork_chBuf0, rvNetwork_chBuf1, chProcess_chBuf0, chProcess_chBuf1, memRead_memWrite hw0, memRead_memWrite hw1,
      if_neg hk, if_neg hk]
    exact ⟨rfl, rfl⟩
  · obtain ⟨u, hu⟩ := hline i
    exact ⟨_, by simpa using hu⟩
  · obtain ⟨w, hw⟩ := hpass j
    exact ⟨_, by simpa using hw⟩

theorem ringPush_frame {len : Nat} {r r' : Ring} (h : RingInv len r) {u : Num64} (he : r' = ringPush len r u) :
    r'.head = (r.head + 1) % len ∧ ∀ k, k ≠ r.head → memRead r'.mem k = memRead r.mem k := by
  rw [he]
  exact ⟨rfl, fun k hk => memRead_ringPush_other h u hk⟩

/-- The parts of the state after a tick (R195). -/
theorem tick_parts {i : Instr} {s t : State} (hi : i = .tick64 ∨ i = .tick32) (h : exec i s = .next t) :
    t.params = s.params ∧ t.ctrl = s.ctrl ∧ t.host = s.host ∧ t.voices = (synthTick s).voices ∧
      t.fx = (effectChain s.params s.ctrl ⟨tickMono s, tickMono s⟩ s.fx).1 := by
  rcases hi with rfl | rfl <;> cases h <;> exact ⟨rfl, rfl, rfl, rfl, rfl⟩

/-- Settles O57: `voiceProcess_frame` for each voice, `effectChain_frame` for the memories. -/
theorem tickFrame : Obligations.TickFrame := by
  intro i s t hi h
  obtain ⟨hp, hc, hhost, hv, hx⟩ := tick_parts hi h
  obtain ⟨hch, hhead, hrv, hap⟩ := effectChain_frame s.params s.ctrl ⟨tickMono s, tickMono s⟩ s.fx
  rw [← hx] at hch hhead hrv hap
  refine ⟨hp, hc, hhost, fun v h0 h1 => ?_, hch, hhead, fun i hi => ?_, fun j hj => ?_⟩
  · have hvoice : t.voices[v] = (voiceProcess s.params s.ctrl s.voices[v]).1 := by
      rw [← synthTick_voice]
      exact congrArg (·[v]) hv
    have hframe := voiceProcess_frame s.params s.ctrl h0 h1
    rw [← hvoice] at hframe
    obtain ⟨⟨hpitch, hvel, hbend, hf0, hvelamp, hkeyf, ⟨hn0, ha0, hs0⟩, ⟨hn1, ha1, hs1⟩⟩, hacc, hfree⟩ := hframe
    exact ⟨hpitch, hvel, hbend, hf0, hvelamp, hkeyf, hn0, ha0, hs0, hn1, ha1, hs1, hacc, hfree⟩
  · obtain ⟨u, hu⟩ := hrv i
    exact ringPush_frame hi hu
  · obtain ⟨w, hw⟩ := hap j
    exact ringPush_frame hj hw

end Sys2Proof.Machine
end

section
/-! PROOFS. The state after reset (spec/10_state.md R22 to R31, R36, spec/70_reset_and_hazards.md R290, R292): the invariants hold there, and every register has its reset value, whatever SIN, COS, EXP2 and EXP10 give away from their pinned points. -/

namespace Sys2Proof.Machine

/-- Settles O14: each invariant's own reset lemma, for a host that does nothing. -/
theorem resetMeetsInvariants : Obligations.ResetMeetsInvariants :=
  ⟨paramInv_reset [], derivedInv_reset [], structInv_reset [], phaseInv_reset [], counterInv_reset []⟩

/-! ### Operations with 1 -/

/-- A finite pattern is its value and its sign. -/
theorem eq_of_valueOf {x y : Num64} (hv : valueOf x = valueOf y) (hs : isNeg x = isNeg y) : x = y := by
  have hm : magBits x = magBits y := by
    apply magUnits_strictMono.injective
    have hu := (valueOf_eq_abs x).1.symm.trans ((congrArg abs hv).trans (valueOf_eq_abs y).1)
    exact_mod_cast mul_right_cancel₀ (by positivity) hu
  rw [eq_mkNum x, eq_mkNum y, hs, hm]

theorem fmul_n1 {a : Num64} (ha : isFinite a = true) : fmul a n1 = a := by
  have hr := fmul_roundsTo ha (by decide : isFinite n1 = true)
  refine eq_of_valueOf (roundsTo_exact hr ha (by rw [valueOf_n1, Rat.cast_one, mul_one])).2 ?_
  have hs : isNeg n1 = false := by decide
  rw [fmul_finite ha (by decide), isNeg_roundNum, hs, Bool.bne_false]

theorem fdiv_n1 {a : Num64} (ha : isFinite a = true) : fdiv a n1 = a := by
  have hr := fdiv_roundsTo ha (by decide : isFinite n1 = true) (by decide)
  refine eq_of_valueOf (roundsTo_exact hr ha (by rw [valueOf_n1, Rat.cast_one, div_one])).2 ?_
  have hs : isNeg n1 = false := by decide
  rw [fdiv_of_not_zero ha (by decide) (by decide), isNeg_roundNum, hs, Bool.bne_false]

theorem fdiv_self {a : Num64} (ha : isFinite a = true) (h0 : valueOf a ≠ 0) : fdiv a a = n1 := by
  have hz : isZero a = false := by
    by_contra hz
    exact h0 (valueOf_of_isZero (by simpa using hz))
  have hr := fdiv_roundsTo ha ha hz
  rw [div_self (by exact_mod_cast h0)] at hr
  refine eq_of_valueOf (roundsTo_exact hr (by decide) (by rw [valueOf_n1, Rat.cast_one])).2 ?_
  rw [fdiv_of_not_zero ha ha hz, isNeg_roundNum, bne_self_eq_false]
  decide

/-! ### Control registers -/

theorem valueOf_n2 : valueOf n2 = 2 := by decide +kernel
theorem valueOf_nHalf : valueOf nHalf = 1 / 2 := by decide +kernel
theorem valueOf_nNegHalf : valueOf nNegHalf = -1 / 2 := by decide +kernel

/-- `alpha` of R224 at reset: P.EQ_Q is 1, so that it is half a sine, in [-1/2, 1/2]. -/
theorem eqAlpha_n1_inRange {w : Num64} (hw : isFinite w = true) : inRange nNegHalf nHalf (eqAlpha w n1) := by
  have hden : fmul n2 (fmax n1 eqQMin) = n2 := by decide +kernel
  unfold eqAlpha
  rw [hden]
  exact quotient_inRange (sinN_inRange hw) (by decide) (by decide) (by decide) (by decide) (by decide) (by rw [valueOf_n2]; norm_num)
    (by rw [valueOf_nNegHalf, valueOf_n2, valueOf_nNeg1]; norm_num) (by rw [valueOf_nHalf, valueOf_n2, valueOf_n1]; norm_num)

/-- With a gain factor of 1 the numerator and the denominator of the EQ agree (R224). -/
theorem eqSetCoef_flat {p : Params} {c : Ctrl} (ha : exp10N (fdiv p.eqGain n40) = n1) (hq : p.eqQ = n1)
    (hw : isFinite (fdiv (fmul (fmul n2 nPi) (clampFreq c.fs p.eqFreq)) c.fs) = true) :
    (eqSetCoef p c).eqB0 = n1 ∧ (eqSetCoef p c).eqB1 = (eqSetCoef p c).eqA1 ∧
      (eqSetCoef p c).eqB2 = (eqSetCoef p c).eqA2 := by
  unfold eqSetCoef
  dsimp only
  rw [ha, hq]
  have hr := eqAlpha_n1_inRange hw
  generalize eqAlpha _ n1 = alpha at hr
  obtain ⟨hf, h0, h1⟩ := (inRange_iff_valueOf (by decide) (by decide)).1 hr
  rw [valueOf_nNegHalf] at h0
  rw [valueOf_nHalf] at h1
  have hs : inRange nHalf n2 (fadd n1 alpha) :=
    fadd_inRange (by decide) hf (by decide) (by decide) (by rw [valueOf_nHalf, valueOf_n1]; linarith)
      (by rw [valueOf_n2, valueOf_n1]; linarith)
  obtain ⟨fs, s0, -⟩ := (inRange_iff_valueOf (by decide) (by decide)).1 hs
  rw [valueOf_nHalf] at s0
  rw [fmul_n1 hf, fdiv_n1 hf]
  exact ⟨fdiv_self fs (by linarith), rfl, rfl⟩

theorem ctrlReset_eq : ctrlReset.eqB0 = n1 ∧ ctrlReset.eqB1 = ctrlReset.eqA1 ∧ ctrlReset.eqB2 = ctrlReset.eqA2 := by
  have hflat := eqSetCoef_flat (p := paramsReset) (c := ctrlSeed) (by decide +kernel) rfl (by decide +kernel)
  simpa [ctrlReset] using hflat

theorem ctrlReset_units : ctrlReset.gain = n1 ∧ ctrlReset.bendMul = n1 ∧ ctrlReset.amp = ⟨n1, n1, n1⟩ ∧
    ctrlReset.flt = ⟨n1, n1, n1⟩ ∧ ctrlReset.lfoDStep = n1 ∧ ctrlReset.chLen = 44100 ∧ ctrlReset.chBase = n0 ∧
    ctrlReset.chDepthS = n0 := by
  decide +kernel

/-! ### Voices -/

/-- 440/44100, the frequency of pitch 69 at reset. -/
def resetF0 : Num64 := fdiv n440 fsReset

theorem voiceF0_reset : voiceF0 fsReset 69 n1 = resetF0 := by decide +kernel

/-- Without inharmonicity the ratio of partial `i` is `i` (R103). -/
theorem partialRatio_n0 : ∀ i < 26, partialRatio n0 i = ofInt i := by decide +kernel

theorem resetOsc_np : (oscSetFreq resetF0 n0 oscBlank).np = 26 := by decide +kernel

/-- Either oscillator after reset: 25 partials of 440/44100 with amplitudes 1/i, all phases 0. -/
theorem resetOsc_spec {o : Osc} (ho : o = oscSetFreq resetF0 n0 oscBlank) :
    o.np = 26 ∧ (∀ i, memRead o.ph i = n0) ∧
      (∀ i : Nat, 1 ≤ i → i < 26 → memRead o.step i = fmul (ofInt i) resetF0 ∧ memRead o.amp i = fdiv n1 (ofInt i)) ∧
      (∀ i, i = 0 ∨ 26 ≤ i → memRead o.step i = n0 ∧ memRead o.amp i = n0) := by
  subst ho
  obtain ⟨n, -, -, hnp, hph, hin, hout, -⟩ :=
    oscScan_spec resetF0 n0 (Config.npMax - 1) 1 oscBlank rfl memWf_nil memWf_nil
  obtain rfl : n = 26 := hnp.symm.trans resetOsc_np
  refine ⟨hnp, fun i => congrArg (memRead · i) hph, fun i h1 h2 => ?_, fun i hi => ?_⟩
  · obtain ⟨-, hstep, hamp⟩ := hin i h1 h2
    rw [partialRatio_n0 i h2] at hstep hamp
    exact ⟨hstep, hamp⟩
  · obtain ⟨hstep, hamp⟩ := hout i (by omega)
    exact ⟨hstep, hamp⟩

theorem voiceReset_f0 : voiceReset.f0 = resetF0 := by
  rw [← voiceF0_reset, ← ctrlReset_fs]
  simp [voiceReset, recomputeVoice, voiceBlank]

theorem voiceReset_osc : voiceReset.osc0 = oscSetFreq resetF0 n0 oscBlank ∧ voiceReset.osc1 = oscSetFreq resetF0 n0 oscBlank := by
  rw [← voiceF0_reset, ← ctrlReset_fs]
  simp [voiceReset, recomputeVoice, voiceBlank, paramsReset]

theorem voiceReset_filter : voiceReset.k = fmul n2 (sinN (fdiv (fmul nPi n1000) fsReset)) ∧
    voiceReset.oqk = fadd n1 voiceReset.k := by
  have hclamp : clampFreq fsReset n1000 = n1000 := by decide +kernel
  have hone : fdiv n1 n1 = n1 := fdiv_n1 (by decide)
  simp [voiceReset, recomputeVoice, paramsReset, svfK, svfOqk, ctrlReset_fs, hclamp, hone]

/-- Settles O12: part by part, in the order of the statement. -/
theorem resetValues : Obligations.ResetValues := by
  obtain ⟨hgain, hbend, hamp, hflt, hdly, hlen, hbase, hdepth⟩ := ctrlReset_units
  obtain ⟨hb0, hb1, hb2⟩ := ctrlReset_eq
  refine ⟨rfl, ⟨ctrlReset_fs, hgain, hbend, hamp, hflt, hdly, rfl, hb0, hb1, hb2, hlen, rfl, rfl, hbase, hdepth, rfl⟩,
    fun v => ?_, ⟨rfl, rfl, rfl, rfl, rfl, rfl, rfl, rfl, rfl, fun i => ?_, fun j => ?_⟩, fun _ => rfl, rfl, rfl, rfl, rfl⟩
  · have hv : State.reset.voices[v] = voiceReset := voicesReset_getElem v
    obtain ⟨h0, h1⟩ := voiceReset_osc
    obtain ⟨hk, hoqk⟩ := voiceReset_filter
    rw [hv]
    refine ⟨rfl, rfl, rfl, voiceReset_f0, rfl, rfl, fun o ho => ?_, hk, hoqk, rfl, rfl, rfl, rfl, rfl, rfl, rfl⟩
    rw [voiceReset_f0]
    exact resetOsc_spec (ho.elim (·.trans h0) (·.trans h1))
  · exact ⟨congrArg Ring.mem (fxFlushed_rv i), congrArg Ring.head (fxFlushed_rv i)⟩
  · exact ⟨congrArg Ring.mem (fxFlushed_ap j), congrArg Ring.head (fxFlushed_ap j)⟩

end Sys2Proof.Machine
end

section
/-! PROOFS. The named operations over the memories (spec/20_memory.md R64 to R67): where a ring's read falls after a push, that the fraction of a fractional read is exact, and that a phase selects its table entry by its exact product with 8192. -/

namespace Sys2Proof.Machine

/-! ### The index into the cosine table (R67) -/

/-- The significand of a phase ends below the binary point, far from the largest exponent. -/
theorem expo_neg_of_inPhase {p : Num64} (h : inPhase p) : expo p < 0 := by
  have hm : magBits p < 1023 * 2 ^ 52 := by
    rcases isNeg_eq_false_or_zero h.1 with hs | hz
    · obtain ⟨-, -, h1⟩ := flt_iff.1 h.2
      have e1 : orderKey n1 = 1023 * 2 ^ 52 := by decide
      rw [e1, orderKey, if_neg (by simp [hs])] at h1
      omega
    · rw [isZero_iff.1 hz]
      norm_num
  unfold expo
  split <;> omega

/-- Scaling a phase by 2^13 is exact, for a subnormal phase too. -/
theorem valueOf_fmul_n8192 {p : Num64} (h : inPhase p) :
    isFinite (fmul p n8192) = true ∧ valueOf (fmul p n8192) = valueOf p * 8192 := by
  obtain ⟨hf, -, -⟩ := inPhase_bounds h
  have v8192 : valueOf n8192 = 8192 := by decide +kernel
  have hneg := expo_neg_of_inPhase h
  have hlow : -1074 ≤ expo p := by unfold expo; split <;> omega
  obtain ⟨fz, vz⟩ := roundNum_exact (signif_lt p) (e := expo p + 13) (by omega) (by omega) false
  have hz : valueOf (roundNum false (signif p) (expo p + 13)) = valueOf p * valueOf n8192 := by
    rw [vz, if_neg (by simp), valueOf_of_nonneg h.1, v8192, zpow_add₀ (by norm_num), mul_assoc]
    norm_num
  obtain ⟨f, v⟩ := roundsTo_exact (fmul_roundsTo hf (by decide : isFinite n8192 = true)) fz
    (by rw [hz, Rat.cast_mul])
  exact ⟨f, v.trans (hz.trans (by rw [v8192]))⟩

/-- The table index of a phase: the integer part of the exact product, inside the table. -/
theorem cosIndex_spec {p : Num64} (h : inPhase p) :
    0 ≤ floorInt (fmul p n8192) ∧ floorInt (fmul p n8192) < 8192 ∧
      (floorInt (fmul p n8192) : ℚ) ≤ valueOf p * 8192 ∧ valueOf p * 8192 < floorInt (fmul p n8192) + 1 := by
  obtain ⟨f, v⟩ := valueOf_fmul_n8192 h
  obtain ⟨hf, h0, -⟩ := inPhase_bounds h
  have h1 : valueOf p < 1 := valueOf_n1 ▸ (flt_iff_valueOf (isNaN_of_isFinite hf) (by decide)).1 h.2
  obtain ⟨hle, hlt⟩ := floorInt_le_lt f
  rw [v] at hle hlt
  have hlow : 0 ≤ floorInt (fmul p n8192) := by
    rw [floorInt_eq_floor f, v]
    exact Int.floor_nonneg.2 (by positivity)
  have hhigh : floorInt (fmul p n8192) < 8192 := by
    exact_mod_cast hle.trans_lt (by linarith : valueOf p * 8192 < 8192)
  exact ⟨hlow, hhigh, hle, hlt⟩

theorem cosLookup_of_index {p : Num64} (h0 : 0 ≤ floorInt (fmul p n8192)) (h1 : floorInt (fmul p n8192) < 8192) :
    cosLookup p = cosRom (floorInt (fmul p n8192)).toNat :=
  if_pos ⟨h0, h1⟩

/-- Settles O34: `cosIndex_spec` for the index, `cosRom_inRange` for the entries. -/
theorem cosLookupTable : Obligations.CosLookupTable := by
  refine ⟨fun p h => ?_, fun k => cosRom_inRange, by decide +kernel⟩
  obtain ⟨h0, h1, hle, hlt⟩ := cosIndex_spec h
  exact ⟨h0, h1, hle, hlt, cosLookup_of_index h0 h1⟩

/-! ### Rings (R64, R65) -/

/-- One push later the same word is one read further away. -/
theorem ringIndex_succ (h len : Nat) (d : Int) : ringIndex ((h + 1) % len) len (d + 1) = ringIndex h len d := by
  unfold ringIndex
  have e : ((h : Int) + 1) % len - 1 - (d + 1) = ((h : Int) + 1) % len - (d + 2) := by ring
  rw [Int.natCast_mod, Nat.cast_succ, e, Int.emod_sub_emod]
  congr 2
  ring

/-- The word at the head, which the next push overwrites, is read at `LEN - 1` and at offsets whole turns from there. -/
theorem ringIndex_eq_head_iff {h len : Nat} (hh : h < len) (d : Int) :
    ringIndex h len d = h ↔ (len : Int) ∣ d + 1 := by
  have h0 : (0 : Int) < len := by omega
  have hn := Int.emod_nonneg ((h : Int) - 1 - d) h0.ne'
  have hm : (h : Int) % len = h := Int.emod_eq_of_lt (by omega) (by omega)
  calc ringIndex h len d = h
      ↔ ((h : Int) - 1 - d) % len = (h : Int) % len := by unfold ringIndex; omega
    _ ↔ (len : Int) ∣ h - (h - 1 - d) := Int.modEq_iff_dvd
    _ ↔ (len : Int) ∣ d + 1 := by rw [show (h : Int) - (h - 1 - d) = d + 1 by ring]

theorem readInt_of_dvd {h len : Nat} (hh : h < len) (m : Memory) {d : Int} (hd : (len : Int) ∣ d + 1) :
    readInt m h len d = memRead m h := by
  rw [readInt, (ringIndex_eq_head_iff hh d).2 hd]

/-- A read at `d + 1` after a push: the pushed word where a read at `d` before it would have met the overwritten one. -/
theorem readInt_ringPush {len : Nat} {r : Ring} (h : RingInv len r) (x : Num64) (d : Int) :
    readInt (ringPush len r x).mem (ringPush len r x).head len (d + 1) =
      if (len : Int) ∣ d + 1 then x else readInt r.mem r.head len d := by
  simp only [readInt, ringPush_head, ringIndex_succ, ringPush_mem, memRead_memWrite h.mem.1, ringIndex_eq_head_iff h.head]

/-- Settles O42: a push shifts every read by one, and only a read of a whole turn meets the pushed word. -/
theorem ringPushRead : Obligations.RingPushRead := by
  intro len r x h
  refine ⟨rfl, ?_, fun d h0 h1 => ?_, readInt_of_dvd h.head _ (by simp)⟩
  · exact (readInt_ringPush h x (-1)).trans (if_pos (dvd_zero _))
  · have hd : ¬ (len : Int) ∣ d + 1 := fun hd => absurd (Int.le_of_dvd (by omega) hd) (by omega)
    rw [readInt_ringPush h, if_neg hd]

/-! ### Fractional reads (R66) -/

/-- The clamped offset of a fractional read is finite and from 0 to `LEN - 2`, whatever the offset is. -/
theorem clampedOffset_bounds {len : Nat} (h2 : 2 ≤ len) (hcap : len ≤ Config.chCap) (o : Num64) :
    finiteFrom n0 (clamp o n0 (ofInt ((len : Int) - 2))) ∧
      valueOf (clamp o n0 (ofInt ((len : Int) - 2))) ≤ ((len : Int) - 2 : Int) := by
  obtain ⟨fh, vh⟩ := valueOf_ofInt (n := (len : Int) - 2) (by simp only [Config.chCap] at hcap; omega)
  have hle : fle n0 (ofInt ((len : Int) - 2)) = true := by
    rw [fle_iff_valueOf (by decide) (isNaN_of_isFinite fh), vh, valueOf_n0]
    exact_mod_cast (by omega : (0 : Int) ≤ (len : Int) - 2)
  have hr := clamp_inRange (x := o) hle
  obtain ⟨f, -, hhi⟩ := (inRange_iff_valueOf (by decide) fh).1 hr
  exact ⟨⟨f, hr.1⟩, hhi.trans_eq vh⟩

/-- The integer part of a number from 0 to an integer lies there too. -/
theorem floorInt_bounds {p : Num64} {n : Int} (h : finiteFrom n0 p) (hn : valueOf p ≤ n) :
    0 ≤ floorInt p ∧ floorInt p ≤ n := by
  obtain ⟨hf, h0⟩ := finiteFrom_n0_iff.1 h
  rw [floorInt_eq_floor hf]
  exact ⟨Int.floor_nonneg.2 h0, by exact_mod_cast (Int.floor_le _).trans hn⟩

/-- With a fraction of zero, of either sign, the interpolation of two finite words has the first word's value. -/
theorem interpolate_of_isZero {f a b : Num64} (hf : isZero f = true) (ha : isFinite a = true) (hb : isFinite b = true) :
    feq (fadd (fmul (fsub n1 f) a) (fmul f b)) a = true := by
  have vf := valueOf_of_isZero hf
  obtain ⟨fs, vs⟩ := roundsTo_exact (fsub_roundsTo (by decide : isFinite n1 = true) (isFinite_of_isZero hf))
    (by decide : isFinite n1 = true) (by simp [vf])
  obtain ⟨fl, vl⟩ := roundsTo_exact (fmul_roundsTo fs ha) ha (by simp [vs, valueOf_n1])
  obtain ⟨fr, vr⟩ := roundsTo_exact (fmul_roundsTo (isFinite_of_isZero hf) hb) (by decide : isFinite n0 = true)
    (by simp [vf, valueOf_n0])
  obtain ⟨fa, va⟩ := roundsTo_exact (fadd_roundsTo fl fr) ha (by simp [vl, vr, valueOf_n0])
  exact (feq_iff_valueOf (isNaN_of_isFinite fa) (isNaN_of_isFinite ha)).2 va

/-- Settles O43: the fraction is `frac` of the clamped offset, which is exact and in [0, 1). -/
theorem readFracBounds : Obligations.ReadFracBounds := by
  intro m h len o h2 hcap
  obtain ⟨hoc, hhi⟩ := clampedOffset_bounds h2 hcap o
  obtain ⟨hi0, hi1⟩ := floorInt_bounds hoc hhi
  exact ⟨hi0, hi1, frac_inPhase hoc.1 hoc.2, (valueOf_frac hoc.1 hoc.2).2, rfl,
    fun hn => clamp_of_not_le (compare_nan (.inr hn)).1, interpolate_of_isZero⟩

end Sys2Proof.Machine
end

section
/-! PROOFS. Decoding and encoding (spec/30_encoding.md R81, R83, R85 to R87, R89, R90). Three laws of a row of the opcode table carry the family: its opcode finds it, its command's word holds the fields that its format reads, and R89's checks are its command's well-formedness. Every command is a row's command, so nothing else splits over the commands. -/

namespace Sys2Proof

open Sys2Proof.Machine

/-! ### What a format reads (R83) -/

/-- The channel of a command word, 0 in a format that does not read it. -/
def Format.keepCh (f : Format) (ch : BitVec 8) : BitVec 8 :=
  match f with
  | .n => ch
  | .z | .p | .i | .x => 0

/-- The `imm` of a command word, 0 in a format that does not read it. -/
def Format.keepImm (f : Format) (imm : BitVec 16) : BitVec 16 :=
  match f with
  | .n | .i | .x => imm
  | .z | .p => 0

/-- The `val` of a command word, 0 in a format that does not read it. -/
def Format.keepVal (f : Format) (val : Num64) : Num64 :=
  match f with
  | .n | .p | .x => val
  | .z | .i => 0

theorem Format.keepCh_congr {f : Format} {a b : BitVec 8} (hn : f = .n → a = b) : f.keepCh a = f.keepCh b := by
  cases f with
  | n => exact hn rfl
  | z | p | i | x => rfl

theorem Format.keepImm_congr {f : Format} {a b : BitVec 16} (hn : f = .n → a = b) (hi : f = .i → a = b)
    (hx : f = .x → a = b) : f.keepImm a = f.keepImm b := by
  cases f with
  | n => exact hn rfl
  | i => exact hi rfl
  | x => exact hx rfl
  | z | p => rfl

theorem Format.keepVal_congr {f : Format} {a b : Num64} (hn : f = .n → a = b) (hp : f = .p → a = b)
    (hx : f = .x → a = b) : f.keepVal a = f.keepVal b := by
  cases f with
  | n => exact hn rfl
  | p => exact hp rfl
  | x => exact hx rfl
  | z | i => rfl

/-! ### The rows of the opcode table (R85) -/

theorem opcodeTable_ops_nodup : (opcodeTable.map OpRow.op).Nodup := by decide

/-- A row is found by its opcode. -/
theorem find?_opcode {row : OpRow} (h : row ∈ opcodeTable) :
    opcodeTable.find? (fun r => decide (r.op = row.op)) = some row := by
  cases hf : opcodeTable.find? (fun r => decide (r.op = row.op)) with
  | none => exact absurd (decide_eq_true rfl) (List.find?_eq_none.1 hf row h)
  | some r =>
    have hop : r.op = row.op := by simpa using List.find?_some hf
    rw [List.inj_on_of_nodup_map opcodeTable_ops_nodup (List.mem_of_find?_eq_some hf) h hop]

/-- A row's command depends on the fields that its format reads only. -/
theorem build_keep {row : OpRow} (h : row ∈ opcodeTable) (ch : BitVec 8) (imm : BitVec 16) (val : Num64) :
    row.build (row.fmt.keepCh ch) (row.fmt.keepImm imm) (row.fmt.keepVal val) = row.build ch imm val := by
  fin_cases h <;> rfl

/-- A row's command is encoded in the row's opcode and the fields that its format reads. -/
theorem encode_build {row : OpRow} (h : row ∈ opcodeTable) (ch : BitVec 8) (imm : BitVec 16) (val : Num64) :
    encode (row.build ch imm val) =
      packWord row.op (row.fmt.keepCh ch) (row.fmt.keepImm imm) (row.fmt.keepVal val) := by
  fin_cases h <;> rfl

/-- R89's checks pass exactly when the row's command is well formed. -/
theorem operandsOk_eq_wf {row : OpRow} (h : row ∈ opcodeTable) (ch : BitVec 8) (imm : BitVec 16) (val : Num64) :
    operandsOk row imm val = (row.build ch imm val).wf := by
  fin_cases h <;> simp [operandsOk, checksVal, Instr.wf]

/-- Every command is the command of a row: the table lists the commands in the order of their constructors. -/
theorem exists_row_build (i : Instr) : ∃ row ∈ opcodeTable, ∃ ch imm val, row.build ch imm val = i := by
  have hi : i.ctorIdx < opcodeTable.length := by cases i <;> simp [Instr.ctorIdx, opcodeTable]
  refine ⟨opcodeTable[i.ctorIdx], List.getElem_mem hi, ?_⟩
  cases i with
  | nop | reset | tick64 | tick32 => exact ⟨0, 0, 0, rfl⟩
  | noteOn ch imm val | noteOff ch imm val => exact ⟨ch, imm, val, rfl⟩
  | setPedal imm val => exact ⟨0, imm, val, rfl⟩
  | setRandphase imm | setFtype imm | setFiter imm | setDivN imm => exact ⟨0, imm, 0, rfl⟩
  | _ val => exact ⟨0, 0, val, rfl⟩

/-! ### Decoding a row's word (R86, R87, R89) -/

theorem decode_of_mem {w : CmdWord} {row : OpRow} (h : row ∈ opcodeTable) (hop : row.op = opField w) :
    decode w = if operandsOk row (immField w) (valField w) then
      row.build (chField w) (immField w) (valField w) else .nop :=
  decode_of_row (by rw [← hop, find?_opcode h])

theorem decode_packWord {row : OpRow} (h : row ∈ opcodeTable) (ch : BitVec 8) (imm : BitVec 16) (val : Num64) :
    decode (packWord row.op ch imm val) = if operandsOk row imm val then row.build ch imm val else .nop := by
  simp [decode_of_mem h (w := packWord row.op ch imm val)]

/-- An opcode without a row decodes to NOP (R87). -/
theorem decode_of_unlisted {w : CmdWord} (h : ∀ row ∈ opcodeTable, row.op ≠ opField w) : decode w = .nop :=
  decode_of_none (List.find?_eq_none.2 fun row hrow => by simpa using h row hrow)

theorem wf_decode (w : CmdWord) : (decode w).wf = true := by
  by_cases hrow : ∃ row ∈ opcodeTable, row.op = opField w
  · obtain ⟨row, hmem, hop⟩ := hrow
    rw [decode_of_mem hmem hop]
    split
    next hok => rw [← hok, operandsOk_eq_wf hmem]
    next => rfl
  · rw [decode_of_unlisted fun row hmem hop => hrow ⟨row, hmem, hop⟩]
    rfl

/-- Settles O1: the word of a row's command holds the fields that the row reads, and the checks pass because the command is well formed. -/
theorem decodeEncode : Obligations.DecodeEncode := by
  intro i hwf
  obtain ⟨row, hrow, ch, imm, val, rfl⟩ := exists_row_build i
  have hok : operandsOk row (row.fmt.keepImm imm) (row.fmt.keepVal val) = true := by
    rw [operandsOk_eq_wf hrow (row.fmt.keepCh ch), build_keep hrow, hwf]
  rw [encode_build hrow, decode_packWord hrow, if_pos hok, build_keep hrow]

/-- Settles O2: an accepted word's command is encoded in the word's opcode and the fields that the format reads. -/
theorem decodeFaithful : Obligations.DecodeFaithful := by
  refine ⟨wf_decode, fun w row hrow hop hok => ?_⟩
  rw [decode_of_mem hrow hop, if_pos hok, encode_build hrow, opField_packWord, chField_packWord, immField_packWord,
    valField_packWord]
  refine ⟨hop, ?_, ?_, ?_, ?_⟩ <;> intro hf <;> simp [hf, Format.keepCh, Format.keepImm, Format.keepVal]

/-! ### Reserved opcodes and unread fields (R87) -/

/-- The reserved opcodes, as R87 lists them. -/
abbrev ReservedOp (op : Nat) : Prop :=
  (0x04 ≤ op ∧ op ≤ 0x07) ∨ (0x0A ≤ op ∧ op ≤ 0x0F) ∨ (0x18 ≤ op ∧ op ≤ 0x1F) ∨ op = 0x26 ∨
  op = 0x27 ∨ op = 0x2E ∨ op = 0x2F ∨ (0x38 ≤ op ∧ op ≤ 0x3F) ∨ (0x44 ≤ op ∧ op ≤ 0x47) ∨
  (0x4C ≤ op ∧ op ≤ 0x4F) ∨ (0x52 ≤ op ∧ op ≤ 0xFF)

theorem not_reservedOp_of_mem : ∀ row ∈ opcodeTable, ¬ ReservedOp row.op.toNat := by decide

theorem decode_of_reservedOp {w : CmdWord} (h : ReservedOp (opField w).toNat) : decode w = .nop :=
  decode_of_unlisted fun row hrow hop => not_reservedOp_of_mem row hrow (hop ▸ h)

theorem pedalIndexOk_iff {imm : BitVec 16} : pedalIndexOk imm = true ↔ 0 ≤ imm.toInt ∧ imm.toInt < 3 :=
  decide_eq_true_iff

/-- A SET_PEDAL with an index that names no pedal changes nothing, whatever its value (R87). -/
theorem execSetPedal_of_refused {imm : BitVec 16} (h : pedalIndexOk imm = false) (val : Num64) (s : State) :
    execSetPedal imm val s = .next s := by
  unfold execSetPedal
  rcases acceptFinite_cases val s _ with ⟨-, hnext⟩ | ⟨-, hnext⟩
  · rw [hnext, if_neg (by simp [h])]
  · exact hnext

theorem decode_setPedal_of_refused {w : CmdWord} (hop : opField w = 0x16#8) (h : pedalIndexOk (immField w) = false) :
    decode w = .nop := by
  rw [decode_of_mem (row := ⟨0x16#8, .x, fun _ imm val => .setPedal imm val⟩) (by simp [opcodeTable]) hop.symm,
    if_neg (by simp [operandsOk, h])]

/-- Words of one opcode that agree on the fields that its format reads decode to the same command. -/
theorem decode_congr {w w' : CmdWord} {row : OpRow} (hrow : row ∈ opcodeTable) (hop : row.op = opField w)
    (hop' : row.op = opField w') (hch : row.fmt.keepCh (chField w') = row.fmt.keepCh (chField w))
    (himm : row.fmt.keepImm (immField w') = row.fmt.keepImm (immField w))
    (hval : row.fmt.keepVal (valField w') = row.fmt.keepVal (valField w)) : decode w' = decode w := by
  have hbuild : row.build (chField w') (immField w') (valField w') =
      row.build (chField w) (immField w) (valField w) := by
    rw [← build_keep hrow, hch, himm, hval, build_keep hrow]
  rw [decode_of_mem hrow hop, decode_of_mem hrow hop', operandsOk_eq_wf hrow (chField w'), hbuild,
    operandsOk_eq_wf hrow (chField w)]

/-- Settles O3: the reserved opcodes have no row, a refused pedal index fails its row's check, and a row's command depends on the fields it reads only. -/
theorem reservedAndUnread : Obligations.ReservedAndUnread := by
  refine ⟨fun w s hres => ?_, fun w s hop himm => ?_, fun w w' row hrow hop hop' hn hp hi hx => ?_⟩
  · have hnop := decode_of_reservedOp hres
    exact ⟨hnop, by rw [hnop]; rfl⟩
  · have hbad : pedalIndexOk (immField w) = false :=
      Bool.eq_false_iff.2 fun hok => by have := pedalIndexOk_iff.1 hok; omega
    have hnop := decode_setPedal_of_refused hop hbad
    exact ⟨hnop, by rw [hnop]; rfl, execSetPedal_of_refused hbad _ s⟩
  · exact decode_congr hrow hop (hop.trans hop'.symm)
      (Format.keepCh_congr fun hf => (hn hf).1)
      (Format.keepImm_congr (fun hf => (hn hf).2.1) hi fun hf => (hx hf).1)
      (Format.keepVal_congr (fun hf => (hn hf).2.2) hp fun hf => (hx hf).2)

/-! ### Operand checks (R86) -/

theorem fmt_of_noteOn_op : ∀ row ∈ opcodeTable, row.op = 0x08#8 → row.fmt = .n := by decide

theorem fmt_of_setPedal_op : ∀ row ∈ opcodeTable, row.op = 0x16#8 → row.fmt = .x := by decide

theorem operandsOk_of_not_finite {row : OpRow} (h : row.fmt = .p ∨ row.fmt = .x ∨ row.op = 0x08#8) (imm : BitVec 16)
    {val : Num64} (hv : isFinite val = false) : operandsOk row imm val = false := by
  simp [operandsOk, checksVal, h, hv]

theorem operandsOk_of_accepted {row : OpRow} (h : row ∈ opcodeTable) {imm : BitVec 16} {val : Num64}
    (hv : isFinite val = true ∨ row.fmt = .z ∨ row.fmt = .i)
    (hx : row.fmt = .x → 0 ≤ imm.toInt ∧ imm.toInt ≤ 2) : operandsOk row imm val = true := by
  have hval : checksVal row = false ∨ isFinite val = true := by
    rcases hv with hv | hf | hf
    · exact .inr hv
    all_goals exact .inl (by simpa [checksVal, hf] using fun hop => by simpa [hf] using fmt_of_noteOn_op row h hop)
  have hpedal : row.op ≠ 0x16#8 ∨ pedalIndexOk imm = true := by
    by_cases hop : row.op = 0x16#8
    · exact .inr (pedalIndexOk_iff.2 (by have := hx (fmt_of_setPedal_op row h hop); omega))
    · exact .inl hop
  simpa [operandsOk] using ⟨hval, hpedal⟩

theorem decode_of_accepted {row : OpRow} (h : row ∈ opcodeTable) (ch : BitVec 8) {imm : BitVec 16} {val : Num64}
    (hv : isFinite val = true ∨ row.fmt = .z ∨ row.fmt = .i)
    (hx : row.fmt = .x → 0 ≤ imm.toInt ∧ imm.toInt ≤ 2) :
    decode (packWord row.op ch imm val) = row.build ch imm val := by
  rw [decode_packWord h, if_pos (operandsOk_of_accepted h hv hx)]

theorem decode_noteOff (ch : BitVec 8) (imm : BitVec 16) (val : Num64) :
    decode (packWord 0x09#8 ch imm val) = .noteOff ch imm val :=
  (decode_packWord (row := ⟨0x09#8, .n, fun ch imm val => .noteOff ch imm val⟩) (by simp [opcodeTable]) ch imm val).trans
    (if_pos rfl)

/-- Settles O4: a value that is not finite fails the check of every row that has one, and `operandsOk_of_accepted` covers the operands that pass. -/
theorem operandCheck : Obligations.OperandCheck := by
  refine ⟨fun row ch imm val hrow hchecked hv => ?_, decode_noteOff, fun row ch imm val hrow hv hx => ?_⟩
  · rw [decode_packWord hrow, operandsOk_of_not_finite hchecked imm hv, if_neg Bool.false_ne_true]
  · exact decode_of_accepted hrow ch hv hx

/-! ### The worked encodings (R92) -/

theorem decode_of_encode {i : Instr} {w : CmdWord} (h : encode i = w) (hwf : i.wf = true) : decode w = i := by
  rw [← h, decodeEncode i hwf]

/-- Settles O5: the encodings by evaluation, the decodings from them. -/
theorem workedEncodings : Obligations.WorkedEncodings :=
  ⟨decode_of_encode rfl (by decide), decode_of_encode rfl (by decide), decode_of_encode rfl (by decide),
    decode_of_encode rfl (by decide), decode_of_encode rfl (by decide), decode_of_encode rfl (by decide),
    decode_of_encode rfl (by decide), decode_of_encode rfl (by decide), rfl, rfl, rfl, rfl, rfl, rfl, rfl, rfl, rfl⟩

end Sys2Proof
end

section
/-! PROOFS. The `rst` pin, the output port and the commands without operands (spec/30_encoding.md R80, R82, R85; spec/45_synth.md R193, R195, R196; spec/70_reset_and_hazards.md R291). -/

namespace Sys2Proof.Machine

/-- A format Z word decodes to its row's command, whatever the other fields are. -/
theorem decode_of_fmt_z {row : OpRow} (h : row ∈ opcodeTable) (hz : row.fmt = .z) (ch : BitVec 8) (imm : BitVec 16)
    (val : Num64) : decode (packWord row.op ch imm val) = row.build ch imm val :=
  decode_of_accepted h ch (.inr (.inl hz)) (by simp [hz])

/-! ### Reset (R193, R273 (b), R291) -/

theorem portEvent_of_rst {s : State} (h : (pins s).rst = true) : portEvent s = .reset := by
  simp [portEvent, h]

theorem step_of_reset {s : State} (h : portEvent s = .reset) : step s = .next (applyReset (advanceHost s)) := by
  rw [step, h]

theorem takenPair_of_reset {s : State} (h : portEvent s = .reset) : takenPair s = none := by
  rw [takenPair, h]

/-- Settles O7: `rst` decides the event of the step before any other pin does. -/
theorem resetPinAndCommand : Obligations.ResetPinAndCommand := by
  refine ⟨fun s hr => ?_, fun ch imm val => ?_, fun _ => rfl, rfl⟩
  · have hreset := portEvent_of_rst hr
    exact ⟨by simp [cmdReady, hr], by simp [outValidPin, hr], takenPair_of_reset hreset, step_of_reset hreset⟩
  · exact decode_of_fmt_z (row := ⟨0x01#8, .z, fun _ _ _ => .reset⟩) (by simp [opcodeTable]) rfl ch imm val

/-! ### The output port (R80, R82) -/

theorem portEvent_of_ready {s : State} (hr : (pins s).rst = false) (hv : s.outValid = true)
    (ho : (pins s).outReady = true) : portEvent s = .take := by
  simp [portEvent, hr, hv, ho]

theorem portEvent_of_not_ready {s : State} (hr : (pins s).rst = false) (hv : s.outValid = true)
    (ho : (pins s).outReady = false) : portEvent s = .hold := by
  simp [portEvent, hr, hv, ho]

@[simp] theorem presentChannel_false (x : Num64) : presentChannel false x = x := rfl

/-- A channel after TICK32: RN32 in the low half, zeros in the high half. -/
theorem presentChannel_true_halves (x : Num64) :
    (presentChannel true x).extractLsb' 0 32 = rn32 x ∧ (presentChannel true x).extractLsb' 32 32 = 0 := by
  have h : presentChannel true x = (rn32 x).setWidth 64 := rfl
  rw [h]
  generalize rn32 x = y
  constructor
  · ext i hi
    simp [hi]
    omega
  · ext i hi
    simp

/-- Settles O8: with a pair waiting, `out_ready` alone decides between taking the pair and holding the state. -/
theorem outputPort : Obligations.OutputPort := by
  refine ⟨fun s hr hv => ⟨by simp [cmdReady, hv], by simp [outValidPin, hr, hv], fun ho => ?_, fun ho => ?_⟩,
    fun s hw => ?_, fun s hw => ?_⟩
  · have htake := portEvent_of_ready hr hv ho
    exact ⟨takenPair_of_take htake, step_of_take htake⟩
  · have hhold := portEvent_of_not_ready hr hv ho
    exact ⟨takenPair_of_hold hhold, step_of_hold hhold⟩
  · simp [outLPin, outRPin, hw]
  · obtain ⟨lowL, highL⟩ := presentChannel_true_halves s.outL
    obtain ⟨lowR, highR⟩ := presentChannel_true_halves s.outR
    rw [outLPin, outRPin, hw]
    exact ⟨lowL, highL, lowR, highR⟩

/-! ### The ticks (R195, R196) -/

/-- Settles O16: both opcodes are format Z, and the statement writes out what `synthTick` and `effectChain` name. -/
theorem tickCommands : Obligations.TickCommands := by
  refine ⟨fun ch imm val => ⟨?_, ?_⟩, fun s => ⟨rfl, rfl⟩⟩
  · exact decode_of_fmt_z (row := ⟨0x02#8, .z, fun _ _ _ => .tick64⟩) (by simp [opcodeTable]) rfl ch imm val
  · exact decode_of_fmt_z (row := ⟨0x03#8, .z, fun _ _ _ => .tick32⟩) (by simp [opcodeTable]) rfl ch imm val

end Sys2Proof.Machine
end

section
/-! PROOFS. The oscillator, its random phases and its parameters (spec/40_oscillator.md R101, R103 to R108, R110, R111; spec/43_lfo.md R165 to R167; spec/44_voice.md R180): each internal operation's clauses are read off its one specification lemma in `Laws/Oscillator.lean`. -/

namespace Sys2Proof.Machine

/-! ### OscSetFreq (R104 to R106) -/

/-- Settles O30: the scan of OscSetFreq starts at partial 1 with 127 partials left, so that it ends at a count of at most 128. -/
theorem oscSetFreqTable : Obligations.OscSetFreqTable := by
  intro f0 b o hstep hamp t r
  obtain ⟨n, hlo, hhi, hnp, hph, hbelow, hkept, hend⟩ :=
    oscScan_spec f0 b (Config.npMax - 1) 1 { o with np := 1 } rfl hstep hamp
  have htn : t.np = n := hnp
  rw [htn]
  refine ⟨hlo, hhi, hph, fun i hi hin => ?_, fun i hi => hkept i (hi.imp_left (by omega)), hend⟩
  obtain ⟨hq, hs, ha⟩ := hbelow i hi hin
  exact ⟨hs, ha, (congrArg (fle · qNyq) hs).trans hq⟩

/-! ### OscReset (R107) -/

/-- Settles O31: a read after OscReset, below and from index 128 on. -/
theorem oscResetPhases : Obligations.OscResetPhases := by
  intro v oi random o hph
  have hread := oscReset_ph_read v oi random o hph
  exact ⟨oscReset_np .., oscReset_amp .., oscReset_step .., fun i hi => (hread i).trans (if_pos hi),
    fun i hi => (hread i).trans (if_neg (not_lt.2 hi))⟩

/-! ### OscProcess (R108) -/

/-- The partials that OscProcess visits are those that sound: 1 to np - 1. -/
theorem mem_soundingPartials {n i : Nat} : i ∈ List.range' 1 (n - 1) ↔ 1 ≤ i ∧ i < n := by
  rw [List.mem_range'_1]
  omega

/-- Settles O32: the loop visits every sounding partial once and no other. -/
theorem oscProcessSum : Obligations.OscProcessSum := by
  intro m o hph
  obtain ⟨hnp, hamp, hstep, -, hread, hsum⟩ :=
    oscProcess_fold_spec m (List.range' 1 (o.np - 1)) (o, n0) List.nodup_range' hph
  refine ⟨hnp, hamp, hstep, fun i hi hin => ?_, fun i hi => ?_, hsum⟩
  · exact (hread i).trans (if_pos (mem_soundingPartials.2 ⟨hi, hin⟩))
  · exact (hread i).trans (if_neg (by rw [mem_soundingPartials]; omega))

/-! ### Random phases (R101) -/

theorem valueOf_nTwo32 : valueOf nTwo32 = 2 ^ 32 := by decide +kernel

/-- A 32-bit integer divided by 2^32 is a binary64 number, so that the division does not round. -/
theorem valueOf_fdiv_nTwo32 {k : Nat} (hk : k < 2 ^ 32) : valueOf (fdiv (ofInt k) nTwo32) = (k : ℚ) / 2 ^ 32 := by
  obtain ⟨hf, hv⟩ := valueOf_ofInt (n := (k : ℤ)) (by omega)
  obtain ⟨fz, vz⟩ := roundNum_exact (m := k) (e := -32) (by omega) (by norm_num) (by norm_num) false
  have hz : valueOf (roundNum false k (-32)) = (k : ℚ) / 2 ^ 32 := by
    rw [vz, if_neg Bool.false_ne_true, zpow_neg, ← div_eq_mul_inv, zpow_ofNat]
  have hquot : (valueOf (ofInt k) : ℝ) / valueOf nTwo32 = valueOf (roundNum false k (-32)) := by
    rw [hz, hv, valueOf_nTwo32]
    push_cast
    rfl
  have hdiv := fdiv_roundsTo hf (by decide : isFinite nTwo32 = true) (by decide)
  exact (roundsTo_exact hdiv fz hquot).2.trans hz

theorem rndPh_zero (v o : Nat) : rndPh v o 0 = n0 := if_pos rfl

theorem valueOf_rndPh {i : Nat} (hi : i ≠ 0) (v o : Nat) :
    valueOf (rndPh v o i) = (lcg i (2 * v + o + 1) : ℚ) / 2 ^ 32 := by
  rw [rndPh, if_neg hi, valueOf_fdiv_nTwo32 (lcg_lt hi)]

/-- Settles O35: the general facts above; the two worked values are two steps of the generator from seed 1. -/
theorem randomPhases : Obligations.RandomPhases := by
  refine ⟨fun v o i _ _ _ => rndPh_inPhase v o i, rndPh_zero, fun v o i hi => ?_, fun _ _ => ⟨rfl, rfl⟩, ?_, ?_⟩
  · rw [valueOf_rndPh (Nat.one_le_iff_ne_zero.1 hi)]
    norm_num
  · have hlcg : lcg 1 (2 * 0 + 0 + 1) = 1015568748 := by decide
    rw [valueOf_rndPh one_ne_zero, hlcg, Nat.cast_ofNat]
  · have hlcg : lcg 2 (2 * 0 + 0 + 1) = 1586005467 := by decide
    rw [valueOf_rndPh two_ne_zero, hlcg, Nat.cast_ofNat]

/-! ### The parameter commands (R110, R111, R165 to R167, R180) -/

/-- A format P word with a finite operand decodes to its row's command, whatever the fields are that it does not read. -/
theorem decode_of_fmt_p {op : BitVec 8} {build : Num64 → Instr} (h : ⟨op, .p, fun _ _ val => build val⟩ ∈ opcodeTable)
    {val : Num64} (hv : isFinite val = true) (ch : BitVec 8) (imm : BitVec 16) :
    decode (packWord op ch imm val) = build val :=
  decode_of_accepted h ch (.inl hv) nofun

/-- A format I word decodes to its row's command, whatever its unread fields are. -/
theorem decode_of_fmt_i {op : BitVec 8} {build : BitVec 16 → Instr}
    (h : ⟨op, .i, fun _ imm _ => build imm⟩ ∈ opcodeTable) (imm : BitVec 16) (ch : BitVec 8) (val : Num64) :
    decode (packWord op ch imm val) = build imm :=
  decode_of_accepted h ch (.inr (.inr rfl)) nofun

/-- A command that checks its operand has its effect when the operand is finite (R86). -/
theorem exec_of_accepted {i : Instr} {val : Num64} {s t : State} (hv : isFinite val = true)
    (he : exec i s = acceptFinite val s fun _ => t) : exec i s = .next t :=
  he.trans (acceptFinite_of_finite s _ hv)

/-- R84's flag: the sign extension of `imm` is 0 for `imm = 0` only. -/
theorem flagOf_eq (imm : BitVec 16) : flagOf imm = decide (imm ≠ 0) :=
  decide_eq_decide.2 (BitVec.toInt_ne (y := 0#16))

theorem exec_setRandphase (imm : BitVec 16) (s : State) :
    exec (.setRandphase imm) s = .next { s with params := { s.params with randPhase := decide (imm ≠ 0) } } := by
  rw [← flagOf_eq]
  rfl

/-- Settles O23: five format P commands, which a finite operand lets through, and SET_RANDPHASE, which reads its flag alone. -/
theorem oscillatorParams : Obligations.OscillatorParams := by
  intro s val ch imm hv
  refine
    ⟨decode_of_fmt_p (build := .setInharm) (by simp [opcodeTable]) hv ch imm, ?_,
      decode_of_fmt_p (build := .setOscmix) (by simp [opcodeTable]) hv ch imm, ?_,
      decode_of_fmt_i (build := .setRandphase) (by simp [opcodeTable]) imm ch val, exec_setRandphase imm s,
      decode_of_fmt_p (build := .setVibDepth) (by simp [opcodeTable]) hv ch imm, ?_,
      decode_of_fmt_p (build := .setVibRate) (by simp [opcodeTable]) hv ch imm, ?_,
      decode_of_fmt_p (build := .setVibDelay) (by simp [opcodeTable]) hv ch imm, ?_⟩
  all_goals exact exec_of_accepted hv rfl

end Sys2Proof.Machine
end

section
/-! PROOFS. The filter, its parameters and the voice that runs it (spec/41_filter.md R121 to R128; spec/42_envelope.md R141; spec/43_lfo.md R163; spec/44_voice.md R175, R176): the range of the cutoff clamp, and one equation per branch of the LFO, the cutoff modulation, SvfProcess and VoiceProcess. -/

namespace Sys2Proof.Machine

/-! ### The cutoff clamp (R121) -/

theorem valueOf_n20 : valueOf n20 = 20 := by decide +kernel
theorem valueOf_n1000 : valueOf n1000 = 1000 := by decide +kernel
theorem valueOf_n0p9_bounds : 1 / 2 ≤ valueOf n0p9 ∧ valueOf n0p9 ≤ 1 := by decide +kernel

/-- The upper bound of the cutoff is a number of at least 20, at every sample rate in range. -/
theorem cutoffTop_inRange {fs : Num64} (hfs : inRange fsMin fsMax fs) :
    inRange n20 fsMax (fmul n0p9 (fdiv fs n2)) := by
  obtain ⟨ffs, h8000, -⟩ := fs_bounds hfs
  have htop := ((inRange_iff_valueOf (by decide) (by decide)).1 hfs).2.2
  have hhalf : inRange n1000 fsMax (fdiv fs n2) := by
    refine fdiv_inRange ffs (by decide) (by decide) (by decide) ?_ ?_ ?_ <;> rw [valueOf_n2]
    · norm_num
    · rw [valueOf_n1000]; linarith
    · linarith
  obtain ⟨fq, hlo, hhi⟩ := (inRange_iff_valueOf (by decide) (by decide)).1 hhalf
  obtain ⟨r0, r1⟩ := valueOf_n0p9_bounds
  rw [valueOf_n1000] at hlo
  exact fmul_inRange (by decide) fq (by decide) (by decide) (by rw [valueOf_n20]; nlinarith) (by nlinarith)

theorem flt_eq_false_of_fle {a b : Num64} (h : fle a b = true) : flt b a = false := by
  obtain ⟨-, -, hle⟩ := fle_iff.1 h
  by_contra hc
  obtain ⟨-, -, hlt⟩ := flt_iff.1 (by simpa using hc)
  omega

theorem fle_of_flt {a b : Num64} (h : flt a b = true) : fle a b = true := by
  obtain ⟨ha, hb, hlt⟩ := flt_iff.1 h
  exact fle_iff.2 ⟨ha, hb, hlt.le⟩

theorem clamp_of_inRange {x lo hi : Num64} (h : inRange lo hi x) : clamp x lo hi = x := by
  rw [clamp_of_le h.1, flt_eq_false_of_fle h.2, if_neg Bool.false_ne_true]

theorem clamp_of_above {x lo hi : Num64} (hle : fle lo hi = true) (h : flt hi x = true) : clamp x lo hi = hi := by
  rw [clamp_of_le (fle_trans hle (fle_of_flt h)), if_pos h]

/-! ### EnvRate (R141) -/

/-- A time of 0 or less, however far below, makes the divisor of R141 its least value 1: the product may overflow, but to no number above 0. -/
theorem envRate_of_nonpos {fs t : Num64} (hfs : inRange fsMin fsMax fs) (ht : isFinite t = true)
    (h : fle t n0 = true) : envRate fs t = n1 := by
  obtain ⟨ffs, h8000, -⟩ := fs_bounds hfs
  have ht0 : valueOf t ≤ 0 := by rwa [fle_iff_valueOf (isNaN_of_isFinite ht) (by decide), valueOf_n0] at h
  obtain ⟨m0, m1⟩ : 0 ≤ valueOf n1em3 ∧ valueOf n1em3 ≤ 1 := by decide +kernel
  have hms : inRange t n0 (fmul t n1em3) :=
    fmul_inRange ht (by decide) ht (by decide) (by nlinarith) (by rw [valueOf_n0]; nlinarith)
  obtain ⟨fms, -, hms0⟩ := (inRange_iff_valueOf ht (by decide)).1 hms
  rw [valueOf_n0] at hms0
  have hprod : valueOf (fmul t n1em3) * valueOf fs ≤ valueOf n1 := by rw [valueOf_n1]; nlinarith
  have hle : fle (fmul (fmul t n1em3) fs) n1 = true :=
    roundsTo_le (fmul_roundsTo fms ffs) (by decide) (by exact_mod_cast hprod)
  rw [envRate, fmax, if_pos hle, fdiv_n1 (by decide)]

/-- Settles O36: the three branches of `clamp` below `cutoffTop_inRange`, and the range of EnvRate. -/
theorem clampedCoefficients : Obligations.ClampedCoefficients := by
  refine ⟨fun fs f hfs => ?_, fun fs t hfs ht => ⟨envRate_unit hfs ht, envRate_of_nonpos hfs ht⟩,
    fun _ _ => rfl, fun _ _ => rfl⟩
  have hle := (cutoffTop_inRange hfs).1
  exact ⟨hle, clamp_inRange hle, clamp_of_inRange, clamp_of_above hle, clamp_of_not_le⟩

/-! ### The parameter commands (R125 to R128) -/

theorem exec_setFtype {imm : BitVec 16} {k : Fin 3} (hk : (k.val : Int) = iclamp imm.toInt 0 2) (s : State) :
    exec (.setFtype imm) s = .next { s with params := { s.params with ftype := k } } := by
  have hft : ftypeOf imm = k := Fin.ext (Int.ofNat_inj.1 ((ftypeOf_val imm).trans hk.symm))
  rw [← hft]
  rfl

theorem exec_setFiter (imm : BitVec 16) (s : State) :
    exec (.setFiter imm) s = .next { s with params := { s.params with fiter := decide (imm ≠ 0) } } := by
  rw [← flagOf_eq]
  rfl

/-- Settles O24: two format P commands, which a finite operand lets through, and two of format I, which read `imm` alone; SvfSetFreq is the definition's two formulas. -/
theorem filterParams : Obligations.FilterParams := by
  refine ⟨fun s val ch imm hv => ?_, fun _ _ _ _ => ⟨rfl, rfl⟩⟩
  exact
    ⟨decode_of_fmt_p (build := .setCutoff) (by simp [opcodeTable]) hv ch imm, exec_of_accepted hv rfl,
      decode_of_fmt_p (build := .setReso) (by simp [opcodeTable]) hv ch imm, exec_of_accepted hv rfl,
      decode_of_fmt_i (build := .setFtype) (by simp [opcodeTable]) imm ch val, fun _ hk => exec_setFtype hk s,
      decode_of_fmt_i (build := .setFiter) (by simp [opcodeTable]) imm ch val, exec_setFiter imm s⟩

/-! ### LfoProcess (R163) -/

theorem lfoProcess_of_delayed (c : Ctrl) {l : Lfo} (h : flt n0 l.dly = true) :
    lfoProcess c l = ({ l with dly := if flt (fsub l.dly c.lfoDStep) n0 then n0 else fsub l.dly c.lfoDStep }, n0) :=
  if_pos h

theorem lfoProcess_of_running (c : Ctrl) {l : Lfo} (h : flt n0 l.dly = false) :
    lfoProcess c l = ({ l with ph := frac (fadd l.ph c.lfoFStep) }, cosLookup l.ph) :=
  if_neg (by simp [h])

/-! ### SvfProcess (R122, R123) and VoiceCutoffMod (R176) -/

/-- A filter runs on its two coefficients and four accumulators alone: two voices that agree there give the same sample and the same accumulators. -/
theorem svfProcess_congr {v w : Voice} (hk : w.k = v.k) (hoqk : w.oqk = v.oqk) (h0 : w.s0 = v.s0) (h1 : w.s1 = v.s1)
    (h2 : w.s2 = v.s2) (h3 : w.s3 = v.s3) (p : Params) (x : Num64) :
    let y := svfProcess p v x
    svfProcess p w x = ({ w with s0 := y.1.s0, s1 := y.1.s1, s2 := y.1.s2, s3 := y.1.s3 }, y.2) := by
  unfold svfProcess
  rw [hk, hoqk, h0, h1, h2, h3]
  by_cases hf : p.fiter = true
  · simp only [if_pos hf]
  · simp only [if_neg hf, ← h2, ← h3]

/-- R176: modulation is active when P.FENV_AMT or the key factor is not 0, and then writes both coefficients. -/
theorem voiceCutoffMod_eq (p : Params) (c : Ctrl) (fe : Num64) (v : Voice) :
    let k := svfK c.fs (fmul p.cutoff (exp2N (fadd (fmul p.fenvAmt fe) v.keyf)))
    let active := feq p.fenvAmt n0 = false ∨ feq v.keyf n0 = false
    voiceCutoffMod p c fe v =
      { v with k := if active then k else v.k, oqk := if active then fadd (fdiv n1 p.reso) k else v.oqk } := by
  dsimp only
  have hcond : (!feq p.fenvAmt n0 || !feq v.keyf n0) = true ↔ feq p.fenvAmt n0 = false ∨ feq v.keyf n0 = false := by simp
  by_cases h : feq p.fenvAmt n0 = false ∨ feq v.keyf n0 = false
  · rw [voiceCutoffMod, if_pos (hcond.2 h), if_pos h, if_pos h]
    rfl
  · rw [voiceCutoffMod, if_neg (mt hcond.1 h), if_neg h, if_neg h]

/-! ### VoiceProcess (R175) -/

theorem voiceProcess_of_stop (p : Params) (c : Ctrl) {v : Voice} (h : v.amp.stage = .stop) : voiceProcess p c v = (v, n0) :=
  if_pos h

theorem voiceProcess_of_fin {p : Params} {c : Ctrl} {v : Voice} (h : v.amp.stage ≠ .stop)
    (hf : (envProcess c.amp p.amp.sustain v.amp).fin = true) :
    voiceProcess p c v = ({ v with amp := (envProcess c.amp p.amp.sustain v.amp).env }, n0) :=
  (if_neg h).trans (if_pos hf)

theorem voiceProcess_of_not_fin {p : Params} {c : Ctrl} {v : Voice} (h : v.amp.stage ≠ .stop)
    (hf : (envProcess c.amp p.amp.sustain v.amp).fin = false) :
    voiceProcess p c v = voiceSound p c (envProcess c.amp p.amp.sustain v.amp).out
      { v with amp := (envProcess c.amp p.amp.sustain v.amp).env } :=
  (if_neg h).trans (if_neg (by simp [hf]))

/-- Settles O39: one lemma for each case of the voice and of the LFO; in the sounding voice the filter reads nothing that the chain has written before it but the coefficients. The recurrences of SvfProcess are `svfStage` written out, once or twice. -/
theorem voiceProcessChain : Obligations.VoiceProcessChain := by
  refine ⟨fun p c v => ⟨voiceProcess_of_stop p c, voiceProcess_of_fin, fun hs hf => ?_⟩, fun _ _ _ => rfl,
    fun c l => ⟨lfoProcess_of_delayed c, lfoProcess_of_running c⟩⟩
  intro a fe l m o0 o1 x active kMod k oqk y g
  have hy := svfProcess_congr (v := { v with k := k, oqk := oqk })
    (w := { v with amp := a.env, flt := fe.env, lfo := l.1, osc0 := o0.1, osc1 := o1.1, k := k, oqk := oqk })
    rfl rfl rfl rfl rfl rfl p x
  rw [voiceProcess_of_not_fin hs hf, voiceSound, voiceCutoffMod_eq]
  exact congrArg (fun r : Voice × Num64 => (r.1, fmul (fmul g g) r.2)) hy

end Sys2Proof.Machine
end

section
/-! PROOFS. The envelopes, their parameters and the notes that drive them (spec/42_envelope.md R140 to R154; spec/44_voice.md R174; spec/45_synth.md R197, R198): one equation per stage of EnvProcess, what NOTE_OFF writes, and `exec_envNext`, which says once what a command can do to an envelope. -/

namespace Sys2Proof.Machine

/-! ### EnvNoteOn and EnvNoteOff (R142, R143) -/

theorem envNoteOff_of_releasing {e : Env} (h : releasing e) : envNoteOff e = e := by
  rcases envNoteOff_cases e with ⟨-, he⟩ | ⟨hn, -⟩
  · exact he
  · exact absurd h hn

theorem envNoteOff_of_not_releasing {e : Env} (h : ¬ releasing e) :
    envNoteOff e = { e with start := e.lvl, stage := .release, rem := n1 } := by
  rcases envNoteOff_cases e with ⟨hr, -⟩ | ⟨-, he⟩
  · exact absurd hr h
  · exact he

/-- Settles O37: EnvNoteOff tells the stages before Release from Release and Stop. -/
theorem envNoteOnOff : Obligations.EnvNoteOnOff := by
  refine ⟨fun _ => rfl, fun _ _ hl => hl, fun e hs => envNoteOff_of_not_releasing ?_, fun _ => envNoteOff_of_releasing⟩
  unfold releasing
  rcases hs with hs | hs | hs <;> simp [hs]

/-! ### EnvProcess (R144) -/

section Stages

variable {r : EnvRates} {sus : Num64} {e : Env}

theorem envProcess_of_attack (hs : e.stage = .attack) :
    envProcess r sus e =
      let rem := fsub e.rem r.ra
      let lvl := envRamp e.start n1 rem
      if fle rem n0 then ⟨{ stage := .decay, rem := n1, lvl := n1, start := n1 }, n1, false⟩
      else ⟨{ e with rem := rem, lvl := lvl }, lvl, false⟩ := by
  simp only [envProcess, hs]

theorem envProcess_of_decay (hs : e.stage = .decay) :
    envProcess r sus e =
      let rem := fsub e.rem r.rd
      let lvl := envRamp e.start sus rem
      if fle rem n0 then ⟨{ e with stage := .sustain, rem := n1, lvl := sus }, sus, false⟩
      else ⟨{ e with rem := rem, lvl := lvl }, lvl, false⟩ := by
  simp only [envProcess, hs]

theorem envProcess_of_sustain (hs : e.stage = .sustain) : envProcess r sus e = ⟨e, e.lvl, false⟩ := by
  simp only [envProcess, hs]

theorem envProcess_of_release (hs : e.stage = .release) :
    envProcess r sus e =
      let rem := fsub e.rem r.rr
      let lvl := envRamp e.start n0 rem
      if fle rem n0 then ⟨{ e with stage := .stop, rem := n0, lvl := n0 }, n0, true⟩
      else ⟨{ e with rem := rem, lvl := lvl }, lvl, false⟩ := by
  simp only [envProcess, hs]

theorem envProcess_of_stop (hs : e.stage = .stop) : envProcess r sus e = ⟨e, n0, false⟩ := by
  simp only [envProcess, hs]

end Stages

/-- Settles O38: the equation of each stage, at both results of its counter test. -/
theorem envProcessStages : Obligations.EnvProcessStages := by
  intro r sus e o ramp
  exact
    ⟨fun hs hr => (envProcess_of_attack hs).trans (if_pos hr),
      fun hs hr => (envProcess_of_attack hs).trans (if_neg (ne_true_of_eq_false hr)),
      fun hs hr => (envProcess_of_decay hs).trans (if_pos hr),
      fun hs hr => (envProcess_of_decay hs).trans (if_neg (ne_true_of_eq_false hr)),
      envProcess_of_sustain,
      fun hs hr => (envProcess_of_release hs).trans (if_pos hr),
      fun hs hr => (envProcess_of_release hs).trans (if_neg (ne_true_of_eq_false hr)),
      envProcess_of_stop⟩

/-! ### The parameter commands (R147 to R154) -/

/-- Settles O26: eight format P commands, which a finite operand lets through. -/
theorem envelopeParams : Obligations.EnvelopeParams := by
  intro s val ch imm hv
  refine
    ⟨decode_of_fmt_p (build := .setAmpAttack) (by simp [opcodeTable]) hv ch imm, ?_,
      decode_of_fmt_p (build := .setAmpDecay) (by simp [opcodeTable]) hv ch imm, ?_,
      decode_of_fmt_p (build := .setAmpSustain) (by simp [opcodeTable]) hv ch imm, ?_,
      decode_of_fmt_p (build := .setAmpRelease) (by simp [opcodeTable]) hv ch imm, ?_,
      decode_of_fmt_p (build := .setFltAttack) (by simp [opcodeTable]) hv ch imm, ?_,
      decode_of_fmt_p (build := .setFltDecay) (by simp [opcodeTable]) hv ch imm, ?_,
      decode_of_fmt_p (build := .setFltSustain) (by simp [opcodeTable]) hv ch imm, ?_,
      decode_of_fmt_p (build := .setFltRelease) (by simp [opcodeTable]) hv ch imm, ?_⟩
  all_goals exact exec_of_accepted hv rfl

/-! ### NOTE_OFF (R174, R198) -/

theorem noteOffMatches_iff {pitch : Fin 128} {v : Voice} :
    noteOffMatches pitch v = true ↔ v.pitch = pitch ∧ v.amp.stage ≠ .stop := decide_eq_true_iff

/-- Settles O19: the command's pitch is the clamped operand, and nothing checks the velocity. -/
theorem noteOff : Obligations.NoteOff := by
  intro s ch imm val pitch hp
  refine ⟨decode_noteOff ch imm val, ?_⟩
  have hpitch : pitchOf imm = pitch := Fin.ext (Int.ofNat_inj.1 ((pitchOf_val imm).trans hp.symm))
  rw [← hpitch]
  simp only [← noteOffMatches_iff]
  rfl

/-! ### What a command does to an envelope (R140) -/

/-- What a command can do to either envelope of a voice. -/
inductive EnvNext : Instr → Env → Env → Prop where
  | kept (i : Instr) (e : Env) : EnvNext i e e
  | cleared (e : Env) : EnvNext .reset e envIdle
  | attacked (ch : BitVec 8) (imm : BitVec 16) (val : Num64) (e : Env) : EnvNext (.noteOn ch imm val) e (envNoteOn e)
  | released (ch : BitVec 8) (imm : BitVec 16) (val : Num64) (e : Env) : EnvNext (.noteOff ch imm val) e (envNoteOff e)
  | ticked {i : Instr} (hi : i = .tick64 ∨ i = .tick32) (r : EnvRates) (sus : Num64) (e : Env) :
      EnvNext i e (envProcess r sus e).env

/-- What a command can do to the two envelopes of a voice. -/
structure EnvsNext (i : Instr) (v w : Voice) : Prop where
  amp : EnvNext i v.amp w.amp
  flt : EnvNext i v.flt w.flt

theorem EnvsNext.of_kept {i : Instr} {v w : Voice} (ha : w.amp = v.amp) (hf : w.flt = v.flt) : EnvsNext i v w :=
  ⟨ha ▸ .kept i v.amp, hf ▸ .kept i v.flt⟩

/-- A tick runs EnvProcess on the amplitude envelope, and, while the note goes on, on the filter envelope (R175). -/
theorem EnvsNext.of_tick {i : Instr} (hi : i = .tick64 ∨ i = .tick32) (p : Params) (c : Ctrl) (v : Voice) :
    EnvsNext i v (voiceProcess p c v).1 := by
  by_cases hs : v.amp.stage = .stop
  · rw [voiceProcess_of_stop p c hs]
    exact .of_kept rfl rfl
  cases hf : (envProcess c.amp p.amp.sustain v.amp).fin with
  | true =>
    rw [voiceProcess_of_fin hs hf]
    exact ⟨.ticked hi .., .kept ..⟩
  | false =>
    obtain ⟨-, -, -, -, -, -, ha, hflt, -⟩ := voiceSound_spec p c (envProcess c.amp p.amp.sustain v.amp).out
      { v with amp := (envProcess c.amp p.amp.sustain v.amp).env }
    rw [voiceProcess_of_not_fin hs hf]
    exact ⟨ha ▸ .ticked hi .., hflt ▸ .ticked hi ..⟩

theorem EnvsNext.of_map {i : Instr} {s t : State} {f : Voice → Voice} (ht : t.voices = s.voices.map f)
    (hf : ∀ v, EnvsNext i v (f v)) (v : Fin Config.nVoice) : EnvsNext i s.voices[v] t.voices[v] := by
  rw [ht, Fin.getElem_fin, Fin.getElem_fin, Vector.getElem_map]
  exact hf _

/-- NOTE_ON restarts the envelopes of the allocated voice, if there is one (R173, R197). -/
theorem EnvsNext.of_noteOn (ch : BitVec 8) (imm : BitVec 16) (val : Num64) (s : State) (v : Fin Config.nVoice) :
    EnvsNext (.noteOn ch imm val) s.voices[v] (noteOn imm val s).voices[v] := by
  unfold noteOn
  cases allocVoice s.voices with
  | none => exact .of_kept rfl rfl
  | some u =>
    dsimp only
    by_cases he : u = v
    · subst he
      rw [Fin.getElem_fin, Fin.getElem_fin, Vector.getElem_set_self]
      exact ⟨.attacked .., .attacked ..⟩
    · rw [Fin.getElem_fin, Fin.getElem_fin, Vector.getElem_set_ne _ _ (mt Fin.ext he)]
      exact .of_kept rfl rfl

/-- Everything that a command can do to the envelopes of a voice: only RESET, the note commands and the ticks write them. -/
theorem exec_envsNext {i : Instr} {s t : State} (h : exec i s = .next t) (v : Fin Config.nVoice) :
    EnvsNext i s.voices[v] t.voices[v] := by
  cases hw : i.wf
  · cases (exec_of_not_wf hw s).symm.trans h
    exact .of_kept rfl rfl
  cases i with
  | reset =>
    cases h
    rw [applyReset_voices, voicesReset_getElem]
    exact ⟨.cleared _, .cleared _⟩
  | tick64 | tick32 =>
    cases h
    exact synthTick_voice s v ▸ .of_tick (by simp) ..
  | noteOn ch imm val =>
    obtain rfl := eq_of_accepted (fun _ => rfl) hw h
    exact .of_noteOn ch imm val s v
  | noteOff ch imm val =>
    cases h
    refine .of_map rfl (fun w => ?_) v
    split
    · exact ⟨.released .., .released ..⟩
    · exact .of_kept rfl rfl
  | nop | setRandphase | setFtype | setFiter | setDivN =>
    cases h
    exact .of_kept rfl rfl
  | setFs val =>
    obtain rfl := eq_of_accepted (fun _ => rfl) hw h
    exact .of_kept (by simp [recomputeVoice]) (by simp [recomputeVoice])
  | setBend | setInharm | setCutoff | setFenvAmt | setReso =>
    obtain rfl := eq_of_accepted (fun _ => rfl) hw h
    refine .of_map rfl (fun _ => ?_) v
    exact .of_kept rfl rfl
  | setPedal imm val =>
    obtain ⟨hv, hk⟩ := Bool.and_eq_true_iff.1 hw
    have ht := eq_of_accepted (fun _ => rfl) hv h
    rw [if_pos hk] at ht
    subst ht
    exact .of_kept rfl rfl
  | _ =>
    obtain rfl := eq_of_accepted (fun _ => rfl) hw h
    exact .of_kept rfl rfl

/-! ### Changes of stage -/

theorem EnvNext.leaves_stop {i : Instr} {e e' : Env} (h : EnvNext i e e') (hs : e.stage = .stop) (hs' : e'.stage ≠ .stop) :
    ∃ ch imm val, i = .noteOn ch imm val := by
  cases h with
  | kept => exact absurd hs hs'
  | cleared => exact absurd rfl hs'
  | attacked ch imm val => exact ⟨ch, imm, val, rfl⟩
  | released =>
    rw [envNoteOff_of_releasing (.inr hs)] at hs'
    exact absurd hs hs'
  | ticked =>
    rw [envProcess_of_stop hs] at hs'
    exact absurd hs hs'

theorem EnvNext.enters_release {i : Instr} {e e' : Env} (h : EnvNext i e e') (hs : e.stage ≠ .release)
    (hs' : e'.stage = .release) : ∃ ch imm val, i = .noteOff ch imm val := by
  cases h with
  | kept => exact absurd hs' hs
  | cleared | attacked => cases hs'
  | released ch imm val => exact ⟨ch, imm, val, rfl⟩
  | ticked _ r sus =>
    rcases (envProcess_releasing r sus e).1 (.inl hs') with hrel | hstop
    · exact absurd hrel hs
    · rw [envProcess_of_stop hstop] at hs'
      exact absurd hs' hs

theorem EnvNext.enters_stop {i : Instr} {e e' : Env} (h : EnvNext i e e') (hs : e.stage ≠ .stop)
    (hs' : e'.stage = .stop) : i = .reset ∨ ((i = .tick64 ∨ i = .tick32) ∧ e.stage = .release) := by
  cases h with
  | kept => exact absurd hs' hs
  | cleared => exact .inl rfl
  | attacked => cases hs'
  | released =>
    rcases envNoteOff_cases e with ⟨-, he⟩ | ⟨-, he⟩
    · rw [he] at hs'
      exact absurd hs' hs
    · rw [he] at hs'
      cases hs'
  | ticked hi r sus =>
    exact .inr ⟨hi, ((envProcess_releasing r sus e).1 (.inr hs')).resolve_right hs⟩

/-- Settles O55: `exec_envsNext`, then one lemma for each of the three changes. -/
theorem stageChanges : Obligations.StageChanges := by
  intro i s t v h e e' he
  obtain ⟨hamp, hflt⟩ := exec_envsNext h v
  have hn : EnvNext i e e' := by
    rcases he with ⟨rfl, rfl⟩ | ⟨rfl, rfl⟩
    · exact hamp
    · exact hflt
  exact ⟨hn.leaves_stop, hn.enters_release, hn.enters_stop⟩

end Sys2Proof.Machine
end

section
/-! PROOFS. The note that NOTE_ON starts, the controls that are only stored, and the modulation of the filter (spec/44_voice.md R173, R181 to R183; spec/45_synth.md R191, R197, R203, R204): which voice AllocVoice gives, as an equivalence per answer, then what each command writes. -/

namespace Sys2Proof.Machine

/-! ### AllocVoice (R191) -/

theorem firstInStage_eq_some_iff {vs : Vector Voice Config.nVoice} {st : Stage} {v : Fin Config.nVoice} :
    firstInStage vs st = some v ↔ vs[v].amp.stage = st ∧ ∀ u, u < v → vs[u].amp.stage ≠ st := by
  refine ⟨firstInStage_some, fun ⟨hv, hbefore⟩ => ?_⟩
  cases h : firstInStage vs st with
  | none => exact absurd hv (firstInStage_none.1 h v)
  | some w =>
    obtain ⟨hw, hfirst⟩ := firstInStage_some h
    rcases lt_trichotomy w v with hlt | rfl | hgt
    · exact absurd hw (hbefore w hlt)
    · rfl
    · exact absurd hv (hfirst v hgt)

theorem allocVoice_of_free {vs : Vector Voice Config.nVoice} {v : Fin Config.nVoice}
    (h : firstInStage vs .stop = some v) : allocVoice vs = some v := by
  rw [allocVoice, h]

theorem allocVoice_of_no_free {vs : Vector Voice Config.nVoice} (h : ∀ u : Fin Config.nVoice, vs[u].amp.stage ≠ .stop) :
    allocVoice vs = firstInStage vs .release := by
  rw [allocVoice, firstInStage_none.2 h]

theorem allocVoice_eq_some_iff {vs : Vector Voice Config.nVoice} {v : Fin Config.nVoice} :
    allocVoice vs = some v ↔
      (vs[v].amp.stage = .stop ∧ ∀ u, u < v → vs[u].amp.stage ≠ .stop) ∨
      ((∀ u : Fin Config.nVoice, vs[u].amp.stage ≠ .stop) ∧ vs[v].amp.stage = .release ∧
        ∀ u, u < v → vs[u].amp.stage ≠ .release) := by
  rw [← firstInStage_eq_some_iff, ← firstInStage_eq_some_iff, ← firstInStage_none]
  cases h : firstInStage vs .stop with
  | none => simp [allocVoice_of_no_free (firstInStage_none.1 h)]
  | some w => simp [allocVoice_of_free h]

theorem allocVoice_eq_none_iff {vs : Vector Voice Config.nVoice} :
    allocVoice vs = none ↔ ∀ u : Fin Config.nVoice, vs[u].amp.stage ≠ .stop ∧ vs[u].amp.stage ≠ .release := by
  rw [forall_and, ← firstInStage_none, ← firstInStage_none]
  cases h : firstInStage vs .stop with
  | none => simp [allocVoice_of_no_free (firstInStage_none.1 h)]
  | some w => simp [allocVoice_of_free h]

/-! ### NOTE_ON (R173, R197) -/

theorem decode_noteOn {val : Num64} (hv : isFinite val = true) (ch : BitVec 8) (imm : BitVec 16) :
    decode (packWord 0x08#8 ch imm val) = .noteOn ch imm val :=
  decode_of_accepted (row := ⟨0x08#8, .n, fun ch imm val => .noteOn ch imm val⟩) (by simp [opcodeTable]) ch (.inl hv) nofun

theorem pitchOf_eq {imm : BitVec 16} {pitch : Fin 128} (h : (pitch.val : Int) = iclamp imm.toInt 0 127) :
    pitchOf imm = pitch :=
  Fin.ext (Int.ofNat_inj.1 ((pitchOf_val imm).trans h.symm))

theorem noteOn_of_none {s : State} (h : allocVoice s.voices = none) (imm : BitVec 16) (val : Num64) :
    noteOn imm val s = s := by
  rw [noteOn, h]

theorem noteOn_of_some {s : State} {v : Fin Config.nVoice} (h : allocVoice s.voices = some v) (imm : BitVec 16)
    (val : Num64) : noteOn imm val s =
      { s with voices := s.voices.set v (voiceNoteOn s.params s.ctrl v.val (pitchOf imm) val s.voices[v]) } := by
  rw [noteOn, h]

/-- Every register of a voice after VoiceNoteOn (R173), with R121, R142, R162 and R171 written out: of the voice before it, only the oscillators' memories and the envelopes' levels are read. -/
theorem voiceNoteOn_eq (p : Params) (c : Ctrl) (vi : Nat) (pitch : Fin 128) (val : Num64) (w : Voice) :
    voiceNoteOn p c vi pitch val w =
      { pitch := pitch, vel := clamp val n0 n1, bend := c.bendMul, f0 := voiceF0 c.fs pitch c.bendMul
        velamp := fsub n1 (fmul p.velSens (fsub n1 (clamp val n0 n1)))
        keyf := fmul p.keyFollow (octavesFrom69 pitch)
        osc0 := oscReset vi 0 p.randPhase (oscSetFreq (voiceF0 c.fs pitch c.bendMul) n0 w.osc0)
        osc1 := oscReset vi 1 p.randPhase (oscSetFreq (voiceF0 c.fs pitch c.bendMul) p.inharm w.osc1)
        k := svfK c.fs p.cutoff, oqk := fadd (fdiv n1 p.reso) (svfK c.fs p.cutoff)
        s0 := n0, s1 := n0, s2 := n0, s3 := n0
        amp := { stage := .attack, rem := n1, lvl := w.amp.lvl, start := w.amp.lvl }
        flt := { stage := .attack, rem := n1, lvl := w.flt.lvl, start := w.flt.lvl }
        lfo := { dly := n1, ph := nQuarter } } := by
  rfl

/-- Settles O18: `allocVoice_eq_none_iff` for the dropped note, `allocVoice_eq_some_iff` and `voiceNoteOn_eq` for the one that starts. The model's own `noteOn` has the obligation's name. -/
theorem noteOnCommand : Obligations.NoteOn := by
  intro s ch imm val hv
  have hexec : exec (.noteOn ch imm val) s = .next (noteOn imm val s) := acceptFinite_of_finite s _ hv
  refine ⟨decode_noteOn hv ch imm, fun hbusy => ?_, fun v pitch hp htaken => ?_⟩
  · rw [hexec, noteOn_of_none (allocVoice_eq_none_iff.2 hbusy)]
  · rw [hexec, noteOn_of_some (allocVoice_eq_some_iff.2 htaken), pitchOf_eq hp, voiceNoteOn_eq]
    rfl

/-! ### The stored controls (R183, R203, R204) -/

theorem decode_setPedal {val : Num64} (hv : isFinite val = true) (ch : BitVec 8) {imm : BitVec 16} {k : Fin 3}
    (hk : (k.val : Int) = imm.toInt) : decode (packWord 0x16#8 ch imm val) = .setPedal imm val :=
  decode_of_accepted (row := ⟨0x16#8, .x, fun _ imm val => .setPedal imm val⟩) (by simp [opcodeTable]) ch (.inl hv)
    fun _ => by omega

theorem exec_setPedal {val : Num64} (hv : isFinite val = true) {imm : BitVec 16} {k : Fin 3}
    (hk : (k.val : Int) = imm.toInt) (s : State) :
    exec (.setPedal imm val) s =
      .next { s with params := { s.params with pedal := s.params.pedal.set k (clamp val n0 n1) } } := by
  have hok : pedalIndexOk imm = true := pedalIndexOk_iff.2 (by omega)
  have hidx : pedalIndex imm = k := Fin.ext (Int.ofNat_inj.1 ((pedalIndex_val hok).trans hk.symm))
  rw [← hidx]
  exact (acceptFinite_of_finite s _ hv).trans (congrArg _ (if_pos hok))

/-- Settles O22: two format P commands, which a finite operand lets through, and SET_PEDAL on both sides of its index check. -/
theorem storedControls : Obligations.StoredControls := by
  intro s val ch imm hv
  refine
    ⟨decode_of_fmt_p (build := .setModwheel) (by simp [opcodeTable]) hv ch imm, exec_of_accepted hv rfl,
      decode_of_fmt_p (build := .setVelsens) (by simp [opcodeTable]) hv ch imm, exec_of_accepted hv rfl,
      fun _ hk => ⟨decode_setPedal hv ch hk, exec_setPedal hv hk s⟩, fun hout => ?_⟩
  have hbad : pedalIndexOk imm = false :=
    Bool.eq_false_iff.2 fun hok => by have := pedalIndexOk_iff.1 hok; omega
  exact execSetPedal_of_refused hbad val s

/-! ### The filter's modulation (R181, R182) -/

/-- Settles O25: two format P commands, which a finite operand lets through; `withCutoffCoef` is SvfSetFreq of every voice. -/
theorem filterModulation : Obligations.FilterModulation := by
  intro s val ch imm hv
  exact
    ⟨decode_of_fmt_p (build := .setFenvAmt) (by simp [opcodeTable]) hv ch imm, exec_of_accepted hv rfl,
      decode_of_fmt_p (build := .setKeyfollow) (by simp [opcodeTable]) hv ch imm, exec_of_accepted hv rfl⟩

end Sys2Proof.Machine
end

section
/-! PROOFS. The commands that do nothing, the sample rate and the global controls (spec/45_synth.md R192, R194, R199 to R202): each command's whole next state is its definition's, with the operations of R24, R121, R171 and R194 written out. -/

namespace Sys2Proof.Machine

/-! ### NOP and ignored words (R192) -/

/-- Settles O15: an opcode without a row decodes to NOP, and `exec_of_not_wf` is the refused operand. -/
theorem nopAndIgnored : Obligations.NopAndIgnored := by
  refine ⟨fun ch imm val => ?_, fun _ => rfl, fun w s hw => ?_, fun _ s hi => exec_of_not_wf hi s, fun s t u _ hu => ?_⟩
  · exact decode_of_fmt_z (row := ⟨0x00#8, .z, fun _ _ _ => .nop⟩) (by simp [opcodeTable]) rfl ch imm val
  · rw [decode_of_unlisted hw]
    rfl
  · cases hu
    rfl

/-! ### SET_FS (R194) -/

/-- RecomputeDerived and then FlushState, for one voice (R194). -/
theorem flushedVoice_eq (p : Params) (c : Ctrl) (v : Voice) :
    svfReset (recomputeVoice p c v) =
      { v with
        f0 := voiceF0 c.fs v.pitch v.bend
        osc0 := oscSetFreq (voiceF0 c.fs v.pitch v.bend) n0 v.osc0
        osc1 := oscSetFreq (voiceF0 c.fs v.pitch v.bend) p.inharm v.osc1
        k := svfK c.fs p.cutoff, oqk := fadd (fdiv n1 p.reso) (svfK c.fs p.cutoff)
        s0 := n0, s1 := n0, s2 := n0, s3 := n0 } := rfl

/-- SET_FS of an accepted rate: the control registers of RecomputeDerived at the clamped rate, every voice recomputed and flushed, an empty effect chain (R194). -/
theorem exec_setFs {val : Num64} (hv : isFinite val = true) (s : State) :
    exec (.setFs val) s = .next
      { s with
        ctrl := recomputeCtrl s.params { s.ctrl with fs := clamp val fsMin fsMax }
        voices := s.voices.map fun v =>
          svfReset (recomputeVoice s.params (recomputeCtrl s.params { s.ctrl with fs := clamp val fsMin fsMax }) v)
        fx := fxFlushed } := by
  have hexec : exec (.setFs val) s = .next
      (flushState (recomputeDerived { s with ctrl := { s.ctrl with fs := clamp val fsMin fsMax } })) :=
    exec_of_accepted hv rfl
  rw [hexec, flushState, recomputeDerived]
  dsimp only
  rw [Vector.map_map]
  rfl

/-- Settles O17: `exec_setFs`, with the recomputed registers and the flushed voice written out. -/
theorem setFs : Obligations.SetFs := by
  intro s val ch imm hv
  refine ⟨decode_of_fmt_p (build := .setFs) (by simp [opcodeTable]) hv ch imm, ?_⟩
  rw [exec_setFs hv]
  simp only [flushedVoice_eq]
  rfl

/-! ### Volume, expression and pitch bend (R199 to R202) -/

/-- Settles O20: two format P commands, which a finite operand lets through. -/
theorem volumeAndExpression : Obligations.VolumeAndExpression := by
  intro s val ch imm hv
  exact
    ⟨decode_of_fmt_p (build := .setVolume) (by simp [opcodeTable]) hv ch imm, exec_of_accepted hv rfl,
      decode_of_fmt_p (build := .setExpression) (by simp [opcodeTable]) hv ch imm, exec_of_accepted hv rfl⟩

/-- Settles O21: two format P commands, which a finite operand lets through; SET_BEND is VoiceSetF0 (R171) of every voice at the new multiplier. -/
theorem pitchBend : Obligations.PitchBend := by
  intro s val ch imm hv
  exact
    ⟨decode_of_fmt_p (build := .setBendRange) (by simp [opcodeTable]) hv ch imm, exec_of_accepted hv rfl,
      decode_of_fmt_p (build := .setBend) (by simp [opcodeTable]) hv ch imm, exec_of_accepted hv rfl⟩

end Sys2Proof.Machine
end

section
/-! PROOFS. The first tick after reset (spec/45_synth.md R193, R195, R196, spec/70_reset_and_hazards.md R292): every voice is free, so that the sum is +0, and each effect of the chain gives silence for silence, whatever SIN, COS, EXP2 and EXP10 give away from their pinned points. -/

namespace Sys2Proof.Machine

/-! ### The voices -/

theorem fadd_n0_n0 : fadd n0 n0 = n0 := by decide +kernel

theorem voiceSum_silent {xs : List Num64} (h : ∀ x ∈ xs, x = n0) : voiceSum xs = n0 := by
  unfold voiceSum
  induction xs with
  | nil => rfl
  | cons x xs ih =>
    obtain ⟨hx, hxs⟩ := List.forall_mem_cons.1 h
    rw [List.foldl_cons, hx, fadd_n0_n0, ih hxs]

/-- With every voice free the mono sample of a tick is +0 times C.GAIN (R175, R195). -/
theorem tickMono_of_free {s : State} (h : ∀ v ∈ s.voices, v.amp.stage = .stop) : tickMono s = fmul n0 s.ctrl.gain := by
  unfold tickMono
  rw [voiceSum_silent]
  intro x hx
  obtain ⟨v, hv, rfl⟩ : ∃ v ∈ s.voices, (voiceProcess s.params s.ctrl v).2 = x := by simpa using hx
  rw [voiceProcess_of_stop _ _ (h v hv)]

/-! ### The effect chain -/

/-- +0 on both channels. -/
def silence : Stereo := ⟨n0, n0⟩

theorem divProcess_reset : divProcess paramsReset.divN silence fxFlushed = (fxFlushed, silence) := rfl

/-- With the 0 dB numerator of reset (R290) an EQ at rest gives +0 for +0 (R225). -/
theorem eqProcess_reset : (eqProcess ctrlReset silence fxFlushed).2 = silence := by
  have hzero : fadd (fmul n1 n0) n0 = n0 := by decide +kernel
  simp only [eqProcess, eqChannel, silence, fxFlushed, ctrlReset_eq.1, hzero]

/-- Empty chorus rings give +0 for +0 at depth, delay and mix 0 (R232). -/
theorem chProcess_silent {p : Params} {c : Ctrl} {fx : Fx} (hbase : c.chBase = n0) (hdepth : c.chDepthS = n0)
    (hlen : c.chLen = 44100) (hmix : p.chMix = n0) (hbuf0 : fx.chBuf0 = []) (hbuf1 : fx.chBuf1 = [])
    (hhead : fx.chHead = 0) (hp1 : fx.chP1 = n0) (hp2 : fx.chP2 = n0) : (chProcess p c silence fx).2 = silence := by
  have hpush : memWrite [] 0 n0 = [] := by decide
  have hmod : fmul n0 (cosLookup n0) = n0 := by decide +kernel
  have hoffset : fsub n0 n0 = n0 := by decide +kernel
  have htap : readFrac [] 1 44100 n0 = n0 := by decide +kernel
  have hmixed : wetDry n0 (chBlend n0 n0) n0 = n0 := by decide +kernel
  simp only [chProcess, silence, hbase, hdepth, hlen, hmix, hbuf0, hbuf1, hhead, hp1, hp2, hpush, hmod, fadd_n0_n0,
    hoffset, Nat.zero_add, Nat.one_mod_eq_one.2 (by decide : 44100 ≠ 1), htap, hmixed]

/-- The reverb's taps read its lines alone. -/
theorem rvWet_congr {fx fx' : Fx} (h : fx.rv = fx'.rv) (wf wn : Vector Num64 4) : rvWet fx wf wn = rvWet fx' wf wn := by
  simp only [rvWet, rvTail, rvNearTap, h]

/-- Empty reverb lines give +0 for +0 at mix 0 (R254). -/
theorem rvProcess_silent {p : Params} {c : Ctrl} {fx : Fx} (hmix : p.rvMix = n0) (hrv : fx.rv = fxFlushed.rv) :
    (rvProcess p c silence fx).2 = silence := by
  have hwet : rvWet fxFlushed rvWF[0] rvWN[0] = n0 ∧ rvWet fxFlushed rvWF[1] rvWN[1] = n0 := by decide +kernel
  have hmixed : wetDry n0 n0 n0 = n0 := by decide +kernel
  simp only [rvProcess, silence, rvWet_congr hrv, hwet, hmix, hmixed]

theorem effectChain_reset {m : Num64} (hm : m = n0) :
    (effectChain paramsReset ctrlReset ⟨m, m⟩ fxFlushed).2 = silence := by
  subst hm
  change (effectChain paramsReset ctrlReset silence fxFlushed).2 = silence
  obtain ⟨-, -, -, -, -, hlen, hbase, hdepth⟩ := ctrlReset_units
  unfold effectChain
  dsimp only
  rw [divProcess_reset, eqProcess_reset,
    chProcess_silent hbase hdepth hlen rfl (eqProcess_chBuf0 ..) (eqProcess_chBuf1 ..) (eqProcess_chHead ..)
      (eqProcess_chP1 ..) (eqProcess_chP2 ..)]
  exact rvProcess_silent rfl ((chProcess_rv ..).trans (eqProcess_rv ..))

/-! ### The tick -/

theorem synthTick_reset (h : List HostCycle) :
    (synthTick { State.reset with host := h }).outL = n0 ∧ (synthTick { State.reset with host := h }).outR = n0 := by
  have hfree : ∀ v ∈ voicesReset, v.amp.stage = .stop := by
    intro v hv
    rw [Vector.eq_of_mem_replicate hv]
    rfl
  have hmono : tickMono { State.reset with host := h } = n0 := by
    rw [tickMono_of_free hfree]
    show fmul n0 ctrlReset.gain = n0
    rw [ctrlReset_units.1]
    decide +kernel
  have hsilent := effectChain_reset hmono
  exact ⟨congrArg Stereo.left hsilent, congrArg Stereo.right hsilent⟩

/-- A channel that holds +0 presents a zero word in both widths (R82). -/
theorem presentChannel_n0 (w32 : Bool) : presentChannel w32 n0 = 0 := by
  cases w32 <;> decide +kernel

/-- Settles O13: `synthTick_reset` for the outputs, `presentChannel_n0` for the pins. -/
theorem firstTickSilent : Obligations.FirstTickSilent := by
  intro h i t hi ht
  have hout : t.outL = n0 ∧ t.outR = n0 := by
    rcases hi with rfl | rfl <;> cases ht <;> exact synthTick_reset h
  obtain ⟨hl, hr⟩ := hout
  refine ⟨hl, hr, ?_, ?_⟩
  · rw [outLPin, hl, presentChannel_n0]
  · rw [outRPin, hr, presentChannel_n0]

end Sys2Proof.Machine
end

section
/-! PROOFS. The voice pool (spec/45_synth.md R190, R191, R206): which voice AllocVoice gives, what a NOTE_ON does to the pool, and that without NOTE_OFF and RESET the free voices only become fewer, by one for each NOTE_ON. -/

namespace Sys2Proof.Machine

/-! ### AllocVoice (R191) -/

/-- AllocVoice reads the stages of the amplitude envelopes alone. -/
theorem allocVoice_congr {vs ws : Vector Voice Config.nVoice}
    (h : ∀ u : Fin Config.nVoice, vs[u].amp.stage = ws[u].amp.stage) : allocVoice vs = allocVoice ws :=
  Option.ext fun v => by simp only [allocVoice_eq_some_iff, h]

/-- Settles O40: the equivalence for each answer, and the stages are all that these two read. The model's own `allocVoice` has the obligation's name. -/
theorem allocVoiceAnswers : Obligations.AllocVoice :=
  ⟨fun _ _ => allocVoice_eq_some_iff, fun _ => allocVoice_eq_none_iff, fun _ _ => allocVoice_congr⟩

/-! ### One NOTE_ON (R206 (a) to (c)) -/

theorem exec_noteOn {val : Num64} (hv : isFinite val = true) (ch : BitVec 8) (imm : BitVec 16) (s : State) :
    exec (.noteOn ch imm val) s = .next (noteOn imm val s) := acceptFinite_of_finite s _ hv

/-- The taken voice starts a note. -/
theorem noteOn_voice_self {s : State} {v : Fin Config.nVoice} (h : allocVoice s.voices = some v) (imm : BitVec 16)
    (val : Num64) : (noteOn imm val s).voices[v] =
      voiceNoteOn s.params s.ctrl v.val (pitchOf imm) val s.voices[v] := by
  rw [noteOn_of_some h]
  exact Vector.getElem_set_self v.isLt

/-- A voice that AllocVoice does not give is left. -/
theorem noteOn_voice_other {s : State} {u : Fin Config.nVoice} (h : allocVoice s.voices ≠ some u) (imm : BitVec 16)
    (val : Num64) : (noteOn imm val s).voices[u] = s.voices[u] := by
  cases ha : allocVoice s.voices with
  | none => rw [noteOn_of_none ha]
  | some v =>
    rw [noteOn_of_some ha]
    exact Vector.getElem_set_ne v.isLt u.isLt fun e => h (ha.trans (congrArg some (Fin.ext e)))

theorem noteOn_taken_stage {s : State} {v : Fin Config.nVoice} (h : allocVoice s.voices = some v) (imm : BitVec 16)
    (val : Num64) : (noteOn imm val s).voices[v].amp.stage = .attack := by
  rw [noteOn_voice_self h]
  rfl

/-- AllocVoice never gives a voice in Attack, Decay or Sustain. -/
theorem releasing_of_allocVoice {vs : Vector Voice Config.nVoice} {v : Fin Config.nVoice}
    (h : allocVoice vs = some v) : releasing vs[v].amp := by
  rcases allocVoice_eq_some_iff.1 h with ⟨hs, -⟩ | ⟨-, hr, -⟩
  · exact .inr hs
  · exact .inl hr

/-- A voice that a NOTE_ON changes is the one that AllocVoice gives. -/
theorem allocVoice_of_changed {ch : BitVec 8} {imm : BitVec 16} {val : Num64} {s t : State}
    (h : exec (.noteOn ch imm val) s = .next t) {v : Fin Config.nVoice} (hne : t.voices[v] ≠ s.voices[v]) :
    allocVoice s.voices = some v := by
  by_contra ha
  cases hv : isFinite val
  · cases (exec_of_not_wf (i := .noteOn ch imm val) hv s).symm.trans h
    exact hne rfl
  · cases (exec_noteOn hv ch imm s).symm.trans h
    exact hne (noteOn_voice_other ha imm val)

/-- The voice that AllocVoice gives is taken, and no other is touched. -/
theorem noteOn_takes {s : State} {v : Fin Config.nVoice} (h : allocVoice s.voices = some v) (imm : BitVec 16)
    (val : Num64) :
    (noteOn imm val s).voices[v].amp.stage = .attack ∧ (noteOn imm val s).voices[v] ≠ s.voices[v] ∧
      ∀ u, u ≠ v → (noteOn imm val s).voices[u] = s.voices[u] := by
  have hstage := noteOn_taken_stage h imm val
  refine ⟨hstage, fun he => ?_, fun u hu => noteOn_voice_other (fun ha => hu ?_) imm val⟩
  · rw [he] at hstage
    rcases releasing_of_allocVoice h with hr | hr <;> cases hstage.symm.trans hr
  · exact Option.some.inj (ha.symm.trans h)

/-! ### The free voices over many commands (R206 (d)) -/

/-- The free voices (R190). -/
def freeVoices (s : State) : Finset (Fin Config.nVoice) := {v | s.voices[v].amp.stage = .stop}

theorem mem_freeVoices {s : State} {v : Fin Config.nVoice} : v ∈ freeVoices s ↔ s.voices[v].amp.stage = .stop := by
  simp [freeVoices]

/-- No voice is in Release. -/
def NoneReleasing (s : State) : Prop := ∀ v : Fin Config.nVoice, s.voices[v].amp.stage ≠ .release

/-- Neither RESET nor NOTE_OFF. -/
def KeepsNotes (i : Instr) : Prop := i ≠ .reset ∧ ∀ ch imm val, i ≠ .noteOff ch imm val

section Command

variable {i : Instr} {s t : State} (h : exec i s = .next t) (hi : KeepsNotes i)

include h hi

theorem NoneReleasing.exec (hs : NoneReleasing s) : NoneReleasing t := by
  intro v hr
  obtain ⟨ch, imm, val, he⟩ := (exec_envsNext h v).amp.enters_release (hs v) hr
  exact hi.2 ch imm val he

/-- A voice becomes free by RESET or from Release only. -/
theorem freeVoices_subset (hs : NoneReleasing s) : freeVoices t ⊆ freeVoices s := by
  intro v hv
  rw [mem_freeVoices] at hv ⊢
  by_contra hne
  rcases (exec_envsNext h v).amp.enters_stop hne hv with hreset | ⟨-, hr⟩
  · exact hi.1 hreset
  · exact hs v hr

end Command

/-- A NOTE_ON takes a free voice, if there is one. -/
theorem freeVoices_noteOn {s t : State} {ch : BitVec 8} {imm : BitVec 16} {val : Num64} (hv : isFinite val = true)
    (h : exec (.noteOn ch imm val) s = .next t) (hs : NoneReleasing s) :
    (freeVoices t).card ≤ (freeVoices s).card - 1 := by
  have hsub := freeVoices_subset h ⟨nofun, nofun⟩ hs
  cases (exec_noteOn hv ch imm s).symm.trans h
  cases ha : allocVoice s.voices with
  | none =>
    have hempty : freeVoices s = ∅ :=
      Finset.eq_empty_of_forall_notMem fun v hm => (allocVoice_eq_none_iff.1 ha v).1 (mem_freeVoices.1 hm)
    simp [Finset.subset_empty.1 (hempty ▸ hsub)]
  | some v =>
    have hfree : v ∈ freeVoices s := mem_freeVoices.2 ((releasing_of_allocVoice ha).resolve_left (hs v))
    have htaken : v ∉ freeVoices (noteOn imm val s) := by
      rw [mem_freeVoices, noteOn_taken_stage ha]
      exact Stage.noConfusion
    rw [← Finset.card_erase_of_mem hfree]
    exact Finset.card_le_card (Finset.subset_erase.2 ⟨hsub, htaken⟩)

/-- One accepted command: no voice enters Release, and a NOTE_ON lowers the number of free voices. -/
theorem freeVoices_exec {i : Instr} {s t : State} (hwf : i.wf = true) (h : exec i s = .next t) (hi : KeepsNotes i)
    (hs : NoneReleasing s) :
    NoneReleasing t ∧ (freeVoices t).card ≤ (freeVoices s).card - if isNoteOn i then 1 else 0 := by
  refine ⟨hs.exec h hi, ?_⟩
  cases i with
  | noteOn ch imm val => exact freeVoices_noteOn hwf h hs
  | _ => exact Finset.card_le_card (freeVoices_subset h hi hs)

theorem freeVoices_afterCommand {w : CmdWord} (hw : KeepsNotes (decode w)) {s : State} (hs : NoneReleasing s) :
    NoneReleasing (afterCommand w s) ∧
      (freeVoices (afterCommand w s)).card ≤ (freeVoices s).card - if isNoteOn (decode w) then 1 else 0 := by
  have h := freeVoices_exec (wf_decode w) (exec_eq_afterCommand w s) hw hs
  exact h

theorem freeVoices_afterCommands {ws : List CmdWord} (hws : ∀ w ∈ ws, KeepsNotes (decode w)) {s : State}
    (hs : NoneReleasing s) :
    NoneReleasing (afterCommands ws s) ∧
      (freeVoices (afterCommands ws s)).card ≤ (freeVoices s).card - ws.countP fun w => isNoteOn (decode w) := by
  induction ws generalizing s with
  | nil => exact ⟨hs, le_rfl⟩
  | cons w ws ih =>
    obtain ⟨hw, hrest⟩ := List.forall_mem_cons.1 hws
    obtain ⟨hs', hcard⟩ := freeVoices_afterCommand hw hs
    obtain ⟨hfinal, hle⟩ := ih hrest hs'
    refine ⟨hfinal, hle.trans ?_⟩
    rw [List.countP_cons, Nat.add_comm, ← Nat.sub_sub]
    exact Nat.sub_le_sub_right hcard _

/-- With no free and no releasing voice, a NOTE_ON changes nothing. -/
theorem exec_noteOn_of_full {s : State} (hr : NoneReleasing s) (hf : (freeVoices s).card = 0) (ch : BitVec 8)
    (imm : BitVec 16) (val : Num64) : exec (.noteOn ch imm val) s = .next s := by
  have hnone : allocVoice s.voices = none := allocVoice_eq_none_iff.2 fun u =>
    ⟨fun hu => by simpa [Finset.card_eq_zero.1 hf] using mem_freeVoices.2 hu, hr u⟩
  cases hv : isFinite val
  · exact exec_of_not_wf (i := .noteOn ch imm val) hv s
  · rw [exec_noteOn hv, noteOn_of_none hnone]

theorem noneReleasing_reset (h : List HostCycle) : NoneReleasing { State.reset with host := h } := by
  intro v
  show voicesReset[v].amp.stage ≠ .release
  rw [voicesReset_getElem]
  exact Stage.noConfusion

/-- Settles O41: `allocVoice_of_changed` and `noteOn_takes` for one NOTE_ON; for (d), of the sixteen voices that are free after reset each NOTE_ON takes one, and none returns. -/
theorem poolProperties : Obligations.PoolProperties := by
  refine ⟨fun s t ch imm val h => ⟨fun u v hu hv => ?_, fun v hv => ?_, fun hfin v hv => ?_⟩,
    fun ws h hws hcount => ?_⟩
  · exact Option.some.inj ((allocVoice_of_changed h hu).symm.trans (allocVoice_of_changed h hv))
  · exact allocVoice_eq_some_iff.1 (allocVoice_of_changed h hv)
  · cases (exec_noteOn hfin ch imm s).symm.trans h
    exact noteOn_takes (allocVoice_eq_some_iff.2 hv) imm val
  · obtain ⟨hr, hle⟩ := freeVoices_afterCommands hws (noneReleasing_reset h)
    rw [List.countP_eq_length_filter] at hle
    have hall : (freeVoices { State.reset with host := h }).card ≤ 16 := Finset.card_le_univ _
    exact exec_noteOn_of_full hr (by omega)

end Sys2Proof.Machine
end

section
/-! PROOFS. Noninterference of the stored controls (spec/45_synth.md R203, R204): no command reads P.MODWHEEL or P.PEDAL. `exec_ignoresInert` says it once for all commands; the ports read no parameter at all, and a run is an induction over its steps. -/

namespace Sys2Proof.Machine

/-! ### No command reads the mod wheel or the pedals -/

/-- The command completes, and from the state with the mod wheel and the pedals blanked it ends in a state that differs in them at most. -/
def IgnoresInert (i : Instr) (s : State) : Prop :=
  ∃ t t', exec i s = .next t ∧ exec i (eraseInert s) = .next t' ∧ eraseInert t' = eraseInert t

theorem ignoresInert_of_acceptFinite {i : Instr} {val : Num64} {f : State → State} {s : State}
    (he : ∀ s, exec i s = acceptFinite val s f) (hf : eraseInert (f (eraseInert s)) = eraseInert (f s)) :
    IgnoresInert i s := by
  refine ⟨_, _, he s, he (eraseInert s), ?_⟩
  split
  · exact hf
  · rfl

/-- A tick reads the parameters in the voices and the effect chain, by their own fields, of which none is the mod wheel or a pedal. -/
theorem synthTick_eraseInert (s : State) : synthTick (eraseInert s) = eraseInert (synthTick s) := rfl

theorem noteOn_eraseInert (imm : BitVec 16) (val : Num64) (s : State) :
    noteOn imm val (eraseInert s) = eraseInert (noteOn imm val s) := by
  cases h : allocVoice s.voices with
  | none => rw [noteOn_of_none h, noteOn_of_none (s := eraseInert s) h]
  | some v =>
    rw [noteOn_of_some h, noteOn_of_some (s := eraseInert s) h]
    rfl

theorem exec_ignoresInert (i : Instr) (s : State) : IgnoresInert i s := by
  cases i with
  | nop | reset => exact ⟨_, _, rfl, rfl, rfl⟩
  | tick64 | tick32 => exact ⟨_, _, rfl, rfl, by rw [synthTick_eraseInert]; rfl⟩
  | noteOff | setRandphase | setFtype | setFiter | setDivN => exact ⟨_, _, rfl, rfl, rfl⟩
  | noteOn ch imm val =>
    refine ignoresInert_of_acceptFinite (fun _ => rfl) ?_
    rw [noteOn_eraseInert]
    rfl
  | setPedal imm val =>
    refine ignoresInert_of_acceptFinite (fun _ => rfl) ?_
    dsimp only
    split <;> rfl
  | _ => exact ignoresInert_of_acceptFinite (fun _ => rfl) rfl

/-! ### Steps and runs -/

theorem portEvent_eraseInert (s : State) : portEvent (eraseInert s) = portEvent s := rfl

theorem takenPair_eraseInert (s : State) : takenPair (eraseInert s) = takenPair s := rfl

theorem step_ignoresInert (s : State) :
    ∃ t t', step s = .next t ∧ step (eraseInert s) = .next t' ∧ eraseInert t' = eraseInert t := by
  unfold step
  rw [portEvent_eraseInert]
  cases portEvent s with
  | reset | take | hold => exact ⟨_, _, rfl, rfl, rfl⟩
  | command w => exact exec_ignoresInert (decode w) (advanceHost s)

theorem takenPair_congr {s1 s2 : State} (h : eraseInert s1 = eraseInert s2) : takenPair s1 = takenPair s2 := by
  rw [← takenPair_eraseInert, h, takenPair_eraseInert]

/-- Two states that differ in the mod wheel and the pedals at most step to two such states. -/
theorem step_congr {s1 s2 : State} (h : eraseInert s1 = eraseInert s2) :
    ∃ t1 t2, step s1 = .next t1 ∧ step s2 = .next t2 ∧ eraseInert t1 = eraseInert t2 := by
  obtain ⟨t1, t1', hs1, he1, ht1⟩ := step_ignoresInert s1
  obtain ⟨t2, t2', hs2, he2, ht2⟩ := step_ignoresInert s2
  have hsame : t1' = t2' := next_inj (by rw [← he1, h, he2])
  exact ⟨t1, t2, hs1, hs2, by rw [← ht1, hsame, ht2]⟩

/-- Settles O58, by induction on the number of steps: `takenPair_congr` for the pair of a step, `step_congr` for the states after it. -/
theorem inertControls : Obligations.InertControls := by
  intro n
  induction n with
  | zero => exact fun s1 s2 h => ⟨rfl, s1, s2, rfl, rfl, h⟩
  | succ n ih =>
    intro s1 s2 h
    obtain ⟨t1, t2, hs1, hs2, ht⟩ := step_congr h
    obtain ⟨hpairs, u1, u2, hr1, hr2, hu⟩ := ih t1 t2 ht
    refine ⟨?_, u1, u2, by rw [core_run_succ hs1, hr1], by rw [core_run_succ hs2, hr2], hu⟩
    rw [takenPairs_succ hs1, takenPairs_succ hs2, takenPair_congr h, hpairs]

end Sys2Proof.Machine
end

section
/-! PROOFS. Zeros (spec/00_scope.md R10): a pattern is a zero exactly when its value is 0, so that rounding says which results are zeros; and what a zero operand leaves unchanged. -/

namespace Sys2Proof.Machine

/-! ### Which results are zeros -/

theorem isZero_iff_valueOf {x : Num64} : isZero x = true ↔ valueOf x = 0 := by
  rw [← signif_eq_zero_iff, valueOf, mul_eq_zero, or_iff_left (zpow_ne_zero _ two_ne_zero), Int.cast_eq_zero,
    signedSignif]
  split <;> omega

/-- Two patterns with one value are the same, or both are zeros. -/
theorem eq_or_isZero_of_valueOf {x y : Num64} (h : valueOf x = valueOf y) :
    x = y ∨ isZero x = true ∧ isZero y = true := by
  have hz : isZero x = isZero y := Bool.eq_iff_iff.2 (by rw [isZero_iff_valueOf, isZero_iff_valueOf, h])
  cases hx : isZero x
  · rw [hx] at hz
    exact .inl (eq_of_valueOf h (Bool.eq_iff_iff.2 (by rw [← valueOf_neg_iff hx, ← valueOf_neg_iff hz.symm, h])))
  · exact .inr ⟨rfl, hz.symm.trans hx⟩

theorem isZero_of_roundsTo_zero {x : ℝ} {y : Num64} (h : roundsTo x y) (h0 : x = 0) : isZero y = true :=
  isZero_iff_valueOf.2 ((roundsTo_exact h (by decide : isFinite n0 = true) (by rw [h0, valueOf_n0, Rat.cast_zero])).2.trans
    valueOf_n0)

theorem isZero_fadd {a b : Num64} (ha : isZero a = true) (hb : isZero b = true) : isZero (fadd a b) = true :=
  isZero_of_roundsTo_zero (fadd_roundsTo (isFinite_of_isZero ha) (isFinite_of_isZero hb))
    (by simp [valueOf_of_isZero ha, valueOf_of_isZero hb])

theorem isZero_fsub {a b : Num64} (ha : isFinite a = true) (hb : isFinite b = true) (h : valueOf a = valueOf b) :
    isZero (fsub a b) = true :=
  isZero_of_roundsTo_zero (fsub_roundsTo ha hb) (by rw [h, sub_self])

theorem isZero_fmul {a b : Num64} (ha : isFinite a = true) (hb : isFinite b = true)
    (h : isZero a = true ∨ isZero b = true) : isZero (fmul a b) = true :=
  isZero_of_roundsTo_zero (fmul_roundsTo ha hb) (by rcases h with h | h <;> simp [valueOf_of_isZero h])

theorem isZero_fdiv {a b : Num64} (ha : isZero a = true) (hb : isFinite b = true) (zb : isZero b = false) :
    isZero (fdiv a b) = true :=
  isZero_of_roundsTo_zero (fdiv_roundsTo (isFinite_of_isZero ha) hb zb) (by simp [valueOf_of_isZero ha])

/-- Adding a zero of either sign keeps the value. -/
theorem valueOf_fadd_of_isZero {a b : Num64} (ha : isFinite a = true) (hb : isZero b = true) :
    isFinite (fadd a b) = true ∧ valueOf (fadd a b) = valueOf a :=
  roundsTo_exact (fadd_roundsTo ha (isFinite_of_isZero hb)) ha (by simp [valueOf_of_isZero hb])

/-- Adding or subtracting a zero of either sign keeps the pattern of a number that is not negative, +0 included. -/
theorem addNonNaN_of_isZero (nan : Num64) {a b : Num64} (ha : isFinite a = true) (hs : isNeg a = false)
    (hb : isZero b = true) : addNonNaN nan a b = a := by
  have hb0 := valueOf_of_isZero hb
  obtain ⟨hround, hexact⟩ := addNonNaN_finite nan ha (isFinite_of_isZero hb)
  have hv := (roundsTo_exact hround ha (by simp [hb0])).2
  rcases eq_or_isZero_of_valueOf hv with he | ⟨-, hz⟩
  · exact he
  · rw [hexact (by rw [hb0, valueOf_of_isZero hz, add_zero]), hs, Bool.false_and, ← hs, ← isZero_iff.1 hz]
    exact (eq_mkNum a).symm

theorem fadd_of_isZero {a b : Num64} (ha : isFinite a = true) (hs : isNeg a = false) (hb : isZero b = true) :
    fadd a b = a := by
  rw [fadd_eq (isNaN_of_isFinite ha) (isNaN_of_isFinite (isFinite_of_isZero hb)), addNonNaN_of_isZero _ ha hs hb]

theorem fsub_of_isZero {a b : Num64} (ha : isFinite a = true) (hs : isNeg a = false) (hb : isZero b = true) :
    fsub a b = a := by
  have hneg : isZero (negate b) = true := by rwa [isZero_iff, magBits_negate, ← isZero_iff]
  rw [fsub_eq (isNaN_of_isFinite ha) (isNaN_of_isFinite (isFinite_of_isZero hb)), addNonNaN_of_isZero _ ha hs hneg]

/-! ### Products that cancel -/

/-- A NaN or an infinity gives no finite product. -/
theorem isFinite_of_fmul {a b : Num64} (h : isFinite (fmul a b) = true) (hb : isFinite b = true) : isFinite a = true := by
  by_contra hf
  cases na : isNaN a
  · have ia := (isFinite_or_isInf na).resolve_left hf
    cases zb : isZero b
    · have hinf := isInf_of_isFinite h
      rw [fmul_inf (.inl ia) na (isNaN_of_isFinite hb) (isZero_of_isInf ia) zb, isInf_mkNum] at hinf
      cases hinf
    · exact absurd (isNaN_fmul_inf_zero (.inl ⟨ia, zb⟩)) (by simp [isNaN_of_isFinite h])
  · exact absurd (isNaN_fmul (b := b) (.inl na)) (by simp [isNaN_of_isFinite h])

/-- The products of one coefficient with two inputs of one value cancel, when one of them is finite. -/
theorem isZero_fsub_fmul {a x y : Num64} (h : isFinite (fmul a x) = true) (hx : isFinite x = true)
    (hy : isFinite y = true) (hv : valueOf x = valueOf y) : isZero (fsub (fmul a x) (fmul a y)) = true := by
  have ha := isFinite_of_fmul h hx
  rcases eq_or_isZero_of_valueOf hv with rfl | ⟨zx, zy⟩
  · exact isZero_fsub h h rfl
  · have px := isZero_fmul ha hx (.inr zx)
    have py := isZero_fmul ha hy (.inr zy)
    exact isZero_fsub h (isFinite_of_isZero py) ((valueOf_of_isZero px).trans (valueOf_of_isZero py).symm)

end Sys2Proof.Machine
end

section
/-! PROOFS. The effect chain and its parameters (spec/46_effects.md R220 to R237): the divider's run is an induction over its inputs from any counter; at 0 dB the EQ's numerator and denominator agree because `alpha` is finite; and at depth 0 all four chorus offsets are C.CH_BASE. -/

namespace Sys2Proof.Machine

/-! ### The sample divider (R220) -/

theorem divProcess_of_le_one {n : Int} (h : n ≤ 1) (x : Stereo) (fx : Fx) :
    divProcess n x fx = ({ fx with divCnt := 0 }, x) :=
  if_pos h

theorem divProcess_of_one_lt {n : Int} (hn : 1 < n) (x : Stereo) (fx : Fx) :
    divProcess n x fx =
      ({ fx with
          divH := if fx.divCnt = 0 then x else fx.divH
          divCnt := if n ≤ (fx.divCnt : Int) + 1 then 0 else fx.divCnt + 1 },
        if fx.divCnt = 0 then x else fx.divH) :=
  if_neg (not_le.2 hn)

/-- Inside a window the counter counts modulo N. -/
theorem divCnt_divProcess {n : Nat} (hn : 2 ≤ n) (x : Stereo) {fx : Fx} (h : fx.divCnt < n) :
    (divProcess n x fx).1.divCnt = (fx.divCnt + 1) % n := by
  rw [divProcess_of_one_lt (by omega)]
  dsimp only
  by_cases hend : fx.divCnt + 1 = n
  · rw [if_pos (by omega), hend, Nat.mod_self]
  · rw [if_neg (by omega), Nat.mod_eq_of_lt (by omega)]

/-- A remainder is the number itself, or at least one divisor below it. -/
theorem mod_eq_or_add_le (k n : Nat) : k % n = k ∨ k % n + n ≤ k := by
  rcases lt_or_ge k n with h | h
  · exact .inl (Nat.mod_eq_of_lt h)
  · have := Nat.mod_le (k - n) n
    rw [Nat.mod_eq_sub_mod h]
    omega

/-- From any counter inside a window, output `i` is the input at which its window began, or the held sample if that was before the first input. -/
theorem getElem?_divRun {n : Nat} (hn : 2 ≤ n) : ∀ (xs : List Stereo) {fx : Fx}, fx.divCnt < n → ∀ i < xs.length,
    (divRun n xs fx)[i]? =
      if (i + fx.divCnt) % n ≤ i then xs[i - (i + fx.divCnt) % n]? else some fx.divH := by
  intro xs
  induction xs with
  | nil => exact fun _ i hi => absurd hi (Nat.not_lt_zero i)
  | cons x xs ih =>
    intro fx hfx i hi
    have hstep := divProcess_of_one_lt (by omega : (1 : Int) < n) x fx
    have hnext := divCnt_divProcess hn x hfx
    have hheld : (divProcess n x fx).1.divH = if fx.divCnt = 0 then x else fx.divH := by rw [hstep]
    have hout : (divProcess n x fx).2 = if fx.divCnt = 0 then x else fx.divH := by rw [hstep]
    rw [divRun]
    cases i with
    | zero =>
      rw [Nat.zero_add, Nat.mod_eq_of_lt hfx, List.getElem?_cons_zero, hout]
      by_cases h0 : fx.divCnt = 0 <;> simp [h0]
    | succ i =>
      have hage : (i + (fx.divCnt + 1) % n) % n = (i + 1 + fx.divCnt) % n := by
        rw [Nat.add_mod_mod]; congr 1; omega
      rw [List.getElem?_cons_succ, ih (hnext ▸ Nat.mod_lt _ (by omega)) i (Nat.lt_of_succ_lt_succ hi), hnext, hheld, hage]
      by_cases hin : (i + 1 + fx.divCnt) % n ≤ i
      · rw [if_pos hin, if_pos (by omega), Nat.sub_add_comm hin, List.getElem?_cons_succ]
      · -- The window began at `x` or before it: at `x` exactly when the counter was 0.
        have hcase := mod_eq_or_add_le (i + 1 + fx.divCnt) n
        rw [if_neg hin]
        by_cases h0 : fx.divCnt = 0
        · have he : (i + 1 + fx.divCnt) % n = i + 1 := by omega
          rw [he, if_pos le_rfl, Nat.sub_self, if_pos h0, List.getElem?_cons_zero]
        · rw [if_neg h0, if_neg (by omega)]

theorem divRun_of_le_one {n : Int} (hn : n ≤ 1) (xs : List Stereo) (fx : Fx) : divRun n xs fx = xs := by
  induction xs generalizing fx with
  | nil => rfl
  | cons x xs ih => rw [divRun, ih, divProcess_of_le_one hn]

/-- Settles O44: one equation for each case of N, and `getElem?_divRun` from counter 0. -/
theorem dividerWindow : Obligations.DividerWindow := by
  refine ⟨fun n xs fx hn h0 i hi => ?_, fun n xs fx hn => divRun_of_le_one hn xs fx,
    fun n x fx hn => divProcess_of_le_one hn x fx, fun n x fx hn => divProcess_of_one_lt hn x fx⟩
  lift n to Nat using (by omega)
  rw [getElem?_divRun (by omega) xs (by omega) i hi, h0, Nat.add_zero, if_pos (Nat.mod_le i n), Int.toNat_natCast]

/-! ### The EQ (R224, R225) -/

/-- The angle `w` of R224 is finite at every sample rate in range and for every P.EQ_FREQ. -/
theorem eqAngle_finite {fs : Num64} (hfs : inRange fsMin fsMax fs) (f : Num64) :
    isFinite (fdiv (fmul (fmul n2 nPi) (clampFreq fs f)) fs) = true := by
  obtain ⟨ffs, hlo, -⟩ := fs_bounds hfs
  have htop := cutoffTop_inRange hfs
  have hclamp : inRange n20 fsMax (clampFreq fs f) :=
    inRange_mono (clamp_inRange htop.1) (by decide) htop.2
  obtain ⟨ff, f0, f1⟩ := (inRange_iff_valueOf (by decide) (by decide)).1 hclamp
  obtain ⟨tfin, t0, t1⟩ : isFinite (fmul n2 nPi) = true ∧ 0 ≤ valueOf (fmul n2 nPi) ∧ valueOf (fmul n2 nPi) ≤ 8 := by
    decide +kernel
  have vtop : valueOf fsMax = 192000 := by decide +kernel
  rw [valueOf_n20] at f0
  rw [vtop] at f1
  have hprod : inRange n0 nTwo32 (fmul (fmul n2 nPi) (clampFreq fs f)) :=
    fmul_inRange tfin ff (by decide) (by decide) (by rw [valueOf_n0]; nlinarith) (by rw [valueOf_nTwo32]; nlinarith)
  exact isFinite_of_inRange (lo := n0) (hi := nTwo32) (by decide) (by decide)
    (quotient_inRange hprod ffs (by decide) (by decide) (by decide) (by decide) (by linarith)
      (by rw [valueOf_n0, zero_mul]) (by rw [valueOf_nTwo32]; nlinarith))

/-- `alpha` of R224 is in [-1200, 1200], since EQ_QMIN bounds its divisor from below; a divisor that overflows gives a zero. -/
theorem eqAlpha_inRange {w q : Num64} (hw : isFinite w = true) (hq : isFinite q = true) :
    inRange (negate n1200) n1200 (eqAlpha w q) := by
  obtain ⟨fm, hm⟩ := fmax_finiteFrom hq (by decide : isFinite eqQMin = true)
  obtain ⟨m0, m1⟩ : 0 ≤ valueOf eqQMin ∧ 1 ≤ 1200 * valueOf eqQMin := by decide +kernel
  have vneg : valueOf (negate n1200) = -1200 := by decide +kernel
  have hsin := sinN_inRange hw
  have hr := fmul_roundsTo (by decide : isFinite n2 = true) fm
  unfold eqAlpha
  generalize fmul n2 (fmax q eqQMin) = d at hr ⊢
  rw [fle_iff_valueOf (by decide) (isNaN_of_isFinite fm)] at hm
  rcases isFinite_or_isInf (roundsTo_not_nan hr) with fd | infd
  · have hd : valueOf eqQMin ≤ valueOf d := by
      rw [← fle_iff_valueOf (by decide) (isNaN_of_isFinite fd)]
      refine roundsTo_ge hr (by decide) ?_
      rw [valueOf_n2]
      exact_mod_cast (by linarith : valueOf eqQMin ≤ 2 * valueOf (fmax q eqQMin))
    exact quotient_inRange hsin fd (by decide) (by decide) (by decide) (by decide) (by linarith)
      (by rw [vneg, valueOf_nNeg1]; linarith) (by rw [valueOf_n1200, valueOf_n1]; linarith)
  · rw [fdiv_finite_inf (isFinite_of_inRange (by decide) (by decide) hsin) infd]
    cases isNeg (sinN w) != isNeg d <;> decide

/-- A gain factor of 1 makes the numerator and the denominator of the EQ agree, for every Q (R224). -/
theorem eqSetCoef_of_unitGain {p : Params} {c : Ctrl} (hfs : inRange fsMin fsMax c.fs) (hq : isFinite p.eqQ = true)
    (hgain : exp10N (fdiv p.eqGain n40) = n1)
    (h0 : isZero (fadd n1 (eqAlpha (fdiv (fmul (fmul n2 nPi) (clampFreq c.fs p.eqFreq)) c.fs) p.eqQ)) = false) :
    (eqSetCoef p c).eqB0 = n1 ∧ (eqSetCoef p c).eqB1 = (eqSetCoef p c).eqA1 ∧
      (eqSetCoef p c).eqB2 = (eqSetCoef p c).eqA2 := by
  have hr := eqAlpha_inRange (eqAngle_finite hfs p.eqFreq) hq
  unfold eqSetCoef
  dsimp only
  rw [hgain]
  generalize eqAlpha _ p.eqQ = alpha at hr h0
  obtain ⟨hf, hlo, hhi⟩ := (inRange_iff_valueOf (by decide) (by decide)).1 hr
  have vneg : valueOf (negate n1200) = -1200 := by decide +kernel
  have v8192 : valueOf n8192 = 8192 := by decide +kernel
  rw [vneg] at hlo
  rw [valueOf_n1200] at hhi
  have hsum : inRange (negate n1200) n8192 (fadd n1 alpha) :=
    fadd_inRange (by decide) hf (by decide) (by decide) (by rw [vneg, valueOf_n1]; linarith)
      (by rw [v8192, valueOf_n1]; linarith)
  rw [fmul_n1 hf, fdiv_n1 hf]
  refine ⟨fdiv_self (isFinite_of_inRange (by decide) (by decide) hsum) fun hz => ?_, rfl, rfl⟩
  rw [isZero_iff_valueOf.2 hz] at h0
  cases h0

theorem exp10N_zeroDb {g : Num64} (hg : isZero g = true) : exp10N (fdiv g n40) = n1 :=
  exp10N_zero (isZero_fdiv hg (by decide) (by decide))

/-- Coefficients with equal numerator and denominator pass the input on and keep a zero state (R225). -/
theorem eqChannel_identity {c : Ctrl} {z1 z2 x : Num64} (h0 : c.eqB0 = n1) (h1 : c.eqB1 = c.eqA1) (h2 : c.eqB2 = c.eqA2)
    (hz1 : isZero z1 = true) (hz2 : isZero z2 = true) (hx : isFinite x = true) (hp1 : isFinite (fmul c.eqB1 x) = true)
    (hp2 : isFinite (fmul c.eqB2 x) = true) :
    feq (eqChannel c z1 z2 x).out x = true ∧ isZero (eqChannel c z1 z2 x).z1 = true ∧
      isZero (eqChannel c z1 z2 x).z2 = true := by
  unfold eqChannel
  dsimp only
  rw [h0, ← h1, ← h2]
  obtain ⟨fm, vm⟩ := roundsTo_exact (fmul_roundsTo (by decide : isFinite n1 = true) hx) hx (by simp [valueOf_n1])
  obtain ⟨fy, vy⟩ := valueOf_fadd_of_isZero fm hz1
  rw [vm] at vy
  exact
    ⟨(feq_iff_valueOf (isNaN_of_isFinite fy) (isNaN_of_isFinite hx)).2 vy,
      isZero_fadd (isZero_fsub_fmul hp1 hx fy vy.symm) hz2, isZero_fsub_fmul hp2 hx fy vy.symm⟩

/-- Settles O45: `eqSetCoef_of_unitGain` with a finite `alpha`, `eqChannel_identity`, and R225's equations, which are the definition's. -/
theorem eqZeroDb : Obligations.EqZeroDb :=
  ⟨fun _ _ hfs hq hg => eqSetCoef_of_unitGain hfs hq (exp10N_zeroDb hg),
    fun _ _ _ _ => eqChannel_identity, fun _ _ _ => rfl, fun _ _ _ _ => rfl⟩

/-! ### The chorus (R232, R233) -/

/-- Two taps of one value blend to that value: their difference is a zero. -/
theorem chBlend_self {t : Num64} (ht : isFinite t = true) : feq (chBlend t t) t = true := by
  have hdiff := isZero_fsub ht ht rfl
  obtain ⟨f, v⟩ := valueOf_fadd_of_isZero ht
    (isZero_fmul (by decide : isFinite n0p3 = true) (isFinite_of_isZero hdiff) (.inr hdiff))
  exact (feq_iff_valueOf (isNaN_of_isFinite f) (isNaN_of_isFinite ht)).2 v

/-- At depth 0 the modulation of an offset is a zero, whatever the phase. -/
theorem isZero_chOffset {d p : Num64} (hd : d = n0) (hp : inPhase p) : isZero (fmul d (cosLookup p)) = true := by
  have hcos := isFinite_of_inRange (by decide) (by decide) (cosLookup_inRange hp)
  exact isZero_fmul (by rw [hd]; decide) hcos (.inl (by rw [hd]; decide))

/-- At depth 0 all four offsets are C.CH_BASE, which is not -0, so that both taps of a channel are one read (R233). -/
theorem chProcess_of_depthZero {c : Ctrl} {fx : Fx} (hd : c.chDepthS = n0) (hb : isFinite c.chBase = true)
    (hs : isNeg c.chBase = false) (hp1 : inPhase fx.chP1) (hp2 : inPhase fx.chP2) (p : Params) (x : Stereo) :
    let tap := fun m => readFrac m ((fx.chHead + 1) % c.chLen) c.chLen c.chBase
    let tL := tap (memWrite fx.chBuf0 fx.chHead x.left)
    let tR := tap (memWrite fx.chBuf1 fx.chHead x.right)
    (chProcess p c x fx).2 =
      ⟨wetDry x.left (chBlend tL tL) p.chMix, wetDry x.right (chBlend tR tR) p.chMix⟩ := by
  have hz1 := isZero_chOffset hd hp1
  have hz2 := isZero_chOffset hd hp2
  unfold chProcess
  dsimp only
  rw [fadd_of_isZero hb hs hz1, fadd_of_isZero hb hs hz2, fsub_of_isZero hb hs hz1, fsub_of_isZero hb hs hz2]

/-- Settles O46: `chProcess_of_depthZero` and `chBlend_self` for depth 0; the general clause is the definition's. -/
theorem chorusDepthZero : Obligations.ChorusDepthZero :=
  ⟨fun p _ x _ hd hb hs hp1 hp2 hL hR =>
      ⟨_, _, chBlend_self hL, chBlend_self hR, chProcess_of_depthZero hd hb hs hp1 hp2 p x⟩,
    fun _ _ _ _ => rfl⟩

/-! ### The parameter commands (R221, R226 to R228, R234 to R237) -/

/-- Settles O27: SET_DIV_N reads `imm` alone, three format P commands, which a finite operand lets through, and EqSetCoef is the definition's formulas. -/
theorem dividerAndEqParams : Obligations.DividerAndEqParams := by
  refine ⟨fun s val ch imm hv => ?_, fun _ _ => rfl⟩
  exact
    ⟨decode_of_fmt_i (build := .setDivN) (by simp [opcodeTable]) imm ch val, rfl,
      decode_of_fmt_p (build := .setEqFreq) (by simp [opcodeTable]) hv ch imm, exec_of_accepted hv rfl,
      decode_of_fmt_p (build := .setEqGain) (by simp [opcodeTable]) hv ch imm, exec_of_accepted hv rfl,
      decode_of_fmt_p (build := .setEqQ) (by simp [opcodeTable]) hv ch imm, exec_of_accepted hv rfl⟩

/-- Settles O28: four format P commands, which a finite operand lets through, and ChSetCoef is the definition's formulas. -/
theorem chorusParams : Obligations.ChorusParams := by
  refine ⟨fun s val ch imm hv => ?_, fun _ _ => rfl⟩
  exact
    ⟨decode_of_fmt_p (build := .setChRate) (by simp [opcodeTable]) hv ch imm, exec_of_accepted hv rfl,
      decode_of_fmt_p (build := .setChDepth) (by simp [opcodeTable]) hv ch imm, exec_of_accepted hv rfl,
      decode_of_fmt_p (build := .setChDelay) (by simp [opcodeTable]) hv ch imm, exec_of_accepted hv rfl,
      decode_of_fmt_p (build := .setChMix) (by simp [opcodeTable]) hv ch imm, exec_of_accepted hv rfl⟩

end Sys2Proof.Machine
end

section
/-! The reverb's parameter commands (spec/47_reverb.md R251, R258, R259). -/

namespace Sys2Proof.Machine

/-- SET_RV_T60 (R258) as the definition's names have it: T60_MIN is 1e-3, and RvSetCoef (R251) computes C.RV_G from RV_PATH samples, 4629.5. -/
theorem exec_setRvT60 {val : Num64} (hv : isFinite val = true) (s : State) :
    exec (.setRvT60 val) s = .next (withRvCoef { s.params with rvT60 := fmax val t60Min } s) :=
  exec_of_accepted hv rfl

/-- The state that `withRvCoef` leaves: the new parameters and C.RV_G from them, the rest kept. -/
theorem withRvCoef_eq (p : Params) (s : State) :
    withRvCoef p s =
      { s with
        params := p
        ctrl := { s.ctrl with rvG := exp10N (fdiv (fmul nNeg3 rvPath) (fmul p.rvT60 s.ctrl.fs)) } } := rfl

/-- Settles O29: two format P commands, which a finite operand lets through; RvSetCoef is `withRvCoef_eq`. -/
theorem reverbParams : Obligations.ReverbParams := by
  intro s val ch imm hv
  exact
    ⟨decode_of_fmt_p (build := .setRvT60) (by simp [opcodeTable]) hv ch imm,
      (exec_setRvT60 hv s).trans (congrArg _ (withRvCoef_eq _ s)),
      decode_of_fmt_p (build := .setRvMix) (by simp [opcodeTable]) hv ch imm, exec_of_accepted hv rfl⟩

end Sys2Proof.Machine
end

section
/-! PROOFS. Quiescence (spec/60_exceptions.md R270, R274, R279, R284): every step completes, and one without a handshake or a reset moves only the host on. -/

namespace Sys2Proof.Machine

/-! ### The CORE never stops -/

theorem exec_completes (i : Instr) (s : State) : ∃ t, exec i s = .next t := by
  obtain ⟨t, ht, -⟩ := exec_withPorts i s
  exact ⟨t, ht⟩

/-- Settles O10: a step completes at once, or executes the accepted command, and every command completes. -/
theorem neverStops : Obligations.NeverStops := by
  refine ⟨exec_completes, fun s => ?_⟩
  rcases step_cases s with ⟨-, hreset⟩ | ⟨-, htake⟩ | ⟨-, hhold⟩ | ⟨w, -, hcommand⟩
  · exact ⟨_, hreset⟩
  · exact ⟨_, htake⟩
  · exact ⟨_, hhold⟩
  · rw [hcommand]
    exact exec_completes (decode w) (advanceHost s)

/-! ### An idle CORE -/

/-- A host cycle that neither resets the CORE nor offers a command. -/
def IsQuiet (c : HostCycle) : Prop := c.rst = false ∧ c.cmd = none

/-- A host that has run out of cycles is quiet as well. -/
theorem pins_quiet_of_take {n : Nat} {s : State} (h : ∀ c ∈ s.host.take (n + 1), IsQuiet c) :
    IsQuiet (pins s) ∧ ∀ c ∈ s.host.tail.take n, IsQuiet c := by
  unfold pins
  cases hs : s.host with
  | nil => exact ⟨⟨rfl, rfl⟩, by simp⟩
  | cons c cs =>
    rw [hs, List.take_succ_cons] at h
    exact List.forall_mem_cons.1 h

theorem portEvent_of_quiet {s : State} (hv : s.outValid = false) (hq : IsQuiet (pins s)) : portEvent s = .hold := by
  obtain ⟨hrst, hcmd⟩ := hq
  simp [portEvent, hrst, hv, hcmd]

/-- By induction on the number of steps, each of them a held one. -/
theorem run_of_quiet (n : Nat) (s : State) (hv : s.outValid = false) (h : ∀ c ∈ s.host.take n, IsQuiet c) :
    Sys2Proof.core.run n s = .next (withPorts s.outValid (s.host.drop n) s) := by
  induction n generalizing s with
  | zero => rfl
  | succ n ih =>
    obtain ⟨hquiet, htail⟩ := pins_quiet_of_take h
    have hstep := step_of_hold (portEvent_of_quiet hv hquiet)
    have hrest := ih (withPorts s.outValid s.host.tail s) hv htail
    rw [core_run_succ hstep, hrest, withPorts_host, List.drop_tail, withPorts_outValid, withPorts_withPorts]

/-- Settles O9: `withPorts` with the waiting flag as it was changes the host's cycles alone. -/
theorem idleHolds : Obligations.IdleHolds :=
  run_of_quiet

end Sys2Proof.Machine
end
